-- ==== Sys2Proof/Word.lean ====
section
/-! DEFINITION. The word types of the riscix_ide PIO engine (00_scope.md R8: every value is an unsigned
integer of a stated width, bit 0 the least significant). -/

namespace Sys2Proof

/-- An 8-bit value: a device register's byte, a byte of host memory, a result code. -/
abbrev Byte := BitVec 8

/-- A 16-bit value: one data word of the data register (20_memory.md R64), `HEADS`, `SPT`. -/
abbrev Half := BitVec 16

/-- A 32-bit value: a host register, a host memory word, a host address (00_scope.md R6). -/
abbrev Word := BitVec 32

end Sys2Proof
end

