-- ==== Sys2Proof/Syntax.lean ====
section
/-! DEFINITION. The engine's commands: one constructor per row of spec/opcode_table.json (30_encoding.md R91).
A command word carries no operand: the operands stand in `DRIVE`, `LBA`, `COUNT` and `BUF` (R90, R93). -/

namespace Sys2Proof

/-- The ten engine commands of 30_encoding.md R91. -/
inductive Instr where
  /-- `SELECT` (R143): select a drive. -/
  | select
  /-- `WAITNB` (R144): wait for not-busy. -/
  | waitnb
  /-- `WAITDRQ` (R145): wait for data request. -/
  | waitdrq
  /-- `SETADDR` (R163): program the device address registers. -/
  | setaddr
  /-- `READ` (R169): read sectors into memory. -/
  | read
  /-- `WRITE` (R170): write sectors from memory. -/
  | write
  /-- `IDENTIFY` (R201): identify one drive. -/
  | identify
  /-- `PARSEID` (R202): parse a parameter block already in memory. -/
  | parseid
  /-- `PROBE` (R147): the register-accessibility probe. -/
  | probe
  /-- `DISCOVER` (R203): discover the controller and its drives. -/
  | discover
  deriving DecidableEq, Repr

/-- Every command, in the order of 30_encoding.md R91. -/
def Instr.all : List Instr :=
  [.select, .waitnb, .waitdrq, .setaddr, .read, .write, .identify, .parseid, .probe, .discover]

end Sys2Proof
end

