-- ==== Sys2Proof/Config.lean ====
section
/-! DEFINITION. What is fixed for the life of an engine instance (00_scope.md R6, R7), the names of the device's
registers (30_encoding.md R98), the events of a trace (20_memory.md R69), and the free values: the answers the
device oracle, the poll-budget draw and a racing access may give. A free value is an opaque constant with no body. -/

namespace Sys2Proof

/-- `P_TRANSPORT` (00_scope.md R6): how the data register is reached (40_port_handshake.md R130 to R134). -/
inductive Transport where
  /-- Two 8-bit accesses paired with the high-byte latch (R130, R131). -/
  | latch8
  /-- One 32-bit access (R132, R133). -/
  | wide32
  deriving DecidableEq, Repr

/-- The device registers by name (30_encoding.md R98). `error` and `wprecomp` are one index, read and written
respectively, and so are `status` and `command`. -/
inductive DevReg where
  | data | error | wprecomp | seccnt | secnum | cyllo | cylhi | devhead | status | command
  deriving DecidableEq, Repr

/-- The conventional task-file index of a device register (30_encoding.md R98, informative). -/
def DevReg.index : DevReg → Nat
  | .data => 0
  | .error => 1
  | .wprecomp => 1
  | .seccnt => 2
  | .secnum => 3
  | .cyllo => 4
  | .cylhi => 5
  | .devhead => 6
  | .status => 7
  | .command => 7

/-- One event of a trace (20_memory.md R69). -/
inductive Event where
  /-- `W(r, b)`: an 8-bit device register write. -/
  | w (r : DevReg) (b : Byte)
  /-- `R(r) = b`: an 8-bit device register read with the value returned. -/
  | r (r : DevReg) (b : Byte)
  /-- `LW(b)`: a latch write. -/
  | lw (b : Byte)
  /-- `LR = b`: a latch read. -/
  | lr (b : Byte)
  /-- `W32(DATA, v)`: a 32-bit data-register write. -/
  | w32 (v : Word)
  /-- `R32(DATA) = v`: a 32-bit data-register read. -/
  | r32 (v : Word)
  /-- `MW(a, v)`: a memory word write. -/
  | mw (a : Word) (v : Word)
  /-- `MR(a) = v`: a memory word read. -/
  | mr (a : Word) (v : Word)
  /-- `MS(a)`: a 512-byte memory snapshot. -/
  | ms (a : Word)
  deriving DecidableEq, Repr

/-- What a device-port read asks the oracle for (20_memory.md R70). -/
inductive ReadPort where
  /-- `DevRead8(r)`. -/
  | reg (r : DevReg)
  /-- `LatchRead8()`. -/
  | latch
  /-- `DevRead32(DATA)`. -/
  | wide
  deriving DecidableEq, Repr

/-- `P_REGADDR` (00_scope.md R6, 60_exceptions.md R254): the controller base the platform gives, and each
register's byte offset from it. A pair of names on one index (30_encoding.md R98) shares one offset. DESIGN CHOICE:
the spec gives no width for a device physical address; base and offsets are 32 bits here (log entry 16). -/
structure RegMap where
  base : Word
  data : Word
  errorWprecomp : Word
  seccnt : Word
  secnum : Word
  cyllo : Word
  cylhi : Word
  devhead : Word
  statusCommand : Word
  latch : Word
  deriving DecidableEq, Repr

/-- The configuration of an engine instance (00_scope.md R6, R7; 93_implementation_defined.md U13). It is plain
data carried in `State` so that a claim may quantify over it; no step writes it (log entry 1). -/
structure Config where
  /-- `P_TRANSPORT`. -/
  transport : Transport
  /-- `P_REGADDR`. -/
  regs : RegMap
  /-- `P_MAX_CHUNK`, 1 to 255. -/
  maxChunk : Byte
  /-- `P_SETTLE`, at least 1. -/
  settle : Nat
  /-- `P_TAIL_WAIT`. -/
  tailWait : Bool
  /-- `P_PAT1`, written to cylinder-low by the probe. -/
  pat1 : Byte
  /-- `P_PAT2`, written to cylinder-high by the probe. -/
  pat2 : Byte
  /-- `P_CMD_READ`. -/
  cmdRead : Byte
  /-- `P_CMD_WRITE`. -/
  cmdWrite : Byte
  /-- `P_CMD_IDENTIFY`. -/
  cmdIdentify : Byte
  /-- `P_DEVSEL(0)`. -/
  devsel0 : Byte
  /-- `P_DEVSEL(1)`. -/
  devsel1 : Byte
  /-- `P_LBA_BIT`. -/
  lbaBit : Byte
  /-- The status register's BUSY bit (R7). -/
  busyBit : Fin 8
  /-- The status register's DRIVE-FAULT bit (R7). -/
  driveFaultBit : Fin 8
  /-- The status register's DATA-REQUEST bit (R7). -/
  dataRequestBit : Fin 8
  /-- The status register's ERROR bit (R7). -/
  errorBit : Fin 8
  deriving DecidableEq, Repr

/-- The register map the reset state carries: base 0, and the informative indices of 30_encoding.md R98 as byte
offsets, the latch after them. DESIGN CHOICE: `P_REGADDR` is OPEN (R6), log entry 16. -/
def RegMap.reference : RegMap :=
  { base := 0, data := 0, errorWprecomp := 1, seccnt := 2, secnum := 3, cyllo := 4, cylhi := 5, devhead := 6,
    statusCommand := 7, latch := 8 }

/-- The configuration the reset state carries: every default of 00_scope.md R6 and R7. `P_TRANSPORT` is OPEN
there; `LATCH8` is 95_test_vectors.md section 0's convention (DESIGN CHOICE, log entry 1). -/
def Config.reference : Config :=
  { transport := .latch8, regs := RegMap.reference, maxChunk := 128, settle := 4, tailWait := true,
    pat1 := 0x55, pat2 := 0xAA, cmdRead := 0x20, cmdWrite := 0x30, cmdIdentify := 0xEC,
    devsel0 := 0xA0, devsel1 := 0xB0, lbaBit := 0x40,
    busyBit := 7, driveFaultBit := 5, dataRequestBit := 3, errorBit := 0 }

/-- FREE VALUE: the device oracle's answer to a read after a history of events (20_memory.md R70, log entry 2). -/
opaque Config.deviceAnswer : List Event → ReadPort → Word

/-- FREE VALUE: a wait's poll budget is this plus 1, for the draw of this number (40_port_handshake.md R136,
log entry 3). -/
opaque Config.freeBudget : Nat → Nat

/-- FREE VALUE: which of a raced word's candidates an access sees, for the draw of this number (20_memory.md R72,
log entry 6). -/
opaque Config.freeIndex : Nat → Nat

/-- FREE VALUE: what a host read of a word the running command owns returns, for the draw of this number
(20_memory.md R72, log entry 6). -/
opaque Config.freeWord : Nat → Word

end Sys2Proof
end

