-- ==== Sys2Proof/WellFormed.lean ====
section
/-! DEFINITION. The checks: a command word's two fields (30_encoding.md R90, R91), a legal configuration
(00_scope.md R6), and a well-formed host access to the register window (10_state.md R21, R36). -/

namespace Sys2Proof

/-- A 32-bit value written to `CMD`, cut into the two fields of 30_encoding.md R90. -/
structure CommandWord where
  /-- Bits 7:0. -/
  code : Byte
  /-- Bits 31:8. -/
  zero : BitVec 24
  deriving DecidableEq, Repr

/-- The fields of a value written to `CMD`. -/
def CommandWord.ofWord (v : Word) : CommandWord :=
  { code := v.setWidth 8, zero := (v >>> 8).setWidth 24 }

/-- Bits 31:8 are all 0 (30_encoding.md R90). -/
def CommandWord.zeroOk (c : CommandWord) : Bool := c.zero == 0

/-- The code is one of 30_encoding.md R91's ten. -/
def CommandWord.codeOk (c : CommandWord) : Bool := 1 ≤ c.code.toNat && c.code.toNat ≤ 10

/-- A well-formed command word. -/
def CommandWord.wellFormed (c : CommandWord) : Bool := c.zeroOk && c.codeOk

/-- A legal configuration: `P_SETTLE >= 1`, `P_MAX_CHUNK` in 1..255, two distinct probe patterns
(00_scope.md R6). -/
def Config.legal (c : Config) : Bool := 1 ≤ c.settle && c.maxChunk != 0 && c.pat1 != c.pat2

/-- The host register window's size in bytes (10_state.md R21). -/
def windowSize : Nat := 0x180

/-- A host access of `width` bytes at offset `off` of the window is one the model gives a meaning: 32 bits wide,
aligned, inside the window (10_state.md R21, R36). -/
def hostAccessOk (off width : Nat) : Bool := width == 4 && off % 4 == 0 && off < windowSize

end Sys2Proof
end

