-- ==== Sys2Proof/Decode.lean ====
section
/-! DEFINITION. The decoder of the command word (30_encoding.md R90 to R92), total on any word and on any bytes,
and after it the encoder (R91). -/

namespace Sys2Proof

/-- Why a value is no command; each is `ILLEGAL_CMD` when written to `CMD` while idle (30_encoding.md R92). -/
inductive DecodeError where
  /-- Bits 31:8 are not all 0. -/
  | reservedBits
  /-- Bits 31:8 are 0 and bits 7:0 are none of R91's codes. -/
  | unknownCode (code : Byte)
  /-- Fewer than the four bytes of a command word. -/
  | truncated
  deriving DecidableEq, Repr

/-- The command of a code, by the table of 30_encoding.md R91. -/
def decodeCode (c : Byte) : Except DecodeError Instr :=
  match c.toNat with
  | 1 => .ok .select
  | 2 => .ok .waitnb
  | 3 => .ok .waitdrq
  | 4 => .ok .setaddr
  | 5 => .ok .read
  | 6 => .ok .write
  | 7 => .ok .identify
  | 8 => .ok .parseid
  | 9 => .ok .probe
  | 10 => .ok .discover
  | _ => .error (.unknownCode c)

/-- The command a 32-bit value written to `CMD` names: the full value must match (30_encoding.md R90, R91). -/
def decodeWord (v : Word) : Except DecodeError Instr :=
  if (CommandWord.ofWord v).zeroOk then decodeCode (CommandWord.ofWord v).code else .error .reservedBits

/-- A word from four bytes, the first the least significant. -/
def wordOfBytes (b0 b1 b2 b3 : Byte) : Word := b3 ++ b2 ++ b1 ++ b0

/-- Byte `k` of a word, byte 0 the least significant. -/
def byteOfWord (v : Word) (k : Nat) : Byte := (v >>> (8 * k)).setWidth 8

/-- The four bytes of a word, the least significant first. -/
def bytesOfWord (v : Word) : List Byte := [byteOfWord v 0, byteOfWord v 1, byteOfWord v 2, byteOfWord v 3]

/-- One command word from the front of a list of bytes, with the bytes after it. -/
def decodeBytes : List Byte → Except DecodeError (Instr × List Byte)
  | b0 :: b1 :: b2 :: b3 :: rest =>
    match decodeWord (wordOfBytes b0 b1 b2 b3) with
    | .ok i => .ok (i, rest)
    | .error e => .error e
  | _ => .error .truncated

/-- The code of a command (30_encoding.md R91). -/
def Instr.code : Instr → Byte
  | .select => 0x01
  | .waitnb => 0x02
  | .waitdrq => 0x03
  | .setaddr => 0x04
  | .read => 0x05
  | .write => 0x06
  | .identify => 0x07
  | .parseid => 0x08
  | .probe => 0x09
  | .discover => 0x0A

/-- The command word of a command: its code in bits 7:0, bits 31:8 zero (30_encoding.md R90). -/
def encode (i : Instr) : Word := (0 : BitVec 24) ++ i.code

/-- The bytes of a command's word, the first the least significant. -/
def encodeBytes (i : Instr) : List Byte := bytesOfWord (encode i)

/-- A command is well formed when its word is (30_encoding.md R90, R91). -/
def Instr.wellFormed (i : Instr) : Bool := (CommandWord.ofWord (encode i)).wellFormed

/-- The command this decoder reads from the opcode table's word `w` of `nbits` bits, every bit above `nbits` zero:
the word is laid out as its four bytes and given to `decodeBytes`. -/
def decodeTableWord (nbits w : Nat) : Option Instr :=
  match decodeBytes (bytesOfWord (BitVec.ofNat 32 (w % 2 ^ nbits))) with
  | .ok (i, _) => some i
  | .error _ => none

end Sys2Proof
end

