-- ==== Sys2Proof/Machine/State.lean ====
section
/-! DEFINITION. The state of one engine with what it stands between: the host register file and the drive records
(10_state.md R20 to R44), the internal sequencer (R45), host memory (20_memory.md R60), and, as the model's own
fields, the inputs a deterministic step needs (the host's pending operations, the device script, the poll budgets)
and the outputs it leaves (the trace, the values host reads returned). -/

namespace Sys2Proof.Machine

/-- The result codes and subroutine outcomes (60_exceptions.md R240, 00_scope.md R12). -/
inductive Result where
  | ok | timeout | deverr | noctrl | faultGeom | faultAlign | illegalCmd
  deriving DecidableEq, Repr

/-- Positions inside `wait(NB)` (40_port_handshake.md R137): the settle loop, which ends in the draw, and the
poll loop. -/
inductive NbPos where
  | settle | poll
  deriving DecidableEq, Repr

/-- Positions inside `wait(DRQ)` (R138): as `wait(NB)`, and the read of the error register. -/
inductive DrqPos where
  | settle | poll | readError
  deriving DecidableEq, Repr

/-- Positions inside `set_address` (41_transfer.md R160, R161): its four device writes. -/
inductive AddrPos where
  | secnum | cyllo | cylhi | devhead
  deriving DecidableEq, Repr

/-- Positions inside `move_in` (40_port_handshake.md R141): the low data word (with `LATCH8`, two accesses), the
high data word, the memory write, and the count of the finished sector. -/
inductive InPos where
  | dataLo | latchLo | dataHi | latchHi | store | count
  deriving DecidableEq, Repr

/-- Positions inside `move_out` (R142): the memory read, the low data word's write (with `LATCH8`, two accesses),
the high data word's, and the count of the finished sector. -/
inductive OutPos where
  | load | firstLo | secondLo | firstHi | secondHi | count
  deriving DecidableEq, Repr

/-- Positions inside `probe_ctrl` (R146): its four device accesses. -/
inductive ProbePos where
  | writeLo | writeHi | readLo | readHi
  deriving DecidableEq, Repr

/-- Positions inside `identify_one` (42_identify.md R200). -/
inductive IdentPos where
  | select
  | notBusy (p : NbPos)
  | command
  | dataRequest (p : DrqPos)
  | move (p : InPos)
  | parse
  deriving DecidableEq, Repr

/-- Positions of `SETADDR` (41_transfer.md R163). -/
inductive SetaddrPos where
  | check
  | address (p : AddrPos)
  deriving DecidableEq, Repr

/-- Positions of `transfer` (41_transfer.md R164); `μ` is the mover's position type. -/
inductive XferPos (μ : Type) where
  | check
  | select
  | notBusy (p : NbPos)
  | precomp
  | chunk
  | seccnt
  | address (p : AddrPos)
  | command
  | dataRequest (p : DrqPos)
  | move (p : μ)
  | advance
  | afterChunk (p : NbPos)
  deriving DecidableEq, Repr

/-- Positions of `IDENTIFY` (42_identify.md R201). -/
inductive IdentifyPos where
  | check
  | clear
  | drive (p : IdentPos)
  deriving DecidableEq, Repr

/-- Positions of `PARSEID` (42_identify.md R202). -/
inductive ParseidPos where
  | check | parse
  deriving DecidableEq, Repr

/-- Positions of `DISCOVER` (42_identify.md R203). -/
inductive DiscoverPos where
  | check
  | clear
  | probe (p : ProbePos)
  | drive (p : IdentPos)
  | count
  deriving DecidableEq, Repr

/-- `phase` (10_state.md R45): `IDLE`, or `RUN(c, pos)` with the position in the command's own pseudocode. The
position `finish(r)` is common to every command. -/
inductive Phase where
  | idle
  | select
  | waitnb (p : NbPos)
  | waitdrq (p : DrqPos)
  | setaddr (p : SetaddrPos)
  | read (p : XferPos InPos)
  | write (p : XferPos OutPos)
  | identify (p : IdentifyPos)
  | parseid (p : ParseidPos)
  | probe (p : ProbePos)
  | discover (p : DiscoverPos)
  | finishing (c : Instr) (r : Result)
  deriving DecidableEq, Repr

/-- The fields of `ESTAT` (10_state.md R23); its reserved bits read 0. -/
structure Estat where
  busy : Bool
  done : Bool
  rej : Bool
  result : Byte
  lastcmd : Byte
  deriving DecidableEq, Repr

/-- A drive record (10_state.md R37 to R43). -/
structure DriveRecord where
  present : Bool
  lba : Bool
  total : Word
  cyl : Word
  heads : Half
  spt : Half
  model : Vector Byte 44
  fw : Vector Byte 12
  deriving DecidableEq, Repr

/-- The cleared record: every field 0 (10_state.md R50, 42_identify.md R213). -/
def DriveRecord.absent : DriveRecord :=
  { present := false, lba := false, total := 0, cyl := 0, heads := 0, spt := 0,
    model := Vector.replicate 44 0, fw := Vector.replicate 12 0 }

/-- The internal variables (10_state.md R45), and the temporaries the pseudocode of a subroutine names beside them:
`lo8` (R130), `hi` (R141), `w` (R142), `a` (R146). -/
structure Vars where
  /-- Drive. -/
  d : BitVec 1
  /-- Current sector. -/
  sec : Word
  /-- Sectors remaining. -/
  n : Word
  /-- Current buffer address. -/
  p : Word
  /-- Sectors in the current chunk. -/
  k : Byte
  /-- Sector index within the chunk, from 1. -/
  i : Byte
  /-- 32-bit word index within a sector. -/
  j : BitVec 7
  /-- Settle reads made in the current wait. -/
  t : Nat
  /-- Poll budget remaining (`B`). -/
  budget : Nat
  /-- Last status byte (`s`). -/
  status : Byte
  /-- First data half-word of a pair. -/
  lo : Half
  /-- DISCOVER's drive loop index. -/
  dd : BitVec 2
  /-- DISCOVER's drive count. -/
  cnt : BitVec 2
  /-- Second data half-word of a pair (R141). -/
  hi : Half
  /-- Low byte of a data word whose latch byte is still to be read (R130). -/
  lo8 : Byte
  /-- Memory word being sent (R142). -/
  w : Word
  /-- First byte the probe read back (R146). -/
  a : Byte
  deriving DecidableEq, Repr

/-- The internal variables at reset. DESIGN CHOICE: 10_state.md R50 leaves them unspecified and nothing reads them
before it writes them (R46), log entry 9. -/
def Vars.zero : Vars :=
  { d := 0, sec := 0, n := 0, p := 0, k := 0, i := 0, j := 0, t := 0, budget := 0, status := 0, lo := 0, dd := 0,
    cnt := 0, hi := 0, lo8 := 0, w := 0, a := 0 }

/-- An address range of host memory that refuses engine accesses (20_memory.md R65): its reads, its writes, or
both. -/
structure Region where
  base : Nat
  size : Nat
  /-- Engine reads in the range are refused. -/
  reads : Bool
  /-- Engine writes in the range are refused. -/
  writes : Bool
  deriving DecidableEq, Repr

/-- A word of the running command's buffer region that the host has written since the command started
(20_memory.md R72): the value the word had otherwise, and the values the host wrote, newest first. -/
structure RaceCell where
  /-- Word address: byte address divided by 4. -/
  word : BitVec 30
  base : Word
  host : List Word
  deriving DecidableEq, Repr

/-- What the host may do (60_exceptions.md R252, 30_encoding.md R104). -/
inductive HostOp where
  /-- A write of `v`, `width` bytes wide, at offset `off` of the register window. -/
  | write (off width : Nat) (v : Word)
  /-- A read, `width` bytes wide, at offset `off` of the register window. -/
  | read (off width : Nat)
  /-- `hpoll` (R104): read `ESTAT` until bit 0 is 0, the engine taking `gap + 1` turns between two reads. -/
  | hpoll (gap : Nat)
  /-- The host writes the memory word at word address `wa`. -/
  | memWrite (wa : BitVec 30) (v : Word)
  /-- The host reads the memory word at word address `wa`. -/
  | memRead (wa : BitVec 30)
  /-- The host asserts the engine's reset input (70_reset_and_hazards.md R270). -/
  | reset
  deriving DecidableEq, Repr

/-- A host operation that lands after `delay` more turns of the engine. -/
structure Input where
  delay : Nat
  op : HostOp
  deriving DecidableEq, Repr

/-- Why the machine stops. -/
inductive Fault where
  /-- SAFE. 20_memory.md R65's stuck outcome: the engine's next step is an access to host memory at `a` that the
  memory refuses, so the engine has no step, and no host operation is pending. Raised by the memory accesses of
  `READ`, `WRITE`, `IDENTIFY`, `PARSEID` and `DISCOVER`. -/
  | memoryRefused (a : Word)
  /-- SAFE. A latch access with `P_TRANSPORT = WIDE32`, where no latch exists (00_scope.md R10). Raised by the
  sector movers, in states no run from a legal state reaches (`Safety.PhaseOk`). -/
  | noLatch
  /-- SAFE. A CHS address computation with a zero divisor, which 00_scope.md R8 leaves undefined. Raised by
  `set_address`, in states no run from a legal state reaches (`Safety.PhaseOk`, 41_transfer.md R162). -/
  | zeroDivisor
  deriving DecidableEq, Repr

/-- Why a step is refused. -/
inductive Refusal where
  /-- SAFE. No meaning for this instruction. Raised by no arm of `exec`. -/
  | notModelled (mnemonic : String)
  /-- SAFE. A host access to the register window that is not an aligned 32-bit access inside the window, to which
  10_state.md R36 gives no meaning. Raised by the host's window reads and writes. -/
  | hostAccess (off width : Nat)
  deriving DecidableEq, Repr

/-- Host memory (20_memory.md R60): address and byte pairs in the canonical form `Memory.wf`. -/
abbrev Memory := List Host.Cell

/-- The machine's state. -/
structure State where
  /-- Configuration, fixed for the life of the instance (00_scope.md R6). -/
  cfg : Config
  /-- `ESTAT` (10_state.md R23). -/
  estat : Estat
  /-- `DRIVE` (R28). -/
  drive : BitVec 1
  /-- `LBA` (R29). -/
  lba : Word
  /-- `COUNT` (R30). -/
  count : Word
  /-- `BUF` (R31). -/
  buf : Word
  /-- `ERRINFO` (R32), bits 15:0. -/
  errinfo : Half
  /-- `DRVCOUNT` (R33). -/
  drvcount : BitVec 2
  /-- `PROGRESS` (R34). -/
  progress : Word
  /-- Drive record 0 (R37). -/
  drv0 : DriveRecord
  /-- Drive record 1 (R37). -/
  drv1 : DriveRecord
  /-- The engine's program counter (R45). -/
  phase : Phase
  /-- The internal variables (R45). -/
  v : Vars
  /-- Host memory (20_memory.md R60): address and byte pairs, addresses rising, no zero byte listed. -/
  mem : Memory
  /-- The ranges of host memory that refuse engine accesses (20_memory.md R65). -/
  refused : List Region
  /-- The words the host has written against the running command's ownership (20_memory.md R72). -/
  races : List RaceCell
  /-- The trace (20_memory.md R69), newest event first, never cleared. -/
  trace : List Event
  /-- The host operations to come, first to land first. -/
  inputs : List Input
  /-- The values host reads returned, newest first. -/
  hostReads : List Word
  /-- The device oracle's scripted answers, next first; past its end the oracle answers freely (R70). -/
  devScript : List Word
  /-- The scripted poll-budget draws, next first, each standing for itself plus 1 (40_port_handshake.md R136). -/
  budgets : List Nat
  /-- How many free draws were made. -/
  draws : Nat
  deriving DecidableEq, Repr

/-- The machine right after reset (10_state.md R50): every register, both drive records and every `ESTAT` field 0,
`phase` `IDLE`. The configuration (log entry 1), the internal variables (log entry 9), host memory (log entry 4) and
the model's own fields (log entries 2, 3, 5, 7) are the model's choice. -/
def State.reset : State :=
  { cfg := Config.reference
    estat := { busy := false, done := false, rej := false, result := 0, lastcmd := 0 }
    drive := 0, lba := 0, count := 0, buf := 0, errinfo := 0, drvcount := 0, progress := 0
    drv0 := DriveRecord.absent, drv1 := DriveRecord.absent
    phase := .idle, v := Vars.zero
    mem := [], refused := [], races := []
    trace := [], inputs := [], hostReads := [], devScript := [], budgets := [], draws := 0 }

end Sys2Proof.Machine
end

