-- ==== Sys2Proof/Machine/Flags.lean ====
section
/-! DEFINITION. The flags: the device status register's four bits (30_encoding.md R96, at the configuration's
positions, 00_scope.md R7), what one poll of `wait(DRQ)` concludes from them (40_port_handshake.md R138;
60_exceptions.md R245; a poll of `wait(NB)` looks at BUSY alone, R137), the result codes (R240), and the words
software reads `ESTAT` and `ERRINFO` as (10_state.md R23, R32). -/

namespace Sys2Proof.Machine

/-- BUSY of a status byte. -/
def statusBusy (c : Config) (b : Byte) : Bool := b.getLsbD c.busyBit.val

/-- DRIVE-FAULT of a status byte. -/
def statusDriveFault (c : Config) (b : Byte) : Bool := b.getLsbD c.driveFaultBit.val

/-- DATA-REQUEST of a status byte. -/
def statusDataRequest (c : Config) (b : Byte) : Bool := b.getLsbD c.dataRequestBit.val

/-- ERROR of a status byte. -/
def statusError (c : Config) (b : Byte) : Bool := b.getLsbD c.errorBit.val

/-- What one poll of `wait(DRQ)` shows. -/
inductive Poll where
  | notReady | deviceError | ready
  deriving DecidableEq, Repr

/-- One poll of `wait(DRQ)`: BUSY first, then ERROR or DRIVE-FAULT, then DATA-REQUEST (R138; 60_exceptions.md
R245). -/
def pollDataRequest (c : Config) (b : Byte) : Poll :=
  if statusBusy c b then .notReady
  else if statusError c b || statusDriveFault c b then .deviceError
  else if statusDataRequest c b then .ready
  else .notReady

/-- The code of a result in `ESTAT.RESULT` (60_exceptions.md R240). -/
def resultCode : Result → Byte
  | .ok => 0x00
  | .timeout => 0x01
  | .deverr => 0x02
  | .noctrl => 0x03
  | .faultGeom => 0x04
  | .faultAlign => 0x05
  | .illegalCmd => 0x06

/-- `ESTAT` as a 32-bit word (10_state.md R23); the reserved bits 7:3 and 31:24 are 0. -/
def estatWord (e : Estat) : Word :=
  (0 : Byte) ++ e.lastcmd ++ e.result ++ (0 : BitVec 5) ++ BitVec.ofBool e.rej ++ BitVec.ofBool e.done ++
    BitVec.ofBool e.busy

/-- `ERRINFO` after a device-reported error: the status byte over the error-register byte (40_port_handshake.md
R139). -/
def packErrinfo (status err : Byte) : Half := status ++ err

end Sys2Proof.Machine
end

