-- ==== Sys2Proof/Machine/Ops.lean ====
section
/-! DEFINITION. The named operations: host memory byte by byte and word by word (20_memory.md R60 to R65, R72), the
device-port primitives (00_scope.md R10), the memory primitives (R11), the drive records (10_state.md R37), starting
a command and finishing it, which is this engine's taking of an exception (10_state.md R24, R25; 60_exceptions.md
R248), rejecting an illegal command (30_encoding.md R92), turning a command away (10_state.md R35), and reset
(70_reset_and_hazards.md R270). -/

namespace Sys2Proof.Machine

/-! ### Host memory as data -/

/-- What a byte of memory that is not listed reads as. DESIGN CHOICE: the contents of host memory before the host
writes them are no part of the spec, log entry 4. -/
def unlistedByte : Byte := 0

/-- The byte at an address. -/
def Memory.byte : Memory → Nat → Byte
  | [], _ => unlistedByte
  | (x, b) :: rest, a => if a = x then b else Memory.byte rest a

/-- Memory with byte `b` at address `a`, in canonical form. -/
def Memory.put (a : Nat) (b : Byte) : Memory → Memory
  | [] => if b = unlistedByte then [] else [(a, b)]
  | (x, c) :: rest =>
    if a < x then (if b = unlistedByte then (x, c) :: rest else (a, b) :: (x, c) :: rest)
    else if a = x then (if b = unlistedByte then rest else (a, b) :: rest)
    else (x, c) :: Memory.put a b rest

/-- Every listed address is at least `lo`, below 2^32, addresses rise strictly, and no listed byte is what an
unlisted one reads as. -/
def Memory.wfFrom (lo : Nat) : Memory → Bool
  | [] => true
  | (x, b) :: rest => decide (lo ≤ x) && decide (x < 2 ^ 32) && b != unlistedByte && Memory.wfFrom (x + 1) rest

/-- The canonical form of host memory. -/
def Memory.wf (m : Memory) : Bool := Memory.wfFrom 0 m

/-- The little-endian 32-bit word at an address (20_memory.md R60, 00_scope.md R11). -/
def Memory.word (m : Memory) (a : Word) : Word :=
  wordOfBytes (m.byte a.toNat) (m.byte (a + 1).toNat) (m.byte (a + 2).toNat) (m.byte (a + 3).toNat)

/-- Memory with the little-endian word `w` at an address. -/
def Memory.putWord (m : Memory) (a w : Word) : Memory :=
  ((((m.put a.toNat (byteOfWord w 0)).put (a + 1).toNat (byteOfWord w 1)).put (a + 2).toNat (byteOfWord w 2)).put
    (a + 3).toNat (byteOfWord w 3))

/-- The two kinds of engine access to host memory (20_memory.md R61); a snapshot is a read. -/
inductive Access where
  | read | write
  deriving DecidableEq, Repr

/-- A range refuses an access of a kind. -/
def refuses (r : Region) : Access → Bool
  | .read => r.reads
  | .write => r.writes

/-- Host memory admits an engine access of a kind at a byte (20_memory.md R65). -/
def admitsByte (k : Access) (s : State) (x : Nat) : Bool :=
  s.refused.all fun r => !(refuses r k && decide (r.base ≤ x) && decide (x < r.base + r.size))

/-- Host memory admits an engine access of a kind at the four bytes of the word at `a`. -/
def admitsWord (k : Access) (s : State) (a : Word) : Bool :=
  admitsByte k s a.toNat && admitsByte k s (a + 1).toNat && admitsByte k s (a + 2).toNat &&
    admitsByte k s (a + 3).toNat

/-- Host memory admits the engine's reads at each of the 128 words of the block at `p` (42_identify.md R210). -/
def admitsBlock (s : State) (p : Word) : Bool :=
  (List.range 128).all fun j => admitsWord .read s (p + BitVec.ofNat 32 (4 * j))

/-! ### Small updates -/

/-- The event happens: it goes to the front of the trace (20_memory.md R69). -/
def emit (e : Event) (s : State) : State := { s with trace := e :: s.trace }

/-- The sequencer moves to a position (10_state.md R45). -/
def goto (ph : Phase) (s : State) : State := { s with phase := ph }

/-- The command a phase runs, if any. -/
def Phase.command : Phase → Option Instr
  | .idle => none
  | .select => some .select
  | .waitnb _ => some .waitnb
  | .waitdrq _ => some .waitdrq
  | .setaddr _ => some .setaddr
  | .read _ => some .read
  | .write _ => some .write
  | .identify _ => some .identify
  | .parseid _ => some .parseid
  | .probe _ => some .probe
  | .discover _ => some .discover
  | .finishing c _ => some c

/-- One of `vals`, by a free draw (20_memory.md R72). -/
def choose (vals : List Word) (s : State) : Word × State :=
  (vals.getD (Config.freeIndex s.draws % vals.length) 0, { s with draws := s.draws + 1 })

/-! ### Device-port primitives (00_scope.md R10, 20_memory.md R66 to R70) -/

/-- The device's answer to a read: the script's next, or past its end the oracle's (20_memory.md R70). -/
def deviceAnswer (port : ReadPort) (s : State) : Word × State :=
  match s.devScript with
  | w :: ws => (w, { s with devScript := ws })
  | [] => (Config.deviceAnswer s.trace port, s)

/-- `DevRead8(r)`: the low 8 bits of the device's answer. -/
def devRead8 (r : DevReg) (s : State) : Byte × State :=
  let x := deviceAnswer (.reg r) s
  (x.1.setWidth 8, emit (.r r (x.1.setWidth 8)) x.2)

/-- `DevWrite8(r, b)`. -/
def devWrite8 (r : DevReg) (b : Byte) (s : State) : State := emit (.w r b) s

/-- `LatchRead8()`. -/
def latchRead8 (s : State) : Byte × State :=
  let x := deviceAnswer .latch s
  (x.1.setWidth 8, emit (.lr (x.1.setWidth 8)) x.2)

/-- `LatchWrite8(b)`. -/
def latchWrite8 (b : Byte) (s : State) : State := emit (.lw b) s

/-- `DevRead32(DATA)`. -/
def devRead32 (s : State) : Word × State :=
  let x := deviceAnswer .wide s
  (x.1, emit (.r32 x.1) x.2)

/-- `DevWrite32(DATA, w)`. -/
def devWrite32 (w : Word) (s : State) : State := emit (.w32 w) s

/-- The controller has a high-byte latch: `P_LATCH`, true iff `P_TRANSPORT = LATCH8` (00_scope.md R6). -/
def hasLatch (c : Config) : Bool := c.transport == .latch8

/-- The physical address of a device register: `P_REGADDR(r)` (00_scope.md R6, 60_exceptions.md R254). DESIGN CHOICE:
32 bits wide, base and offset added mod 2^32 (log entry 16). -/
def regAddr (c : Config) (r : DevReg) : Word :=
  c.regs.base + match r with
    | .data => c.regs.data
    | .error => c.regs.errorWprecomp
    | .wprecomp => c.regs.errorWprecomp
    | .seccnt => c.regs.seccnt
    | .secnum => c.regs.secnum
    | .cyllo => c.regs.cyllo
    | .cylhi => c.regs.cylhi
    | .devhead => c.regs.devhead
    | .status => c.regs.statusCommand
    | .command => c.regs.statusCommand

/-- The physical address of the high-byte latch (60_exceptions.md R254). DESIGN CHOICE: as `regAddr`'s (log
entry 16). -/
def latchAddr (c : Config) : Word := c.regs.base + c.regs.latch

/-- The physical device address an event accesses; none for a memory event (20_memory.md R60). -/
def eventAddr (c : Config) : Event → Option Word
  | .w r _ => some (regAddr c r)
  | .r r _ => some (regAddr c r)
  | .lw _ => some (latchAddr c)
  | .lr _ => some (latchAddr c)
  | .w32 _ => some (regAddr c .data)
  | .r32 _ => some (regAddr c .data)
  | .mw _ _ => none
  | .mr _ _ => none
  | .ms _ => none

/-! ### Ownership of the buffer region, and races (20_memory.md R72) -/

/-- The size in bytes of the running command's buffer region. -/
def regionBytes (s : State) : Nat :=
  match s.phase.command with
  | some .read => 512 * s.count.toNat
  | some .write => 512 * s.count.toNat
  | some .identify => 512
  | some .parseid => 512
  | some .discover => 512
  | _ => 0

/-- The running command writes its buffer region. -/
def regionWritten (s : State) : Bool :=
  match s.phase.command with
  | some .read => true
  | some .identify => true
  | some .discover => true
  | _ => false

/-- The byte address of a word address. -/
def byteAddr (wa : BitVec 30) : Word := wa ++ (0 : BitVec 2)

/-- The word address of an aligned byte address. -/
def wordAddr (a : Word) : BitVec 30 := a.extractLsb' 2 30

/-- The word lies in the buffer region that belongs to the engine while `ESTAT.BUSY = 1`. -/
def ownsWord (s : State) (wa : BitVec 30) : Bool :=
  s.estat.busy && decide ((byteAddr wa - s.buf).toNat < regionBytes s)

/-- The race at a word, if the host has written it. -/
def raceAt (s : State) (wa : BitVec 30) : Option RaceCell := s.races.find? fun c => c.word == wa

/-- The races with the entry of one word replaced. -/
def putRace (c : RaceCell) (l : List RaceCell) : List RaceCell := c :: l.filter fun x => x.word != c.word

/-- The value the engine reads at an aligned address: the memory word, or one of a raced word's old and new
values. -/
def engineLoad (a : Word) (s : State) : Word × State :=
  match raceAt s (wordAddr a) with
  | none => (s.mem.word a, s)
  | some c => choose (c.base :: c.host) s

/-- The engine's write of a word: a raced word ends as the engine's value or as the host's. -/
def engineStore (a w : Word) (s : State) : State :=
  match raceAt s (wordAddr a) with
  | none => { s with mem := s.mem.putWord a w }
  | some c =>
    let x := choose (w :: c.host.take 1) s
    { x.2 with mem := s.mem.putWord a x.1, races := putRace { c with base := w } s.races }

/-! ### Memory primitives (00_scope.md R11); none where the memory refuses (20_memory.md R65) -/

/-- `MemRead(a, 4)`. -/
def memRead (a : Word) (s : State) : Option (Word × State) :=
  if admitsWord .read s a then
    let x := engineLoad a s
    some (x.1, emit (.mr a x.1) x.2)
  else none

/-- `MemWrite(a, 4, w)`. -/
def memWrite (a w : Word) (s : State) : Option State :=
  if admitsWord .write s a then some (emit (.mw a w) (engineStore a w s)) else none

/-- The values the engine reads at `k` aligned words from `a` on, each read once. -/
def engineLoads : Nat → Word → State → List Word × State
  | 0, _, s => ([], s)
  | k + 1, a, s =>
    let x := engineLoad a s
    let y := engineLoads k (a + 4) x.2
    (x.1 :: y.1, y.2)

/-- `MemSnap512(a)`: the 512 bytes from `a` on, in one step (42_identify.md R210). -/
def memSnap512 (a : Word) (s : State) : Option (List Byte × State) :=
  if admitsBlock s a then
    let x := engineLoads 128 a s
    some (x.1.flatMap bytesOfWord, emit (.ms a) x.2)
  else none

/-! ### Drive records (10_state.md R37 to R44) -/

/-- The record of a drive. -/
def driveRecord (s : State) (d : BitVec 1) : DriveRecord := if d = 0 then s.drv0 else s.drv1

/-- The record of a drive, replaced. -/
def setDriveRecord (d : BitVec 1) (r : DriveRecord) (s : State) : State :=
  if d = 0 then { s with drv0 := r } else { s with drv1 := r }

/-- `clear(d)` (42_identify.md R213). -/
def clearRecord (d : BitVec 1) (s : State) : State := setDriveRecord d DriveRecord.absent s

/-! ### Starting, finishing, refusing, reset -/

/-- The step that accepts a legal command (10_state.md R24); `first` is the command's first position. A new command
owns its buffer region afresh, so no race is open (20_memory.md R72). -/
def accept (c : Instr) (first : Phase) (s : State) : State :=
  { s with
    estat := { s.estat with busy := true, done := false, result := 0, lastcmd := c.code }
    errinfo := 0, progress := 0
    v := { s.v with d := s.drive, sec := s.lba, n := s.count, p := s.buf, t := 0 }
    races := []
    phase := first }

/-- `finish(r)` (10_state.md R25): the engine's one way to end a command, with or without an error
(60_exceptions.md R248). -/
def finish (r : Result) (s : State) : State :=
  { s with estat := { s.estat with result := resultCode r, done := true, busy := false }, phase := .idle }

/-- An illegal value `w` written to `CMD` while idle (30_encoding.md R92). -/
def rejectIllegal (w : Word) (s : State) : State :=
  { s with
    estat := { s.estat with lastcmd := w.setWidth 8, result := resultCode .illegalCmd, done := true, busy := false }
    errinfo := 0, progress := 0 }

/-- A host write turned away because the engine is busy sets the sticky `ESTAT.REJ` (10_state.md R35). -/
def turnAway (s : State) : State := { s with estat := { s.estat with rej := true } }

/-- The engine's reset (70_reset_and_hazards.md R270, R271): every piece of engine state to its value in
10_state.md R50, with no device access. The internal variables, which R50 leaves unspecified, stay (log entry 9). -/
def engineReset (s : State) : State :=
  { s with
    estat := State.reset.estat, drive := 0, lba := 0, count := 0, buf := 0, errinfo := 0, drvcount := 0, progress := 0
    drv0 := DriveRecord.absent, drv1 := DriveRecord.absent, phase := .idle, races := [] }

/-- What one step of a subroutine does: it goes on at another of its positions, it returns an outcome
(00_scope.md R12), or the engine has no step. -/
inductive Sub (π : Type) where
  | more (p : π) (s : State)
  | ret (r : Result) (s : State)
  | halt (f : Fault)

/-- A subroutine's step inlined into its caller (00_scope.md R9): `emb` places the subroutine's positions, `k` is
what the caller does with the outcome. -/
def Sub.into {π : Type} (x : Sub π) (emb : π → Phase) (k : Result → State → State) :
    Host.Outcome State Fault Refusal :=
  match x with
  | .more p s => .next (goto (emb p) s)
  | .ret r s => .next (k r s)
  | .halt f => .fault f

end Sys2Proof.Machine
end

