-- ==== Sys2Proof/Machine/Operands.lean ====
section
/-! DEFINITION. The operand forms: the checks on `BUF` and on the drive record (20_memory.md R62, 41_transfer.md
R162), the device/head byte (30_encoding.md R97), the LBA and CHS address bytes (41_transfer.md R160, R161, R173),
the chunk size (R164), and the fields of the identify parameter block (30_encoding.md R101 to R103, 42_identify.md
R204 to R209, R212, R215). -/

namespace Sys2Proof.Machine

/-! ### Checks -/

/-- `a[1:0] != 0` (20_memory.md R62). -/
def misaligned (a : Word) : Bool := a.extractLsb' 0 2 != 0

/-- The geometry guard `geom_ok` (41_transfer.md R162). -/
def geomOk (r : DriveRecord) : Bool := r.lba || (r.spt != 0 && r.heads != 0)

/-! ### Device bytes -/

/-- `P_DEVSEL(d)` (00_scope.md R6, 30_encoding.md R97). -/
def devsel (c : Config) (d : BitVec 1) : Byte := if d = 0 then c.devsel0 else c.devsel1

/-- A CHS address (41_transfer.md R161): cylinder and head from 0, sector from 1. -/
structure Chs where
  c : Word
  h : Word
  s1 : Word
  deriving DecidableEq, Repr

/-- The CHS address of a sector on a drive's geometry; meaningful where `geomOk` holds (R161, R162). -/
def chsOf (r : DriveRecord) (sec : Word) : Chs :=
  let spt : Word := r.spt.setWidth 32
  let hd : Word := r.heads.setWidth 32
  let track := sec / spt
  { c := track / hd, h := track % hd, s1 := sec % spt + 1 }

/-- The register `set_address` writes at each of its four positions (R160, R161). -/
def addrReg : AddrPos → DevReg
  | .secnum => .secnum
  | .cyllo => .cyllo
  | .cylhi => .cylhi
  | .devhead => .devhead

/-- The byte `set_address` writes for an LBA drive (R160). -/
def lbaByte (c : Config) (d : BitVec 1) (sec : Word) : AddrPos → Byte
  | .secnum => sec.extractLsb' 0 8
  | .cyllo => sec.extractLsb' 8 8
  | .cylhi => sec.extractLsb' 16 8
  | .devhead => devsel c d ||| c.lbaBit ||| (sec.extractLsb' 24 4).setWidth 8

/-- The byte `set_address` writes for a CHS drive, truncated to its register (R161, R173). -/
def chsByte (c : Config) (d : BitVec 1) (x : Chs) : AddrPos → Byte
  | .secnum => x.s1.extractLsb' 0 8
  | .cyllo => x.c.extractLsb' 0 8
  | .cylhi => x.c.extractLsb' 8 8
  | .devhead => devsel c d ||| (x.h.extractLsb' 0 4).setWidth 8

/-- The byte `set_address(d, sec)` writes at a position, by the drive's addressing mode. -/
def addrByte (c : Config) (r : DriveRecord) (d : BitVec 1) (sec : Word) (p : AddrPos) : Byte :=
  if r.lba then lbaByte c d sec p else chsByte c d (chsOf r sec) p

/-- The chunk size `min(n, P_MAX_CHUNK)` (41_transfer.md R164). -/
def chunkSize (c : Config) (n : Word) : Byte :=
  if n.toNat ≤ c.maxChunk.toNat then n.setWidth 8 else c.maxChunk

/-- The address of memory word `j` of the sector at `p`: `p + 4*j` mod 2^32 (20_memory.md R63). -/
def sectorWord (p : Word) (j : BitVec 7) : Word := p + 4 * j.setWidth 32

/-! ### The identify parameter block -/

/-- Byte `k` of a block. -/
def blockByte (blk : List Byte) (k : Nat) : Byte := blk.getD k 0

/-- Identify word `n`: `{blk[2n+1], blk[2n]}` (42_identify.md R204). -/
def idWord (blk : List Byte) (n : Nat) : Half := blockByte blk (2 * n + 1) ++ blockByte blk (2 * n)

/-- A printable character other than space: 0x21 to 0x7E (R209). -/
def printable (b : Byte) : Bool := 0x21 ≤ b.toNat && b.toNat ≤ 0x7E

/-- The characters of words `a` to `b`, each word's high byte first (R208). -/
def idChars (blk : List Byte) (a b : Nat) : List Byte :=
  (List.range (b - a + 1)).flatMap fun i =>
    [(idWord blk (a + i)).extractLsb' 8 8, (idWord blk (a + i)).extractLsb' 0 8]

/-- How many characters are kept: up to and with the last printable one (R208). -/
def keptLength : List Byte → Nat
  | [] => 0
  | ch :: rest =>
    match keptLength rest with
    | 0 => if printable ch then 1 else 0
    | k + 1 => k + 2

/-- `decode_str(a, b, size)` (R208). -/
def decodeStr (blk : List Byte) (a b size : Nat) : Vector Byte size :=
  Vector.ofFn fun i : Fin size =>
    if i.val < keptLength (idChars blk a b) then (idChars blk a b).getD i.val 0 else 0

/-- `(cyl * hd * spt) mod 2^32`, the product exact before the reduction (R215). -/
def geomProduct (cyl : Word) (hd spt : Half) : Word := BitVec.ofNat 32 (cyl.toNat * hd.toNat * spt.toNat)

/-- The sectors of one cylinder of the normalised geometry: 63 * 16 (R206). -/
def normalCylinder : Word := 1008

/-- The reported geometry of an LBA drive is kept: 16 heads, 63 sectors per track, multiplying out to the total
(R206). -/
def geomConsistent (total cyl : Word) (hd spt : Half) : Bool :=
  hd == 16 && spt == 63 && total == geomProduct cyl hd spt

/-- The record a parameter block parses to, a function of its bytes alone (R204 to R209, R211, R212). -/
def parseBlock (blk : List Byte) : DriveRecord :=
  let cyl : Word := (idWord blk 1).setWidth 32
  let hd := idWord blk 3
  let spt := idWord blk 6
  let lba := (idWord blk 49).getLsbD 9
  let tl : Word := idWord blk 61 ++ idWord blk 60
  let model := decodeStr blk 27 46 44
  let fw := decodeStr blk 23 26 12
  if lba then
    if geomConsistent tl cyl hd spt then
      { present := true, lba := true, total := tl, cyl := cyl, heads := hd, spt := spt, model := model, fw := fw }
    else
      { present := true, lba := true, total := tl, cyl := tl / normalCylinder, heads := 16, spt := 63,
        model := model, fw := fw }
  else
    { present := true, lba := false, total := geomProduct cyl hd spt, cyl := cyl, heads := hd, spt := spt,
      model := model, fw := fw }

end Sys2Proof.Machine
end

