-- ==== Sys2Proof/Machine/Handshake.lean ====
section
/-! DEFINITION. The subroutines of 40_port_handshake.md, one step at a time: `wait(NB)` (R137), `wait(DRQ)` (R138,
R139), `move_in` (R141), `move_out` (R142) over the two transports (R130 to R133), `probe_ctrl` (R146); and
`set_address` (41_transfer.md R160, R161). -/

namespace Sys2Proof.Machine

/-! ### The two waits -/

/-- A wait is entered with no settle read made (R135). -/
def armWait (s : State) : State := { s with v := { s.v with t := 0 } }

/-- One settle read, its value discarded (R135). -/
def settleRead (s : State) : State :=
  let x := devRead8 .status s
  { x.2 with v := { x.2.v with t := x.2.v.t + 1 } }

/-- The draw of a wait's poll budget, at least 1 (R136). -/
def drawBudget (s : State) : State :=
  match s.budgets with
  | b :: bs => { s with budgets := bs, v := { s.v with budget := b + 1 } }
  | [] => { s with draws := s.draws + 1, v := { s.v with budget := Config.freeBudget s.draws + 1 } }

/-- One status read of a poll loop: `s <- DevRead8(STATUS)`. -/
def pollRead (s : State) : State :=
  let x := devRead8 .status s
  { x.2 with v := { x.2.v with status := x.1 } }

/-- One unit of budget is used up (R137, R138). -/
def spendBudget (s : State) : State := { s with v := { s.v with budget := s.v.budget - 1 } }

/-- After a not-ready poll: the budget is decremented, and `TIMEOUT` returned when none is left (R137, R138). -/
def pollAgain {π : Type} (again : π) (s : State) : Sub π :=
  if (spendBudget s).v.budget = 0 then .ret .timeout (spendBudget s) else .more again (spendBudget s)

/-- `wait(NB)` (R137). -/
def waitNotBusy : NbPos → State → Sub NbPos
  | .settle, s => if s.v.t < s.cfg.settle then .more .settle (settleRead s) else .more .poll (drawBudget s)
  | .poll, s =>
    if statusBusy s.cfg (pollRead s).v.status then pollAgain .poll (pollRead s) else .ret .ok (pollRead s)

/-- The read of the error register and the capture of both bytes in `ERRINFO` (R138, R139). -/
def captureError (s : State) : State :=
  let x := devRead8 .error s
  { x.2 with errinfo := packErrinfo x.2.v.status x.1 }

/-- `wait(DRQ)` (R138). -/
def waitDataRequest : DrqPos → State → Sub DrqPos
  | .settle, s => if s.v.t < s.cfg.settle then .more .settle (settleRead s) else .more .poll (drawBudget s)
  | .poll, s =>
    match pollDataRequest s.cfg (pollRead s).v.status with
    | .ready => .ret .ok (pollRead s)
    | .deviceError => .more .readError (pollRead s)
    | .notReady => pollAgain .poll (pollRead s)
  | .readError, s => .ret .deverr (captureError s)

/-! ### The sector movers -/

/-- The data phase of a sector begins at word 0. -/
def armMove (s : State) : State := { s with v := { s.v with j := 0 } }

/-- `PROGRESS <- PROGRESS + 1` (R141, R142; 10_state.md R34). -/
def countSector (s : State) : State := { s with progress := s.progress + 1 }

/-- The last memory word of a sector has been moved. -/
def lastWord (s : State) : Bool := s.v.j == 127

/-- On to the next memory word of the sector. -/
def nextWord (s : State) : State := { s with v := { s.v with j := s.v.j + 1 } }

/-- `LATCH8`: the first half of a data read, whose low byte waits for the latch's (R130). -/
def readDataLow (s : State) : State :=
  let x := devRead8 .data s
  { x.2 with v := { x.2.v with lo8 := x.1 } }

/-- `LATCH8`: the second half of a data read; the data word is `{hi8, lo8}` (R130). -/
def readDataHigh (s : State) : Half × State :=
  let x := latchRead8 s
  (x.1 ++ x.2.v.lo8, x.2)

/-- `WIDE32`: a data read in one access; bits 31:16 are discarded (R132). -/
def readDataWide (s : State) : Half × State :=
  let x := devRead32 s
  (x.1.extractLsb' 0 16, x.2)

/-- The first data word of a pair is kept. -/
def keepLo (x : Half × State) : State := { x.2 with v := { x.2.v with lo := x.1 } }

/-- The second data word of a pair is kept. -/
def keepHi (x : Half × State) : State := { x.2 with v := { x.2.v with hi := x.1 } }

/-- The memory word of a pair of data words: data word `2j` low, `2j+1` high (20_memory.md R64). -/
def pairWord (s : State) : Word := s.v.hi ++ s.v.lo

/-- `move_in(p)` (R141). -/
def moveIn (p : Word) : InPos → State → Sub InPos
  | .dataLo, s =>
    if hasLatch s.cfg then .more .latchLo (readDataLow s) else .more .dataHi (keepLo (readDataWide s))
  | .latchLo, s => if hasLatch s.cfg then .more .dataHi (keepLo (readDataHigh s)) else .halt .noLatch
  | .dataHi, s =>
    if hasLatch s.cfg then .more .latchHi (readDataLow s) else .more .store (keepHi (readDataWide s))
  | .latchHi, s => if hasLatch s.cfg then .more .store (keepHi (readDataHigh s)) else .halt .noLatch
  | .store, s =>
    match memWrite (sectorWord p s.v.j) (pairWord s) s with
    | none => .halt (.memoryRefused (sectorWord p s.v.j))
    | some s' => if lastWord s' then .more .count s' else .more .dataLo (nextWord s')
  | .count, s => .ret .ok (countSector s)

/-- `LATCH8`: the first half of a data write, the high byte to the latch (R131). -/
def writeDataHigh (v : Half) (s : State) : State := latchWrite8 (v.extractLsb' 8 8) s

/-- `LATCH8`: the second half of a data write, the low byte to the data register (R131). -/
def writeDataLow (v : Half) (s : State) : State := devWrite8 .data (v.extractLsb' 0 8) s

/-- `WIDE32`: a data write in one access, the value in bits 31:16 and 0 below (R133). -/
def writeDataWide (v : Half) (s : State) : State := devWrite32 (v ++ (0 : Half)) s

/-- The memory word just read is kept. -/
def keepWord (x : Word × State) : State := { x.2 with v := { x.2.v with w := x.1 } }

/-- Data word `2j` of the memory word being sent. -/
def wordLo (s : State) : Half := s.v.w.extractLsb' 0 16

/-- Data word `2j+1` of the memory word being sent. -/
def wordHi (s : State) : Half := s.v.w.extractLsb' 16 16

/-- After a memory word is sent. -/
def wordSent (s : State) : Sub OutPos := if lastWord s then .more .count s else .more .load (nextWord s)

/-- `move_out(p)` (R142). -/
def moveOut (p : Word) : OutPos → State → Sub OutPos
  | .load, s =>
    match memRead (sectorWord p s.v.j) s with
    | none => .halt (.memoryRefused (sectorWord p s.v.j))
    | some x => .more .firstLo (keepWord x)
  | .firstLo, s =>
    if hasLatch s.cfg then .more .secondLo (writeDataHigh (wordLo s) s)
    else .more .firstHi (writeDataWide (wordLo s) s)
  | .secondLo, s => if hasLatch s.cfg then .more .firstHi (writeDataLow (wordLo s) s) else .halt .noLatch
  | .firstHi, s =>
    if hasLatch s.cfg then .more .secondHi (writeDataHigh (wordHi s) s) else wordSent (writeDataWide (wordHi s) s)
  | .secondHi, s => if hasLatch s.cfg then wordSent (writeDataLow (wordHi s) s) else .halt .noLatch
  | .count, s => .ret .ok (countSector s)

/-! ### The probe and the address -/

/-- `probe_ctrl()` (R146). -/
def probeCtrl : ProbePos → State → Sub ProbePos
  | .writeLo, s => .more .writeHi (devWrite8 .cyllo s.cfg.pat1 s)
  | .writeHi, s => .more .readLo (devWrite8 .cylhi s.cfg.pat2 s)
  | .readLo, s =>
    let x := devRead8 .cyllo s
    .more .readHi { x.2 with v := { x.2.v with a := x.1 } }
  | .readHi, s =>
    let x := devRead8 .cylhi s
    .ret (if x.2.v.a = s.cfg.pat1 ∧ x.1 = s.cfg.pat2 then .ok else .noctrl) x.2

/-- The position after one of `set_address`'s writes; none after the last. -/
def nextAddr : AddrPos → Option AddrPos
  | .secnum => some .cyllo
  | .cyllo => some .cylhi
  | .cylhi => some .devhead
  | .devhead => none

/-- `set_address(d, sec)` (41_transfer.md R160, R161) on the running command's drive and sector. -/
def setAddress (p : AddrPos) (s : State) : Sub AddrPos :=
  if geomOk (driveRecord s s.v.d) then
    let s' := devWrite8 (addrReg p) (addrByte s.cfg (driveRecord s s.v.d) s.v.d s.v.sec p) s
    match nextAddr p with
    | some p' => .more p' s'
    | none => .ret .ok s'
  else .halt .zeroDivisor

end Sys2Proof.Machine
end

