-- ==== Sys2Proof/Machine/Simple.lean ====
section
/-! DEFINITION. The commands of 40_port_handshake.md: `SELECT` (R143), `WAITNB` (R144), `WAITDRQ` (R145) and `PROBE`
(R147). The meaning of a command is the ONE step it takes in a state (00_scope.md R13): from `IDLE` its acceptance
(10_state.md R24), at a position of its own pseudocode that position's step, at its finish position `finish(r)`
(R25); while another command runs it is turned away (R35). -/

namespace Sys2Proof.Machine

/-- The command goes on at another position. -/
def goOn (ph : Phase) (s : State) : Host.Outcome State Fault Refusal := .next (goto ph s)

/-- `SELECT` (R143). -/
def execSelect (s : State) : Host.Outcome State Fault Refusal :=
  match s.phase with
  | .idle => .next (accept .select .select s)
  | .select => goOn (.finishing .select .ok) (devWrite8 .devhead (devsel s.cfg s.v.d) s)
  | .finishing .select r => .next (finish r s)
  | _ => .next (turnAway s)

/-- `WAITNB` (R144). -/
def execWaitnb (s : State) : Host.Outcome State Fault Refusal :=
  match s.phase with
  | .idle => .next (accept .waitnb (.waitnb .settle) s)
  | .waitnb p => (waitNotBusy p s).into .waitnb fun r => goto (.finishing .waitnb r)
  | .finishing .waitnb r => .next (finish r s)
  | _ => .next (turnAway s)

/-- `WAITDRQ` (R145). -/
def execWaitdrq (s : State) : Host.Outcome State Fault Refusal :=
  match s.phase with
  | .idle => .next (accept .waitdrq (.waitdrq .settle) s)
  | .waitdrq p => (waitDataRequest p s).into .waitdrq fun r => goto (.finishing .waitdrq r)
  | .finishing .waitdrq r => .next (finish r s)
  | _ => .next (turnAway s)

/-- `PROBE` (R147). -/
def execProbe (s : State) : Host.Outcome State Fault Refusal :=
  match s.phase with
  | .idle => .next (accept .probe (.probe .writeLo) s)
  | .probe p => (probeCtrl p s).into .probe fun r => goto (.finishing .probe r)
  | .finishing .probe r => .next (finish r s)
  | _ => .next (turnAway s)

end Sys2Proof.Machine
end

