-- ==== Sys2Proof/Machine/Transfer.lean ====
section
/-! DEFINITION. The commands of 41_transfer.md: `SETADDR` (R163), and `READ` (R169) and `WRITE` (R170) over the one
transfer engine `transfer(dir)` (R164 to R168, R171). -/

namespace Sys2Proof.Machine

/-- A position of `SETADDR` (R163). -/
def setaddrAt (pos : SetaddrPos) (s : State) : Host.Outcome State Fault Refusal :=
  match pos with
  | .check =>
    if geomOk (driveRecord s s.v.d) then goOn (.setaddr (.address .secnum)) s
    else goOn (.finishing .setaddr .faultGeom) s
  | .address p => (setAddress p s).into (fun p => .setaddr (.address p)) fun r => goto (.finishing .setaddr r)

/-- `SETADDR` (R163). -/
def execSetaddr (s : State) : Host.Outcome State Fault Refusal :=
  match s.phase with
  | .idle => .next (accept .setaddr (.setaddr .check) s)
  | .setaddr pos => setaddrAt pos s
  | .finishing .setaddr r => .next (finish r s)
  | _ => .next (turnAway s)

/-- What the two directions of `transfer(dir)` differ in (R164). -/
structure Direction (μ : Type) where
  cmd : Instr
  place : XferPos μ → Phase
  cmdByte : Config → Byte
  first : μ
  move : Word → μ → State → Sub μ

/-- `RD`. -/
def reading : Direction InPos :=
  { cmd := .read, place := .read, cmdByte := Config.cmdRead, first := .dataLo, move := moveIn }

/-- `WR`. -/
def writing : Direction OutPos :=
  { cmd := .write, place := .write, cmdByte := Config.cmdWrite, first := .load, move := moveOut }

/-- On an outcome: go on at `ph` after `OK`, else finish the command with the outcome (R167). -/
def orFinish (c : Instr) (ph : Phase) (r : Result) (s : State) : State :=
  if r = .ok then goto ph s else goto (.finishing c r) s

/-- `k <- min(n, P_MAX_CHUNK)` (R164). -/
def beginChunk (s : State) : State := { s with v := { s.v with k := chunkSize s.cfg s.v.n } }

/-- The sector loop of a chunk begins at `i = 1` with a wait (R164, R166). -/
def beginSectors (s : State) : State := { s with v := { s.v with i := 1, t := 0 } }

/-- `p <- (p + 512) mod 2^32` (R164). -/
def nextBuffer (s : State) : State := { s with v := { s.v with p := s.v.p + 512 } }

/-- The next sector of the chunk begins with a wait (R166). -/
def nextSector (s : State) : State := { s with v := { s.v with i := s.v.i + 1, t := 0 } }

/-- A chunk ends: `sec <- (sec + k) mod 2^32`, `n <- n - k` (R164). -/
def endChunk (s : State) : State :=
  { s with v := { s.v with sec := s.v.sec + s.v.k.setWidth 32, n := s.v.n - s.v.k.setWidth 32, t := 0 } }

/-- After a sector: the next sector of the chunk, or the end of the chunk with its not-busy wait, which after the
last chunk runs iff `P_TAIL_WAIT` (R164, R168). -/
def advance {μ : Type} (x : Direction μ) (s : State) : Host.Outcome State Fault Refusal :=
  let s1 := nextBuffer s
  if s1.v.i = s1.v.k then
    let s2 := endChunk s1
    if s2.v.n ≠ 0 ∨ s2.cfg.tailWait then goOn (x.place (.afterChunk .settle)) s2 else goOn (x.place .chunk) s2
  else goOn (x.place (.dataRequest .settle)) (nextSector s1)

/-- A position of `transfer(dir)` (R164). -/
def transferAt {μ : Type} (x : Direction μ) (pos : XferPos μ) (s : State) : Host.Outcome State Fault Refusal :=
  match pos with
  | .check =>
    if misaligned s.v.p then goOn (.finishing x.cmd .faultAlign) s
    else if geomOk (driveRecord s s.v.d) then goOn (x.place .select) s
    else goOn (.finishing x.cmd .faultGeom) s
  | .select => goOn (x.place (.notBusy .settle)) (armWait (devWrite8 .devhead (devsel s.cfg s.v.d) s))
  | .notBusy p => (waitNotBusy p s).into (fun p => x.place (.notBusy p)) (orFinish x.cmd (x.place .precomp))
  | .precomp => goOn (x.place .chunk) (devWrite8 .wprecomp 0 s)
  | .chunk =>
    if s.v.n = 0 then goOn (.finishing x.cmd .ok) s else goOn (x.place .seccnt) (beginChunk s)
  | .seccnt => goOn (x.place (.address .secnum)) (devWrite8 .seccnt s.v.k s)
  | .address p => (setAddress p s).into (fun p => x.place (.address p)) (orFinish x.cmd (x.place .command))
  | .command => goOn (x.place (.dataRequest .settle)) (beginSectors (devWrite8 .command (x.cmdByte s.cfg) s))
  | .dataRequest p =>
    (waitDataRequest p s).into (fun p => x.place (.dataRequest p))
      fun r s' => orFinish x.cmd (x.place (.move x.first)) r (armMove s')
  | .move p => (x.move s.v.p p s).into (fun p => x.place (.move p)) fun _ => goto (x.place .advance)
  | .advance => advance x s
  | .afterChunk p => (waitNotBusy p s).into (fun p => x.place (.afterChunk p)) (orFinish x.cmd (x.place .chunk))

/-- `READ` (R169). -/
def execRead (s : State) : Host.Outcome State Fault Refusal :=
  match s.phase with
  | .idle => .next (accept .read (.read .check) s)
  | .read pos => transferAt reading pos s
  | .finishing .read r => .next (finish r s)
  | _ => .next (turnAway s)

/-- `WRITE` (R170). -/
def execWrite (s : State) : Host.Outcome State Fault Refusal :=
  match s.phase with
  | .idle => .next (accept .write (.write .check) s)
  | .write pos => transferAt writing pos s
  | .finishing .write r => .next (finish r s)
  | _ => .next (turnAway s)

end Sys2Proof.Machine
end

