-- ==== Sys2Proof/Machine/Identify.lean ====
section
/-! DEFINITION. The commands of 42_identify.md: `IDENTIFY` (R201), `PARSEID` (R202) and `DISCOVER` (R203) over
`identify_one` (R200) and `parse` (R204 to R212). -/

namespace Sys2Proof.Machine

/-- `parse(d, p)`: the snapshot, the parse and the record's write in one step (R204, R210, R212); none where the
memory refuses (20_memory.md R65). -/
def parse (d : BitVec 1) (p : Word) (s : State) : Option State :=
  match memSnap512 p s with
  | none => none
  | some x => some (setDriveRecord d (parseBlock x.1) x.2)

/-- A position of `identify_one(d, p)` (R200); `place` embeds its positions, `k` takes its outcome. -/
def identifyOne (place : IdentPos → Phase) (k : Result → State → State) (d : BitVec 1) (pos : IdentPos) (s : State) :
    Host.Outcome State Fault Refusal :=
  match pos with
  | .select => goOn (place (.notBusy .settle)) (armWait (devWrite8 .devhead (devsel s.cfg d) s))
  | .notBusy p =>
    (waitNotBusy p s).into (fun p => place (.notBusy p))
      fun r s' => if r = .ok then goto (place .command) s' else k r s'
  | .command => goOn (place (.dataRequest .settle)) (armWait (devWrite8 .command s.cfg.cmdIdentify s))
  | .dataRequest p =>
    (waitDataRequest p s).into (fun p => place (.dataRequest p))
      fun r s' => if r = .ok then goto (place (.move .dataLo)) (armMove s') else k r s'
  | .move p => (moveIn s.v.p p s).into (fun p => place (.move p)) fun _ => goto (place .parse)
  | .parse =>
    match parse d s.v.p s with
    | none => .fault (.memoryRefused s.v.p)
    | some s' => .next (k .ok s')

/-- A position of `IDENTIFY` (R201). -/
def identifyAt (pos : IdentifyPos) (s : State) : Host.Outcome State Fault Refusal :=
  match pos with
  | .check =>
    if misaligned s.v.p then goOn (.finishing .identify .faultAlign) s else goOn (.identify .clear) s
  | .clear => goOn (.identify (.drive .select)) (clearRecord s.v.d s)
  | .drive p => identifyOne (fun p => .identify (.drive p)) (fun r => goto (.finishing .identify r)) s.v.d p s

/-- `IDENTIFY` (R201). -/
def execIdentify (s : State) : Host.Outcome State Fault Refusal :=
  match s.phase with
  | .idle => .next (accept .identify (.identify .check) s)
  | .identify pos => identifyAt pos s
  | .finishing .identify r => .next (finish r s)
  | _ => .next (turnAway s)

/-- A position of `PARSEID` (R202). -/
def parseidAt (pos : ParseidPos) (s : State) : Host.Outcome State Fault Refusal :=
  match pos with
  | .check =>
    if misaligned s.v.p then goOn (.finishing .parseid .faultAlign) s else goOn (.parseid .parse) s
  | .parse =>
    match parse s.v.d s.v.p s with
    | none => .fault (.memoryRefused s.v.p)
    | some s' => goOn (.finishing .parseid .ok) s'

/-- `PARSEID` (R202). -/
def execParseid (s : State) : Host.Outcome State Fault Refusal :=
  match s.phase with
  | .idle => .next (accept .parseid (.parseid .check) s)
  | .parseid pos => parseidAt pos s
  | .finishing .parseid r => .next (finish r s)
  | _ => .next (turnAway s)

/-- `clear(0); clear(1); DRVCOUNT <- 0` (R203, R213). -/
def clearDrives (s : State) : State := { clearRecord 1 (clearRecord 0 s) with drvcount := 0 }

/-- The drive loop begins: `cnt <- 0`, `dd = 0` (R203). -/
def beginDrives (s : State) : State := { s with v := { s.v with cnt := 0, dd := 0 } }

/-- The drive of the loop's current turn. -/
def loopDrive (s : State) : BitVec 1 := s.v.dd.setWidth 1

/-- After one drive: it is counted iff its outcome is `OK`, a failure is absorbed, and the loop goes on with drive 1
or ends (R203; 60_exceptions.md R246). -/
def driveDone (r : Result) (s : State) : State :=
  let s1 := if r = .ok then { s with v := { s.v with cnt := s.v.cnt + 1 } } else s
  if s1.v.dd = 0 then goto (.discover (.drive .select)) { s1 with v := { s1.v with dd := 1 } }
  else goto (.discover .count) s1

/-- A position of `DISCOVER` (R203). Both drives use the one block at `BUF`, so drive 1's data is written where drive
0's snapshot read, as R203 says; 20_memory.md R74's last sentence says otherwise (log entry 24). -/
def discoverAt (pos : DiscoverPos) (s : State) : Host.Outcome State Fault Refusal :=
  match pos with
  | .check =>
    if misaligned s.v.p then goOn (.finishing .discover .faultAlign) s else goOn (.discover .clear) s
  | .clear => goOn (.discover (.probe .writeLo)) (clearDrives s)
  | .probe p =>
    (probeCtrl p s).into (fun p => .discover (.probe p))
      fun r s' => if r = .ok then goto (.discover (.drive .select)) (beginDrives s')
        else goto (.finishing .discover .noctrl) s'
  | .drive p => identifyOne (fun p => .discover (.drive p)) driveDone (loopDrive s) p s
  | .count => goOn (.finishing .discover .ok) { s with drvcount := s.v.cnt }

/-- `DISCOVER` (R203). -/
def execDiscover (s : State) : Host.Outcome State Fault Refusal :=
  match s.phase with
  | .idle => .next (accept .discover (.discover .check) s)
  | .discover pos => discoverAt pos s
  | .finishing .discover r => .next (finish r s)
  | _ => .next (turnAway s)

end Sys2Proof.Machine
end

