-- ==== Sys2Proof/Machine/HostPort.lean ====
section
/-! DEFINITION. The host's side: the register window (10_state.md R21 to R37), what each host operation does, which
agent moves next, and the host notation (30_encoding.md R104, R105). -/

namespace Sys2Proof.Machine

/-! ### The register window -/

/-- A field of a drive record in the window (10_state.md R37); a string field is read a word at a time. -/
inductive DriveField where
  | dflags | total | cyl | heads | spt
  | model (i : Nat)
  | fw (i : Nat)
  deriving DecidableEq, Repr

/-- A register of the window (10_state.md R21). -/
inductive HostReg where
  | cmd | estat | drive | lba | count | buf | errinfo | drvcount | progress
  | drv (d : BitVec 1) (f : DriveField)
  deriving DecidableEq, Repr

/-- The field of a drive record at an offset in it (10_state.md R37); none where the offset is unassigned. -/
def fieldAt (off : Nat) : Option DriveField :=
  if off = 0x00 then some .dflags
  else if off = 0x04 then some .total
  else if off = 0x08 then some .cyl
  else if off = 0x0C then some .heads
  else if off = 0x10 then some .spt
  else if 0x20 ≤ off ∧ off < 0x4C ∧ off % 4 = 0 then some (.model ((off - 0x20) / 4))
  else if 0x50 ≤ off ∧ off < 0x5C ∧ off % 4 = 0 then some (.fw ((off - 0x50) / 4))
  else none

/-- The register at an offset of the window (10_state.md R21); none where the offset is unassigned. -/
def regAt (off : Nat) : Option HostReg :=
  if off = 0x000 then some .cmd
  else if off = 0x004 then some .estat
  else if off = 0x008 then some .drive
  else if off = 0x00C then some .lba
  else if off = 0x010 then some .count
  else if off = 0x014 then some .buf
  else if off = 0x018 then some .errinfo
  else if off = 0x01C then some .drvcount
  else if off = 0x020 then some .progress
  else if 0x080 ≤ off ∧ off < 0x100 then (fieldAt (off - 0x080)).map (.drv 0)
  else if 0x100 ≤ off ∧ off < 0x180 then (fieldAt (off - 0x100)).map (.drv 1)
  else none

/-- `DFLAGS` (10_state.md R37, R38). -/
def dflagsWord (r : DriveRecord) : Word := (0 : BitVec 30) ++ BitVec.ofBool r.lba ++ BitVec.ofBool r.present

/-- Word `i` of a string field, the byte at the lowest offset least significant (10_state.md R42). -/
def stringWord (l : List Byte) (i : Nat) : Word :=
  wordOfBytes (l.getD (4 * i) 0) (l.getD (4 * i + 1) 0) (l.getD (4 * i + 2) 0) (l.getD (4 * i + 3) 0)

/-- What a field of a drive record reads as (10_state.md R37 to R43). -/
def fieldWord (r : DriveRecord) : DriveField → Word
  | .dflags => dflagsWord r
  | .total => r.total
  | .cyl => r.cyl
  | .heads => r.heads.setWidth 32
  | .spt => r.spt.setWidth 32
  | .model i => stringWord r.model.toList i
  | .fw i => stringWord r.fw.toList i

/-- What a register of the window reads as (10_state.md R22 to R37); `CMD` reads 0. -/
def regWord (s : State) : HostReg → Word
  | .cmd => 0
  | .estat => estatWord s.estat
  | .drive => s.drive.setWidth 32
  | .lba => s.lba
  | .count => s.count
  | .buf => s.buf
  | .errinfo => s.errinfo.setWidth 32
  | .drvcount => s.drvcount.setWidth 32
  | .progress => s.progress
  | .drv d f => fieldWord (driveRecord s d) f

/-- What an offset of the window reads as; an unassigned offset reads 0 (10_state.md R21). -/
def windowRead (s : State) (off : Nat) : Word :=
  match regAt off with
  | some r => regWord s r
  | none => 0

/-- A write to an argument register (10_state.md R28 to R31), or, while busy, its being turned away (R35). -/
def writeArgument (f : State → State) (s : State) : State := if s.estat.busy then turnAway s else f s

/-- A write of `v` to a register other than `CMD` (10_state.md R23, R28 to R31, R35). -/
def regWrite (r : HostReg) (v : Word) (s : State) : State :=
  match r with
  | .estat => if v.getLsbD 2 then { s with estat := { s.estat with rej := false } } else s
  | .drive => writeArgument (fun s => { s with drive := v.setWidth 1 }) s
  | .lba => writeArgument (fun s => { s with lba := v }) s
  | .count => writeArgument (fun s => { s with count := v }) s
  | .buf => writeArgument (fun s => { s with buf := v }) s
  | .cmd => s
  | .errinfo => s
  | .drvcount => s
  | .progress => s
  | .drv _ _ => s

/-! ### Host operations and turns -/

/-- The move that comes next. -/
inductive Move where
  /-- The state after a move that runs no command. -/
  | settled (s : State)
  /-- The host issues a command to the idle engine (10_state.md R22). -/
  | issue (i : Instr) (s : State)
  /-- The engine takes the next step of its running command. -/
  | engine (i : Instr) (s : State)
  /-- An access with no meaning. -/
  | refuse (r : Refusal)

/-- A host read returns a value. -/
def returnToHost (v : Word) (s : State) : State := { s with hostReads := v :: s.hostReads }

/-- A write to `CMD` (10_state.md R22, R35; 30_encoding.md R91, R92). -/
def writeCmd (v : Word) (s : State) : Move :=
  if s.estat.busy then .settled (turnAway s)
  else match decodeWord v with
    | .ok i => .issue i s
    | .error _ => .settled (rejectIllegal v s)

/-- A host write to the register window. -/
def hostWrite (off width : Nat) (v : Word) (s : State) : Move :=
  if hostAccessOk off width then
    match regAt off with
    | some .cmd => writeCmd v s
    | some r => .settled (regWrite r v s)
    | none => .settled s
  else .refuse (.hostAccess off width)

/-- The host writes a memory word. In the running command's buffer region it is a race (20_memory.md R72): the word
ends as either value where the command writes the region, and the engine's reads see either value. -/
def hostStore (wa : BitVec 30) (v : Word) (s : State) : State :=
  if ownsWord s wa then
    let old := s.mem.word (byteAddr wa)
    let c := (raceAt s wa).getD { word := wa, base := old, host := [] }
    let x := if regionWritten s then choose [v, c.base] s else (v, s)
    { x.2 with mem := s.mem.putWord (byteAddr wa) x.1, races := putRace { c with host := v :: c.host } s.races }
  else { s with mem := s.mem.putWord (byteAddr wa) v }

/-- The host reads a memory word. In the running command's buffer region it is a race and returns a free value
(20_memory.md R72). -/
def hostLoad (wa : BitVec 30) (s : State) : State :=
  if ownsWord s wa then returnToHost (Config.freeWord s.draws) { s with draws := s.draws + 1 }
  else returnToHost (s.mem.word (byteAddr wa)) s

/-- One read of `ESTAT` by `hpoll`, which goes on while bit 0 is 1 (30_encoding.md R104). -/
def hostPoll (gap : Nat) (s : State) : State :=
  let s1 := returnToHost (estatWord s.estat) s
  if s.estat.busy then { s1 with inputs := { delay := gap + 1, op := .hpoll gap } :: s1.inputs } else s1

/-- What a host operation does (60_exceptions.md R252). -/
def hostMove (op : HostOp) (s : State) : Move :=
  match op with
  | .write off width v => hostWrite off width v s
  | .read off width =>
    if hostAccessOk off width then .settled (returnToHost (windowRead s off) s) else .refuse (.hostAccess off width)
  | .hpoll gap => .settled (hostPoll gap s)
  | .memWrite wa v => .settled (hostStore wa v s)
  | .memRead wa => .settled (hostLoad wa s)
  | .reset => .settled (engineReset s)

/-- The engine's turn: a step of the running command, or, in `IDLE`, nothing (60_exceptions.md R256). -/
def engineMove (s : State) : Move :=
  match s.phase.command with
  | some i => .engine i s
  | none => .settled s

/-- Who moves next: a host operation that is due, else the engine, a pending operation coming one turn nearer. -/
def nextMove (s : State) : Move :=
  match s.inputs with
  | [] => engineMove s
  | x :: rest =>
    match x.delay with
    | 0 => hostMove x.op { s with inputs := rest }
    | m + 1 => engineMove { s with inputs := { x with delay := m } :: rest }

/-- The engine's turn ends. An engine with no step (20_memory.md R65) stays as it is while a host operation is still
to come, and else the machine has stopped. -/
def settleTurn (s : State) (x : Host.Outcome State Fault Refusal) : Host.Outcome State Fault Refusal :=
  match x with
  | .fault (.memoryRefused a) => if s.inputs = [] then .fault (.memoryRefused a) else .next s
  | y => y

/-- The input by which the host issues a command word at once. -/
def issueInput (w : Word) : Input := { delay := 0, op := .write 0x000 4 w }

/-- The state with the engine idle and the host about to write `w` to `CMD` (log entry 8). -/
def placeCommand (w : Word) (s : State) : State :=
  { s with phase := .idle, estat := { s.estat with busy := false }, inputs := issueInput w :: s.inputs }

/-! ### The host notation (30_encoding.md R104, R105) -/

/-- `hw REG, v` at a register's offset. -/
def hw (off : Nat) (v : Word) : HostOp := .write off 4 v

/-- `hr REG`. -/
def hr (off : Nat) : HostOp := .read off 4

/-- The pseudo-instructions of 30_encoding.md R105. -/
inductive HostStmt where
  | select (d : Word)
  | waitnb
  | waitdrq
  | setaddr (d s : Word)
  | read (d s n a : Word)
  | write (d s n a : Word)
  | identify (d a : Word)
  | parseid (d a : Word)
  | probe
  | discover (a : Word)
  | clrrej
  deriving DecidableEq, Repr

/-- The expansion of a pseudo-instruction (30_encoding.md R105), `gap` the turns between two polls. -/
def expand (gap : Nat) : HostStmt → List HostOp
  | .select d => [hw 0x008 d, hw 0x000 0x01, .hpoll gap]
  | .waitnb => [hw 0x000 0x02, .hpoll gap]
  | .waitdrq => [hw 0x000 0x03, .hpoll gap]
  | .setaddr d s => [hw 0x008 d, hw 0x00C s, hw 0x000 0x04, .hpoll gap]
  | .read d s n a => [hw 0x008 d, hw 0x00C s, hw 0x010 n, hw 0x014 a, hw 0x000 0x05, .hpoll gap]
  | .write d s n a => [hw 0x008 d, hw 0x00C s, hw 0x010 n, hw 0x014 a, hw 0x000 0x06, .hpoll gap]
  | .identify d a => [hw 0x008 d, hw 0x014 a, hw 0x000 0x07, .hpoll gap]
  | .parseid d a => [hw 0x008 d, hw 0x014 a, hw 0x000 0x08, .hpoll gap]
  | .probe => [hw 0x000 0x09, .hpoll gap]
  | .discover a => [hw 0x014 a, hw 0x000 0x0A, .hpoll gap]
  | .clrrej => [hw 0x004 0x4]

/-- A host program as inputs: each operation due at once after the one before. -/
def program (gap : Nat) (l : List HostStmt) : List Input :=
  (l.flatMap (expand gap)).map fun op => { delay := 0, op := op }

end Sys2Proof.Machine
end

