-- ==== Sys2Proof/Machine/Dispatch.lean ====
section
/-! DEFINITION. One arm per command: the meaning of a command is the one step it takes (00_scope.md R13). -/

namespace Sys2Proof.Machine

def exec (i : Instr) (s : State) : Host.Outcome State Fault Refusal :=
  match i with
  | .select => Sys2Proof.Machine.execSelect s
  | .waitnb => Sys2Proof.Machine.execWaitnb s
  | .waitdrq => Sys2Proof.Machine.execWaitdrq s
  | .setaddr => Sys2Proof.Machine.execSetaddr s
  | .read => Sys2Proof.Machine.execRead s
  | .write => Sys2Proof.Machine.execWrite s
  | .identify => Sys2Proof.Machine.execIdentify s
  | .parseid => Sys2Proof.Machine.execParseid s
  | .probe => Sys2Proof.Machine.execProbe s
  | .discover => Sys2Proof.Machine.execDiscover s

end Sys2Proof.Machine
end

