-- ==== Sys2Proof/Machine/Step.lean ====
section
/-! DEFINITION. One step of the machine: one host operation, or one step of the running command (00_scope.md R13),
or, where neither is to be done, nothing. -/

namespace Sys2Proof.Machine

/-- One step. -/
def step (s : State) : Host.Outcome State Fault Refusal :=
  match nextMove s with
  | .settled s' => .next s'
  | .issue i s' => exec i s'
  | .engine i s' => settleTurn s' (exec i s')
  | .refuse r => .refused r

/-- The state with the opcode table's word `w` of `nbits` bits, every bit above `nbits` zero, about to be written to
`CMD` by the host, which is how a command comes to run (10_state.md R22; log entry 8). -/
def State.withFetchWord (s : State) (nbits w : Nat) : State := placeCommand (BitVec.ofNat 32 (w % 2 ^ nbits)) s

end Sys2Proof.Machine
end

