-- ==== Sys2Proof/Safety.lean ====
section
/-! DEFINITION. The terms claims are stated in: the trace of a part of a run, and the predicates on a state that every
step keeps (the canonical memory, the status fields and result table, the positions that need a latch or a geometry,
the alignment of every memory access, the progress of a transfer, the drive count, the legal events of a trace). -/

namespace Sys2Proof.Safety

open Sys2Proof.Machine

/-- The events from state `s` to a later state `t`, oldest first: the trace of that part of the run
(20_memory.md R69). -/
def eventsSince (s t : State) : List Event := (t.trace.take (t.trace.length - s.trace.length)).reverse

/-! ### What a step reads from outside, and where an inlined subroutine stands -/

/-- `b` is a possible answer of the device to an 8-bit read: the script's next answer, and any byte past the
script's end (20_memory.md R70). -/
def Answers8 (s : State) (b : Byte) : Prop := ∀ x xs, s.devScript = x :: xs → b = x.setWidth 8

/-- `w` is a possible answer of the device to a 32-bit read. -/
def Answers32 (s : State) (w : Word) : Prop := ∀ x xs, s.devScript = x :: xs → w = x

/-- `b` is a possible poll budget of a wait: the script's next draw plus 1, and any number from 1 on past the
script's end (40_port_handshake.md R136). -/
def Draws (s : State) (b : Nat) : Prop := 1 ≤ b ∧ ∀ x xs, s.budgets = x :: xs → b = x + 1

/-- For every position in the settle loop of a wait, in whichever command, the position of its poll loop
(40_port_handshake.md R135). -/
def settleToPoll : Phase → Option Phase
  | .waitnb .settle => some (.waitnb .poll)
  | .waitdrq .settle => some (.waitdrq .poll)
  | .read (.notBusy .settle) => some (.read (.notBusy .poll))
  | .read (.dataRequest .settle) => some (.read (.dataRequest .poll))
  | .read (.afterChunk .settle) => some (.read (.afterChunk .poll))
  | .write (.notBusy .settle) => some (.write (.notBusy .poll))
  | .write (.dataRequest .settle) => some (.write (.dataRequest .poll))
  | .write (.afterChunk .settle) => some (.write (.afterChunk .poll))
  | .identify (.drive (.notBusy .settle)) => some (.identify (.drive (.notBusy .poll)))
  | .identify (.drive (.dataRequest .settle)) => some (.identify (.drive (.dataRequest .poll)))
  | .discover (.drive (.notBusy .settle)) => some (.discover (.drive (.notBusy .poll)))
  | .discover (.drive (.dataRequest .settle)) => some (.discover (.drive (.dataRequest .poll)))
  | _ => none

/-- A step of `WAITNB` read as a step of the same wait inlined in another command (00_scope.md R9): `place` embeds
the wait's positions, `k` is what the command does with the outcome. -/
def inlineNb (place : NbPos → Phase) (k : Result → State → State) :
    Host.Outcome State Fault Refusal → Host.Outcome State Fault Refusal
  | .next t =>
    match t.phase with
    | .waitnb q => .next { t with phase := place q }
    | .finishing _ r => .next (k r t)
    | _ => .next t
  | x => x

/-- The same for a step of `WAITDRQ`. -/
def inlineDrq (place : DrqPos → Phase) (k : Result → State → State) :
    Host.Outcome State Fault Refusal → Host.Outcome State Fault Refusal
  | .next t =>
    match t.phase with
    | .waitdrq q => .next { t with phase := place q }
    | .finishing _ r => .next (k r t)
    | _ => .next t
  | x => x

/-- The same for a step of READ's sector mover; the mover returns to `next`. -/
def inlineMove (place : InPos → Phase) (next : Phase) :
    Host.Outcome State Fault Refusal → Host.Outcome State Fault Refusal
  | .next t =>
    match t.phase with
    | .read (.move q) => .next { t with phase := place q }
    | _ => .next { t with phase := next }
  | x => x

/-- On an outcome: `ph` after `OK`, else the command `c` finishes with the outcome (41_transfer.md R167). -/
def okOrFinish (c : Instr) (ph : Phase) (r : Result) (t : State) : State :=
  { t with phase := if r = .ok then ph else .finishing c r }

/-- A drive's failure in DISCOVER: the drive is not counted, and the loop goes on or ends (42_identify.md R203,
60_exceptions.md R246). -/
def absorb (t : State) : State :=
  if t.v.dd = 0 then { t with v := { t.v with dd := 1 }, phase := .discover (.drive .select) }
  else { t with phase := .discover .count }

/-- DISCOVER on a drive's outcome. -/
def okOrAbsorb (ph : Phase) (r : Result) (t : State) : State := if r = .ok then { t with phase := ph } else absorb t

/-- The first position of each command's pseudocode, where its acceptance leaves it (10_state.md R45; as the model
cuts the steps, log entry 19): SELECT's device write (40_port_handshake.md R143), the settle reads of a wait (R135,
R144, R145), the start check (41_transfer.md R163, R164; 42_identify.md R201 to R203), the probe's first write
(40_port_handshake.md R146, R147). -/
def firstPosition : Instr → Phase
  | .select => .select
  | .waitnb => .waitnb .settle
  | .waitdrq => .waitdrq .settle
  | .setaddr => .setaddr .check
  | .read => .read .check
  | .write => .write .check
  | .identify => .identify .check
  | .parseid => .parseid .check
  | .probe => .probe .writeLo
  | .discover => .discover .check

/-- The byte of `set_address(d, sec)` at each of its positions, in the arithmetic of the rules: for an LBA drive the
sector's bytes (41_transfer.md R160), for a CHS drive those of `s1`, `c` and `h` (R161, R173). -/
def addressByte (s : State) (p : AddrPos) : Byte :=
  let r := driveRecord s s.v.d
  let sec := s.v.sec.toNat
  let select := if s.v.d = 0 then s.cfg.devsel0 else s.cfg.devsel1
  if r.lba then
    match p with
    | .secnum => BitVec.ofNat 8 sec
    | .cyllo => BitVec.ofNat 8 (sec / 2 ^ 8)
    | .cylhi => BitVec.ofNat 8 (sec / 2 ^ 16)
    | .devhead => select ||| s.cfg.lbaBit ||| BitVec.ofNat 8 (sec / 2 ^ 24 % 16)
  else
    match p with
    | .secnum => BitVec.ofNat 8 (sec % r.spt.toNat + 1)
    | .cyllo => BitVec.ofNat 8 (sec / r.spt.toNat / r.heads.toNat)
    | .cylhi => BitVec.ofNat 8 (sec / r.spt.toNat / r.heads.toNat / 2 ^ 8)
    | .devhead => select ||| BitVec.ofNat 8 (sec / r.spt.toNat % r.heads.toNat % 16)

/-- The position of `set_address` in the three commands that call it. -/
def addressAt (c : Instr) (p : AddrPos) : Phase :=
  match c with
  | .read => .read (.address p)
  | .write => .write (.address p)
  | _ => .setaddr (.address p)

/-- The position after each of `set_address`'s, in the command `c` that called it. -/
def addressNext (c : Instr) : AddrPos → Phase
  | .secnum => addressAt c .cyllo
  | .cyllo => addressAt c .cylhi
  | .cylhi => addressAt c .devhead
  | .devhead =>
    match c with
    | .read => .read .command
    | .write => .write .command
    | _ => .finishing .setaddr .ok

/-- The bytes of the block at `p`, addresses mod 2^32 (42_identify.md R204). -/
def blockBytes (m : Memory) (p : Word) : List Byte :=
  (List.range 512).map fun k => m.byte (p + BitVec.ofNat 32 k).toNat

/-- Identify word `n` of a block as a number (42_identify.md R204). -/
def idValue (blk : List Byte) (n : Nat) : Nat := 256 * (blk.getD (2 * n + 1) 0).toNat + (blk.getD (2 * n) 0).toNat

/-- Character `k` of the string held in the words from `a` on: each word's high byte, then its low byte
(30_encoding.md R103, 42_identify.md R208). -/
def idChar (blk : List Byte) (a k : Nat) : Byte :=
  if k % 2 = 0 then blk.getD (2 * (a + k / 2) + 1) 0 else blk.getD (2 * (a + k / 2)) 0

/-- Byte `k` of a string field of `len` characters from word `a` on: a character up to the last printable one, then
0 (42_identify.md R208, R209). -/
def StringByte (blk : List Byte) (a len k : Nat) (b : Byte) : Prop :=
  ((∃ m, k ≤ m ∧ m < len ∧ 0x21 ≤ (idChar blk a m).toNat ∧ (idChar blk a m).toNat ≤ 0x7E) → b = idChar blk a k) ∧
    ((∀ m, k ≤ m → m < len → ¬(0x21 ≤ (idChar blk a m).toNat ∧ (idChar blk a m).toNat ≤ 0x7E)) → b = 0)

/-- The registers a frame speaks of that no command's step writes, but for the acceptance: the configuration, the
argument registers, the refusing ranges of memory, the host's pending operations and the values it read. -/
structure HostSideKept (s t : State) : Prop where
  cfg : t.cfg = s.cfg
  drive : t.drive = s.drive
  lba : t.lba = s.lba
  count : t.count = s.count
  buf : t.buf = s.buf
  refused : t.refused = s.refused
  inputs : t.inputs = s.inputs
  hostReads : t.hostReads = s.hostReads

/-- What a command's step does to the status register, `ERRINFO` and `PROGRESS`: the acceptance from `IDLE`
(10_state.md R24), the finish (R25), being turned away while another command runs (R35), or a step in between, which
writes no status field, `ERRINFO` only at the read of the error register (40_port_handshake.md R139), and `PROGRESS`
only by counting one sector (R141, R142); `captures` and `counts` say whether the command does either. -/
def StatusFrame (c : Instr) (captures counts : Bool) (s t : State) : Prop :=
  (s.phase = .idle ∧
      t.estat = { s.estat with busy := true, done := false, result := 0, lastcmd := c.code } ∧ t.errinfo = 0 ∧
        t.progress = 0) ∨
    (∃ r, s.phase = .finishing c r ∧
      t.estat = { s.estat with busy := false, done := true, result := resultCode r } ∧ t.errinfo = s.errinfo ∧
        t.progress = s.progress) ∨
    (s.phase.command ≠ none ∧ s.phase.command ≠ some c ∧ t = { s with estat := { s.estat with rej := true } }) ∨
    (s.phase.command = some c ∧ t.estat = s.estat ∧
      (t.errinfo = s.errinfo ∨
        captures = true ∧ ∃ e, t.errinfo = s.v.status ++ e ∧ t.trace = .r .error e :: s.trace) ∧
      (t.progress = s.progress ∨ counts = true ∧ t.progress = s.progress + 1))

/-- The word a step of READ, IDENTIFY or DISCOVER stores to: at the mover's store position, memory word `j` of the
sector at `p` (40_port_handshake.md R141). -/
def storeAddress (s : State) : Option Word :=
  match s.phase with
  | .read (.move .store) => some (sectorWord s.v.p s.v.j)
  | .identify (.drive (.move .store)) => some (sectorWord s.v.p s.v.j)
  | .discover (.drive (.move .store)) => some (sectorWord s.v.p s.v.j)
  | _ => none

/-- Every byte of memory outside the word stored to, if any, reads as before. -/
def MemoryFrame (s t : State) : Prop :=
  (storeAddress s = none → ∀ x, t.mem.byte x = s.mem.byte x) ∧
    ∀ a, storeAddress s = some a → ∀ x, x ≠ a.toNat → x ≠ (a + 1).toNat → x ≠ (a + 2).toNat → x ≠ (a + 3).toNat →
      t.mem.byte x = s.mem.byte x

/-- How a running command's step uses host memory (00_scope.md R13, 20_memory.md R61, R74): a step makes at most one
event; READ, IDENTIFY and DISCOVER write memory words, WRITE alone reads them, and PARSEID, IDENTIFY and DISCOVER take
snapshots. After a snapshot PARSEID and IDENTIFY have only their finish left, and DISCOVER its drive 1 or its end, so
that no command but a DISCOVER of two drives reads memory and then writes it (log entry 24). -/
structure MemoryUse (c : Instr) (s t : State) : Prop where
  oneEvent : t.trace = s.trace ∨ ∃ e, t.trace = e :: s.trace
  writes : ∀ a v, t.trace = .mw a v :: s.trace → c = .read ∨ c = .identify ∨ c = .discover
  reads : ∀ a v, t.trace = .mr a v :: s.trace → c = .write
  snapshots : ∀ a, t.trace = .ms a :: s.trace →
    (c = .parseid ∨ c = .identify) ∧ t.phase = .finishing c .ok ∨
      c = .discover ∧ (t.phase = .discover (.drive .select) ∧ t.v.dd = 1 ∨ t.phase = .discover .count)

/-! ### Status fields and results -/

/-- The results a command can finish with: the table of 60_exceptions.md R241. -/
def canFinish : Instr → Result → Bool
  | .select, r => r == .ok
  | .waitnb, r => r == .ok || r == .timeout
  | .waitdrq, r => r == .ok || r == .timeout || r == .deverr
  | .setaddr, r => r == .ok || r == .faultGeom
  | .read, r => r == .ok || r == .timeout || r == .deverr || r == .faultGeom || r == .faultAlign
  | .write, r => r == .ok || r == .timeout || r == .deverr || r == .faultGeom || r == .faultAlign
  | .identify, r => r == .ok || r == .timeout || r == .deverr || r == .faultAlign
  | .parseid, r => r == .ok || r == .faultAlign
  | .probe, r => r == .ok || r == .noctrl
  | .discover, r => r == .ok || r == .noctrl || r == .faultAlign

/-- The finish position about to run reports a result its command can finish with (60_exceptions.md R241). -/
def FinishOk (ph : Phase) : Prop := ∀ c r, ph = .finishing c r → canFinish c r = true

/-- What a finished command reports: its own code with a result of its row of 60_exceptions.md R241, or
`ILLEGAL_CMD`. -/
def ReportOk (e : Estat) : Prop :=
  e.result = resultCode .illegalCmd ∨ ∃ c r, canFinish c r = true ∧ e.lastcmd = c.code ∧ e.result = resultCode r

/-- The status fields and the phase agree (10_state.md R23 to R25, R27; 60_exceptions.md R240, R241). -/
structure StatusOk (s : State) : Prop where
  busyIffRunning : s.estat.busy = true ↔ s.phase ≠ .idle
  notBoth : ¬(s.estat.busy = true ∧ s.estat.done = true)
  noResultWhileBusy : s.estat.busy = true → s.estat.result = 0
  lastcmdRuns : ∀ c, s.phase.command = some c → s.estat.lastcmd = c.code
  finishes : FinishOk s.phase
  reports : s.estat.done = true → ReportOk s.estat

/-! ### Positions -/

/-- A latch access (00_scope.md R10). -/
def latchIn : InPos → Bool
  | .latchLo => true
  | .latchHi => true
  | _ => false

/-- The second access of a data write through the latch (40_port_handshake.md R131). -/
def latchOut : OutPos → Bool
  | .secondLo => true
  | .secondHi => true
  | _ => false

/-- A position inside `identify_one` that accesses the latch. -/
def latchIdent : IdentPos → Bool
  | .move p => latchIn p
  | _ => false

/-- A position that exists only with `P_TRANSPORT = LATCH8`. -/
def latchPos : Phase → Bool
  | .read (.move p) => latchIn p
  | .write (.move p) => latchOut p
  | .identify (.drive p) => latchIdent p
  | .discover (.drive p) => latchIdent p
  | _ => false

/-- A position behind the geometry guard of a command that calls `set_address` (41_transfer.md R162). -/
def geomPos : Phase → Bool
  | .setaddr (.address _) => true
  | .read p => p != .check
  | .write p => p != .check
  | _ => false

/-- A position behind the alignment check of a command that uses `BUF` (20_memory.md R62). -/
def bufferPos : Phase → Bool
  | .read p => p != .check
  | .write p => p != .check
  | .identify p => p != .check
  | .parseid p => p != .check
  | .discover p => p != .check
  | _ => false

/-- The position fits the configuration and the drive's record. -/
structure PhaseOk (s : State) : Prop where
  latch : latchPos s.phase = true → hasLatch s.cfg = true
  geometry : geomPos s.phase = true → geomOk (driveRecord s s.v.d) = true

/-- The current buffer address is aligned behind the alignment check (20_memory.md R62, R63). -/
def BufferAligned (s : State) : Prop := bufferPos s.phase = true → misaligned s.v.p = false

/-! ### The progress of a transfer -/

/-- Between chunks: the sectors moved and the sectors remaining make the count, and the current sector and buffer
address stand at the next sector (41_transfer.md R164, R165). -/
structure BetweenChunks (s : State) : Prop where
  sectors : s.progress.toNat + s.v.n.toNat = s.count.toNat
  buffer : s.v.p = s.buf + 512 * s.progress
  sector : s.v.sec = s.lba + s.progress
  chunkStart : s.v.n ≠ 0 → s.progress.toNat % s.cfg.maxChunk.toNat = 0

/-- Inside a chunk, `moved` sectors of it done: it starts at a multiple of `P_MAX_CHUNK`, its size is
`min(n, P_MAX_CHUNK)`, and `sec` and `n` are those of its start (41_transfer.md R164, R165). -/
structure InChunk (s : State) (moved : Nat) : Prop where
  some : s.v.n ≠ 0
  size : s.v.k = chunkSize s.cfg s.v.n
  bound : moved ≤ s.v.k.toNat
  start : moved ≤ s.progress.toNat
  chunkStart : (s.progress.toNat - moved) % s.cfg.maxChunk.toNat = 0
  sectors : s.progress.toNat - moved + s.v.n.toNat = s.count.toNat
  sector : s.v.sec + BitVec.ofNat 32 moved = s.lba + s.progress

/-- The progress of a READ or WRITE at a position of `transfer(dir)`. -/
def XferOk {μ : Type} (s : State) : XferPos μ → Prop
  | .check => s.progress = 0 ∧ s.v.n = s.count ∧ s.v.p = s.buf ∧ s.v.sec = s.lba
  | .select => s.progress = 0 ∧ s.v.n = s.count ∧ s.v.p = s.buf ∧ s.v.sec = s.lba
  | .notBusy _ => s.progress = 0 ∧ s.v.n = s.count ∧ s.v.p = s.buf ∧ s.v.sec = s.lba
  | .precomp => s.progress = 0 ∧ s.v.n = s.count ∧ s.v.p = s.buf ∧ s.v.sec = s.lba
  | .chunk => BetweenChunks s
  | .seccnt => InChunk s 0 ∧ s.v.p = s.buf + 512 * s.progress
  | .address _ => InChunk s 0 ∧ s.v.p = s.buf + 512 * s.progress
  | .command => InChunk s 0 ∧ s.v.p = s.buf + 512 * s.progress
  | .dataRequest _ =>
    InChunk s (s.v.i.toNat - 1) ∧ 1 ≤ s.v.i.toNat ∧ s.v.i.toNat ≤ s.v.k.toNat ∧ s.v.p = s.buf + 512 * s.progress
  | .move _ =>
    InChunk s (s.v.i.toNat - 1) ∧ 1 ≤ s.v.i.toNat ∧ s.v.i.toNat ≤ s.v.k.toNat ∧ s.v.p = s.buf + 512 * s.progress
  | .advance => InChunk s s.v.i.toNat ∧ 1 ≤ s.v.i.toNat ∧ s.v.p + 512 = s.buf + 512 * s.progress
  | .afterChunk _ => BetweenChunks s

/-- A transfer's progress (41_transfer.md R164, R165, R174): at every position the counters, the current sector and
the buffer address are those of the next sector, and a finish with `OK` comes after exactly `COUNT` sectors. -/
structure TransferOk (s : State) : Prop where
  reads : ∀ p, s.phase = .read p → XferOk s p
  writes : ∀ p, s.phase = .write p → XferOk s p
  complete : ∀ c, (c = .read ∨ c = .write) → s.phase = .finishing c .ok → s.progress = s.count

/-! ### The drive count -/

/-- 1 for a present drive (10_state.md R38). -/
def presentCount (r : DriveRecord) : Nat := if r.present then 1 else 0

/-- The drives found so far by a DISCOVER at a drive position (42_identify.md R203). -/
def DrivesSoFar (s : State) : Prop :=
  (s.v.dd = 0 ∧ s.v.cnt = 0 ∧ s.drv0 = DriveRecord.absent ∧ s.drv1 = DriveRecord.absent) ∨
    (s.v.dd = 1 ∧ s.v.cnt.toNat = presentCount s.drv0 ∧ s.drv1 = DriveRecord.absent)

/-- `DRVCOUNT` and the records during and at the end of a DISCOVER (42_identify.md R203, R213, R214). -/
structure DriveCountOk (s : State) : Prop where
  probing : ∀ p, s.phase = .discover (.probe p) →
    s.drvcount = 0 ∧ s.drv0 = DriveRecord.absent ∧ s.drv1 = DriveRecord.absent
  driving : ∀ p, s.phase = .discover (.drive p) → DrivesSoFar s
  counting : s.phase = .discover .count → s.v.cnt.toNat = presentCount s.drv0 + presentCount s.drv1
  found : s.phase = .finishing .discover .ok → s.drvcount.toNat = presentCount s.drv0 + presentCount s.drv1
  none : s.phase = .finishing .discover .noctrl →
    s.drvcount = 0 ∧ s.drv0 = DriveRecord.absent ∧ s.drv1 = DriveRecord.absent

/-! ### The events of a trace -/

/-- The forms of a device/head byte (30_encoding.md R95, R97). -/
def headForm (c : Config) (b : Byte) : Prop :=
  ∃ (d : BitVec 1) (x : BitVec 4),
    b = devsel c d ∨ b = devsel c d ||| x.setWidth 8 ∨ b = devsel c d ||| c.lbaBit ||| x.setWidth 8

/-- The device register writes the engine makes (30_encoding.md R94, R95, R100). -/
def writeForm (c : Config) (b : Byte) : DevReg → Prop
  | .data => hasLatch c = true
  | .error => False
  | .wprecomp => b = 0
  | .seccnt => 1 ≤ b.toNat ∧ b.toNat ≤ c.maxChunk.toNat
  | .secnum => True
  | .cyllo => True
  | .cylhi => True
  | .devhead => headForm c b
  | .status => False
  | .command => b = c.cmdRead ∨ b = c.cmdWrite ∨ b = c.cmdIdentify

/-- The device registers the engine reads 8 bits at a time (30_encoding.md R98, 40_port_handshake.md R134). -/
def readForm (c : Config) : DevReg → Prop
  | .data => hasLatch c = true
  | .error => True
  | .cyllo => True
  | .cylhi => True
  | .status => True
  | _ => False

/-- An event the engine may make: the register forms above, the latch only with `LATCH8`, the 32-bit data accesses
only with `WIDE32` and a written word's low half 0 (40_port_handshake.md R130 to R134), memory accesses aligned
(20_memory.md R61). -/
def EventOk (c : Config) : Event → Prop
  | .w r b => writeForm c b r
  | .r r _ => readForm c r
  | .lw _ => hasLatch c = true
  | .lr _ => hasLatch c = true
  | .w32 v => hasLatch c = false ∧ v.extractLsb' 0 16 = 0
  | .r32 _ => hasLatch c = false
  | .mw a _ => misaligned a = false
  | .mr a _ => misaligned a = false
  | .ms a => misaligned a = false

/-- Every event of the trace is one the engine may make. -/
def TraceOk (s : State) : Prop := ∀ e ∈ s.trace, EventOk s.cfg e

/-! ### All of it -/

/-- Every predicate of this file together, on a legal configuration. -/
structure Inv (s : State) : Prop where
  config : s.cfg.legal = true
  memory : s.mem.wf = true
  status : StatusOk s
  phase : PhaseOk s
  buffer : BufferAligned s
  transfer : TransferOk s
  drives : DriveCountOk s
  events : TraceOk s

end Sys2Proof.Safety
end

