-- ==== Sys2Proof/Certificates/Slice0/Obligations.lean ====
section
/-! DEFINITION. The statements for the provers, each with the rule of spec/ it formalises. -/

open Sys2Proof Sys2Proof.Machine Sys2Proof.Safety

/-! ### Encoding -/

/-- Every row of 30_encoding.md R91's table decodes to its command, through the opcode table's numbering too, and
neighbouring values of R92 do not decode. -/
def Obligations.TableWordsDecode : Prop :=
  decodeWord 0x00000001 = .ok .select ∧ decodeWord 0x00000002 = .ok .waitnb ∧
    decodeWord 0x00000003 = .ok .waitdrq ∧ decodeWord 0x00000004 = .ok .setaddr ∧
    decodeWord 0x00000005 = .ok .read ∧ decodeWord 0x00000006 = .ok .write ∧
    decodeWord 0x00000007 = .ok .identify ∧ decodeWord 0x00000008 = .ok .parseid ∧
    decodeWord 0x00000009 = .ok .probe ∧ decodeWord 0x0000000A = .ok .discover ∧
    decodeTableWord 32 0x0000000A = some .discover ∧ decodeWord 0x00000000 = .error (.unknownCode 0) ∧
    decodeWord 0x0000000B = .error (.unknownCode 0x0B) ∧ decodeWord 0x00000105 = .error .reservedBits

/-- 30_encoding.md R91: the legal values are those of its table, the full 32-bit value matching. -/
def Obligations.LegalValuesAreTheTable : Prop :=
  ∀ (v : Word) (i : Instr), decodeWord v = .ok i ↔
    (v, i) ∈ ([(0x00000001, .select), (0x00000002, .waitnb), (0x00000003, .waitdrq), (0x00000004, .setaddr),
      (0x00000005, .read), (0x00000006, .write), (0x00000007, .identify), (0x00000008, .parseid),
      (0x00000009, .probe), (0x0000000A, .discover)] : List (Word × Instr))

/-- Decoding and encoding agree on bytes, both ways: what decodes to a command, leaving `rest`, is exactly that
command's bytes before `rest` (30_encoding.md R90, R91). -/
def Obligations.CommandBytesRoundTrip : Prop :=
  ∀ (l : List Byte) (i : Instr) (rest : List Byte),
    decodeBytes l = .ok (i, rest) ↔ l = encodeBytes i ++ rest

/-! ### The host port -/

/-- A host write to `CMD` that is due while `ESTAT.BUSY = 0` and decodes to a command makes the step that command's
own, with the operation removed from the pending ones (10_state.md R22; the pending operations are the model's own,
log entry 7). -/
def Obligations.StepIssuesDecodedCommand : Prop :=
  ∀ (s : State) (rest : List Input) (v : Word) (i : Instr),
    s.inputs = { delay := 0, op := .write 0x000 4 v } :: rest → s.estat.busy = false → decodeWord v = .ok i →
      step s = exec i { s with inputs := rest }

/-- While no host operation is due, a step is a step of the running command; a pending host operation comes one turn
nearer, and an engine that has no step waits for it (00_scope.md R13, 20_memory.md R65). Which agent moves when is the
model's choice, log entry 7. -/
def Obligations.StepRunsRunningCommand : Prop :=
  ∀ (s : State) (i : Instr), s.phase.command = some i →
    (s.inputs = [] → step s = exec i s) ∧
    ∀ (m : Nat) (op : HostOp) (rest : List Input), s.inputs = { delay := m + 1, op := op } :: rest →
      let s1 := { s with inputs := { delay := m, op := op } :: rest }
      (∀ t, exec i s1 = .next t → step s = .next t) ∧ (∀ a, exec i s1 = .fault (.memoryRefused a) → step s = .next s1)

/-- 60_exceptions.md R256: in `IDLE` the engine makes no device or memory access and leaves it only on a legal `CMD`
write, and with no host operation due everything stays. That a pending operation comes one turn nearer, and that an
idle engine has such turns, is the model's choice (log entry 7). -/
def Obligations.IdleEngineWaits : Prop :=
  (∀ s : State, s.phase = .idle → s.inputs = [] → step s = .next s) ∧
    (∀ (s : State) (m : Nat) (op : HostOp) (rest : List Input), s.phase = .idle →
      s.inputs = { delay := m + 1, op := op } :: rest →
        step s = .next { s with inputs := { delay := m, op := op } :: rest }) ∧
    ∀ s t : State, s.phase = .idle → step s = .next t →
      t.trace = s.trace ∧
        (t.phase = .idle ∨ ∃ v i rest, s.inputs = { delay := 0, op := .write 0x000 4 v } :: rest ∧
          s.estat.busy = false ∧ decodeWord v = .ok i ∧ t.phase.command = some i)

/-- 30_encoding.md R92: any other value written to `CMD` while `ESTAT.BUSY = 0`. -/
def Obligations.IllegalValueRejected : Prop :=
  ∀ (s : State) (rest : List Input) (v : Word),
    s.inputs = { delay := 0, op := .write 0x000 4 v } :: rest → s.estat.busy = false →
      (v.toNat = 0 ∨ 10 < v.toNat) →
      step s = .next
        { s with
          inputs := rest
          estat := { s.estat with lastcmd := v.extractLsb' 0 8, result := 0x06, done := true, busy := false }
          errinfo := 0, progress := 0 }

/-- 10_state.md R35: while `ESTAT.BUSY = 1` a write to `CMD`, `DRIVE`, `LBA`, `COUNT` or `BUF` changes nothing but
`REJ`; a write to a read-only register or an unassigned offset has no effect at any time. -/
def Obligations.BusyWritesTurnedAway : Prop :=
  ∀ (s : State) (rest : List Input) (off : Nat) (v : Word),
    s.inputs = { delay := 0, op := .write off 4 v } :: rest →
      (s.estat.busy = true → off ∈ [0x000, 0x008, 0x00C, 0x010, 0x014] →
        step s = .next { s with inputs := rest, estat := { s.estat with rej := true } }) ∧
      (off % 4 = 0 → off < 0x180 → off ∉ [0x000, 0x004, 0x008, 0x00C, 0x010, 0x014] →
        step s = .next { s with inputs := rest })

/-- 10_state.md R28 to R31: while `ESTAT.BUSY = 0` a write to an argument register stores it, `DRIVE` bit 0 alone, and
it is read back; R23: a write to `ESTAT` clears `REJ` iff bit 2 of it is 1, whatever `BUSY` is. -/
def Obligations.ArgumentAndRejWrites : Prop :=
  ∀ (s : State) (rest : List Input) (v : Word),
    (s.estat.busy = false →
      (s.inputs = { delay := 0, op := .write 0x008 4 v } :: rest →
        step s = .next { s with inputs := rest, drive := v.extractLsb' 0 1 } ∧
          windowRead { s with inputs := rest, drive := v.extractLsb' 0 1 } 0x008 = v &&& 1) ∧
      (s.inputs = { delay := 0, op := .write 0x00C 4 v } :: rest →
        step s = .next { s with inputs := rest, lba := v } ∧
          windowRead { s with inputs := rest, lba := v } 0x00C = v) ∧
      (s.inputs = { delay := 0, op := .write 0x010 4 v } :: rest →
        step s = .next { s with inputs := rest, count := v } ∧
          windowRead { s with inputs := rest, count := v } 0x010 = v) ∧
      (s.inputs = { delay := 0, op := .write 0x014 4 v } :: rest →
        step s = .next { s with inputs := rest, buf := v } ∧
          windowRead { s with inputs := rest, buf := v } 0x014 = v)) ∧
    (s.inputs = { delay := 0, op := .write 0x004 4 v } :: rest →
      step s = .next
        { s with inputs := rest, estat := { s.estat with rej := if v.getLsbD 2 then false else s.estat.rej } })

/-- 10_state.md R26: `REJ` is set only by a write turned away while busy (R35) and cleared only by a host write of 1
to `ESTAT` bit 2 or by reset; no command finish clears it. -/
def Obligations.RejChangesOnlyByHost : Prop :=
  ∀ s t : State, StatusOk s → step s = .next t → t.estat.rej ≠ s.estat.rej →
    (t.estat.rej = true ∧ s.estat.busy = true ∧ ∃ off v rest,
      s.inputs = { delay := 0, op := .write off 4 v } :: rest ∧ off ∈ [0x000, 0x008, 0x00C, 0x010, 0x014]) ∨
    (t.estat.rej = false ∧ ((∃ v rest, s.inputs = { delay := 0, op := .write 0x004 4 v } :: rest ∧
        v.getLsbD 2 = true) ∨ ∃ rest, s.inputs = { delay := 0, op := .reset } :: rest))

/-- 10_state.md R21 to R34, R37 to R43: what every offset of the register window reads as. -/
def Obligations.WindowLayout : Prop :=
  ∀ s : State,
    windowRead s 0x000 = 0 ∧ windowRead s 0x004 = estatWord s.estat ∧
    windowRead s 0x008 = BitVec.ofNat 32 s.drive.toNat ∧ windowRead s 0x00C = s.lba ∧
    windowRead s 0x010 = s.count ∧ windowRead s 0x014 = s.buf ∧
    windowRead s 0x018 = BitVec.ofNat 32 s.errinfo.toNat ∧ windowRead s 0x01C = BitVec.ofNat 32 s.drvcount.toNat ∧
    windowRead s 0x020 = s.progress ∧
    (∀ d : BitVec 1,
      let r := if d = 0 then s.drv0 else s.drv1
      let base := 0x080 + 0x80 * d.toNat
      windowRead s base = (if r.lba then 2 else 0) + (if r.present then 1 else 0) ∧
      windowRead s (base + 0x04) = r.total ∧ windowRead s (base + 0x08) = r.cyl ∧
      windowRead s (base + 0x0C) = BitVec.ofNat 32 r.heads.toNat ∧
      windowRead s (base + 0x10) = BitVec.ofNat 32 r.spt.toNat ∧
      (∀ i : Fin 11, windowRead s (base + 0x20 + 4 * i.val) =
        r.model[4 * i.val + 3] ++ r.model[4 * i.val + 2] ++ r.model[4 * i.val + 1] ++ r.model[4 * i.val]) ∧
      (∀ i : Fin 3, windowRead s (base + 0x50 + 4 * i.val) =
        r.fw[4 * i.val + 3] ++ r.fw[4 * i.val + 2] ++ r.fw[4 * i.val + 1] ++ r.fw[4 * i.val])) ∧
    ∀ off : Nat, 0x020 < off → off < 0x180 → off < 0x080 ∨
      (0x080 ≤ off ∧ 0x10 < off % 0x80 ∧ off % 0x80 < 0x20) ∨ (0x080 ≤ off ∧ 0x4C ≤ off % 0x80 ∧ off % 0x80 < 0x50) ∨
      (0x080 ≤ off ∧ 0x5C ≤ off % 0x80) → windowRead s off = 0

/-- A host read of an aligned 32-bit register returns what the window reads as and changes nothing else; 10_state.md
R36: a host access of another width or alignment is refused, and so, by the model's choice (log entry 12), is one
outside the window. -/
def Obligations.HostAccesses : Prop :=
  ∀ (s : State) (rest : List Input) (off width : Nat) (v : Word),
    (s.inputs = { delay := 0, op := .read off width } :: rest →
      (width = 4 ∧ off % 4 = 0 ∧ off < 0x180 →
        step s = .next { s with inputs := rest, hostReads := windowRead s off :: s.hostReads }) ∧
      (¬(width = 4 ∧ off % 4 = 0 ∧ off < 0x180) → step s = .refused (.hostAccess off width))) ∧
    (s.inputs = { delay := 0, op := .write off width v } :: rest →
      ¬(width = 4 ∧ off % 4 = 0 ∧ off < 0x180) → step s = .refused (.hostAccess off width))

/-- 10_state.md R23: the fields of `ESTAT`, the reserved bits reading 0; 60_exceptions.md R240: the codes. -/
def Obligations.EstatFieldsAndCodes : Prop :=
  (∀ e : Estat, (estatWord e).getLsbD 0 = e.busy ∧ (estatWord e).getLsbD 1 = e.done ∧
    (estatWord e).getLsbD 2 = e.rej ∧ (estatWord e).extractLsb' 3 5 = 0 ∧
    (estatWord e).extractLsb' 8 8 = e.result ∧ (estatWord e).extractLsb' 16 8 = e.lastcmd ∧
    (estatWord e).extractLsb' 24 8 = 0) ∧
    resultCode .ok = 0x00 ∧ resultCode .timeout = 0x01 ∧ resultCode .deverr = 0x02 ∧ resultCode .noctrl = 0x03 ∧
    resultCode .faultGeom = 0x04 ∧ resultCode .faultAlign = 0x05 ∧ resultCode .illegalCmd = 0x06

/-- 10_state.md R50: the reset values the spec gives, and both drive records all zero. -/
def Obligations.ResetStateIsAllZero : Prop :=
  estatWord State.reset.estat = 0 ∧ State.reset.drive = 0 ∧ State.reset.lba = 0 ∧ State.reset.count = 0 ∧
    State.reset.buf = 0 ∧ State.reset.errinfo = 0 ∧ State.reset.drvcount = 0 ∧ State.reset.progress = 0 ∧
    State.reset.phase = .idle ∧
    ∀ d : BitVec 1,
      let r := driveRecord State.reset d
      r.present = false ∧ r.lba = false ∧ r.total = 0 ∧ r.cyl = 0 ∧ r.heads = 0 ∧ r.spt = 0 ∧
        (∀ k : Fin 44, r.model[k] = 0) ∧ ∀ k : Fin 12, r.fw[k] = 0

/-- 70_reset_and_hazards.md R270: the reset input sets, in one step and in any state, every piece of engine state to
its value in 10_state.md R50, with no device or memory access. The internal variables, which R50 leaves unspecified,
and the model's own record of races are left open (log entries 6 and 9). R271: the accesses made before stand, R272:
none is made; that memory, the configuration and the model's own inputs and outputs stay as they are is log entry 17. -/
def Obligations.ResetInputClearsEngine : Prop :=
  ∀ (s : State) (rest : List Input), s.inputs = { delay := 0, op := .reset } :: rest →
    ∃ v rs, step s = .next
      { s with
        inputs := rest
        estat := { busy := false, done := false, rej := false, result := 0, lastcmd := 0 }
        drive := 0, lba := 0, count := 0, buf := 0, errinfo := 0, drvcount := 0, progress := 0
        drv0 := DriveRecord.absent, drv1 := DriveRecord.absent, phase := .idle, v := v, races := rs }

/-- 00_scope.md R6: configuration is fixed for the life of an engine instance; and what host memory refuses is a
property of the launch memory (20_memory.md R65; how the model holds both is log entries 1 and 5). -/
def Obligations.ConfigurationIsFixed : Prop :=
  ∀ s t : State, step s = .next t → t.cfg = s.cfg ∧ t.refused = s.refused

/-- 20_memory.md R72: a host write to a word of the running command's buffer region is a race: the word ends as the
old or the new value, and a later engine read of it returns the old or the new value; outside the region the write is
an ordinary one. A word the host has written before keeps the value it had otherwise (the old one, or the engine's)
and the host's earlier values beside the new one. How the model records them and draws the value is log entry 6. -/
def Obligations.RacingHostWriteEndsEither : Prop :=
  ∀ (s : State) (rest : List Input) (wa : BitVec 30) (v : Word), s.mem.wf = true →
    s.inputs = { delay := 0, op := .memWrite wa v } :: rest →
      (ownsWord s wa = true →
        ∃ t, step s = .next t ∧ t.phase = s.phase ∧ t.estat = s.estat ∧
          (raceAt s wa = none →
            (t.mem.word (byteAddr wa) = v ∨ t.mem.word (byteAddr wa) = s.mem.word (byteAddr wa)) ∧
            ((engineLoad (byteAddr wa) t).1 = v ∨ (engineLoad (byteAddr wa) t).1 = s.mem.word (byteAddr wa))) ∧
          (∀ c, raceAt s wa = some c →
            (t.mem.word (byteAddr wa) = v ∨ t.mem.word (byteAddr wa) = c.base) ∧
            ((engineLoad (byteAddr wa) t).1 = v ∨ (engineLoad (byteAddr wa) t).1 = c.base ∨
              (engineLoad (byteAddr wa) t).1 ∈ c.host)) ∧
          (regionWritten s = false → t.mem.word (byteAddr wa) = v) ∧
          ∀ x, x / 4 ≠ wa.toNat → t.mem.byte x = s.mem.byte x) ∧
      (ownsWord s wa = false →
        ∃ t, step s = .next t ∧ t = { s with inputs := rest, mem := t.mem } ∧ t.mem.word (byteAddr wa) = v ∧
          ∀ x, x / 4 ≠ wa.toNat → t.mem.byte x = s.mem.byte x)

/-! ### Starting and finishing -/

/-- 10_state.md R24, R45: the step that accepts a legal command leaves it at the first position of its pseudocode, a
wait with none of its settle reads made (40_port_handshake.md R135). Which position that is follows the model's cut of
a command into steps (log entry 19). The other internal variables, and the model's own record of races, are left open
(log entries 6 and 9). -/
def Obligations.CommandAccepted : Prop :=
  ∀ (i : Instr) (s : State), s.phase = .idle →
    ∃ v rs, v.d = s.drive ∧ v.sec = s.lba ∧ v.n = s.count ∧ v.p = s.buf ∧
      (i = .waitnb ∨ i = .waitdrq → v.t = 0) ∧
      exec i s = .next
        { s with
          estat := { s.estat with busy := true, done := false, result := 0, lastcmd := i.code }
          errinfo := 0, progress := 0, v := v, races := rs, phase := firstPosition i }

/-- 10_state.md R25: the step that runs `finish(r)` writes `RESULT`, `DONE` and `BUSY`, returns the sequencer to
`IDLE`, and changes no other register. The internal variables, unspecified after a finish (R46), are left open. -/
def Obligations.CommandFinishReports : Prop :=
  ∀ (c : Instr) (r : Result) (s : State), s.phase = .finishing c r →
    ∃ v, exec c s = .next
      { s with estat := { s.estat with result := resultCode r, done := true, busy := false }, phase := .idle, v := v }

/-- While another command runs, a command is turned away as a write to `CMD` is (10_state.md R22, R35; the model's
reading of a meaning in such a state, log entry 10). -/
def Obligations.RunningCommandTurnsOthersAway : Prop :=
  ∀ (i c : Instr) (s : State), s.phase.command = some c → c ≠ i →
    exec i s = .next { s with estat := { s.estat with rej := true } }

/-! ### The waits -/

/-- 40_port_handshake.md R135, R136: at every wait of every command, `P_SETTLE` status reads are discarded, and then
a poll budget of at least 1 is drawn. -/
def Obligations.WaitSettlesAndDraws : Prop :=
  ∀ (s : State) (i : Instr) (ph : Phase), s.phase.command = some i → settleToPoll s.phase = some ph →
    (s.v.t < s.cfg.settle →
      ∃ b, Answers8 s b ∧
        exec i s = .next
          { s with devScript := s.devScript.tail, trace := .r .status b :: s.trace, v := { s.v with t := s.v.t + 1 } }) ∧
    (s.cfg.settle ≤ s.v.t →
      ∃ b n, Draws s b ∧
        exec i s = .next
          { s with budgets := s.budgets.tail, draws := n, v := { s.v with budget := b }, phase := ph })

/-- 40_port_handshake.md R137: one poll of WAITNB. Every status bit but BUSY is ignored, and the last poll the budget
allows still counts (60_exceptions.md R245). -/
def Obligations.WaitnbPolls : Prop :=
  ∀ s : State, s.phase = .waitnb .poll →
    ∃ b, Answers8 s b ∧
      let s1 := { s with devScript := s.devScript.tail, trace := .r .status b :: s.trace }
      (b.getLsbD s.cfg.busyBit = false →
        exec .waitnb s = .next { s1 with v := { s.v with status := b }, phase := .finishing .waitnb .ok }) ∧
      (b.getLsbD s.cfg.busyBit = true → 1 < s.v.budget →
        exec .waitnb s = .next { s1 with v := { s.v with status := b, budget := s.v.budget - 1 } }) ∧
      (b.getLsbD s.cfg.busyBit = true → s.v.budget ≤ 1 →
        exec .waitnb s = .next
          { s1 with v := { s.v with status := b, budget := s.v.budget - 1 }, phase := .finishing .waitnb .timeout })

/-- 40_port_handshake.md R138, R139: one poll of WAITDRQ, its tests in order, and the read of the error register that
fills `ERRINFO`. -/
def Obligations.WaitdrqPolls : Prop :=
  (∀ s : State, s.phase = .waitdrq .poll →
    ∃ b, Answers8 s b ∧
      let s1 := { s with devScript := s.devScript.tail, trace := .r .status b :: s.trace }
      let busy := b.getLsbD s.cfg.busyBit
      let err := b.getLsbD s.cfg.errorBit || b.getLsbD s.cfg.driveFaultBit
      let drq := b.getLsbD s.cfg.dataRequestBit
      (busy = false → err = true →
        exec .waitdrq s = .next { s1 with v := { s.v with status := b }, phase := .waitdrq .readError }) ∧
      (busy = false → err = false → drq = true →
        exec .waitdrq s = .next { s1 with v := { s.v with status := b }, phase := .finishing .waitdrq .ok }) ∧
      (busy = true ∨ (err = false ∧ drq = false) → 1 < s.v.budget →
        exec .waitdrq s = .next { s1 with v := { s.v with status := b, budget := s.v.budget - 1 } }) ∧
      (busy = true ∨ (err = false ∧ drq = false) → s.v.budget ≤ 1 →
        exec .waitdrq s = .next
          { s1 with v := { s.v with status := b, budget := s.v.budget - 1 }, phase := .finishing .waitdrq .timeout })) ∧
    ∀ s : State, s.phase = .waitdrq .readError →
      ∃ e, Answers8 s e ∧
        exec .waitdrq s = .next
          { s with
            devScript := s.devScript.tail, trace := .r .error e :: s.trace, errinfo := s.v.status ++ e
            phase := .finishing .waitdrq .deverr }

/-- Every wait of READ, WRITE, IDENTIFY and DISCOVER is the wait of WAITNB or WAITDRQ, step for step, with the
outcome handed to the command: a transfer or an IDENTIFY that gets no `OK` finishes with the outcome (41_transfer.md
R167, 42_identify.md R200), a DISCOVER goes on to its next drive (R203, 60_exceptions.md R246). -/
def Obligations.EmbeddedWaitsAreTheWaits : Prop :=
  (∀ (s : State) (p : NbPos),
    let alone := exec .waitnb { s with phase := .waitnb p }
    (s.phase = .read (.notBusy p) →
      exec .read s = inlineNb (fun q => .read (.notBusy q)) (okOrFinish .read (.read .precomp)) alone) ∧
    (s.phase = .read (.afterChunk p) →
      exec .read s = inlineNb (fun q => .read (.afterChunk q)) (okOrFinish .read (.read .chunk)) alone) ∧
    (s.phase = .write (.notBusy p) →
      exec .write s = inlineNb (fun q => .write (.notBusy q)) (okOrFinish .write (.write .precomp)) alone) ∧
    (s.phase = .write (.afterChunk p) →
      exec .write s = inlineNb (fun q => .write (.afterChunk q)) (okOrFinish .write (.write .chunk)) alone) ∧
    (s.phase = .identify (.drive (.notBusy p)) →
      exec .identify s = inlineNb (fun q => .identify (.drive (.notBusy q)))
        (okOrFinish .identify (.identify (.drive .command))) alone) ∧
    (s.phase = .discover (.drive (.notBusy p)) →
      exec .discover s = inlineNb (fun q => .discover (.drive (.notBusy q)))
        (okOrAbsorb (.discover (.drive .command))) alone)) ∧
    ∀ (s : State) (p : DrqPos),
      let alone := exec .waitdrq { s with phase := .waitdrq p }
      let armed := fun (t : State) => { t with v := { t.v with j := 0 } }
      (s.phase = .read (.dataRequest p) →
        exec .read s = inlineDrq (fun q => .read (.dataRequest q))
          (fun r t => okOrFinish .read (.read (.move .dataLo)) r (armed t)) alone) ∧
      (s.phase = .write (.dataRequest p) →
        exec .write s = inlineDrq (fun q => .write (.dataRequest q))
          (fun r t => okOrFinish .write (.write (.move .load)) r (armed t)) alone) ∧
      (s.phase = .identify (.drive (.dataRequest p)) →
        exec .identify s = inlineDrq (fun q => .identify (.drive (.dataRequest q)))
          (fun r t => if r = .ok then { armed t with phase := .identify (.drive (.move .dataLo)) }
            else { t with phase := .finishing .identify r }) alone) ∧
      (s.phase = .discover (.drive (.dataRequest p)) →
        exec .discover s = inlineDrq (fun q => .discover (.drive (.dataRequest q)))
          (fun r t => if r = .ok then { armed t with phase := .discover (.drive (.move .dataLo)) } else absorb t) alone)

/-- 40_port_handshake.md R136: a wait ends after at most `P_SETTLE + B` status reads, plus one error-register read:
WAITNB and WAITDRQ, whatever the device answers. -/
def Obligations.WaitsAreBounded : Prop :=
  (∀ s : State, s.phase = .waitnb .settle → s.v.t = 0 → s.inputs = [] →
    ∃ b m t r, Draws s b ∧ Host.Core.run core m s = .next t ∧ t.phase = .finishing .waitnb r ∧
      (r = .ok ∨ r = .timeout) ∧ t.errinfo = s.errinfo ∧
      (eventsSince s t).length ≤ s.cfg.settle + b ∧ ∀ e ∈ eventsSince s t, ∃ x, e = .r .status x) ∧
    ∀ s : State, s.phase = .waitdrq .settle → s.v.t = 0 → s.inputs = [] →
      ∃ b m t r, Draws s b ∧ Host.Core.run core m s = .next t ∧ t.phase = .finishing .waitdrq r ∧
        (r = .ok ∨ r = .timeout ∨ r = .deverr) ∧
        ∃ l err, eventsSince s t = l ++ err ∧ l.length ≤ s.cfg.settle + b ∧ (∀ e ∈ l, ∃ x, e = .r .status x) ∧
          (r ≠ .deverr → err = [] ∧ t.errinfo = s.errinfo) ∧
          (r = .deverr → ∃ x y, err = [.r .error y] ∧ l.getLast? = some (.r .status x) ∧ t.errinfo = x ++ y)

/-! ### SELECT, PROBE, SETADDR -/

/-- 40_port_handshake.md R143: SELECT's one device write, and the whole command from the `CMD` write to the finish. -/
def Obligations.SelectWritesDevhead : Prop :=
  (∀ s : State, s.phase = .select →
    exec .select s = .next
      { s with
        trace := .w .devhead (if s.v.d = 0 then s.cfg.devsel0 else s.cfg.devsel1) :: s.trace
        phase := .finishing .select .ok }) ∧
    ∀ s : State, s.phase = .idle → s.estat.busy = false →
      s.inputs = [{ delay := 0, op := .write 0x000 4 0x00000001 }] →
        ∃ m v rs, Host.Core.run core m s = .next
          { s with
            inputs := []
            estat := { s.estat with busy := false, done := true, result := 0x00, lastcmd := 0x01 }
            errinfo := 0, progress := 0, v := v, races := rs
            trace := .w .devhead (if s.drive = 0 then s.cfg.devsel0 else s.cfg.devsel1) :: s.trace }

/-- 40_port_handshake.md R146, R147: PROBE writes the two patterns, reads both registers back and compares. -/
def Obligations.ProbeWritesReadsCompares : Prop :=
  (∀ s : State, s.phase = .probe .writeLo →
    exec .probe s = .next { s with trace := .w .cyllo s.cfg.pat1 :: s.trace, phase := .probe .writeHi }) ∧
  (∀ s : State, s.phase = .probe .writeHi →
    exec .probe s = .next { s with trace := .w .cylhi s.cfg.pat2 :: s.trace, phase := .probe .readLo }) ∧
  (∀ s : State, s.phase = .probe .readLo →
    ∃ b, Answers8 s b ∧
      exec .probe s = .next
        { s with
          devScript := s.devScript.tail, trace := .r .cyllo b :: s.trace, v := { s.v with a := b }
          phase := .probe .readHi }) ∧
  ∀ s : State, s.phase = .probe .readHi →
    ∃ b, Answers8 s b ∧
      exec .probe s = .next
        { s with
          devScript := s.devScript.tail, trace := .r .cylhi b :: s.trace
          phase := .finishing .probe (if s.v.a = s.cfg.pat1 ∧ b = s.cfg.pat2 then .ok else .noctrl) }

/-- PROBE from its `CMD` write to its finish, for any two read-back bytes (40_port_handshake.md R147): `NOCTRL` unless
both patterns came back. -/
def Obligations.ProbeWholeRun : Prop :=
  ∀ (s : State) (x y : Word) (xs : List Word), s.phase = .idle → s.estat.busy = false →
    s.inputs = [{ delay := 0, op := .write 0x000 4 0x00000009 }] → s.devScript = x :: y :: xs →
      ∃ m t, Host.Core.run core m s = .next t ∧ t.inputs = [] ∧ t.phase = .idle ∧ t.estat.busy = false ∧ t.estat.done = true ∧
        t.estat.lastcmd = 0x09 ∧
        t.estat.result = (if x.extractLsb' 0 8 = s.cfg.pat1 ∧ y.extractLsb' 0 8 = s.cfg.pat2 then 0x00 else 0x03) ∧
        eventsSince s t =
          [.w .cyllo s.cfg.pat1, .w .cylhi s.cfg.pat2, .r .cyllo (x.extractLsb' 0 8), .r .cylhi (y.extractLsb' 0 8)] ∧
        t.drv0 = s.drv0 ∧ t.drv1 = s.drv1 ∧ t.drvcount = s.drvcount ∧ t.mem = s.mem

/-- 41_transfer.md R160, R161, R173: in SETADDR, READ and WRITE, each write of `set_address` puts that position's byte
of the sector's address into its register. -/
def Obligations.AddressWrites : Prop :=
  ∀ (c : Instr) (p : AddrPos) (s : State), c ∈ [Instr.setaddr, .read, .write] → s.phase = addressAt c p →
    geomOk (driveRecord s s.v.d) = true →
      exec c s = .next
        { s with
          trace := .w (match p with | .secnum => .secnum | .cyllo => .cyllo | .cylhi => .cylhi | .devhead => .devhead)
            (addressByte s p) :: s.trace
          phase := addressNext c p }

/-- SETADDR from its `CMD` write to its finish (41_transfer.md R162, R163): four writes, or `FAULT_GEOM` with none. -/
def Obligations.SetaddrWholeRun : Prop :=
  ∀ s : State, s.phase = .idle → s.estat.busy = false →
    s.inputs = [{ delay := 0, op := .write 0x000 4 0x00000004 }] →
      let at0 := { s with v := { s.v with d := s.drive, sec := s.lba } }
      let r := driveRecord s s.drive
      (r.lba = true ∨ (r.spt ≠ 0 ∧ r.heads ≠ 0) →
        ∃ m t, Host.Core.run core m s = .next t ∧ t.inputs = [] ∧ t.phase = .idle ∧ t.estat.done = true ∧
          t.estat.result = 0x00 ∧ t.estat.lastcmd = 0x04 ∧
          eventsSince s t = [.w .secnum (addressByte at0 .secnum), .w .cyllo (addressByte at0 .cyllo),
            .w .cylhi (addressByte at0 .cylhi), .w .devhead (addressByte at0 .devhead)]) ∧
      (r.lba = false ∧ (r.spt = 0 ∨ r.heads = 0) →
        ∃ m t, Host.Core.run core m s = .next t ∧ t.inputs = [] ∧ t.phase = .idle ∧ t.estat.done = true ∧
          t.estat.result = 0x04 ∧ t.estat.lastcmd = 0x04 ∧ eventsSince s t = [])

/-- 41_transfer.md R175: the CHS law, for any 32-bit sector on a geometry with no zero, and when the written registers
hold the computed values, where the drive-select byte leaves bits 3:0 free (30_encoding.md R97). -/
def Obligations.ChsLaw : Prop :=
  ∀ (r : DriveRecord) (sec : Word), r.spt ≠ 0 → r.heads ≠ 0 →
    let x := chsOf r sec
    x.c.toNat * r.heads.toNat * r.spt.toNat + x.h.toNat * r.spt.toNat + (x.s1.toNat - 1) = sec.toNat ∧
      x.h.toNat < r.heads.toNat ∧ 1 ≤ x.s1.toNat ∧ x.s1.toNat ≤ r.spt.toNat ∧
      ∀ (c : Config) (d : BitVec 1), (devsel c d).extractLsb' 0 4 = 0 →
        ((chsByte c d x .secnum).toNat = x.s1.toNat ∧
            (chsByte c d x .cylhi ++ chsByte c d x .cyllo).toNat = x.c.toNat ∧
            ((chsByte c d x .devhead).extractLsb' 0 4).toNat = x.h.toNat ↔
          x.c.toNat < 65536 ∧ x.h.toNat < 16 ∧ x.s1.toNat < 256)

/-- 41_transfer.md R176: the LBA byte split is exact, where the drive-select and LBA-mode bits leave bits 3:0 free
(30_encoding.md R97). -/
def Obligations.LbaSplitIsExact : Prop :=
  ∀ s : State, (driveRecord s s.v.d).lba = true →
    s.cfg.devsel0.extractLsb' 0 4 = 0 → s.cfg.devsel1.extractLsb' 0 4 = 0 → s.cfg.lbaBit.extractLsb' 0 4 = 0 →
      (addrByte s.cfg (driveRecord s s.v.d) s.v.d s.v.sec .devhead).extractLsb' 0 4 ++
          addrByte s.cfg (driveRecord s s.v.d) s.v.d s.v.sec .cylhi ++
          addrByte s.cfg (driveRecord s s.v.d) s.v.d s.v.sec .cyllo ++
          addrByte s.cfg (driveRecord s s.v.d) s.v.d s.v.sec .secnum =
        s.v.sec.extractLsb' 0 28

/-! ### READ and WRITE -/

/-- 20_memory.md R62, 41_transfer.md R162, 60_exceptions.md R244: the start checks, in order, with no other effect
than the move to the finish (the check as a step of its own is log entry 19). -/
def Obligations.StartChecks : Prop :=
  ∀ s : State,
    (s.v.p.extractLsb' 0 2 ≠ 0 →
      (s.phase = .read .check → exec .read s = .next { s with phase := .finishing .read .faultAlign }) ∧
      (s.phase = .write .check → exec .write s = .next { s with phase := .finishing .write .faultAlign }) ∧
      (s.phase = .identify .check → exec .identify s = .next { s with phase := .finishing .identify .faultAlign }) ∧
      (s.phase = .parseid .check → exec .parseid s = .next { s with phase := .finishing .parseid .faultAlign }) ∧
      (s.phase = .discover .check → exec .discover s = .next { s with phase := .finishing .discover .faultAlign })) ∧
    (s.v.p.extractLsb' 0 2 = 0 →
      (s.phase = .identify .check → exec .identify s = .next { s with phase := .identify .clear }) ∧
      (s.phase = .parseid .check → exec .parseid s = .next { s with phase := .parseid .parse }) ∧
      (s.phase = .discover .check → exec .discover s = .next { s with phase := .discover .clear })) ∧
    (let r := if s.v.d = 0 then s.drv0 else s.drv1
     let ok := r.lba = true ∨ (r.spt ≠ 0 ∧ r.heads ≠ 0)
     (s.v.p.extractLsb' 0 2 = 0 →
       (s.phase = .read .check → (ok → exec .read s = .next { s with phase := .read .select }) ∧
         (¬ok → exec .read s = .next { s with phase := .finishing .read .faultGeom })) ∧
       (s.phase = .write .check → (ok → exec .write s = .next { s with phase := .write .select }) ∧
         (¬ok → exec .write s = .next { s with phase := .finishing .write .faultGeom }))) ∧
     (s.phase = .setaddr .check → (ok → exec .setaddr s = .next { s with phase := .setaddr (.address .secnum) }) ∧
       (¬ok → exec .setaddr s = .next { s with phase := .finishing .setaddr .faultGeom })))

/-- 41_transfer.md R164, R168, R171: READ's steps outside its waits, its address writes and its data phase. How the
pure updates are cut into steps is log entry 19. -/
def Obligations.ReadControlSteps : Prop :=
  ∀ s : State,
    (s.phase = .read .select →
      exec .read s = .next
        { s with
          trace := .w .devhead (if s.v.d = 0 then s.cfg.devsel0 else s.cfg.devsel1) :: s.trace
          v := { s.v with t := 0 }, phase := .read (.notBusy .settle) }) ∧
    (s.phase = .read .precomp →
      exec .read s = .next { s with trace := .w .wprecomp 0 :: s.trace, phase := .read .chunk }) ∧
    (s.phase = .read .chunk → s.v.n = 0 → exec .read s = .next { s with phase := .finishing .read .ok }) ∧
    (s.phase = .read .chunk → s.v.n ≠ 0 →
      exec .read s = .next
        { s with
          v := { s.v with k := BitVec.ofNat 8 (min s.v.n.toNat s.cfg.maxChunk.toNat) }, phase := .read .seccnt }) ∧
    (s.phase = .read .seccnt →
      exec .read s = .next { s with trace := .w .seccnt s.v.k :: s.trace, phase := .read (.address .secnum) }) ∧
    (s.phase = .read .command →
      exec .read s = .next
        { s with
          trace := .w .command s.cfg.cmdRead :: s.trace, v := { s.v with i := 1, t := 0 }
          phase := .read (.dataRequest .settle) }) ∧
    (s.phase = .read .advance → s.v.i ≠ s.v.k →
      exec .read s = .next
        { s with
          v := { s.v with p := s.v.p + 512, i := s.v.i + 1, t := 0 }, phase := .read (.dataRequest .settle) }) ∧
    (s.phase = .read .advance → s.v.i = s.v.k →
      let k : Word := BitVec.ofNat 32 s.v.k.toNat
      exec .read s = .next
        { s with
          v := { s.v with p := s.v.p + 512, sec := s.v.sec + k, n := s.v.n - k, t := 0 }
          phase := if s.v.n - k ≠ 0 ∨ s.cfg.tailWait then .read (.afterChunk .settle) else .read .chunk })

/-- 41_transfer.md R164, R168, R171: WRITE's steps outside its waits, its address writes and its data phase. How
the pure updates are cut into steps is log entry 19. -/
def Obligations.WriteControlSteps : Prop :=
  ∀ s : State,
    (s.phase = .write .select →
      exec .write s = .next
        { s with
          trace := .w .devhead (if s.v.d = 0 then s.cfg.devsel0 else s.cfg.devsel1) :: s.trace
          v := { s.v with t := 0 }, phase := .write (.notBusy .settle) }) ∧
    (s.phase = .write .precomp →
      exec .write s = .next { s with trace := .w .wprecomp 0 :: s.trace, phase := .write .chunk }) ∧
    (s.phase = .write .chunk → s.v.n = 0 → exec .write s = .next { s with phase := .finishing .write .ok }) ∧
    (s.phase = .write .chunk → s.v.n ≠ 0 →
      exec .write s = .next
        { s with
          v := { s.v with k := BitVec.ofNat 8 (min s.v.n.toNat s.cfg.maxChunk.toNat) }, phase := .write .seccnt }) ∧
    (s.phase = .write .seccnt →
      exec .write s = .next { s with trace := .w .seccnt s.v.k :: s.trace, phase := .write (.address .secnum) }) ∧
    (s.phase = .write .command →
      exec .write s = .next
        { s with
          trace := .w .command s.cfg.cmdWrite :: s.trace, v := { s.v with i := 1, t := 0 }
          phase := .write (.dataRequest .settle) }) ∧
    (s.phase = .write .advance → s.v.i ≠ s.v.k →
      exec .write s = .next
        { s with
          v := { s.v with p := s.v.p + 512, i := s.v.i + 1, t := 0 }, phase := .write (.dataRequest .settle) }) ∧
    (s.phase = .write .advance → s.v.i = s.v.k →
      let k : Word := BitVec.ofNat 32 s.v.k.toNat
      exec .write s = .next
        { s with
          v := { s.v with p := s.v.p + 512, sec := s.v.sec + k, n := s.v.n - k, t := 0 }
          phase := if s.v.n - k ≠ 0 ∨ s.cfg.tailWait then .write (.afterChunk .settle) else .write .chunk })

/-- 40_port_handshake.md R130, R132, R141; 20_memory.md R63, R64, R72: READ's data phase, one memory word at a time
over either transport, and the count of the sector. The positions are the model's steps (log entry 19), a raced word's
outcomes log entry 6. -/
def Obligations.ReadDataSteps : Prop :=
  (∀ s : State, s.cfg.transport = .latch8 →
    (s.phase = .read (.move .dataLo) → ∃ b, Answers8 s b ∧ exec .read s = .next
      { s with
        devScript := s.devScript.tail, trace := .r .data b :: s.trace, v := { s.v with lo8 := b }
        phase := .read (.move .latchLo) }) ∧
    (s.phase = .read (.move .latchLo) → ∃ b, Answers8 s b ∧ exec .read s = .next
      { s with
        devScript := s.devScript.tail, trace := .lr b :: s.trace, v := { s.v with lo := b ++ s.v.lo8 }
        phase := .read (.move .dataHi) }) ∧
    (s.phase = .read (.move .dataHi) → ∃ b, Answers8 s b ∧ exec .read s = .next
      { s with
        devScript := s.devScript.tail, trace := .r .data b :: s.trace, v := { s.v with lo8 := b }
        phase := .read (.move .latchHi) }) ∧
    (s.phase = .read (.move .latchHi) → ∃ b, Answers8 s b ∧ exec .read s = .next
      { s with
        devScript := s.devScript.tail, trace := .lr b :: s.trace, v := { s.v with hi := b ++ s.v.lo8 }
        phase := .read (.move .store) })) ∧
  (∀ s : State, s.cfg.transport = .wide32 →
    (s.phase = .read (.move .dataLo) → ∃ w, Answers32 s w ∧ exec .read s = .next
      { s with
        devScript := s.devScript.tail, trace := .r32 w :: s.trace, v := { s.v with lo := w.extractLsb' 0 16 }
        phase := .read (.move .dataHi) }) ∧
    (s.phase = .read (.move .dataHi) → ∃ w, Answers32 s w ∧ exec .read s = .next
      { s with
        devScript := s.devScript.tail, trace := .r32 w :: s.trace, v := { s.v with hi := w.extractLsb' 0 16 }
        phase := .read (.move .store) })) ∧
  (∀ s : State, s.phase = .read (.move .store) →
    let a : Word := BitVec.ofNat 32 (s.v.p.toNat + 4 * s.v.j.toNat)
    admitsWord .write s a = true →
      ∃ x rs n, exec .read s = .next
          { s with
            mem := s.mem.putWord a x, races := rs, draws := n, trace := .mw a (s.v.hi ++ s.v.lo) :: s.trace
            v := { s.v with j := if s.v.j = 127 then s.v.j else s.v.j + 1 }
            phase := if s.v.j = 127 then .read (.move .count) else .read (.move .dataLo) } ∧
        (raceAt s (wordAddr a) = none → x = s.v.hi ++ s.v.lo ∧ rs = s.races ∧ n = s.draws) ∧
        (∀ c, raceAt s (wordAddr a) = some c → x = s.v.hi ++ s.v.lo ∨ c.host.head? = some x)) ∧
  ∀ s : State, s.phase = .read (.move .count) →
    exec .read s = .next { s with progress := s.progress + 1, phase := .read .advance }

/-- 40_port_handshake.md R131, R133, R142; 20_memory.md R63, R64, R72: WRITE's data phase, one memory word at a time
over either transport, and the count of the sector. The positions are the model's steps (log entry 19), a raced word's
outcomes log entry 6. -/
def Obligations.WriteDataSteps : Prop :=
  (∀ s : State, s.phase = .write (.move .load) →
    let a : Word := BitVec.ofNat 32 (s.v.p.toNat + 4 * s.v.j.toNat)
    admitsWord .read s a = true →
      ∃ x n, exec .write s = .next
          { s with
            draws := n, trace := .mr a x :: s.trace, v := { s.v with w := x }, phase := .write (.move .firstLo) } ∧
        (raceAt s (wordAddr a) = none → x = s.mem.word a ∧ n = s.draws) ∧
        (∀ c, raceAt s (wordAddr a) = some c → x = c.base ∨ x ∈ c.host)) ∧
  (∀ s : State, s.cfg.transport = .latch8 →
    let next := if s.v.j = 127 then .write (.move .count) else .write (.move .load)
    let j := if s.v.j = 127 then s.v.j else s.v.j + 1
    (s.phase = .write (.move .firstLo) → exec .write s = .next
      { s with trace := .lw (s.v.w.extractLsb' 8 8) :: s.trace, phase := .write (.move .secondLo) }) ∧
    (s.phase = .write (.move .secondLo) → exec .write s = .next
      { s with trace := .w .data (s.v.w.extractLsb' 0 8) :: s.trace, phase := .write (.move .firstHi) }) ∧
    (s.phase = .write (.move .firstHi) → exec .write s = .next
      { s with trace := .lw (s.v.w.extractLsb' 24 8) :: s.trace, phase := .write (.move .secondHi) }) ∧
    (s.phase = .write (.move .secondHi) → exec .write s = .next
      { s with trace := .w .data (s.v.w.extractLsb' 16 8) :: s.trace, v := { s.v with j := j }, phase := next })) ∧
  (∀ s : State, s.cfg.transport = .wide32 →
    let next := if s.v.j = 127 then .write (.move .count) else .write (.move .load)
    let j := if s.v.j = 127 then s.v.j else s.v.j + 1
    (s.phase = .write (.move .firstLo) → exec .write s = .next
      { s with trace := .w32 (s.v.w <<< 16) :: s.trace, phase := .write (.move .firstHi) }) ∧
    (s.phase = .write (.move .firstHi) → exec .write s = .next
      { s with
        trace := .w32 (s.v.w &&& 0xFFFF0000) :: s.trace, v := { s.v with j := j }, phase := next })) ∧
  ∀ s : State, s.phase = .write (.move .count) →
    exec .write s = .next { s with progress := s.progress + 1, phase := .write .advance }

/-- 40_port_handshake.md R141, 20_memory.md R64: READ's mover moves exactly one sector over either transport: the 512
bytes the device delivered, in order, land at `p` to `p + 511` mod 2^32, and nowhere else. -/
def Obligations.ReadMovesExactlyOneSector : Prop :=
  ∀ (s : State) (bytes : Nat → Byte) (rest : List Word),
    s.phase = .read (.move .dataLo) → s.v.j = 0 → s.inputs = [] → s.refused = [] → s.races = [] →
    s.mem.wf = true → s.v.p.extractLsb' 0 2 = 0 →
    ((s.cfg.transport = .latch8 ∧
        s.devScript = (List.range 512).map (fun k => (bytes k).setWidth 32) ++ rest) ∨
      (s.cfg.transport = .wide32 ∧ ∃ upper : Nat → Half,
        s.devScript = (List.range 256).map (fun w => upper w ++ bytes (2 * w + 1) ++ bytes (2 * w)) ++ rest)) →
      ∃ m t, Host.Core.run core m s = .next t ∧ t.phase = .read .advance ∧ t.progress = s.progress + 1 ∧
        t.devScript = rest ∧ (∀ k < 512, t.mem.byte (s.v.p + BitVec.ofNat 32 k).toNat = bytes k) ∧
        (∀ x, (∀ k < 512, x ≠ (s.v.p + BitVec.ofNat 32 k).toNat) → t.mem.byte x = s.mem.byte x) ∧
        t.estat = s.estat ∧ t.drv0 = s.drv0 ∧ t.drv1 = s.drv1 ∧ t.errinfo = s.errinfo

/-- 40_port_handshake.md R142, 20_memory.md R64: WRITE's mover sends exactly one sector over either transport: the 128
memory words at `p`, each read and then sent low half first, with memory unchanged. -/
def Obligations.WriteMovesExactlyOneSector : Prop :=
  ∀ s : State, s.phase = .write (.move .load) → s.v.j = 0 → s.inputs = [] → s.refused = [] → s.races = [] →
    ∃ m t, Host.Core.run core m s = .next t ∧ t.phase = .write .advance ∧ t.progress = s.progress + 1 ∧
      t.mem = s.mem ∧ t.estat = s.estat ∧ t.drv0 = s.drv0 ∧ t.drv1 = s.drv1 ∧ t.errinfo = s.errinfo ∧
      eventsSince s t = (List.range 128).flatMap fun j =>
        let a : Word := s.v.p + BitVec.ofNat 32 (4 * j)
        let w := s.mem.word a
        match s.cfg.transport with
        | .latch8 =>
          [Event.mr a w, .lw (w.extractLsb' 8 8), .w .data (w.extractLsb' 0 8), .lw (w.extractLsb' 24 8),
            .w .data (w.extractLsb' 16 8)]
        | .wide32 => [Event.mr a w, .w32 (w <<< 16), .w32 (w &&& 0xFFFF0000)]

/-- 20_memory.md R65, 60_exceptions.md R243: where host memory refuses the access the engine has no step. Which
addresses refuse, and that the machine then stops by name, is the model's form of it (log entry 5). -/
def Obligations.RefusedMemoryIsStuck : Prop :=
  (∀ s : State, s.phase = .write (.move .load) → admitsWord .read s (sectorWord s.v.p s.v.j) = false →
    exec .write s = .fault (.memoryRefused (sectorWord s.v.p s.v.j))) ∧
  (∀ s : State, admitsWord .write s (sectorWord s.v.p s.v.j) = false →
    (s.phase = .read (.move .store) → exec .read s = .fault (.memoryRefused (sectorWord s.v.p s.v.j))) ∧
    (s.phase = .identify (.drive (.move .store)) →
      exec .identify s = .fault (.memoryRefused (sectorWord s.v.p s.v.j))) ∧
    (s.phase = .discover (.drive (.move .store)) →
      exec .discover s = .fault (.memoryRefused (sectorWord s.v.p s.v.j)))) ∧
  (∀ (s : State), admitsBlock s s.v.p = false →
    (s.phase = .parseid .parse → exec .parseid s = .fault (.memoryRefused s.v.p)) ∧
    (s.phase = .identify (.drive .parse) → exec .identify s = .fault (.memoryRefused s.v.p)) ∧
    (s.phase = .discover (.drive .parse) → exec .discover s = .fault (.memoryRefused s.v.p))) ∧
  (∀ (s : State) (x : Nat),
    (admitsByte .read s x = false ↔ ∃ r ∈ s.refused, r.reads = true ∧ r.base ≤ x ∧ x < r.base + r.size) ∧
    (admitsByte .write s x = false ↔ ∃ r ∈ s.refused, r.writes = true ∧ r.base ≤ x ∧ x < r.base + r.size)) ∧
  ∀ (s : State) (i : Instr) (a : Word), s.phase.command = some i → s.inputs = [] →
    exec i s = .fault (.memoryRefused a) → step s = .fault (.memoryRefused a)

/-- 41_transfer.md R166: no sector's data is moved without a wait for data request that returned `OK` right before it:
READ, WRITE, IDENTIFY and DISCOVER enter their mover only from such a wait, at the status read that showed BUSY clear,
no error and DATA-REQUEST set. -/
def Obligations.DataMovesOnlyWhenReady : Prop :=
  ∀ (i : Instr) (s t : State), exec i s = .next t →
    let ready := ∃ b, t.trace = .r .status b :: s.trace ∧ b.getLsbD s.cfg.busyBit = false ∧
      b.getLsbD s.cfg.errorBit = false ∧ b.getLsbD s.cfg.driveFaultBit = false ∧
      b.getLsbD s.cfg.dataRequestBit = true ∧ t.v.j = 0
    (∀ q, t.phase = .read (.move q) → (∃ q', s.phase = .read (.move q')) ∨
      (s.phase = .read (.dataRequest .poll) ∧ ready)) ∧
    (∀ q, t.phase = .write (.move q) → (∃ q', s.phase = .write (.move q')) ∨
      (s.phase = .write (.dataRequest .poll) ∧ ready)) ∧
    (∀ q, t.phase = .identify (.drive (.move q)) → (∃ q', s.phase = .identify (.drive (.move q'))) ∨
      (s.phase = .identify (.drive (.dataRequest .poll)) ∧ ready)) ∧
    (∀ q, t.phase = .discover (.drive (.move q)) → (∃ q', s.phase = .discover (.drive (.move q'))) ∨
      (s.phase = .discover (.drive (.dataRequest .poll)) ∧ ready))

/-! ### IDENTIFY, PARSEID, DISCOVER -/

/-- 42_identify.md R200, R201, R213: IDENTIFY's steps outside its waits, its data phase and its parse; its data phase
is READ's, step for step, and leads to the parse. How the pure updates are cut into steps is log entry 19. -/
def Obligations.IdentifySteps : Prop :=
  ∀ s : State,
    (s.phase = .identify .clear →
      exec .identify s = .next
        (if s.v.d = 0 then { s with drv0 := DriveRecord.absent, phase := .identify (.drive .select) }
          else { s with drv1 := DriveRecord.absent, phase := .identify (.drive .select) })) ∧
    (s.phase = .identify (.drive .select) →
      exec .identify s = .next
        { s with
          trace := .w .devhead (if s.v.d = 0 then s.cfg.devsel0 else s.cfg.devsel1) :: s.trace
          v := { s.v with t := 0 }, phase := .identify (.drive (.notBusy .settle)) }) ∧
    (s.phase = .identify (.drive .command) →
      exec .identify s = .next
        { s with
          trace := .w .command s.cfg.cmdIdentify :: s.trace, v := { s.v with t := 0 }
          phase := .identify (.drive (.dataRequest .settle)) }) ∧
    ∀ q, s.phase = .identify (.drive (.move q)) →
      exec .identify s = inlineMove (fun q => .identify (.drive (.move q))) (.identify (.drive .parse))
        (exec .read { s with phase := .read (.move q) })

/-- 42_identify.md R204, R210, R212: the parse replaces the drive's whole record, in one step with the snapshot, by
what the 512 bytes at `p` parse to, and changes no other record. -/
def Obligations.ParseWritesRecord : Prop :=
  ∀ s : State, admitsBlock s s.v.p = true → s.races = [] →
    let r := parseBlock (blockBytes s.mem s.v.p)
    (s.phase = .parseid .parse → exec .parseid s = .next
      (if s.v.d = 0 then { s with trace := .ms s.v.p :: s.trace, drv0 := r, phase := .finishing .parseid .ok }
        else { s with trace := .ms s.v.p :: s.trace, drv1 := r, phase := .finishing .parseid .ok })) ∧
    (s.phase = .identify (.drive .parse) → exec .identify s = .next
      (if s.v.d = 0 then { s with trace := .ms s.v.p :: s.trace, drv0 := r, phase := .finishing .identify .ok }
        else { s with trace := .ms s.v.p :: s.trace, drv1 := r, phase := .finishing .identify .ok })) ∧
    (s.phase = .discover (.drive .parse) → s.v.dd = 0 → exec .discover s = .next
      { s with
        trace := .ms s.v.p :: s.trace, drv0 := r, v := { s.v with cnt := s.v.cnt + 1, dd := 1 }
        phase := .discover (.drive .select) }) ∧
    (s.phase = .discover (.drive .parse) → s.v.dd = 1 → exec .discover s = .next
      { s with
        trace := .ms s.v.p :: s.trace, drv1 := r, v := { s.v with cnt := s.v.cnt + 1 }
        phase := .discover .count })

/-- 42_identify.md R205 to R207, R212, R215: the numeric fields of a parsed record. -/
def Obligations.ParsedFields : Prop :=
  ∀ blk : List Byte,
    let r := parseBlock blk
    let cyl := idValue blk 1
    let hd := idValue blk 3
    let spt := idValue blk 6
    let tl := 2 ^ 16 * idValue blk 61 + idValue blk 60
    let product := cyl * hd * spt % 2 ^ 32
    r.present = true ∧ r.lba = (idValue blk 49).testBit 9 ∧
      (r.lba = true → r.total.toNat = tl ∧
        (hd = 16 ∧ spt = 63 ∧ tl = product →
          r.cyl.toNat = cyl ∧ r.heads.toNat = 16 ∧ r.spt.toNat = 63) ∧
        (¬(hd = 16 ∧ spt = 63 ∧ tl = product) →
          r.cyl.toNat = tl / 1008 ∧ r.heads.toNat = 16 ∧ r.spt.toNat = 63)) ∧
      (r.lba = false →
        r.total.toNat = product ∧ r.cyl.toNat = cyl ∧ r.heads.toNat = hd ∧ r.spt.toNat = spt)

/-- 42_identify.md R208, R209: the strings of a parsed record, each byte of the field, and the terminating NUL. -/
def Obligations.ParsedStrings : Prop :=
  ∀ blk : List Byte,
    (∀ k : Fin 44, StringByte blk 27 40 k.val (parseBlock blk).model[k]) ∧
      (∀ k : Fin 12, StringByte blk 23 8 k.val (parseBlock blk).fw[k]) ∧
      (parseBlock blk).model[43] = 0 ∧ (parseBlock blk).fw[11] = 0

/-- 42_identify.md R211: a parse is a function of the block alone. Two states that hold the same 512 bytes, whatever
else differs, get the same record, and a second PARSEID of an unchanged block changes no record. -/
def Obligations.ParseDependsOnBlockAlone : Prop :=
  (∀ s s' t t' : State, s.phase = .parseid .parse → s'.phase = .parseid .parse → s.races = [] → s'.races = [] →
    blockBytes s.mem s.v.p = blockBytes s'.mem s'.v.p →
    exec .parseid s = .next t → exec .parseid s' = .next t' →
      driveRecord t s.v.d = driveRecord t' s'.v.d) ∧
  ∀ s t t' : State, s.phase = .parseid .parse → s.races = [] → exec .parseid s = .next t →
    exec .parseid { t with phase := .parseid .parse } = .next t' → t'.drv0 = t.drv0 ∧ t'.drv1 = t.drv1

/-- 42_identify.md R203, R213; 60_exceptions.md R246: DISCOVER's steps outside its waits, its data phase and its
parse: both records and `DRVCOUNT` cleared, the probe and its hard fail, the drive loop's accesses, the count; its
data phase is READ's, step for step. How the pure updates are cut into steps is log entry 19. -/
def Obligations.DiscoverSteps : Prop :=
  ∀ s : State,
    (s.phase = .discover .clear →
      exec .discover s = .next
        { s with
          drv0 := DriveRecord.absent, drv1 := DriveRecord.absent, drvcount := 0
          phase := .discover (.probe .writeLo) }) ∧
    (s.phase = .discover (.probe .writeLo) →
      exec .discover s = .next
        { s with trace := .w .cyllo s.cfg.pat1 :: s.trace, phase := .discover (.probe .writeHi) }) ∧
    (s.phase = .discover (.probe .writeHi) →
      exec .discover s = .next
        { s with trace := .w .cylhi s.cfg.pat2 :: s.trace, phase := .discover (.probe .readLo) }) ∧
    (s.phase = .discover (.probe .readLo) → ∃ b, Answers8 s b ∧
      exec .discover s = .next
        { s with
          devScript := s.devScript.tail, trace := .r .cyllo b :: s.trace, v := { s.v with a := b }
          phase := .discover (.probe .readHi) }) ∧
    (s.phase = .discover (.probe .readHi) → ∃ b, Answers8 s b ∧
      exec .discover s = .next
        (if s.v.a = s.cfg.pat1 ∧ b = s.cfg.pat2 then
          { s with
            devScript := s.devScript.tail, trace := .r .cylhi b :: s.trace, v := { s.v with cnt := 0, dd := 0 }
            phase := .discover (.drive .select) }
        else
          { s with
            devScript := s.devScript.tail, trace := .r .cylhi b :: s.trace
            phase := .finishing .discover .noctrl })) ∧
    (s.phase = .discover (.drive .select) →
      exec .discover s = .next
        { s with
          trace := .w .devhead (if s.v.dd.getLsbD 0 then s.cfg.devsel1 else s.cfg.devsel0) :: s.trace
          v := { s.v with t := 0 }, phase := .discover (.drive (.notBusy .settle)) }) ∧
    (s.phase = .discover (.drive .command) →
      exec .discover s = .next
        { s with
          trace := .w .command s.cfg.cmdIdentify :: s.trace, v := { s.v with t := 0 }
          phase := .discover (.drive (.dataRequest .settle)) }) ∧
    (s.phase = .discover .count →
      exec .discover s = .next { s with drvcount := s.v.cnt, phase := .finishing .discover .ok }) ∧
    ∀ q, s.phase = .discover (.drive (.move q)) →
      exec .discover s = inlineMove (fun q => .discover (.drive (.move q))) (.discover (.drive .parse))
        (exec .read { s with phase := .read (.move q) })

/-! ### Frames -/

/-- What a step of SELECT, WAITNB, WAITDRQ, SETADDR or PROBE leaves unchanged: all of memory, the drive records,
`DRVCOUNT`, the argument registers; and what it may do to `ESTAT`, `ERRINFO` and `PROGRESS`
(40_port_handshake.md R143 to R145, R147, 41_transfer.md R163: the registers each writes; 10_state.md R24, R25). A
command run while another runs is turned away (log entry 10). -/
def Obligations.FrameOfDeviceCommands : Prop :=
  ∀ (c : Instr) (s t : State), c ∈ [Instr.select, .waitnb, .waitdrq, .setaddr, .probe] → exec c s = .next t →
    HostSideKept s t ∧ StatusFrame c (c == .waitdrq) false s t ∧ t.drv0 = s.drv0 ∧ t.drv1 = s.drv1 ∧
      t.drvcount = s.drvcount ∧ ∀ x, t.mem.byte x = s.mem.byte x

/-- What a step of READ leaves unchanged: every byte of memory outside the word it stores to, the drive records,
`DRVCOUNT`, the argument registers (41_transfer.md R169; turned away while another command runs, log entry 10). -/
def Obligations.FrameOfRead : Prop :=
  ∀ s t : State, exec .read s = .next t →
    HostSideKept s t ∧ StatusFrame .read true true s t ∧ t.drv0 = s.drv0 ∧ t.drv1 = s.drv1 ∧
      t.drvcount = s.drvcount ∧ MemoryFrame s t

/-- What a step of WRITE leaves unchanged: all of memory, the drive records, `DRVCOUNT`, the argument registers
(41_transfer.md R170; turned away while another command runs, log entry 10). -/
def Obligations.FrameOfWrite : Prop :=
  ∀ s t : State, exec .write s = .next t →
    HostSideKept s t ∧ StatusFrame .write true true s t ∧ t.drv0 = s.drv0 ∧ t.drv1 = s.drv1 ∧
      t.drvcount = s.drvcount ∧ ∀ x, t.mem.byte x = s.mem.byte x

/-- What a step of IDENTIFY or PARSEID leaves unchanged: the other drive's record, `DRVCOUNT`, the argument
registers, and, of memory, all of it for PARSEID and every byte outside the word stored to for IDENTIFY. The drive's
own record changes only at the clear and the parse (10_state.md R44; 42_identify.md R201, R202; turned away while
another command runs, log entry 10). -/
def Obligations.FrameOfIdentifyAndParseid : Prop :=
  (∀ s t : State, exec .identify s = .next t →
    HostSideKept s t ∧ StatusFrame .identify true true s t ∧ t.drvcount = s.drvcount ∧
      (s.v.d = 0 → t.drv1 = s.drv1) ∧ (s.v.d = 1 → t.drv0 = s.drv0) ∧
      (s.phase ≠ .identify .clear → s.phase ≠ .identify (.drive .parse) → t.drv0 = s.drv0 ∧ t.drv1 = s.drv1) ∧
      MemoryFrame s t) ∧
  ∀ s t : State, exec .parseid s = .next t →
    HostSideKept s t ∧ StatusFrame .parseid false false s t ∧ t.drvcount = s.drvcount ∧
      (s.v.d = 0 → t.drv1 = s.drv1) ∧ (s.v.d = 1 → t.drv0 = s.drv0) ∧
      (s.phase ≠ .parseid .parse → t.drv0 = s.drv0 ∧ t.drv1 = s.drv1) ∧ ∀ x, t.mem.byte x = s.mem.byte x

/-- What a step of DISCOVER leaves unchanged: the argument registers, every byte of memory outside the word it stores
to; the drive records change only at the clear and a parse, `DRVCOUNT` only at the clear and the count
(10_state.md R33, R44; 42_identify.md R203; turned away while another command runs, log entry 10). -/
def Obligations.FrameOfDiscover : Prop :=
  ∀ s t : State, exec .discover s = .next t →
    HostSideKept s t ∧ StatusFrame .discover true true s t ∧ MemoryFrame s t ∧
      (s.phase ≠ .discover .clear → s.phase ≠ .discover (.drive .parse) → t.drv0 = s.drv0 ∧ t.drv1 = s.drv1) ∧
      (s.phase = .discover (.drive .parse) → (s.v.dd = 0 → t.drv1 = s.drv1) ∧ (s.v.dd = 1 → t.drv0 = s.drv0)) ∧
      (s.phase ≠ .discover .clear → s.phase ≠ .discover .count → t.drvcount = s.drvcount)

/-! ### Invariants of every step, and progress -/

/-- Every step keeps host memory (20_memory.md R60) in the model's canonical form (log entry 4). -/
def Obligations.EveryStepKeepsMemoryForm : Prop :=
  ∀ s t : State, s.mem.wf = true → step s = .next t → t.mem.wf = true

/-- Every step keeps the status fields and the phase in agreement (10_state.md R23, R25, R27), and every command
finishes only with a result of its row of 60_exceptions.md R241. -/
def Obligations.EveryStepKeepsStatusAndResults : Prop :=
  ∀ s t : State, StatusOk s → step s = .next t → StatusOk t

/-- Every step keeps the positions that need a latch, a geometry or an aligned buffer to where they are; so the engine
never accesses a latch that does not exist nor divides by zero (41_transfer.md R162, R176; 20_memory.md R63). -/
def Obligations.EveryStepKeepsPositions : Prop :=
  ∀ s : State, PhaseOk s → BufferAligned s →
    (∀ t, step s = .next t → PhaseOk t ∧ BufferAligned t) ∧ step s ≠ .fault .noLatch ∧ step s ≠ .fault .zeroDivisor

/-- Every step keeps the progress law of a transfer (41_transfer.md R164, R165, R174): at every position the sectors
moved and those remaining make `COUNT`, the current sector and buffer address are those of the next sector, chunks
start at multiples of `P_MAX_CHUNK`, and an `OK` finish comes after exactly `COUNT` sectors. -/
def Obligations.EveryStepKeepsTransferProgress : Prop :=
  ∀ s t : State, s.cfg.legal = true → StatusOk s → TransferOk s → step s = .next t → TransferOk t

/-- Every step keeps the drive count law of DISCOVER (42_identify.md R203, R213, R214): at its `OK` finish `DRVCOUNT`
is the number of present records, at its `NOCTRL` finish it is 0 and both are absent. -/
def Obligations.EveryStepKeepsDriveCount : Prop :=
  ∀ s t : State, DriveCountOk s → step s = .next t → DriveCountOk t

/-- Every step keeps the trace to the events the engine may make (30_encoding.md R94, R95, R98, R100;
40_port_handshake.md R134; 20_memory.md R61, R63); and a step of a running command makes at most one (00_scope.md R13),
of memory only those its command may make, a snapshot last, so that no command but a DISCOVER of two drives writes
memory after reading it (20_memory.md R74, which 42_identify.md R203 contradicts for that one: log entry 24). -/
def Obligations.EveryStepMakesOnlyLegalEvents : Prop :=
  (∀ s t : State, Inv s → step s = .next t → TraceOk t) ∧
    ∀ (c : Instr) (s t : State), s.phase.command = some c → exec c s = .next t → MemoryUse c s t

/-- The predicates every step keeps hold right after reset (10_state.md R50; 70_reset_and_hazards.md R270). The legal
configuration, the canonical memory and the empty trace of the reset state are the model's choice (00_scope.md R6, log
entries 1, 4 and 11). -/
def Obligations.InvariantsHoldAtReset : Prop := Inv State.reset

/-- 70_reset_and_hazards.md R280: every command that is not stuck finishes, whatever the device answers and the
budgets are: from any state of a running command that the invariants admit, with the host quiet, the engine reaches the
end of the command with `DONE = 1`, or, in a command that accesses memory, an access that memory refuses (20_memory.md
R65), where it is stuck in the model's form (log entry 5). -/
def Obligations.EveryCommandFinishes : Prop :=
  ∀ s : State, Inv s → s.phase ≠ .idle → s.inputs = [] →
    (∃ m t, Host.Core.run core m s = .next t ∧ t.phase = .idle ∧ t.estat.done = true ∧ t.estat.busy = false) ∨
      ∃ m a c, Host.Core.run core m s = .fault (.memoryRefused a) ∧ s.phase.command = some c ∧
        (c = .write ∧ admitsWord .read s a = false ∨
          (c = .read ∨ c = .identify ∨ c = .discover) ∧ admitsWord .write s a = false ∨
          (c = .parseid ∨ c = .identify ∨ c = .discover) ∧ admitsBlock s a = false)
end

