-- ==== Sys2Proof/Laws/State.lean ====
section
/-! SUPPORT. For each update of the state, what each field is after it: one lemma a field, so that no later proof
unfolds a record update. A field a device read or a draw changes without a closed form has none. -/

namespace Sys2Proof.Machine

/-! ### Small updates of Ops.lean. -/

@[simp] theorem emit_cfg (e : Event) (s : State) : (emit e s).cfg = s.cfg := rfl
@[simp] theorem emit_estat (e : Event) (s : State) : (emit e s).estat = s.estat := rfl
@[simp] theorem emit_drive (e : Event) (s : State) : (emit e s).drive = s.drive := rfl
@[simp] theorem emit_lba (e : Event) (s : State) : (emit e s).lba = s.lba := rfl
@[simp] theorem emit_count (e : Event) (s : State) : (emit e s).count = s.count := rfl
@[simp] theorem emit_buf (e : Event) (s : State) : (emit e s).buf = s.buf := rfl
@[simp] theorem emit_errinfo (e : Event) (s : State) : (emit e s).errinfo = s.errinfo := rfl
@[simp] theorem emit_drvcount (e : Event) (s : State) : (emit e s).drvcount = s.drvcount := rfl
@[simp] theorem emit_progress (e : Event) (s : State) : (emit e s).progress = s.progress := rfl
@[simp] theorem emit_drv0 (e : Event) (s : State) : (emit e s).drv0 = s.drv0 := rfl
@[simp] theorem emit_drv1 (e : Event) (s : State) : (emit e s).drv1 = s.drv1 := rfl
@[simp] theorem emit_phase (e : Event) (s : State) : (emit e s).phase = s.phase := rfl
@[simp] theorem emit_v (e : Event) (s : State) : (emit e s).v = s.v := rfl
@[simp] theorem emit_mem (e : Event) (s : State) : (emit e s).mem = s.mem := rfl
@[simp] theorem emit_refused (e : Event) (s : State) : (emit e s).refused = s.refused := rfl
@[simp] theorem emit_races (e : Event) (s : State) : (emit e s).races = s.races := rfl
@[simp] theorem emit_trace (e : Event) (s : State) : (emit e s).trace = e :: s.trace := rfl
@[simp] theorem emit_inputs (e : Event) (s : State) : (emit e s).inputs = s.inputs := rfl
@[simp] theorem emit_hostReads (e : Event) (s : State) : (emit e s).hostReads = s.hostReads := rfl
@[simp] theorem emit_devScript (e : Event) (s : State) : (emit e s).devScript = s.devScript := rfl
@[simp] theorem emit_budgets (e : Event) (s : State) : (emit e s).budgets = s.budgets := rfl
@[simp] theorem emit_draws (e : Event) (s : State) : (emit e s).draws = s.draws := rfl

@[simp] theorem goto_cfg (ph : Phase) (s : State) : (goto ph s).cfg = s.cfg := rfl
@[simp] theorem goto_estat (ph : Phase) (s : State) : (goto ph s).estat = s.estat := rfl
@[simp] theorem goto_drive (ph : Phase) (s : State) : (goto ph s).drive = s.drive := rfl
@[simp] theorem goto_lba (ph : Phase) (s : State) : (goto ph s).lba = s.lba := rfl
@[simp] theorem goto_count (ph : Phase) (s : State) : (goto ph s).count = s.count := rfl
@[simp] theorem goto_buf (ph : Phase) (s : State) : (goto ph s).buf = s.buf := rfl
@[simp] theorem goto_errinfo (ph : Phase) (s : State) : (goto ph s).errinfo = s.errinfo := rfl
@[simp] theorem goto_drvcount (ph : Phase) (s : State) : (goto ph s).drvcount = s.drvcount := rfl
@[simp] theorem goto_progress (ph : Phase) (s : State) : (goto ph s).progress = s.progress := rfl
@[simp] theorem goto_drv0 (ph : Phase) (s : State) : (goto ph s).drv0 = s.drv0 := rfl
@[simp] theorem goto_drv1 (ph : Phase) (s : State) : (goto ph s).drv1 = s.drv1 := rfl
@[simp] theorem goto_phase (ph : Phase) (s : State) : (goto ph s).phase = ph := rfl
@[simp] theorem goto_v (ph : Phase) (s : State) : (goto ph s).v = s.v := rfl
@[simp] theorem goto_mem (ph : Phase) (s : State) : (goto ph s).mem = s.mem := rfl
@[simp] theorem goto_refused (ph : Phase) (s : State) : (goto ph s).refused = s.refused := rfl
@[simp] theorem goto_races (ph : Phase) (s : State) : (goto ph s).races = s.races := rfl
@[simp] theorem goto_trace (ph : Phase) (s : State) : (goto ph s).trace = s.trace := rfl
@[simp] theorem goto_inputs (ph : Phase) (s : State) : (goto ph s).inputs = s.inputs := rfl
@[simp] theorem goto_hostReads (ph : Phase) (s : State) : (goto ph s).hostReads = s.hostReads := rfl
@[simp] theorem goto_devScript (ph : Phase) (s : State) : (goto ph s).devScript = s.devScript := rfl
@[simp] theorem goto_budgets (ph : Phase) (s : State) : (goto ph s).budgets = s.budgets := rfl
@[simp] theorem goto_draws (ph : Phase) (s : State) : (goto ph s).draws = s.draws := rfl

@[simp] theorem choose_cfg (l : List Word) (s : State) : (choose l s).2.cfg = s.cfg := rfl
@[simp] theorem choose_estat (l : List Word) (s : State) : (choose l s).2.estat = s.estat := rfl
@[simp] theorem choose_drive (l : List Word) (s : State) : (choose l s).2.drive = s.drive := rfl
@[simp] theorem choose_lba (l : List Word) (s : State) : (choose l s).2.lba = s.lba := rfl
@[simp] theorem choose_count (l : List Word) (s : State) : (choose l s).2.count = s.count := rfl
@[simp] theorem choose_buf (l : List Word) (s : State) : (choose l s).2.buf = s.buf := rfl
@[simp] theorem choose_errinfo (l : List Word) (s : State) : (choose l s).2.errinfo = s.errinfo := rfl
@[simp] theorem choose_drvcount (l : List Word) (s : State) : (choose l s).2.drvcount = s.drvcount := rfl
@[simp] theorem choose_progress (l : List Word) (s : State) : (choose l s).2.progress = s.progress := rfl
@[simp] theorem choose_drv0 (l : List Word) (s : State) : (choose l s).2.drv0 = s.drv0 := rfl
@[simp] theorem choose_drv1 (l : List Word) (s : State) : (choose l s).2.drv1 = s.drv1 := rfl
@[simp] theorem choose_phase (l : List Word) (s : State) : (choose l s).2.phase = s.phase := rfl
@[simp] theorem choose_v (l : List Word) (s : State) : (choose l s).2.v = s.v := rfl
@[simp] theorem choose_mem (l : List Word) (s : State) : (choose l s).2.mem = s.mem := rfl
@[simp] theorem choose_refused (l : List Word) (s : State) : (choose l s).2.refused = s.refused := rfl
@[simp] theorem choose_races (l : List Word) (s : State) : (choose l s).2.races = s.races := rfl
@[simp] theorem choose_trace (l : List Word) (s : State) : (choose l s).2.trace = s.trace := rfl
@[simp] theorem choose_inputs (l : List Word) (s : State) : (choose l s).2.inputs = s.inputs := rfl
@[simp] theorem choose_hostReads (l : List Word) (s : State) : (choose l s).2.hostReads = s.hostReads := rfl
@[simp] theorem choose_devScript (l : List Word) (s : State) : (choose l s).2.devScript = s.devScript := rfl
@[simp] theorem choose_budgets (l : List Word) (s : State) : (choose l s).2.budgets = s.budgets := rfl
@[simp] theorem choose_draws (l : List Word) (s : State) : (choose l s).2.draws = s.draws + 1 := rfl

/-! ### Device writes. -/

@[simp] theorem devWrite8_cfg (r : DevReg) (b : Byte) (s : State) : (devWrite8 r b s).cfg = s.cfg := rfl
@[simp] theorem devWrite8_estat (r : DevReg) (b : Byte) (s : State) : (devWrite8 r b s).estat = s.estat := rfl
@[simp] theorem devWrite8_drive (r : DevReg) (b : Byte) (s : State) : (devWrite8 r b s).drive = s.drive := rfl
@[simp] theorem devWrite8_lba (r : DevReg) (b : Byte) (s : State) : (devWrite8 r b s).lba = s.lba := rfl
@[simp] theorem devWrite8_count (r : DevReg) (b : Byte) (s : State) : (devWrite8 r b s).count = s.count := rfl
@[simp] theorem devWrite8_buf (r : DevReg) (b : Byte) (s : State) : (devWrite8 r b s).buf = s.buf := rfl
@[simp] theorem devWrite8_errinfo (r : DevReg) (b : Byte) (s : State) : (devWrite8 r b s).errinfo = s.errinfo := rfl
@[simp] theorem devWrite8_drvcount (r : DevReg) (b : Byte) (s : State) :
    (devWrite8 r b s).drvcount = s.drvcount := rfl
@[simp] theorem devWrite8_progress (r : DevReg) (b : Byte) (s : State) :
    (devWrite8 r b s).progress = s.progress := rfl
@[simp] theorem devWrite8_drv0 (r : DevReg) (b : Byte) (s : State) : (devWrite8 r b s).drv0 = s.drv0 := rfl
@[simp] theorem devWrite8_drv1 (r : DevReg) (b : Byte) (s : State) : (devWrite8 r b s).drv1 = s.drv1 := rfl
@[simp] theorem devWrite8_phase (r : DevReg) (b : Byte) (s : State) : (devWrite8 r b s).phase = s.phase := rfl
@[simp] theorem devWrite8_v (r : DevReg) (b : Byte) (s : State) : (devWrite8 r b s).v = s.v := rfl
@[simp] theorem devWrite8_mem (r : DevReg) (b : Byte) (s : State) : (devWrite8 r b s).mem = s.mem := rfl
@[simp] theorem devWrite8_refused (r : DevReg) (b : Byte) (s : State) : (devWrite8 r b s).refused = s.refused := rfl
@[simp] theorem devWrite8_races (r : DevReg) (b : Byte) (s : State) : (devWrite8 r b s).races = s.races := rfl
@[simp] theorem devWrite8_trace (r : DevReg) (b : Byte) (s : State) :
    (devWrite8 r b s).trace = .w r b :: s.trace := rfl
@[simp] theorem devWrite8_inputs (r : DevReg) (b : Byte) (s : State) : (devWrite8 r b s).inputs = s.inputs := rfl
@[simp] theorem devWrite8_hostReads (r : DevReg) (b : Byte) (s : State) :
    (devWrite8 r b s).hostReads = s.hostReads := rfl
@[simp] theorem devWrite8_devScript (r : DevReg) (b : Byte) (s : State) :
    (devWrite8 r b s).devScript = s.devScript := rfl
@[simp] theorem devWrite8_budgets (r : DevReg) (b : Byte) (s : State) : (devWrite8 r b s).budgets = s.budgets := rfl
@[simp] theorem devWrite8_draws (r : DevReg) (b : Byte) (s : State) : (devWrite8 r b s).draws = s.draws := rfl

@[simp] theorem latchWrite8_cfg (b : Byte) (s : State) : (latchWrite8 b s).cfg = s.cfg := rfl
@[simp] theorem latchWrite8_estat (b : Byte) (s : State) : (latchWrite8 b s).estat = s.estat := rfl
@[simp] theorem latchWrite8_drive (b : Byte) (s : State) : (latchWrite8 b s).drive = s.drive := rfl
@[simp] theorem latchWrite8_lba (b : Byte) (s : State) : (latchWrite8 b s).lba = s.lba := rfl
@[simp] theorem latchWrite8_count (b : Byte) (s : State) : (latchWrite8 b s).count = s.count := rfl
@[simp] theorem latchWrite8_buf (b : Byte) (s : State) : (latchWrite8 b s).buf = s.buf := rfl
@[simp] theorem latchWrite8_errinfo (b : Byte) (s : State) : (latchWrite8 b s).errinfo = s.errinfo := rfl
@[simp] theorem latchWrite8_drvcount (b : Byte) (s : State) : (latchWrite8 b s).drvcount = s.drvcount := rfl
@[simp] theorem latchWrite8_progress (b : Byte) (s : State) : (latchWrite8 b s).progress = s.progress := rfl
@[simp] theorem latchWrite8_drv0 (b : Byte) (s : State) : (latchWrite8 b s).drv0 = s.drv0 := rfl
@[simp] theorem latchWrite8_drv1 (b : Byte) (s : State) : (latchWrite8 b s).drv1 = s.drv1 := rfl
@[simp] theorem latchWrite8_phase (b : Byte) (s : State) : (latchWrite8 b s).phase = s.phase := rfl
@[simp] theorem latchWrite8_v (b : Byte) (s : State) : (latchWrite8 b s).v = s.v := rfl
@[simp] theorem latchWrite8_mem (b : Byte) (s : State) : (latchWrite8 b s).mem = s.mem := rfl
@[simp] theorem latchWrite8_refused (b : Byte) (s : State) : (latchWrite8 b s).refused = s.refused := rfl
@[simp] theorem latchWrite8_races (b : Byte) (s : State) : (latchWrite8 b s).races = s.races := rfl
@[simp] theorem latchWrite8_trace (b : Byte) (s : State) : (latchWrite8 b s).trace = .lw b :: s.trace := rfl
@[simp] theorem latchWrite8_inputs (b : Byte) (s : State) : (latchWrite8 b s).inputs = s.inputs := rfl
@[simp] theorem latchWrite8_hostReads (b : Byte) (s : State) : (latchWrite8 b s).hostReads = s.hostReads := rfl
@[simp] theorem latchWrite8_devScript (b : Byte) (s : State) : (latchWrite8 b s).devScript = s.devScript := rfl
@[simp] theorem latchWrite8_budgets (b : Byte) (s : State) : (latchWrite8 b s).budgets = s.budgets := rfl
@[simp] theorem latchWrite8_draws (b : Byte) (s : State) : (latchWrite8 b s).draws = s.draws := rfl

@[simp] theorem devWrite32_cfg (w : Word) (s : State) : (devWrite32 w s).cfg = s.cfg := rfl
@[simp] theorem devWrite32_estat (w : Word) (s : State) : (devWrite32 w s).estat = s.estat := rfl
@[simp] theorem devWrite32_drive (w : Word) (s : State) : (devWrite32 w s).drive = s.drive := rfl
@[simp] theorem devWrite32_lba (w : Word) (s : State) : (devWrite32 w s).lba = s.lba := rfl
@[simp] theorem devWrite32_count (w : Word) (s : State) : (devWrite32 w s).count = s.count := rfl
@[simp] theorem devWrite32_buf (w : Word) (s : State) : (devWrite32 w s).buf = s.buf := rfl
@[simp] theorem devWrite32_errinfo (w : Word) (s : State) : (devWrite32 w s).errinfo = s.errinfo := rfl
@[simp] theorem devWrite32_drvcount (w : Word) (s : State) : (devWrite32 w s).drvcount = s.drvcount := rfl
@[simp] theorem devWrite32_progress (w : Word) (s : State) : (devWrite32 w s).progress = s.progress := rfl
@[simp] theorem devWrite32_drv0 (w : Word) (s : State) : (devWrite32 w s).drv0 = s.drv0 := rfl
@[simp] theorem devWrite32_drv1 (w : Word) (s : State) : (devWrite32 w s).drv1 = s.drv1 := rfl
@[simp] theorem devWrite32_phase (w : Word) (s : State) : (devWrite32 w s).phase = s.phase := rfl
@[simp] theorem devWrite32_v (w : Word) (s : State) : (devWrite32 w s).v = s.v := rfl
@[simp] theorem devWrite32_mem (w : Word) (s : State) : (devWrite32 w s).mem = s.mem := rfl
@[simp] theorem devWrite32_refused (w : Word) (s : State) : (devWrite32 w s).refused = s.refused := rfl
@[simp] theorem devWrite32_races (w : Word) (s : State) : (devWrite32 w s).races = s.races := rfl
@[simp] theorem devWrite32_trace (w : Word) (s : State) : (devWrite32 w s).trace = .w32 w :: s.trace := rfl
@[simp] theorem devWrite32_inputs (w : Word) (s : State) : (devWrite32 w s).inputs = s.inputs := rfl
@[simp] theorem devWrite32_hostReads (w : Word) (s : State) : (devWrite32 w s).hostReads = s.hostReads := rfl
@[simp] theorem devWrite32_devScript (w : Word) (s : State) : (devWrite32 w s).devScript = s.devScript := rfl
@[simp] theorem devWrite32_budgets (w : Word) (s : State) : (devWrite32 w s).budgets = s.budgets := rfl
@[simp] theorem devWrite32_draws (w : Word) (s : State) : (devWrite32 w s).draws = s.draws := rfl

@[simp] theorem writeDataHigh_cfg (h : Half) (s : State) : (writeDataHigh h s).cfg = s.cfg := rfl
@[simp] theorem writeDataHigh_estat (h : Half) (s : State) : (writeDataHigh h s).estat = s.estat := rfl
@[simp] theorem writeDataHigh_drive (h : Half) (s : State) : (writeDataHigh h s).drive = s.drive := rfl
@[simp] theorem writeDataHigh_lba (h : Half) (s : State) : (writeDataHigh h s).lba = s.lba := rfl
@[simp] theorem writeDataHigh_count (h : Half) (s : State) : (writeDataHigh h s).count = s.count := rfl
@[simp] theorem writeDataHigh_buf (h : Half) (s : State) : (writeDataHigh h s).buf = s.buf := rfl
@[simp] theorem writeDataHigh_errinfo (h : Half) (s : State) : (writeDataHigh h s).errinfo = s.errinfo := rfl
@[simp] theorem writeDataHigh_drvcount (h : Half) (s : State) : (writeDataHigh h s).drvcount = s.drvcount := rfl
@[simp] theorem writeDataHigh_progress (h : Half) (s : State) : (writeDataHigh h s).progress = s.progress := rfl
@[simp] theorem writeDataHigh_drv0 (h : Half) (s : State) : (writeDataHigh h s).drv0 = s.drv0 := rfl
@[simp] theorem writeDataHigh_drv1 (h : Half) (s : State) : (writeDataHigh h s).drv1 = s.drv1 := rfl
@[simp] theorem writeDataHigh_phase (h : Half) (s : State) : (writeDataHigh h s).phase = s.phase := rfl
@[simp] theorem writeDataHigh_v (h : Half) (s : State) : (writeDataHigh h s).v = s.v := rfl
@[simp] theorem writeDataHigh_mem (h : Half) (s : State) : (writeDataHigh h s).mem = s.mem := rfl
@[simp] theorem writeDataHigh_refused (h : Half) (s : State) : (writeDataHigh h s).refused = s.refused := rfl
@[simp] theorem writeDataHigh_races (h : Half) (s : State) : (writeDataHigh h s).races = s.races := rfl
@[simp] theorem writeDataHigh_trace (h : Half) (s : State) :
    (writeDataHigh h s).trace = .lw (h.extractLsb' 8 8) :: s.trace := rfl
@[simp] theorem writeDataHigh_inputs (h : Half) (s : State) : (writeDataHigh h s).inputs = s.inputs := rfl
@[simp] theorem writeDataHigh_hostReads (h : Half) (s : State) : (writeDataHigh h s).hostReads = s.hostReads := rfl
@[simp] theorem writeDataHigh_devScript (h : Half) (s : State) : (writeDataHigh h s).devScript = s.devScript := rfl
@[simp] theorem writeDataHigh_budgets (h : Half) (s : State) : (writeDataHigh h s).budgets = s.budgets := rfl
@[simp] theorem writeDataHigh_draws (h : Half) (s : State) : (writeDataHigh h s).draws = s.draws := rfl

@[simp] theorem writeDataLow_cfg (h : Half) (s : State) : (writeDataLow h s).cfg = s.cfg := rfl
@[simp] theorem writeDataLow_estat (h : Half) (s : State) : (writeDataLow h s).estat = s.estat := rfl
@[simp] theorem writeDataLow_drive (h : Half) (s : State) : (writeDataLow h s).drive = s.drive := rfl
@[simp] theorem writeDataLow_lba (h : Half) (s : State) : (writeDataLow h s).lba = s.lba := rfl
@[simp] theorem writeDataLow_count (h : Half) (s : State) : (writeDataLow h s).count = s.count := rfl
@[simp] theorem writeDataLow_buf (h : Half) (s : State) : (writeDataLow h s).buf = s.buf := rfl
@[simp] theorem writeDataLow_errinfo (h : Half) (s : State) : (writeDataLow h s).errinfo = s.errinfo := rfl
@[simp] theorem writeDataLow_drvcount (h : Half) (s : State) : (writeDataLow h s).drvcount = s.drvcount := rfl
@[simp] theorem writeDataLow_progress (h : Half) (s : State) : (writeDataLow h s).progress = s.progress := rfl
@[simp] theorem writeDataLow_drv0 (h : Half) (s : State) : (writeDataLow h s).drv0 = s.drv0 := rfl
@[simp] theorem writeDataLow_drv1 (h : Half) (s : State) : (writeDataLow h s).drv1 = s.drv1 := rfl
@[simp] theorem writeDataLow_phase (h : Half) (s : State) : (writeDataLow h s).phase = s.phase := rfl
@[simp] theorem writeDataLow_v (h : Half) (s : State) : (writeDataLow h s).v = s.v := rfl
@[simp] theorem writeDataLow_mem (h : Half) (s : State) : (writeDataLow h s).mem = s.mem := rfl
@[simp] theorem writeDataLow_refused (h : Half) (s : State) : (writeDataLow h s).refused = s.refused := rfl
@[simp] theorem writeDataLow_races (h : Half) (s : State) : (writeDataLow h s).races = s.races := rfl
@[simp] theorem writeDataLow_trace (h : Half) (s : State) :
    (writeDataLow h s).trace = .w .data (h.extractLsb' 0 8) :: s.trace := rfl
@[simp] theorem writeDataLow_inputs (h : Half) (s : State) : (writeDataLow h s).inputs = s.inputs := rfl
@[simp] theorem writeDataLow_hostReads (h : Half) (s : State) : (writeDataLow h s).hostReads = s.hostReads := rfl
@[simp] theorem writeDataLow_devScript (h : Half) (s : State) : (writeDataLow h s).devScript = s.devScript := rfl
@[simp] theorem writeDataLow_budgets (h : Half) (s : State) : (writeDataLow h s).budgets = s.budgets := rfl
@[simp] theorem writeDataLow_draws (h : Half) (s : State) : (writeDataLow h s).draws = s.draws := rfl

@[simp] theorem writeDataWide_cfg (h : Half) (s : State) : (writeDataWide h s).cfg = s.cfg := rfl
@[simp] theorem writeDataWide_estat (h : Half) (s : State) : (writeDataWide h s).estat = s.estat := rfl
@[simp] theorem writeDataWide_drive (h : Half) (s : State) : (writeDataWide h s).drive = s.drive := rfl
@[simp] theorem writeDataWide_lba (h : Half) (s : State) : (writeDataWide h s).lba = s.lba := rfl
@[simp] theorem writeDataWide_count (h : Half) (s : State) : (writeDataWide h s).count = s.count := rfl
@[simp] theorem writeDataWide_buf (h : Half) (s : State) : (writeDataWide h s).buf = s.buf := rfl
@[simp] theorem writeDataWide_errinfo (h : Half) (s : State) : (writeDataWide h s).errinfo = s.errinfo := rfl
@[simp] theorem writeDataWide_drvcount (h : Half) (s : State) : (writeDataWide h s).drvcount = s.drvcount := rfl
@[simp] theorem writeDataWide_progress (h : Half) (s : State) : (writeDataWide h s).progress = s.progress := rfl
@[simp] theorem writeDataWide_drv0 (h : Half) (s : State) : (writeDataWide h s).drv0 = s.drv0 := rfl
@[simp] theorem writeDataWide_drv1 (h : Half) (s : State) : (writeDataWide h s).drv1 = s.drv1 := rfl
@[simp] theorem writeDataWide_phase (h : Half) (s : State) : (writeDataWide h s).phase = s.phase := rfl
@[simp] theorem writeDataWide_v (h : Half) (s : State) : (writeDataWide h s).v = s.v := rfl
@[simp] theorem writeDataWide_mem (h : Half) (s : State) : (writeDataWide h s).mem = s.mem := rfl
@[simp] theorem writeDataWide_refused (h : Half) (s : State) : (writeDataWide h s).refused = s.refused := rfl
@[simp] theorem writeDataWide_races (h : Half) (s : State) : (writeDataWide h s).races = s.races := rfl
@[simp] theorem writeDataWide_trace (h : Half) (s : State) :
    (writeDataWide h s).trace = .w32 (h ++ (0 : Half)) :: s.trace := rfl
@[simp] theorem writeDataWide_inputs (h : Half) (s : State) : (writeDataWide h s).inputs = s.inputs := rfl
@[simp] theorem writeDataWide_hostReads (h : Half) (s : State) : (writeDataWide h s).hostReads = s.hostReads := rfl
@[simp] theorem writeDataWide_devScript (h : Half) (s : State) : (writeDataWide h s).devScript = s.devScript := rfl
@[simp] theorem writeDataWide_budgets (h : Half) (s : State) : (writeDataWide h s).budgets = s.budgets := rfl
@[simp] theorem writeDataWide_draws (h : Half) (s : State) : (writeDataWide h s).draws = s.draws := rfl

/-! ### Device reads: the answer's other fields. -/

@[simp] theorem deviceAnswer_cfg (q : ReadPort) (s : State) : (deviceAnswer q s).2.cfg = s.cfg := by
  unfold deviceAnswer; split <;> rfl
@[simp] theorem deviceAnswer_estat (q : ReadPort) (s : State) : (deviceAnswer q s).2.estat = s.estat := by
  unfold deviceAnswer; split <;> rfl
@[simp] theorem deviceAnswer_drive (q : ReadPort) (s : State) : (deviceAnswer q s).2.drive = s.drive := by
  unfold deviceAnswer; split <;> rfl
@[simp] theorem deviceAnswer_lba (q : ReadPort) (s : State) : (deviceAnswer q s).2.lba = s.lba := by
  unfold deviceAnswer; split <;> rfl
@[simp] theorem deviceAnswer_count (q : ReadPort) (s : State) : (deviceAnswer q s).2.count = s.count := by
  unfold deviceAnswer; split <;> rfl
@[simp] theorem deviceAnswer_buf (q : ReadPort) (s : State) : (deviceAnswer q s).2.buf = s.buf := by
  unfold deviceAnswer; split <;> rfl
@[simp] theorem deviceAnswer_errinfo (q : ReadPort) (s : State) : (deviceAnswer q s).2.errinfo = s.errinfo := by
  unfold deviceAnswer; split <;> rfl
@[simp] theorem deviceAnswer_drvcount (q : ReadPort) (s : State) : (deviceAnswer q s).2.drvcount = s.drvcount := by
  unfold deviceAnswer; split <;> rfl
@[simp] theorem deviceAnswer_progress (q : ReadPort) (s : State) : (deviceAnswer q s).2.progress = s.progress := by
  unfold deviceAnswer; split <;> rfl
@[simp] theorem deviceAnswer_drv0 (q : ReadPort) (s : State) : (deviceAnswer q s).2.drv0 = s.drv0 := by
  unfold deviceAnswer; split <;> rfl
@[simp] theorem deviceAnswer_drv1 (q : ReadPort) (s : State) : (deviceAnswer q s).2.drv1 = s.drv1 := by
  unfold deviceAnswer; split <;> rfl
@[simp] theorem deviceAnswer_phase (q : ReadPort) (s : State) : (deviceAnswer q s).2.phase = s.phase := by
  unfold deviceAnswer; split <;> rfl
@[simp] theorem deviceAnswer_v (q : ReadPort) (s : State) : (deviceAnswer q s).2.v = s.v := by
  unfold deviceAnswer; split <;> rfl
@[simp] theorem deviceAnswer_mem (q : ReadPort) (s : State) : (deviceAnswer q s).2.mem = s.mem := by
  unfold deviceAnswer; split <;> rfl
@[simp] theorem deviceAnswer_refused (q : ReadPort) (s : State) : (deviceAnswer q s).2.refused = s.refused := by
  unfold deviceAnswer; split <;> rfl
@[simp] theorem deviceAnswer_races (q : ReadPort) (s : State) : (deviceAnswer q s).2.races = s.races := by
  unfold deviceAnswer; split <;> rfl
@[simp] theorem deviceAnswer_trace (q : ReadPort) (s : State) : (deviceAnswer q s).2.trace = s.trace := by
  unfold deviceAnswer; split <;> rfl
@[simp] theorem deviceAnswer_inputs (q : ReadPort) (s : State) : (deviceAnswer q s).2.inputs = s.inputs := by
  unfold deviceAnswer; split <;> rfl
@[simp] theorem deviceAnswer_hostReads (q : ReadPort) (s : State) : (deviceAnswer q s).2.hostReads = s.hostReads := by
  unfold deviceAnswer; split <;> rfl
@[simp] theorem deviceAnswer_budgets (q : ReadPort) (s : State) : (deviceAnswer q s).2.budgets = s.budgets := by
  unfold deviceAnswer; split <;> rfl
@[simp] theorem deviceAnswer_draws (q : ReadPort) (s : State) : (deviceAnswer q s).2.draws = s.draws := by
  unfold deviceAnswer; split <;> rfl

@[simp] theorem devRead8_cfg (r : DevReg) (s : State) : (devRead8 r s).2.cfg = s.cfg := by
  simp [devRead8]
@[simp] theorem devRead8_estat (r : DevReg) (s : State) : (devRead8 r s).2.estat = s.estat := by
  simp [devRead8]
@[simp] theorem devRead8_drive (r : DevReg) (s : State) : (devRead8 r s).2.drive = s.drive := by
  simp [devRead8]
@[simp] theorem devRead8_lba (r : DevReg) (s : State) : (devRead8 r s).2.lba = s.lba := by
  simp [devRead8]
@[simp] theorem devRead8_count (r : DevReg) (s : State) : (devRead8 r s).2.count = s.count := by
  simp [devRead8]
@[simp] theorem devRead8_buf (r : DevReg) (s : State) : (devRead8 r s).2.buf = s.buf := by
  simp [devRead8]
@[simp] theorem devRead8_errinfo (r : DevReg) (s : State) : (devRead8 r s).2.errinfo = s.errinfo := by
  simp [devRead8]
@[simp] theorem devRead8_drvcount (r : DevReg) (s : State) : (devRead8 r s).2.drvcount = s.drvcount := by
  simp [devRead8]
@[simp] theorem devRead8_progress (r : DevReg) (s : State) : (devRead8 r s).2.progress = s.progress := by
  simp [devRead8]
@[simp] theorem devRead8_drv0 (r : DevReg) (s : State) : (devRead8 r s).2.drv0 = s.drv0 := by
  simp [devRead8]
@[simp] theorem devRead8_drv1 (r : DevReg) (s : State) : (devRead8 r s).2.drv1 = s.drv1 := by
  simp [devRead8]
@[simp] theorem devRead8_phase (r : DevReg) (s : State) : (devRead8 r s).2.phase = s.phase := by
  simp [devRead8]
@[simp] theorem devRead8_v (r : DevReg) (s : State) : (devRead8 r s).2.v = s.v := by
  simp [devRead8]
@[simp] theorem devRead8_mem (r : DevReg) (s : State) : (devRead8 r s).2.mem = s.mem := by
  simp [devRead8]
@[simp] theorem devRead8_refused (r : DevReg) (s : State) : (devRead8 r s).2.refused = s.refused := by
  simp [devRead8]
@[simp] theorem devRead8_races (r : DevReg) (s : State) : (devRead8 r s).2.races = s.races := by
  simp [devRead8]
@[simp] theorem devRead8_trace (r : DevReg) (s : State) :
    (devRead8 r s).2.trace = .r r (devRead8 r s).1 :: s.trace := by
  simp [devRead8]
@[simp] theorem devRead8_inputs (r : DevReg) (s : State) : (devRead8 r s).2.inputs = s.inputs := by
  simp [devRead8]
@[simp] theorem devRead8_hostReads (r : DevReg) (s : State) : (devRead8 r s).2.hostReads = s.hostReads := by
  simp [devRead8]
@[simp] theorem devRead8_budgets (r : DevReg) (s : State) : (devRead8 r s).2.budgets = s.budgets := by
  simp [devRead8]
@[simp] theorem devRead8_draws (r : DevReg) (s : State) : (devRead8 r s).2.draws = s.draws := by
  simp [devRead8]

@[simp] theorem latchRead8_cfg (s : State) : (latchRead8 s).2.cfg = s.cfg := by
  simp [latchRead8]
@[simp] theorem latchRead8_estat (s : State) : (latchRead8 s).2.estat = s.estat := by
  simp [latchRead8]
@[simp] theorem latchRead8_drive (s : State) : (latchRead8 s).2.drive = s.drive := by
  simp [latchRead8]
@[simp] theorem latchRead8_lba (s : State) : (latchRead8 s).2.lba = s.lba := by
  simp [latchRead8]
@[simp] theorem latchRead8_count (s : State) : (latchRead8 s).2.count = s.count := by
  simp [latchRead8]
@[simp] theorem latchRead8_buf (s : State) : (latchRead8 s).2.buf = s.buf := by
  simp [latchRead8]
@[simp] theorem latchRead8_errinfo (s : State) : (latchRead8 s).2.errinfo = s.errinfo := by
  simp [latchRead8]
@[simp] theorem latchRead8_drvcount (s : State) : (latchRead8 s).2.drvcount = s.drvcount := by
  simp [latchRead8]
@[simp] theorem latchRead8_progress (s : State) : (latchRead8 s).2.progress = s.progress := by
  simp [latchRead8]
@[simp] theorem latchRead8_drv0 (s : State) : (latchRead8 s).2.drv0 = s.drv0 := by
  simp [latchRead8]
@[simp] theorem latchRead8_drv1 (s : State) : (latchRead8 s).2.drv1 = s.drv1 := by
  simp [latchRead8]
@[simp] theorem latchRead8_phase (s : State) : (latchRead8 s).2.phase = s.phase := by
  simp [latchRead8]
@[simp] theorem latchRead8_v (s : State) : (latchRead8 s).2.v = s.v := by
  simp [latchRead8]
@[simp] theorem latchRead8_mem (s : State) : (latchRead8 s).2.mem = s.mem := by
  simp [latchRead8]
@[simp] theorem latchRead8_refused (s : State) : (latchRead8 s).2.refused = s.refused := by
  simp [latchRead8]
@[simp] theorem latchRead8_races (s : State) : (latchRead8 s).2.races = s.races := by
  simp [latchRead8]
@[simp] theorem latchRead8_trace (s : State) : (latchRead8 s).2.trace = .lr (latchRead8 s).1 :: s.trace := by
  simp [latchRead8]
@[simp] theorem latchRead8_inputs (s : State) : (latchRead8 s).2.inputs = s.inputs := by
  simp [latchRead8]
@[simp] theorem latchRead8_hostReads (s : State) : (latchRead8 s).2.hostReads = s.hostReads := by
  simp [latchRead8]
@[simp] theorem latchRead8_budgets (s : State) : (latchRead8 s).2.budgets = s.budgets := by
  simp [latchRead8]
@[simp] theorem latchRead8_draws (s : State) : (latchRead8 s).2.draws = s.draws := by
  simp [latchRead8]

@[simp] theorem devRead32_cfg (s : State) : (devRead32 s).2.cfg = s.cfg := by
  simp [devRead32]
@[simp] theorem devRead32_estat (s : State) : (devRead32 s).2.estat = s.estat := by
  simp [devRead32]
@[simp] theorem devRead32_drive (s : State) : (devRead32 s).2.drive = s.drive := by
  simp [devRead32]
@[simp] theorem devRead32_lba (s : State) : (devRead32 s).2.lba = s.lba := by
  simp [devRead32]
@[simp] theorem devRead32_count (s : State) : (devRead32 s).2.count = s.count := by
  simp [devRead32]
@[simp] theorem devRead32_buf (s : State) : (devRead32 s).2.buf = s.buf := by
  simp [devRead32]
@[simp] theorem devRead32_errinfo (s : State) : (devRead32 s).2.errinfo = s.errinfo := by
  simp [devRead32]
@[simp] theorem devRead32_drvcount (s : State) : (devRead32 s).2.drvcount = s.drvcount := by
  simp [devRead32]
@[simp] theorem devRead32_progress (s : State) : (devRead32 s).2.progress = s.progress := by
  simp [devRead32]
@[simp] theorem devRead32_drv0 (s : State) : (devRead32 s).2.drv0 = s.drv0 := by
  simp [devRead32]
@[simp] theorem devRead32_drv1 (s : State) : (devRead32 s).2.drv1 = s.drv1 := by
  simp [devRead32]
@[simp] theorem devRead32_phase (s : State) : (devRead32 s).2.phase = s.phase := by
  simp [devRead32]
@[simp] theorem devRead32_v (s : State) : (devRead32 s).2.v = s.v := by
  simp [devRead32]
@[simp] theorem devRead32_mem (s : State) : (devRead32 s).2.mem = s.mem := by
  simp [devRead32]
@[simp] theorem devRead32_refused (s : State) : (devRead32 s).2.refused = s.refused := by
  simp [devRead32]
@[simp] theorem devRead32_races (s : State) : (devRead32 s).2.races = s.races := by
  simp [devRead32]
@[simp] theorem devRead32_trace (s : State) : (devRead32 s).2.trace = .r32 (devRead32 s).1 :: s.trace := by
  simp [devRead32]
@[simp] theorem devRead32_inputs (s : State) : (devRead32 s).2.inputs = s.inputs := by
  simp [devRead32]
@[simp] theorem devRead32_hostReads (s : State) : (devRead32 s).2.hostReads = s.hostReads := by
  simp [devRead32]
@[simp] theorem devRead32_budgets (s : State) : (devRead32 s).2.budgets = s.budgets := by
  simp [devRead32]
@[simp] theorem devRead32_draws (s : State) : (devRead32 s).2.draws = s.draws := by
  simp [devRead32]

/-! ### The waits. -/

@[simp] theorem armWait_cfg (s : State) : (armWait s).cfg = s.cfg := rfl
@[simp] theorem armWait_estat (s : State) : (armWait s).estat = s.estat := rfl
@[simp] theorem armWait_drive (s : State) : (armWait s).drive = s.drive := rfl
@[simp] theorem armWait_lba (s : State) : (armWait s).lba = s.lba := rfl
@[simp] theorem armWait_count (s : State) : (armWait s).count = s.count := rfl
@[simp] theorem armWait_buf (s : State) : (armWait s).buf = s.buf := rfl
@[simp] theorem armWait_errinfo (s : State) : (armWait s).errinfo = s.errinfo := rfl
@[simp] theorem armWait_drvcount (s : State) : (armWait s).drvcount = s.drvcount := rfl
@[simp] theorem armWait_progress (s : State) : (armWait s).progress = s.progress := rfl
@[simp] theorem armWait_drv0 (s : State) : (armWait s).drv0 = s.drv0 := rfl
@[simp] theorem armWait_drv1 (s : State) : (armWait s).drv1 = s.drv1 := rfl
@[simp] theorem armWait_phase (s : State) : (armWait s).phase = s.phase := rfl
@[simp] theorem armWait_v (s : State) : (armWait s).v = { s.v with t := 0 } := rfl
@[simp] theorem armWait_mem (s : State) : (armWait s).mem = s.mem := rfl
@[simp] theorem armWait_refused (s : State) : (armWait s).refused = s.refused := rfl
@[simp] theorem armWait_races (s : State) : (armWait s).races = s.races := rfl
@[simp] theorem armWait_trace (s : State) : (armWait s).trace = s.trace := rfl
@[simp] theorem armWait_inputs (s : State) : (armWait s).inputs = s.inputs := rfl
@[simp] theorem armWait_hostReads (s : State) : (armWait s).hostReads = s.hostReads := rfl
@[simp] theorem armWait_devScript (s : State) : (armWait s).devScript = s.devScript := rfl
@[simp] theorem armWait_budgets (s : State) : (armWait s).budgets = s.budgets := rfl
@[simp] theorem armWait_draws (s : State) : (armWait s).draws = s.draws := rfl

@[simp] theorem settleRead_cfg (s : State) : (settleRead s).cfg = s.cfg := by
  simp [settleRead]
@[simp] theorem settleRead_estat (s : State) : (settleRead s).estat = s.estat := by
  simp [settleRead]
@[simp] theorem settleRead_drive (s : State) : (settleRead s).drive = s.drive := by
  simp [settleRead]
@[simp] theorem settleRead_lba (s : State) : (settleRead s).lba = s.lba := by
  simp [settleRead]
@[simp] theorem settleRead_count (s : State) : (settleRead s).count = s.count := by
  simp [settleRead]
@[simp] theorem settleRead_buf (s : State) : (settleRead s).buf = s.buf := by
  simp [settleRead]
@[simp] theorem settleRead_errinfo (s : State) : (settleRead s).errinfo = s.errinfo := by
  simp [settleRead]
@[simp] theorem settleRead_drvcount (s : State) : (settleRead s).drvcount = s.drvcount := by
  simp [settleRead]
@[simp] theorem settleRead_progress (s : State) : (settleRead s).progress = s.progress := by
  simp [settleRead]
@[simp] theorem settleRead_drv0 (s : State) : (settleRead s).drv0 = s.drv0 := by
  simp [settleRead]
@[simp] theorem settleRead_drv1 (s : State) : (settleRead s).drv1 = s.drv1 := by
  simp [settleRead]
@[simp] theorem settleRead_phase (s : State) : (settleRead s).phase = s.phase := by
  simp [settleRead]
@[simp] theorem settleRead_v (s : State) : (settleRead s).v = { s.v with t := s.v.t + 1 } := by
  simp [settleRead]
@[simp] theorem settleRead_mem (s : State) : (settleRead s).mem = s.mem := by
  simp [settleRead]
@[simp] theorem settleRead_refused (s : State) : (settleRead s).refused = s.refused := by
  simp [settleRead]
@[simp] theorem settleRead_races (s : State) : (settleRead s).races = s.races := by
  simp [settleRead]
@[simp] theorem settleRead_trace (s : State) :
    (settleRead s).trace = .r .status (devRead8 .status s).1 :: s.trace := by
  simp [settleRead]
@[simp] theorem settleRead_inputs (s : State) : (settleRead s).inputs = s.inputs := by
  simp [settleRead]
@[simp] theorem settleRead_hostReads (s : State) : (settleRead s).hostReads = s.hostReads := by
  simp [settleRead]
@[simp] theorem settleRead_budgets (s : State) : (settleRead s).budgets = s.budgets := by
  simp [settleRead]
@[simp] theorem settleRead_draws (s : State) : (settleRead s).draws = s.draws := by
  simp [settleRead]

@[simp] theorem drawBudget_cfg (s : State) : (drawBudget s).cfg = s.cfg := by
  unfold drawBudget; split <;> rfl
@[simp] theorem drawBudget_estat (s : State) : (drawBudget s).estat = s.estat := by
  unfold drawBudget; split <;> rfl
@[simp] theorem drawBudget_drive (s : State) : (drawBudget s).drive = s.drive := by
  unfold drawBudget; split <;> rfl
@[simp] theorem drawBudget_lba (s : State) : (drawBudget s).lba = s.lba := by
  unfold drawBudget; split <;> rfl
@[simp] theorem drawBudget_count (s : State) : (drawBudget s).count = s.count := by
  unfold drawBudget; split <;> rfl
@[simp] theorem drawBudget_buf (s : State) : (drawBudget s).buf = s.buf := by
  unfold drawBudget; split <;> rfl
@[simp] theorem drawBudget_errinfo (s : State) : (drawBudget s).errinfo = s.errinfo := by
  unfold drawBudget; split <;> rfl
@[simp] theorem drawBudget_drvcount (s : State) : (drawBudget s).drvcount = s.drvcount := by
  unfold drawBudget; split <;> rfl
@[simp] theorem drawBudget_progress (s : State) : (drawBudget s).progress = s.progress := by
  unfold drawBudget; split <;> rfl
@[simp] theorem drawBudget_drv0 (s : State) : (drawBudget s).drv0 = s.drv0 := by
  unfold drawBudget; split <;> rfl
@[simp] theorem drawBudget_drv1 (s : State) : (drawBudget s).drv1 = s.drv1 := by
  unfold drawBudget; split <;> rfl
@[simp] theorem drawBudget_phase (s : State) : (drawBudget s).phase = s.phase := by
  unfold drawBudget; split <;> rfl
@[simp] theorem drawBudget_mem (s : State) : (drawBudget s).mem = s.mem := by
  unfold drawBudget; split <;> rfl
@[simp] theorem drawBudget_refused (s : State) : (drawBudget s).refused = s.refused := by
  unfold drawBudget; split <;> rfl
@[simp] theorem drawBudget_races (s : State) : (drawBudget s).races = s.races := by
  unfold drawBudget; split <;> rfl
@[simp] theorem drawBudget_trace (s : State) : (drawBudget s).trace = s.trace := by
  unfold drawBudget; split <;> rfl
@[simp] theorem drawBudget_inputs (s : State) : (drawBudget s).inputs = s.inputs := by
  unfold drawBudget; split <;> rfl
@[simp] theorem drawBudget_hostReads (s : State) : (drawBudget s).hostReads = s.hostReads := by
  unfold drawBudget; split <;> rfl
@[simp] theorem drawBudget_devScript (s : State) : (drawBudget s).devScript = s.devScript := by
  unfold drawBudget; split <;> rfl

@[simp] theorem pollRead_cfg (s : State) : (pollRead s).cfg = s.cfg := by
  simp [pollRead]
@[simp] theorem pollRead_estat (s : State) : (pollRead s).estat = s.estat := by
  simp [pollRead]
@[simp] theorem pollRead_drive (s : State) : (pollRead s).drive = s.drive := by
  simp [pollRead]
@[simp] theorem pollRead_lba (s : State) : (pollRead s).lba = s.lba := by
  simp [pollRead]
@[simp] theorem pollRead_count (s : State) : (pollRead s).count = s.count := by
  simp [pollRead]
@[simp] theorem pollRead_buf (s : State) : (pollRead s).buf = s.buf := by
  simp [pollRead]
@[simp] theorem pollRead_errinfo (s : State) : (pollRead s).errinfo = s.errinfo := by
  simp [pollRead]
@[simp] theorem pollRead_drvcount (s : State) : (pollRead s).drvcount = s.drvcount := by
  simp [pollRead]
@[simp] theorem pollRead_progress (s : State) : (pollRead s).progress = s.progress := by
  simp [pollRead]
@[simp] theorem pollRead_drv0 (s : State) : (pollRead s).drv0 = s.drv0 := by
  simp [pollRead]
@[simp] theorem pollRead_drv1 (s : State) : (pollRead s).drv1 = s.drv1 := by
  simp [pollRead]
@[simp] theorem pollRead_phase (s : State) : (pollRead s).phase = s.phase := by
  simp [pollRead]
@[simp] theorem pollRead_v (s : State) : (pollRead s).v = { s.v with status := (devRead8 .status s).1 } := by
  simp [pollRead]
@[simp] theorem pollRead_mem (s : State) : (pollRead s).mem = s.mem := by
  simp [pollRead]
@[simp] theorem pollRead_refused (s : State) : (pollRead s).refused = s.refused := by
  simp [pollRead]
@[simp] theorem pollRead_races (s : State) : (pollRead s).races = s.races := by
  simp [pollRead]
@[simp] theorem pollRead_trace (s : State) : (pollRead s).trace = .r .status (devRead8 .status s).1 :: s.trace := by
  simp [pollRead]
@[simp] theorem pollRead_inputs (s : State) : (pollRead s).inputs = s.inputs := by
  simp [pollRead]
@[simp] theorem pollRead_hostReads (s : State) : (pollRead s).hostReads = s.hostReads := by
  simp [pollRead]
@[simp] theorem pollRead_budgets (s : State) : (pollRead s).budgets = s.budgets := by
  simp [pollRead]
@[simp] theorem pollRead_draws (s : State) : (pollRead s).draws = s.draws := by
  simp [pollRead]

@[simp] theorem spendBudget_cfg (s : State) : (spendBudget s).cfg = s.cfg := rfl
@[simp] theorem spendBudget_estat (s : State) : (spendBudget s).estat = s.estat := rfl
@[simp] theorem spendBudget_drive (s : State) : (spendBudget s).drive = s.drive := rfl
@[simp] theorem spendBudget_lba (s : State) : (spendBudget s).lba = s.lba := rfl
@[simp] theorem spendBudget_count (s : State) : (spendBudget s).count = s.count := rfl
@[simp] theorem spendBudget_buf (s : State) : (spendBudget s).buf = s.buf := rfl
@[simp] theorem spendBudget_errinfo (s : State) : (spendBudget s).errinfo = s.errinfo := rfl
@[simp] theorem spendBudget_drvcount (s : State) : (spendBudget s).drvcount = s.drvcount := rfl
@[simp] theorem spendBudget_progress (s : State) : (spendBudget s).progress = s.progress := rfl
@[simp] theorem spendBudget_drv0 (s : State) : (spendBudget s).drv0 = s.drv0 := rfl
@[simp] theorem spendBudget_drv1 (s : State) : (spendBudget s).drv1 = s.drv1 := rfl
@[simp] theorem spendBudget_phase (s : State) : (spendBudget s).phase = s.phase := rfl
@[simp] theorem spendBudget_v (s : State) : (spendBudget s).v = { s.v with budget := s.v.budget - 1 } := rfl
@[simp] theorem spendBudget_mem (s : State) : (spendBudget s).mem = s.mem := rfl
@[simp] theorem spendBudget_refused (s : State) : (spendBudget s).refused = s.refused := rfl
@[simp] theorem spendBudget_races (s : State) : (spendBudget s).races = s.races := rfl
@[simp] theorem spendBudget_trace (s : State) : (spendBudget s).trace = s.trace := rfl
@[simp] theorem spendBudget_inputs (s : State) : (spendBudget s).inputs = s.inputs := rfl
@[simp] theorem spendBudget_hostReads (s : State) : (spendBudget s).hostReads = s.hostReads := rfl
@[simp] theorem spendBudget_devScript (s : State) : (spendBudget s).devScript = s.devScript := rfl
@[simp] theorem spendBudget_budgets (s : State) : (spendBudget s).budgets = s.budgets := rfl
@[simp] theorem spendBudget_draws (s : State) : (spendBudget s).draws = s.draws := rfl

@[simp] theorem captureError_cfg (s : State) : (captureError s).cfg = s.cfg := by
  simp [captureError]
@[simp] theorem captureError_estat (s : State) : (captureError s).estat = s.estat := by
  simp [captureError]
@[simp] theorem captureError_drive (s : State) : (captureError s).drive = s.drive := by
  simp [captureError]
@[simp] theorem captureError_lba (s : State) : (captureError s).lba = s.lba := by
  simp [captureError]
@[simp] theorem captureError_count (s : State) : (captureError s).count = s.count := by
  simp [captureError]
@[simp] theorem captureError_buf (s : State) : (captureError s).buf = s.buf := by
  simp [captureError]
@[simp] theorem captureError_errinfo (s : State) :
    (captureError s).errinfo = packErrinfo s.v.status (devRead8 .error s).1 := by
  simp [captureError]
@[simp] theorem captureError_drvcount (s : State) : (captureError s).drvcount = s.drvcount := by
  simp [captureError]
@[simp] theorem captureError_progress (s : State) : (captureError s).progress = s.progress := by
  simp [captureError]
@[simp] theorem captureError_drv0 (s : State) : (captureError s).drv0 = s.drv0 := by
  simp [captureError]
@[simp] theorem captureError_drv1 (s : State) : (captureError s).drv1 = s.drv1 := by
  simp [captureError]
@[simp] theorem captureError_phase (s : State) : (captureError s).phase = s.phase := by
  simp [captureError]
@[simp] theorem captureError_v (s : State) : (captureError s).v = s.v := by
  simp [captureError]
@[simp] theorem captureError_mem (s : State) : (captureError s).mem = s.mem := by
  simp [captureError]
@[simp] theorem captureError_refused (s : State) : (captureError s).refused = s.refused := by
  simp [captureError]
@[simp] theorem captureError_races (s : State) : (captureError s).races = s.races := by
  simp [captureError]
@[simp] theorem captureError_trace (s : State) :
    (captureError s).trace = .r .error (devRead8 .error s).1 :: s.trace := by
  simp [captureError]
@[simp] theorem captureError_inputs (s : State) : (captureError s).inputs = s.inputs := by
  simp [captureError]
@[simp] theorem captureError_hostReads (s : State) : (captureError s).hostReads = s.hostReads := by
  simp [captureError]
@[simp] theorem captureError_budgets (s : State) : (captureError s).budgets = s.budgets := by
  simp [captureError]
@[simp] theorem captureError_draws (s : State) : (captureError s).draws = s.draws := by
  simp [captureError]

/-! ### The sector movers. -/

@[simp] theorem armMove_cfg (s : State) : (armMove s).cfg = s.cfg := rfl
@[simp] theorem armMove_estat (s : State) : (armMove s).estat = s.estat := rfl
@[simp] theorem armMove_drive (s : State) : (armMove s).drive = s.drive := rfl
@[simp] theorem armMove_lba (s : State) : (armMove s).lba = s.lba := rfl
@[simp] theorem armMove_count (s : State) : (armMove s).count = s.count := rfl
@[simp] theorem armMove_buf (s : State) : (armMove s).buf = s.buf := rfl
@[simp] theorem armMove_errinfo (s : State) : (armMove s).errinfo = s.errinfo := rfl
@[simp] theorem armMove_drvcount (s : State) : (armMove s).drvcount = s.drvcount := rfl
@[simp] theorem armMove_progress (s : State) : (armMove s).progress = s.progress := rfl
@[simp] theorem armMove_drv0 (s : State) : (armMove s).drv0 = s.drv0 := rfl
@[simp] theorem armMove_drv1 (s : State) : (armMove s).drv1 = s.drv1 := rfl
@[simp] theorem armMove_phase (s : State) : (armMove s).phase = s.phase := rfl
@[simp] theorem armMove_v (s : State) : (armMove s).v = { s.v with j := 0 } := rfl
@[simp] theorem armMove_mem (s : State) : (armMove s).mem = s.mem := rfl
@[simp] theorem armMove_refused (s : State) : (armMove s).refused = s.refused := rfl
@[simp] theorem armMove_races (s : State) : (armMove s).races = s.races := rfl
@[simp] theorem armMove_trace (s : State) : (armMove s).trace = s.trace := rfl
@[simp] theorem armMove_inputs (s : State) : (armMove s).inputs = s.inputs := rfl
@[simp] theorem armMove_hostReads (s : State) : (armMove s).hostReads = s.hostReads := rfl
@[simp] theorem armMove_devScript (s : State) : (armMove s).devScript = s.devScript := rfl
@[simp] theorem armMove_budgets (s : State) : (armMove s).budgets = s.budgets := rfl
@[simp] theorem armMove_draws (s : State) : (armMove s).draws = s.draws := rfl

@[simp] theorem countSector_cfg (s : State) : (countSector s).cfg = s.cfg := rfl
@[simp] theorem countSector_estat (s : State) : (countSector s).estat = s.estat := rfl
@[simp] theorem countSector_drive (s : State) : (countSector s).drive = s.drive := rfl
@[simp] theorem countSector_lba (s : State) : (countSector s).lba = s.lba := rfl
@[simp] theorem countSector_count (s : State) : (countSector s).count = s.count := rfl
@[simp] theorem countSector_buf (s : State) : (countSector s).buf = s.buf := rfl
@[simp] theorem countSector_errinfo (s : State) : (countSector s).errinfo = s.errinfo := rfl
@[simp] theorem countSector_drvcount (s : State) : (countSector s).drvcount = s.drvcount := rfl
@[simp] theorem countSector_progress (s : State) : (countSector s).progress = s.progress + 1 := rfl
@[simp] theorem countSector_drv0 (s : State) : (countSector s).drv0 = s.drv0 := rfl
@[simp] theorem countSector_drv1 (s : State) : (countSector s).drv1 = s.drv1 := rfl
@[simp] theorem countSector_phase (s : State) : (countSector s).phase = s.phase := rfl
@[simp] theorem countSector_v (s : State) : (countSector s).v = s.v := rfl
@[simp] theorem countSector_mem (s : State) : (countSector s).mem = s.mem := rfl
@[simp] theorem countSector_refused (s : State) : (countSector s).refused = s.refused := rfl
@[simp] theorem countSector_races (s : State) : (countSector s).races = s.races := rfl
@[simp] theorem countSector_trace (s : State) : (countSector s).trace = s.trace := rfl
@[simp] theorem countSector_inputs (s : State) : (countSector s).inputs = s.inputs := rfl
@[simp] theorem countSector_hostReads (s : State) : (countSector s).hostReads = s.hostReads := rfl
@[simp] theorem countSector_devScript (s : State) : (countSector s).devScript = s.devScript := rfl
@[simp] theorem countSector_budgets (s : State) : (countSector s).budgets = s.budgets := rfl
@[simp] theorem countSector_draws (s : State) : (countSector s).draws = s.draws := rfl

@[simp] theorem nextWord_cfg (s : State) : (nextWord s).cfg = s.cfg := rfl
@[simp] theorem nextWord_estat (s : State) : (nextWord s).estat = s.estat := rfl
@[simp] theorem nextWord_drive (s : State) : (nextWord s).drive = s.drive := rfl
@[simp] theorem nextWord_lba (s : State) : (nextWord s).lba = s.lba := rfl
@[simp] theorem nextWord_count (s : State) : (nextWord s).count = s.count := rfl
@[simp] theorem nextWord_buf (s : State) : (nextWord s).buf = s.buf := rfl
@[simp] theorem nextWord_errinfo (s : State) : (nextWord s).errinfo = s.errinfo := rfl
@[simp] theorem nextWord_drvcount (s : State) : (nextWord s).drvcount = s.drvcount := rfl
@[simp] theorem nextWord_progress (s : State) : (nextWord s).progress = s.progress := rfl
@[simp] theorem nextWord_drv0 (s : State) : (nextWord s).drv0 = s.drv0 := rfl
@[simp] theorem nextWord_drv1 (s : State) : (nextWord s).drv1 = s.drv1 := rfl
@[simp] theorem nextWord_phase (s : State) : (nextWord s).phase = s.phase := rfl
@[simp] theorem nextWord_v (s : State) : (nextWord s).v = { s.v with j := s.v.j + 1 } := rfl
@[simp] theorem nextWord_mem (s : State) : (nextWord s).mem = s.mem := rfl
@[simp] theorem nextWord_refused (s : State) : (nextWord s).refused = s.refused := rfl
@[simp] theorem nextWord_races (s : State) : (nextWord s).races = s.races := rfl
@[simp] theorem nextWord_trace (s : State) : (nextWord s).trace = s.trace := rfl
@[simp] theorem nextWord_inputs (s : State) : (nextWord s).inputs = s.inputs := rfl
@[simp] theorem nextWord_hostReads (s : State) : (nextWord s).hostReads = s.hostReads := rfl
@[simp] theorem nextWord_devScript (s : State) : (nextWord s).devScript = s.devScript := rfl
@[simp] theorem nextWord_budgets (s : State) : (nextWord s).budgets = s.budgets := rfl
@[simp] theorem nextWord_draws (s : State) : (nextWord s).draws = s.draws := rfl

@[simp] theorem readDataLow_cfg (s : State) : (readDataLow s).cfg = s.cfg := by
  simp [readDataLow]
@[simp] theorem readDataLow_estat (s : State) : (readDataLow s).estat = s.estat := by
  simp [readDataLow]
@[simp] theorem readDataLow_drive (s : State) : (readDataLow s).drive = s.drive := by
  simp [readDataLow]
@[simp] theorem readDataLow_lba (s : State) : (readDataLow s).lba = s.lba := by
  simp [readDataLow]
@[simp] theorem readDataLow_count (s : State) : (readDataLow s).count = s.count := by
  simp [readDataLow]
@[simp] theorem readDataLow_buf (s : State) : (readDataLow s).buf = s.buf := by
  simp [readDataLow]
@[simp] theorem readDataLow_errinfo (s : State) : (readDataLow s).errinfo = s.errinfo := by
  simp [readDataLow]
@[simp] theorem readDataLow_drvcount (s : State) : (readDataLow s).drvcount = s.drvcount := by
  simp [readDataLow]
@[simp] theorem readDataLow_progress (s : State) : (readDataLow s).progress = s.progress := by
  simp [readDataLow]
@[simp] theorem readDataLow_drv0 (s : State) : (readDataLow s).drv0 = s.drv0 := by
  simp [readDataLow]
@[simp] theorem readDataLow_drv1 (s : State) : (readDataLow s).drv1 = s.drv1 := by
  simp [readDataLow]
@[simp] theorem readDataLow_phase (s : State) : (readDataLow s).phase = s.phase := by
  simp [readDataLow]
@[simp] theorem readDataLow_v (s : State) : (readDataLow s).v = { s.v with lo8 := (devRead8 .data s).1 } := by
  simp [readDataLow]
@[simp] theorem readDataLow_mem (s : State) : (readDataLow s).mem = s.mem := by
  simp [readDataLow]
@[simp] theorem readDataLow_refused (s : State) : (readDataLow s).refused = s.refused := by
  simp [readDataLow]
@[simp] theorem readDataLow_races (s : State) : (readDataLow s).races = s.races := by
  simp [readDataLow]
@[simp] theorem readDataLow_trace (s : State) : (readDataLow s).trace = .r .data (devRead8 .data s).1 :: s.trace := by
  simp [readDataLow]
@[simp] theorem readDataLow_inputs (s : State) : (readDataLow s).inputs = s.inputs := by
  simp [readDataLow]
@[simp] theorem readDataLow_hostReads (s : State) : (readDataLow s).hostReads = s.hostReads := by
  simp [readDataLow]
@[simp] theorem readDataLow_budgets (s : State) : (readDataLow s).budgets = s.budgets := by
  simp [readDataLow]
@[simp] theorem readDataLow_draws (s : State) : (readDataLow s).draws = s.draws := by
  simp [readDataLow]

@[simp] theorem readDataHigh_cfg (s : State) : (readDataHigh s).2.cfg = s.cfg := by
  simp [readDataHigh]
@[simp] theorem readDataHigh_estat (s : State) : (readDataHigh s).2.estat = s.estat := by
  simp [readDataHigh]
@[simp] theorem readDataHigh_drive (s : State) : (readDataHigh s).2.drive = s.drive := by
  simp [readDataHigh]
@[simp] theorem readDataHigh_lba (s : State) : (readDataHigh s).2.lba = s.lba := by
  simp [readDataHigh]
@[simp] theorem readDataHigh_count (s : State) : (readDataHigh s).2.count = s.count := by
  simp [readDataHigh]
@[simp] theorem readDataHigh_buf (s : State) : (readDataHigh s).2.buf = s.buf := by
  simp [readDataHigh]
@[simp] theorem readDataHigh_errinfo (s : State) : (readDataHigh s).2.errinfo = s.errinfo := by
  simp [readDataHigh]
@[simp] theorem readDataHigh_drvcount (s : State) : (readDataHigh s).2.drvcount = s.drvcount := by
  simp [readDataHigh]
@[simp] theorem readDataHigh_progress (s : State) : (readDataHigh s).2.progress = s.progress := by
  simp [readDataHigh]
@[simp] theorem readDataHigh_drv0 (s : State) : (readDataHigh s).2.drv0 = s.drv0 := by
  simp [readDataHigh]
@[simp] theorem readDataHigh_drv1 (s : State) : (readDataHigh s).2.drv1 = s.drv1 := by
  simp [readDataHigh]
@[simp] theorem readDataHigh_phase (s : State) : (readDataHigh s).2.phase = s.phase := by
  simp [readDataHigh]
@[simp] theorem readDataHigh_v (s : State) : (readDataHigh s).2.v = s.v := by
  simp [readDataHigh]
@[simp] theorem readDataHigh_mem (s : State) : (readDataHigh s).2.mem = s.mem := by
  simp [readDataHigh]
@[simp] theorem readDataHigh_refused (s : State) : (readDataHigh s).2.refused = s.refused := by
  simp [readDataHigh]
@[simp] theorem readDataHigh_races (s : State) : (readDataHigh s).2.races = s.races := by
  simp [readDataHigh]
@[simp] theorem readDataHigh_trace (s : State) : (readDataHigh s).2.trace = .lr (latchRead8 s).1 :: s.trace := by
  simp [readDataHigh]
@[simp] theorem readDataHigh_inputs (s : State) : (readDataHigh s).2.inputs = s.inputs := by
  simp [readDataHigh]
@[simp] theorem readDataHigh_hostReads (s : State) : (readDataHigh s).2.hostReads = s.hostReads := by
  simp [readDataHigh]
@[simp] theorem readDataHigh_budgets (s : State) : (readDataHigh s).2.budgets = s.budgets := by
  simp [readDataHigh]
@[simp] theorem readDataHigh_draws (s : State) : (readDataHigh s).2.draws = s.draws := by
  simp [readDataHigh]

@[simp] theorem readDataWide_cfg (s : State) : (readDataWide s).2.cfg = s.cfg := by
  simp [readDataWide]
@[simp] theorem readDataWide_estat (s : State) : (readDataWide s).2.estat = s.estat := by
  simp [readDataWide]
@[simp] theorem readDataWide_drive (s : State) : (readDataWide s).2.drive = s.drive := by
  simp [readDataWide]
@[simp] theorem readDataWide_lba (s : State) : (readDataWide s).2.lba = s.lba := by
  simp [readDataWide]
@[simp] theorem readDataWide_count (s : State) : (readDataWide s).2.count = s.count := by
  simp [readDataWide]
@[simp] theorem readDataWide_buf (s : State) : (readDataWide s).2.buf = s.buf := by
  simp [readDataWide]
@[simp] theorem readDataWide_errinfo (s : State) : (readDataWide s).2.errinfo = s.errinfo := by
  simp [readDataWide]
@[simp] theorem readDataWide_drvcount (s : State) : (readDataWide s).2.drvcount = s.drvcount := by
  simp [readDataWide]
@[simp] theorem readDataWide_progress (s : State) : (readDataWide s).2.progress = s.progress := by
  simp [readDataWide]
@[simp] theorem readDataWide_drv0 (s : State) : (readDataWide s).2.drv0 = s.drv0 := by
  simp [readDataWide]
@[simp] theorem readDataWide_drv1 (s : State) : (readDataWide s).2.drv1 = s.drv1 := by
  simp [readDataWide]
@[simp] theorem readDataWide_phase (s : State) : (readDataWide s).2.phase = s.phase := by
  simp [readDataWide]
@[simp] theorem readDataWide_v (s : State) : (readDataWide s).2.v = s.v := by
  simp [readDataWide]
@[simp] theorem readDataWide_mem (s : State) : (readDataWide s).2.mem = s.mem := by
  simp [readDataWide]
@[simp] theorem readDataWide_refused (s : State) : (readDataWide s).2.refused = s.refused := by
  simp [readDataWide]
@[simp] theorem readDataWide_races (s : State) : (readDataWide s).2.races = s.races := by
  simp [readDataWide]
@[simp] theorem readDataWide_trace (s : State) : (readDataWide s).2.trace = .r32 (devRead32 s).1 :: s.trace := by
  simp [readDataWide]
@[simp] theorem readDataWide_inputs (s : State) : (readDataWide s).2.inputs = s.inputs := by
  simp [readDataWide]
@[simp] theorem readDataWide_hostReads (s : State) : (readDataWide s).2.hostReads = s.hostReads := by
  simp [readDataWide]
@[simp] theorem readDataWide_budgets (s : State) : (readDataWide s).2.budgets = s.budgets := by
  simp [readDataWide]
@[simp] theorem readDataWide_draws (s : State) : (readDataWide s).2.draws = s.draws := by
  simp [readDataWide]

@[simp] theorem keepLo_cfg (x : Half × State) : (keepLo x).cfg = x.2.cfg := rfl
@[simp] theorem keepLo_estat (x : Half × State) : (keepLo x).estat = x.2.estat := rfl
@[simp] theorem keepLo_drive (x : Half × State) : (keepLo x).drive = x.2.drive := rfl
@[simp] theorem keepLo_lba (x : Half × State) : (keepLo x).lba = x.2.lba := rfl
@[simp] theorem keepLo_count (x : Half × State) : (keepLo x).count = x.2.count := rfl
@[simp] theorem keepLo_buf (x : Half × State) : (keepLo x).buf = x.2.buf := rfl
@[simp] theorem keepLo_errinfo (x : Half × State) : (keepLo x).errinfo = x.2.errinfo := rfl
@[simp] theorem keepLo_drvcount (x : Half × State) : (keepLo x).drvcount = x.2.drvcount := rfl
@[simp] theorem keepLo_progress (x : Half × State) : (keepLo x).progress = x.2.progress := rfl
@[simp] theorem keepLo_drv0 (x : Half × State) : (keepLo x).drv0 = x.2.drv0 := rfl
@[simp] theorem keepLo_drv1 (x : Half × State) : (keepLo x).drv1 = x.2.drv1 := rfl
@[simp] theorem keepLo_phase (x : Half × State) : (keepLo x).phase = x.2.phase := rfl
@[simp] theorem keepLo_v (x : Half × State) : (keepLo x).v = { x.2.v with lo := x.1 } := rfl
@[simp] theorem keepLo_mem (x : Half × State) : (keepLo x).mem = x.2.mem := rfl
@[simp] theorem keepLo_refused (x : Half × State) : (keepLo x).refused = x.2.refused := rfl
@[simp] theorem keepLo_races (x : Half × State) : (keepLo x).races = x.2.races := rfl
@[simp] theorem keepLo_trace (x : Half × State) : (keepLo x).trace = x.2.trace := rfl
@[simp] theorem keepLo_inputs (x : Half × State) : (keepLo x).inputs = x.2.inputs := rfl
@[simp] theorem keepLo_hostReads (x : Half × State) : (keepLo x).hostReads = x.2.hostReads := rfl
@[simp] theorem keepLo_devScript (x : Half × State) : (keepLo x).devScript = x.2.devScript := rfl
@[simp] theorem keepLo_budgets (x : Half × State) : (keepLo x).budgets = x.2.budgets := rfl
@[simp] theorem keepLo_draws (x : Half × State) : (keepLo x).draws = x.2.draws := rfl

@[simp] theorem keepHi_cfg (x : Half × State) : (keepHi x).cfg = x.2.cfg := rfl
@[simp] theorem keepHi_estat (x : Half × State) : (keepHi x).estat = x.2.estat := rfl
@[simp] theorem keepHi_drive (x : Half × State) : (keepHi x).drive = x.2.drive := rfl
@[simp] theorem keepHi_lba (x : Half × State) : (keepHi x).lba = x.2.lba := rfl
@[simp] theorem keepHi_count (x : Half × State) : (keepHi x).count = x.2.count := rfl
@[simp] theorem keepHi_buf (x : Half × State) : (keepHi x).buf = x.2.buf := rfl
@[simp] theorem keepHi_errinfo (x : Half × State) : (keepHi x).errinfo = x.2.errinfo := rfl
@[simp] theorem keepHi_drvcount (x : Half × State) : (keepHi x).drvcount = x.2.drvcount := rfl
@[simp] theorem keepHi_progress (x : Half × State) : (keepHi x).progress = x.2.progress := rfl
@[simp] theorem keepHi_drv0 (x : Half × State) : (keepHi x).drv0 = x.2.drv0 := rfl
@[simp] theorem keepHi_drv1 (x : Half × State) : (keepHi x).drv1 = x.2.drv1 := rfl
@[simp] theorem keepHi_phase (x : Half × State) : (keepHi x).phase = x.2.phase := rfl
@[simp] theorem keepHi_v (x : Half × State) : (keepHi x).v = { x.2.v with hi := x.1 } := rfl
@[simp] theorem keepHi_mem (x : Half × State) : (keepHi x).mem = x.2.mem := rfl
@[simp] theorem keepHi_refused (x : Half × State) : (keepHi x).refused = x.2.refused := rfl
@[simp] theorem keepHi_races (x : Half × State) : (keepHi x).races = x.2.races := rfl
@[simp] theorem keepHi_trace (x : Half × State) : (keepHi x).trace = x.2.trace := rfl
@[simp] theorem keepHi_inputs (x : Half × State) : (keepHi x).inputs = x.2.inputs := rfl
@[simp] theorem keepHi_hostReads (x : Half × State) : (keepHi x).hostReads = x.2.hostReads := rfl
@[simp] theorem keepHi_devScript (x : Half × State) : (keepHi x).devScript = x.2.devScript := rfl
@[simp] theorem keepHi_budgets (x : Half × State) : (keepHi x).budgets = x.2.budgets := rfl
@[simp] theorem keepHi_draws (x : Half × State) : (keepHi x).draws = x.2.draws := rfl

@[simp] theorem keepWord_cfg (x : Word × State) : (keepWord x).cfg = x.2.cfg := rfl
@[simp] theorem keepWord_estat (x : Word × State) : (keepWord x).estat = x.2.estat := rfl
@[simp] theorem keepWord_drive (x : Word × State) : (keepWord x).drive = x.2.drive := rfl
@[simp] theorem keepWord_lba (x : Word × State) : (keepWord x).lba = x.2.lba := rfl
@[simp] theorem keepWord_count (x : Word × State) : (keepWord x).count = x.2.count := rfl
@[simp] theorem keepWord_buf (x : Word × State) : (keepWord x).buf = x.2.buf := rfl
@[simp] theorem keepWord_errinfo (x : Word × State) : (keepWord x).errinfo = x.2.errinfo := rfl
@[simp] theorem keepWord_drvcount (x : Word × State) : (keepWord x).drvcount = x.2.drvcount := rfl
@[simp] theorem keepWord_progress (x : Word × State) : (keepWord x).progress = x.2.progress := rfl
@[simp] theorem keepWord_drv0 (x : Word × State) : (keepWord x).drv0 = x.2.drv0 := rfl
@[simp] theorem keepWord_drv1 (x : Word × State) : (keepWord x).drv1 = x.2.drv1 := rfl
@[simp] theorem keepWord_phase (x : Word × State) : (keepWord x).phase = x.2.phase := rfl
@[simp] theorem keepWord_v (x : Word × State) : (keepWord x).v = { x.2.v with w := x.1 } := rfl
@[simp] theorem keepWord_mem (x : Word × State) : (keepWord x).mem = x.2.mem := rfl
@[simp] theorem keepWord_refused (x : Word × State) : (keepWord x).refused = x.2.refused := rfl
@[simp] theorem keepWord_races (x : Word × State) : (keepWord x).races = x.2.races := rfl
@[simp] theorem keepWord_trace (x : Word × State) : (keepWord x).trace = x.2.trace := rfl
@[simp] theorem keepWord_inputs (x : Word × State) : (keepWord x).inputs = x.2.inputs := rfl
@[simp] theorem keepWord_hostReads (x : Word × State) : (keepWord x).hostReads = x.2.hostReads := rfl
@[simp] theorem keepWord_devScript (x : Word × State) : (keepWord x).devScript = x.2.devScript := rfl
@[simp] theorem keepWord_budgets (x : Word × State) : (keepWord x).budgets = x.2.budgets := rfl
@[simp] theorem keepWord_draws (x : Word × State) : (keepWord x).draws = x.2.draws := rfl

/-! ### The transfer engine. -/

@[simp] theorem beginChunk_cfg (s : State) : (beginChunk s).cfg = s.cfg := rfl
@[simp] theorem beginChunk_estat (s : State) : (beginChunk s).estat = s.estat := rfl
@[simp] theorem beginChunk_drive (s : State) : (beginChunk s).drive = s.drive := rfl
@[simp] theorem beginChunk_lba (s : State) : (beginChunk s).lba = s.lba := rfl
@[simp] theorem beginChunk_count (s : State) : (beginChunk s).count = s.count := rfl
@[simp] theorem beginChunk_buf (s : State) : (beginChunk s).buf = s.buf := rfl
@[simp] theorem beginChunk_errinfo (s : State) : (beginChunk s).errinfo = s.errinfo := rfl
@[simp] theorem beginChunk_drvcount (s : State) : (beginChunk s).drvcount = s.drvcount := rfl
@[simp] theorem beginChunk_progress (s : State) : (beginChunk s).progress = s.progress := rfl
@[simp] theorem beginChunk_drv0 (s : State) : (beginChunk s).drv0 = s.drv0 := rfl
@[simp] theorem beginChunk_drv1 (s : State) : (beginChunk s).drv1 = s.drv1 := rfl
@[simp] theorem beginChunk_phase (s : State) : (beginChunk s).phase = s.phase := rfl
@[simp] theorem beginChunk_v (s : State) : (beginChunk s).v = { s.v with k := chunkSize s.cfg s.v.n } := rfl
@[simp] theorem beginChunk_mem (s : State) : (beginChunk s).mem = s.mem := rfl
@[simp] theorem beginChunk_refused (s : State) : (beginChunk s).refused = s.refused := rfl
@[simp] theorem beginChunk_races (s : State) : (beginChunk s).races = s.races := rfl
@[simp] theorem beginChunk_trace (s : State) : (beginChunk s).trace = s.trace := rfl
@[simp] theorem beginChunk_inputs (s : State) : (beginChunk s).inputs = s.inputs := rfl
@[simp] theorem beginChunk_hostReads (s : State) : (beginChunk s).hostReads = s.hostReads := rfl
@[simp] theorem beginChunk_devScript (s : State) : (beginChunk s).devScript = s.devScript := rfl
@[simp] theorem beginChunk_budgets (s : State) : (beginChunk s).budgets = s.budgets := rfl
@[simp] theorem beginChunk_draws (s : State) : (beginChunk s).draws = s.draws := rfl

@[simp] theorem beginSectors_cfg (s : State) : (beginSectors s).cfg = s.cfg := rfl
@[simp] theorem beginSectors_estat (s : State) : (beginSectors s).estat = s.estat := rfl
@[simp] theorem beginSectors_drive (s : State) : (beginSectors s).drive = s.drive := rfl
@[simp] theorem beginSectors_lba (s : State) : (beginSectors s).lba = s.lba := rfl
@[simp] theorem beginSectors_count (s : State) : (beginSectors s).count = s.count := rfl
@[simp] theorem beginSectors_buf (s : State) : (beginSectors s).buf = s.buf := rfl
@[simp] theorem beginSectors_errinfo (s : State) : (beginSectors s).errinfo = s.errinfo := rfl
@[simp] theorem beginSectors_drvcount (s : State) : (beginSectors s).drvcount = s.drvcount := rfl
@[simp] theorem beginSectors_progress (s : State) : (beginSectors s).progress = s.progress := rfl
@[simp] theorem beginSectors_drv0 (s : State) : (beginSectors s).drv0 = s.drv0 := rfl
@[simp] theorem beginSectors_drv1 (s : State) : (beginSectors s).drv1 = s.drv1 := rfl
@[simp] theorem beginSectors_phase (s : State) : (beginSectors s).phase = s.phase := rfl
@[simp] theorem beginSectors_v (s : State) : (beginSectors s).v = { s.v with i := 1, t := 0 } := rfl
@[simp] theorem beginSectors_mem (s : State) : (beginSectors s).mem = s.mem := rfl
@[simp] theorem beginSectors_refused (s : State) : (beginSectors s).refused = s.refused := rfl
@[simp] theorem beginSectors_races (s : State) : (beginSectors s).races = s.races := rfl
@[simp] theorem beginSectors_trace (s : State) : (beginSectors s).trace = s.trace := rfl
@[simp] theorem beginSectors_inputs (s : State) : (beginSectors s).inputs = s.inputs := rfl
@[simp] theorem beginSectors_hostReads (s : State) : (beginSectors s).hostReads = s.hostReads := rfl
@[simp] theorem beginSectors_devScript (s : State) : (beginSectors s).devScript = s.devScript := rfl
@[simp] theorem beginSectors_budgets (s : State) : (beginSectors s).budgets = s.budgets := rfl
@[simp] theorem beginSectors_draws (s : State) : (beginSectors s).draws = s.draws := rfl

@[simp] theorem nextBuffer_cfg (s : State) : (nextBuffer s).cfg = s.cfg := by
  unfold nextBuffer; rfl
@[simp] theorem nextBuffer_estat (s : State) : (nextBuffer s).estat = s.estat := by
  unfold nextBuffer; rfl
@[simp] theorem nextBuffer_drive (s : State) : (nextBuffer s).drive = s.drive := by
  unfold nextBuffer; rfl
@[simp] theorem nextBuffer_lba (s : State) : (nextBuffer s).lba = s.lba := by
  unfold nextBuffer; rfl
@[simp] theorem nextBuffer_count (s : State) : (nextBuffer s).count = s.count := by
  unfold nextBuffer; rfl
@[simp] theorem nextBuffer_buf (s : State) : (nextBuffer s).buf = s.buf := by
  unfold nextBuffer; rfl
@[simp] theorem nextBuffer_errinfo (s : State) : (nextBuffer s).errinfo = s.errinfo := by
  unfold nextBuffer; rfl
@[simp] theorem nextBuffer_drvcount (s : State) : (nextBuffer s).drvcount = s.drvcount := by
  unfold nextBuffer; rfl
@[simp] theorem nextBuffer_progress (s : State) : (nextBuffer s).progress = s.progress := by
  unfold nextBuffer; rfl
@[simp] theorem nextBuffer_drv0 (s : State) : (nextBuffer s).drv0 = s.drv0 := by
  unfold nextBuffer; rfl
@[simp] theorem nextBuffer_drv1 (s : State) : (nextBuffer s).drv1 = s.drv1 := by
  unfold nextBuffer; rfl
@[simp] theorem nextBuffer_phase (s : State) : (nextBuffer s).phase = s.phase := by
  unfold nextBuffer; rfl
@[simp] theorem nextBuffer_v (s : State) : (nextBuffer s).v = { s.v with p := s.v.p + 512 } := by
  unfold nextBuffer; rfl
@[simp] theorem nextBuffer_mem (s : State) : (nextBuffer s).mem = s.mem := by
  unfold nextBuffer; rfl
@[simp] theorem nextBuffer_refused (s : State) : (nextBuffer s).refused = s.refused := by
  unfold nextBuffer; rfl
@[simp] theorem nextBuffer_races (s : State) : (nextBuffer s).races = s.races := by
  unfold nextBuffer; rfl
@[simp] theorem nextBuffer_trace (s : State) : (nextBuffer s).trace = s.trace := by
  unfold nextBuffer; rfl
@[simp] theorem nextBuffer_inputs (s : State) : (nextBuffer s).inputs = s.inputs := by
  unfold nextBuffer; rfl
@[simp] theorem nextBuffer_hostReads (s : State) : (nextBuffer s).hostReads = s.hostReads := by
  unfold nextBuffer; rfl
@[simp] theorem nextBuffer_devScript (s : State) : (nextBuffer s).devScript = s.devScript := by
  unfold nextBuffer; rfl
@[simp] theorem nextBuffer_budgets (s : State) : (nextBuffer s).budgets = s.budgets := by
  unfold nextBuffer; rfl
@[simp] theorem nextBuffer_draws (s : State) : (nextBuffer s).draws = s.draws := by
  unfold nextBuffer; rfl

@[simp] theorem nextSector_cfg (s : State) : (nextSector s).cfg = s.cfg := rfl
@[simp] theorem nextSector_estat (s : State) : (nextSector s).estat = s.estat := rfl
@[simp] theorem nextSector_drive (s : State) : (nextSector s).drive = s.drive := rfl
@[simp] theorem nextSector_lba (s : State) : (nextSector s).lba = s.lba := rfl
@[simp] theorem nextSector_count (s : State) : (nextSector s).count = s.count := rfl
@[simp] theorem nextSector_buf (s : State) : (nextSector s).buf = s.buf := rfl
@[simp] theorem nextSector_errinfo (s : State) : (nextSector s).errinfo = s.errinfo := rfl
@[simp] theorem nextSector_drvcount (s : State) : (nextSector s).drvcount = s.drvcount := rfl
@[simp] theorem nextSector_progress (s : State) : (nextSector s).progress = s.progress := rfl
@[simp] theorem nextSector_drv0 (s : State) : (nextSector s).drv0 = s.drv0 := rfl
@[simp] theorem nextSector_drv1 (s : State) : (nextSector s).drv1 = s.drv1 := rfl
@[simp] theorem nextSector_phase (s : State) : (nextSector s).phase = s.phase := rfl
@[simp] theorem nextSector_v (s : State) : (nextSector s).v = { s.v with i := s.v.i + 1, t := 0 } := rfl
@[simp] theorem nextSector_mem (s : State) : (nextSector s).mem = s.mem := rfl
@[simp] theorem nextSector_refused (s : State) : (nextSector s).refused = s.refused := rfl
@[simp] theorem nextSector_races (s : State) : (nextSector s).races = s.races := rfl
@[simp] theorem nextSector_trace (s : State) : (nextSector s).trace = s.trace := rfl
@[simp] theorem nextSector_inputs (s : State) : (nextSector s).inputs = s.inputs := rfl
@[simp] theorem nextSector_hostReads (s : State) : (nextSector s).hostReads = s.hostReads := rfl
@[simp] theorem nextSector_devScript (s : State) : (nextSector s).devScript = s.devScript := rfl
@[simp] theorem nextSector_budgets (s : State) : (nextSector s).budgets = s.budgets := rfl
@[simp] theorem nextSector_draws (s : State) : (nextSector s).draws = s.draws := rfl

@[simp] theorem endChunk_cfg (s : State) : (endChunk s).cfg = s.cfg := rfl
@[simp] theorem endChunk_estat (s : State) : (endChunk s).estat = s.estat := rfl
@[simp] theorem endChunk_drive (s : State) : (endChunk s).drive = s.drive := rfl
@[simp] theorem endChunk_lba (s : State) : (endChunk s).lba = s.lba := rfl
@[simp] theorem endChunk_count (s : State) : (endChunk s).count = s.count := rfl
@[simp] theorem endChunk_buf (s : State) : (endChunk s).buf = s.buf := rfl
@[simp] theorem endChunk_errinfo (s : State) : (endChunk s).errinfo = s.errinfo := rfl
@[simp] theorem endChunk_drvcount (s : State) : (endChunk s).drvcount = s.drvcount := rfl
@[simp] theorem endChunk_progress (s : State) : (endChunk s).progress = s.progress := rfl
@[simp] theorem endChunk_drv0 (s : State) : (endChunk s).drv0 = s.drv0 := rfl
@[simp] theorem endChunk_drv1 (s : State) : (endChunk s).drv1 = s.drv1 := rfl
@[simp] theorem endChunk_phase (s : State) : (endChunk s).phase = s.phase := rfl
@[simp] theorem endChunk_v (s : State) :
    (endChunk s).v = { s.v with sec := s.v.sec + s.v.k.setWidth 32, n := s.v.n - s.v.k.setWidth 32, t := 0 } := rfl
@[simp] theorem endChunk_mem (s : State) : (endChunk s).mem = s.mem := rfl
@[simp] theorem endChunk_refused (s : State) : (endChunk s).refused = s.refused := rfl
@[simp] theorem endChunk_races (s : State) : (endChunk s).races = s.races := rfl
@[simp] theorem endChunk_trace (s : State) : (endChunk s).trace = s.trace := rfl
@[simp] theorem endChunk_inputs (s : State) : (endChunk s).inputs = s.inputs := rfl
@[simp] theorem endChunk_hostReads (s : State) : (endChunk s).hostReads = s.hostReads := rfl
@[simp] theorem endChunk_devScript (s : State) : (endChunk s).devScript = s.devScript := rfl
@[simp] theorem endChunk_budgets (s : State) : (endChunk s).budgets = s.budgets := rfl
@[simp] theorem endChunk_draws (s : State) : (endChunk s).draws = s.draws := rfl

@[simp] theorem beginDrives_cfg (s : State) : (beginDrives s).cfg = s.cfg := rfl
@[simp] theorem beginDrives_estat (s : State) : (beginDrives s).estat = s.estat := rfl
@[simp] theorem beginDrives_drive (s : State) : (beginDrives s).drive = s.drive := rfl
@[simp] theorem beginDrives_lba (s : State) : (beginDrives s).lba = s.lba := rfl
@[simp] theorem beginDrives_count (s : State) : (beginDrives s).count = s.count := rfl
@[simp] theorem beginDrives_buf (s : State) : (beginDrives s).buf = s.buf := rfl
@[simp] theorem beginDrives_errinfo (s : State) : (beginDrives s).errinfo = s.errinfo := rfl
@[simp] theorem beginDrives_drvcount (s : State) : (beginDrives s).drvcount = s.drvcount := rfl
@[simp] theorem beginDrives_progress (s : State) : (beginDrives s).progress = s.progress := rfl
@[simp] theorem beginDrives_drv0 (s : State) : (beginDrives s).drv0 = s.drv0 := rfl
@[simp] theorem beginDrives_drv1 (s : State) : (beginDrives s).drv1 = s.drv1 := rfl
@[simp] theorem beginDrives_phase (s : State) : (beginDrives s).phase = s.phase := rfl
@[simp] theorem beginDrives_v (s : State) : (beginDrives s).v = { s.v with cnt := 0, dd := 0 } := rfl
@[simp] theorem beginDrives_mem (s : State) : (beginDrives s).mem = s.mem := rfl
@[simp] theorem beginDrives_refused (s : State) : (beginDrives s).refused = s.refused := rfl
@[simp] theorem beginDrives_races (s : State) : (beginDrives s).races = s.races := rfl
@[simp] theorem beginDrives_trace (s : State) : (beginDrives s).trace = s.trace := rfl
@[simp] theorem beginDrives_inputs (s : State) : (beginDrives s).inputs = s.inputs := rfl
@[simp] theorem beginDrives_hostReads (s : State) : (beginDrives s).hostReads = s.hostReads := rfl
@[simp] theorem beginDrives_devScript (s : State) : (beginDrives s).devScript = s.devScript := rfl
@[simp] theorem beginDrives_budgets (s : State) : (beginDrives s).budgets = s.budgets := rfl
@[simp] theorem beginDrives_draws (s : State) : (beginDrives s).draws = s.draws := rfl

/-! ### Starting, finishing, refusing, reset. -/

@[simp] theorem accept_cfg (c : Instr) (ph : Phase) (s : State) : (accept c ph s).cfg = s.cfg := rfl
@[simp] theorem accept_estat (c : Instr) (ph : Phase) (s : State) :
    (accept c ph s).estat = { s.estat with busy := true, done := false, result := 0, lastcmd := c.code } := rfl
@[simp] theorem accept_drive (c : Instr) (ph : Phase) (s : State) : (accept c ph s).drive = s.drive := rfl
@[simp] theorem accept_lba (c : Instr) (ph : Phase) (s : State) : (accept c ph s).lba = s.lba := rfl
@[simp] theorem accept_count (c : Instr) (ph : Phase) (s : State) : (accept c ph s).count = s.count := rfl
@[simp] theorem accept_buf (c : Instr) (ph : Phase) (s : State) : (accept c ph s).buf = s.buf := rfl
@[simp] theorem accept_errinfo (c : Instr) (ph : Phase) (s : State) : (accept c ph s).errinfo = 0 := rfl
@[simp] theorem accept_drvcount (c : Instr) (ph : Phase) (s : State) : (accept c ph s).drvcount = s.drvcount := rfl
@[simp] theorem accept_progress (c : Instr) (ph : Phase) (s : State) : (accept c ph s).progress = 0 := rfl
@[simp] theorem accept_drv0 (c : Instr) (ph : Phase) (s : State) : (accept c ph s).drv0 = s.drv0 := rfl
@[simp] theorem accept_drv1 (c : Instr) (ph : Phase) (s : State) : (accept c ph s).drv1 = s.drv1 := rfl
@[simp] theorem accept_phase (c : Instr) (ph : Phase) (s : State) : (accept c ph s).phase = ph := rfl
@[simp] theorem accept_v (c : Instr) (ph : Phase) (s : State) :
    (accept c ph s).v = { s.v with d := s.drive, sec := s.lba, n := s.count, p := s.buf, t := 0 } := rfl
@[simp] theorem accept_mem (c : Instr) (ph : Phase) (s : State) : (accept c ph s).mem = s.mem := rfl
@[simp] theorem accept_refused (c : Instr) (ph : Phase) (s : State) : (accept c ph s).refused = s.refused := rfl
@[simp] theorem accept_races (c : Instr) (ph : Phase) (s : State) : (accept c ph s).races = [] := rfl
@[simp] theorem accept_trace (c : Instr) (ph : Phase) (s : State) : (accept c ph s).trace = s.trace := rfl
@[simp] theorem accept_inputs (c : Instr) (ph : Phase) (s : State) : (accept c ph s).inputs = s.inputs := rfl
@[simp] theorem accept_hostReads (c : Instr) (ph : Phase) (s : State) : (accept c ph s).hostReads = s.hostReads := rfl
@[simp] theorem accept_devScript (c : Instr) (ph : Phase) (s : State) : (accept c ph s).devScript = s.devScript := rfl
@[simp] theorem accept_budgets (c : Instr) (ph : Phase) (s : State) : (accept c ph s).budgets = s.budgets := rfl
@[simp] theorem accept_draws (c : Instr) (ph : Phase) (s : State) : (accept c ph s).draws = s.draws := rfl

@[simp] theorem finish_cfg (r : Result) (s : State) : (finish r s).cfg = s.cfg := rfl
@[simp] theorem finish_estat (r : Result) (s : State) :
    (finish r s).estat = { s.estat with result := resultCode r, done := true, busy := false } := rfl
@[simp] theorem finish_drive (r : Result) (s : State) : (finish r s).drive = s.drive := rfl
@[simp] theorem finish_lba (r : Result) (s : State) : (finish r s).lba = s.lba := rfl
@[simp] theorem finish_count (r : Result) (s : State) : (finish r s).count = s.count := rfl
@[simp] theorem finish_buf (r : Result) (s : State) : (finish r s).buf = s.buf := rfl
@[simp] theorem finish_errinfo (r : Result) (s : State) : (finish r s).errinfo = s.errinfo := rfl
@[simp] theorem finish_drvcount (r : Result) (s : State) : (finish r s).drvcount = s.drvcount := rfl
@[simp] theorem finish_progress (r : Result) (s : State) : (finish r s).progress = s.progress := rfl
@[simp] theorem finish_drv0 (r : Result) (s : State) : (finish r s).drv0 = s.drv0 := rfl
@[simp] theorem finish_drv1 (r : Result) (s : State) : (finish r s).drv1 = s.drv1 := rfl
@[simp] theorem finish_phase (r : Result) (s : State) : (finish r s).phase = .idle := rfl
@[simp] theorem finish_v (r : Result) (s : State) : (finish r s).v = s.v := rfl
@[simp] theorem finish_mem (r : Result) (s : State) : (finish r s).mem = s.mem := rfl
@[simp] theorem finish_refused (r : Result) (s : State) : (finish r s).refused = s.refused := rfl
@[simp] theorem finish_races (r : Result) (s : State) : (finish r s).races = s.races := rfl
@[simp] theorem finish_trace (r : Result) (s : State) : (finish r s).trace = s.trace := rfl
@[simp] theorem finish_inputs (r : Result) (s : State) : (finish r s).inputs = s.inputs := rfl
@[simp] theorem finish_hostReads (r : Result) (s : State) : (finish r s).hostReads = s.hostReads := rfl
@[simp] theorem finish_devScript (r : Result) (s : State) : (finish r s).devScript = s.devScript := rfl
@[simp] theorem finish_budgets (r : Result) (s : State) : (finish r s).budgets = s.budgets := rfl
@[simp] theorem finish_draws (r : Result) (s : State) : (finish r s).draws = s.draws := rfl

@[simp] theorem rejectIllegal_cfg (w : Word) (s : State) : (rejectIllegal w s).cfg = s.cfg := rfl
@[simp] theorem rejectIllegal_estat (w : Word) (s : State) : (rejectIllegal w s).estat =
      { s.estat with lastcmd := w.setWidth 8, result := resultCode .illegalCmd, done := true, busy := false } := rfl
@[simp] theorem rejectIllegal_drive (w : Word) (s : State) : (rejectIllegal w s).drive = s.drive := rfl
@[simp] theorem rejectIllegal_lba (w : Word) (s : State) : (rejectIllegal w s).lba = s.lba := rfl
@[simp] theorem rejectIllegal_count (w : Word) (s : State) : (rejectIllegal w s).count = s.count := rfl
@[simp] theorem rejectIllegal_buf (w : Word) (s : State) : (rejectIllegal w s).buf = s.buf := rfl
@[simp] theorem rejectIllegal_errinfo (w : Word) (s : State) : (rejectIllegal w s).errinfo = 0 := rfl
@[simp] theorem rejectIllegal_drvcount (w : Word) (s : State) : (rejectIllegal w s).drvcount = s.drvcount := rfl
@[simp] theorem rejectIllegal_progress (w : Word) (s : State) : (rejectIllegal w s).progress = 0 := rfl
@[simp] theorem rejectIllegal_drv0 (w : Word) (s : State) : (rejectIllegal w s).drv0 = s.drv0 := rfl
@[simp] theorem rejectIllegal_drv1 (w : Word) (s : State) : (rejectIllegal w s).drv1 = s.drv1 := rfl
@[simp] theorem rejectIllegal_phase (w : Word) (s : State) : (rejectIllegal w s).phase = s.phase := rfl
@[simp] theorem rejectIllegal_v (w : Word) (s : State) : (rejectIllegal w s).v = s.v := rfl
@[simp] theorem rejectIllegal_mem (w : Word) (s : State) : (rejectIllegal w s).mem = s.mem := rfl
@[simp] theorem rejectIllegal_refused (w : Word) (s : State) : (rejectIllegal w s).refused = s.refused := rfl
@[simp] theorem rejectIllegal_races (w : Word) (s : State) : (rejectIllegal w s).races = s.races := rfl
@[simp] theorem rejectIllegal_trace (w : Word) (s : State) : (rejectIllegal w s).trace = s.trace := rfl
@[simp] theorem rejectIllegal_inputs (w : Word) (s : State) : (rejectIllegal w s).inputs = s.inputs := rfl
@[simp] theorem rejectIllegal_hostReads (w : Word) (s : State) : (rejectIllegal w s).hostReads = s.hostReads := rfl
@[simp] theorem rejectIllegal_devScript (w : Word) (s : State) : (rejectIllegal w s).devScript = s.devScript := rfl
@[simp] theorem rejectIllegal_budgets (w : Word) (s : State) : (rejectIllegal w s).budgets = s.budgets := rfl
@[simp] theorem rejectIllegal_draws (w : Word) (s : State) : (rejectIllegal w s).draws = s.draws := rfl

@[simp] theorem turnAway_cfg (s : State) : (turnAway s).cfg = s.cfg := rfl
@[simp] theorem turnAway_estat (s : State) : (turnAway s).estat = { s.estat with rej := true } := rfl
@[simp] theorem turnAway_drive (s : State) : (turnAway s).drive = s.drive := rfl
@[simp] theorem turnAway_lba (s : State) : (turnAway s).lba = s.lba := rfl
@[simp] theorem turnAway_count (s : State) : (turnAway s).count = s.count := rfl
@[simp] theorem turnAway_buf (s : State) : (turnAway s).buf = s.buf := rfl
@[simp] theorem turnAway_errinfo (s : State) : (turnAway s).errinfo = s.errinfo := rfl
@[simp] theorem turnAway_drvcount (s : State) : (turnAway s).drvcount = s.drvcount := rfl
@[simp] theorem turnAway_progress (s : State) : (turnAway s).progress = s.progress := rfl
@[simp] theorem turnAway_drv0 (s : State) : (turnAway s).drv0 = s.drv0 := rfl
@[simp] theorem turnAway_drv1 (s : State) : (turnAway s).drv1 = s.drv1 := rfl
@[simp] theorem turnAway_phase (s : State) : (turnAway s).phase = s.phase := rfl
@[simp] theorem turnAway_v (s : State) : (turnAway s).v = s.v := rfl
@[simp] theorem turnAway_mem (s : State) : (turnAway s).mem = s.mem := rfl
@[simp] theorem turnAway_refused (s : State) : (turnAway s).refused = s.refused := rfl
@[simp] theorem turnAway_races (s : State) : (turnAway s).races = s.races := rfl
@[simp] theorem turnAway_trace (s : State) : (turnAway s).trace = s.trace := rfl
@[simp] theorem turnAway_inputs (s : State) : (turnAway s).inputs = s.inputs := rfl
@[simp] theorem turnAway_hostReads (s : State) : (turnAway s).hostReads = s.hostReads := rfl
@[simp] theorem turnAway_devScript (s : State) : (turnAway s).devScript = s.devScript := rfl
@[simp] theorem turnAway_budgets (s : State) : (turnAway s).budgets = s.budgets := rfl
@[simp] theorem turnAway_draws (s : State) : (turnAway s).draws = s.draws := rfl

@[simp] theorem engineReset_cfg (s : State) : (engineReset s).cfg = s.cfg := rfl
@[simp] theorem engineReset_estat (s : State) : (engineReset s).estat = State.reset.estat := rfl
@[simp] theorem engineReset_drive (s : State) : (engineReset s).drive = 0 := rfl
@[simp] theorem engineReset_lba (s : State) : (engineReset s).lba = 0 := rfl
@[simp] theorem engineReset_count (s : State) : (engineReset s).count = 0 := rfl
@[simp] theorem engineReset_buf (s : State) : (engineReset s).buf = 0 := rfl
@[simp] theorem engineReset_errinfo (s : State) : (engineReset s).errinfo = 0 := rfl
@[simp] theorem engineReset_drvcount (s : State) : (engineReset s).drvcount = 0 := rfl
@[simp] theorem engineReset_progress (s : State) : (engineReset s).progress = 0 := rfl
@[simp] theorem engineReset_drv0 (s : State) : (engineReset s).drv0 = DriveRecord.absent := rfl
@[simp] theorem engineReset_drv1 (s : State) : (engineReset s).drv1 = DriveRecord.absent := rfl
@[simp] theorem engineReset_phase (s : State) : (engineReset s).phase = .idle := rfl
@[simp] theorem engineReset_v (s : State) : (engineReset s).v = s.v := rfl
@[simp] theorem engineReset_mem (s : State) : (engineReset s).mem = s.mem := rfl
@[simp] theorem engineReset_refused (s : State) : (engineReset s).refused = s.refused := rfl
@[simp] theorem engineReset_races (s : State) : (engineReset s).races = [] := rfl
@[simp] theorem engineReset_trace (s : State) : (engineReset s).trace = s.trace := rfl
@[simp] theorem engineReset_inputs (s : State) : (engineReset s).inputs = s.inputs := rfl
@[simp] theorem engineReset_hostReads (s : State) : (engineReset s).hostReads = s.hostReads := rfl
@[simp] theorem engineReset_devScript (s : State) : (engineReset s).devScript = s.devScript := rfl
@[simp] theorem engineReset_budgets (s : State) : (engineReset s).budgets = s.budgets := rfl
@[simp] theorem engineReset_draws (s : State) : (engineReset s).draws = s.draws := rfl

@[simp] theorem returnToHost_cfg (w : Word) (s : State) : (returnToHost w s).cfg = s.cfg := rfl
@[simp] theorem returnToHost_estat (w : Word) (s : State) : (returnToHost w s).estat = s.estat := rfl
@[simp] theorem returnToHost_drive (w : Word) (s : State) : (returnToHost w s).drive = s.drive := rfl
@[simp] theorem returnToHost_lba (w : Word) (s : State) : (returnToHost w s).lba = s.lba := rfl
@[simp] theorem returnToHost_count (w : Word) (s : State) : (returnToHost w s).count = s.count := rfl
@[simp] theorem returnToHost_buf (w : Word) (s : State) : (returnToHost w s).buf = s.buf := rfl
@[simp] theorem returnToHost_errinfo (w : Word) (s : State) : (returnToHost w s).errinfo = s.errinfo := rfl
@[simp] theorem returnToHost_drvcount (w : Word) (s : State) : (returnToHost w s).drvcount = s.drvcount := rfl
@[simp] theorem returnToHost_progress (w : Word) (s : State) : (returnToHost w s).progress = s.progress := rfl
@[simp] theorem returnToHost_drv0 (w : Word) (s : State) : (returnToHost w s).drv0 = s.drv0 := rfl
@[simp] theorem returnToHost_drv1 (w : Word) (s : State) : (returnToHost w s).drv1 = s.drv1 := rfl
@[simp] theorem returnToHost_phase (w : Word) (s : State) : (returnToHost w s).phase = s.phase := rfl
@[simp] theorem returnToHost_v (w : Word) (s : State) : (returnToHost w s).v = s.v := rfl
@[simp] theorem returnToHost_mem (w : Word) (s : State) : (returnToHost w s).mem = s.mem := rfl
@[simp] theorem returnToHost_refused (w : Word) (s : State) : (returnToHost w s).refused = s.refused := rfl
@[simp] theorem returnToHost_races (w : Word) (s : State) : (returnToHost w s).races = s.races := rfl
@[simp] theorem returnToHost_trace (w : Word) (s : State) : (returnToHost w s).trace = s.trace := rfl
@[simp] theorem returnToHost_inputs (w : Word) (s : State) : (returnToHost w s).inputs = s.inputs := rfl
@[simp] theorem returnToHost_hostReads (w : Word) (s : State) : (returnToHost w s).hostReads = w :: s.hostReads := rfl
@[simp] theorem returnToHost_devScript (w : Word) (s : State) : (returnToHost w s).devScript = s.devScript := rfl
@[simp] theorem returnToHost_budgets (w : Word) (s : State) : (returnToHost w s).budgets = s.budgets := rfl
@[simp] theorem returnToHost_draws (w : Word) (s : State) : (returnToHost w s).draws = s.draws := rfl

/-! ### Memory and drive records. -/

@[simp] theorem engineLoad_cfg (a : Word) (s : State) : (engineLoad a s).2.cfg = s.cfg := by
  unfold engineLoad; split <;> rfl
@[simp] theorem engineLoad_estat (a : Word) (s : State) : (engineLoad a s).2.estat = s.estat := by
  unfold engineLoad; split <;> rfl
@[simp] theorem engineLoad_drive (a : Word) (s : State) : (engineLoad a s).2.drive = s.drive := by
  unfold engineLoad; split <;> rfl
@[simp] theorem engineLoad_lba (a : Word) (s : State) : (engineLoad a s).2.lba = s.lba := by
  unfold engineLoad; split <;> rfl
@[simp] theorem engineLoad_count (a : Word) (s : State) : (engineLoad a s).2.count = s.count := by
  unfold engineLoad; split <;> rfl
@[simp] theorem engineLoad_buf (a : Word) (s : State) : (engineLoad a s).2.buf = s.buf := by
  unfold engineLoad; split <;> rfl
@[simp] theorem engineLoad_errinfo (a : Word) (s : State) : (engineLoad a s).2.errinfo = s.errinfo := by
  unfold engineLoad; split <;> rfl
@[simp] theorem engineLoad_drvcount (a : Word) (s : State) : (engineLoad a s).2.drvcount = s.drvcount := by
  unfold engineLoad; split <;> rfl
@[simp] theorem engineLoad_progress (a : Word) (s : State) : (engineLoad a s).2.progress = s.progress := by
  unfold engineLoad; split <;> rfl
@[simp] theorem engineLoad_drv0 (a : Word) (s : State) : (engineLoad a s).2.drv0 = s.drv0 := by
  unfold engineLoad; split <;> rfl
@[simp] theorem engineLoad_drv1 (a : Word) (s : State) : (engineLoad a s).2.drv1 = s.drv1 := by
  unfold engineLoad; split <;> rfl
@[simp] theorem engineLoad_phase (a : Word) (s : State) : (engineLoad a s).2.phase = s.phase := by
  unfold engineLoad; split <;> rfl
@[simp] theorem engineLoad_v (a : Word) (s : State) : (engineLoad a s).2.v = s.v := by
  unfold engineLoad; split <;> rfl
@[simp] theorem engineLoad_mem (a : Word) (s : State) : (engineLoad a s).2.mem = s.mem := by
  unfold engineLoad; split <;> rfl
@[simp] theorem engineLoad_refused (a : Word) (s : State) : (engineLoad a s).2.refused = s.refused := by
  unfold engineLoad; split <;> rfl
@[simp] theorem engineLoad_races (a : Word) (s : State) : (engineLoad a s).2.races = s.races := by
  unfold engineLoad; split <;> rfl
@[simp] theorem engineLoad_trace (a : Word) (s : State) : (engineLoad a s).2.trace = s.trace := by
  unfold engineLoad; split <;> rfl
@[simp] theorem engineLoad_inputs (a : Word) (s : State) : (engineLoad a s).2.inputs = s.inputs := by
  unfold engineLoad; split <;> rfl
@[simp] theorem engineLoad_hostReads (a : Word) (s : State) : (engineLoad a s).2.hostReads = s.hostReads := by
  unfold engineLoad; split <;> rfl
@[simp] theorem engineLoad_devScript (a : Word) (s : State) : (engineLoad a s).2.devScript = s.devScript := by
  unfold engineLoad; split <;> rfl
@[simp] theorem engineLoad_budgets (a : Word) (s : State) : (engineLoad a s).2.budgets = s.budgets := by
  unfold engineLoad; split <;> rfl

@[simp] theorem engineStore_cfg (a w : Word) (s : State) : (engineStore a w s).cfg = s.cfg := by
  unfold engineStore; split <;> rfl
@[simp] theorem engineStore_estat (a w : Word) (s : State) : (engineStore a w s).estat = s.estat := by
  unfold engineStore; split <;> rfl
@[simp] theorem engineStore_drive (a w : Word) (s : State) : (engineStore a w s).drive = s.drive := by
  unfold engineStore; split <;> rfl
@[simp] theorem engineStore_lba (a w : Word) (s : State) : (engineStore a w s).lba = s.lba := by
  unfold engineStore; split <;> rfl
@[simp] theorem engineStore_count (a w : Word) (s : State) : (engineStore a w s).count = s.count := by
  unfold engineStore; split <;> rfl
@[simp] theorem engineStore_buf (a w : Word) (s : State) : (engineStore a w s).buf = s.buf := by
  unfold engineStore; split <;> rfl
@[simp] theorem engineStore_errinfo (a w : Word) (s : State) : (engineStore a w s).errinfo = s.errinfo := by
  unfold engineStore; split <;> rfl
@[simp] theorem engineStore_drvcount (a w : Word) (s : State) : (engineStore a w s).drvcount = s.drvcount := by
  unfold engineStore; split <;> rfl
@[simp] theorem engineStore_progress (a w : Word) (s : State) : (engineStore a w s).progress = s.progress := by
  unfold engineStore; split <;> rfl
@[simp] theorem engineStore_drv0 (a w : Word) (s : State) : (engineStore a w s).drv0 = s.drv0 := by
  unfold engineStore; split <;> rfl
@[simp] theorem engineStore_drv1 (a w : Word) (s : State) : (engineStore a w s).drv1 = s.drv1 := by
  unfold engineStore; split <;> rfl
@[simp] theorem engineStore_phase (a w : Word) (s : State) : (engineStore a w s).phase = s.phase := by
  unfold engineStore; split <;> rfl
@[simp] theorem engineStore_v (a w : Word) (s : State) : (engineStore a w s).v = s.v := by
  unfold engineStore; split <;> rfl
@[simp] theorem engineStore_refused (a w : Word) (s : State) : (engineStore a w s).refused = s.refused := by
  unfold engineStore; split <;> rfl
@[simp] theorem engineStore_trace (a w : Word) (s : State) : (engineStore a w s).trace = s.trace := by
  unfold engineStore; split <;> rfl
@[simp] theorem engineStore_inputs (a w : Word) (s : State) : (engineStore a w s).inputs = s.inputs := by
  unfold engineStore; split <;> rfl
@[simp] theorem engineStore_hostReads (a w : Word) (s : State) : (engineStore a w s).hostReads = s.hostReads := by
  unfold engineStore; split <;> rfl
@[simp] theorem engineStore_devScript (a w : Word) (s : State) : (engineStore a w s).devScript = s.devScript := by
  unfold engineStore; split <;> rfl
@[simp] theorem engineStore_budgets (a w : Word) (s : State) : (engineStore a w s).budgets = s.budgets := by
  unfold engineStore; split <;> rfl

@[simp] theorem setDriveRecord_cfg (d : BitVec 1) (r : DriveRecord) (s : State) :
    (setDriveRecord d r s).cfg = s.cfg := by
  unfold setDriveRecord; split <;> rfl
@[simp] theorem setDriveRecord_estat (d : BitVec 1) (r : DriveRecord) (s : State) :
    (setDriveRecord d r s).estat = s.estat := by
  unfold setDriveRecord; split <;> rfl
@[simp] theorem setDriveRecord_drive (d : BitVec 1) (r : DriveRecord) (s : State) :
    (setDriveRecord d r s).drive = s.drive := by
  unfold setDriveRecord; split <;> rfl
@[simp] theorem setDriveRecord_lba (d : BitVec 1) (r : DriveRecord) (s : State) :
    (setDriveRecord d r s).lba = s.lba := by
  unfold setDriveRecord; split <;> rfl
@[simp] theorem setDriveRecord_count (d : BitVec 1) (r : DriveRecord) (s : State) :
    (setDriveRecord d r s).count = s.count := by
  unfold setDriveRecord; split <;> rfl
@[simp] theorem setDriveRecord_buf (d : BitVec 1) (r : DriveRecord) (s : State) :
    (setDriveRecord d r s).buf = s.buf := by
  unfold setDriveRecord; split <;> rfl
@[simp] theorem setDriveRecord_errinfo (d : BitVec 1) (r : DriveRecord) (s : State) :
    (setDriveRecord d r s).errinfo = s.errinfo := by
  unfold setDriveRecord; split <;> rfl
@[simp] theorem setDriveRecord_drvcount (d : BitVec 1) (r : DriveRecord) (s : State) :
    (setDriveRecord d r s).drvcount = s.drvcount := by
  unfold setDriveRecord; split <;> rfl
@[simp] theorem setDriveRecord_progress (d : BitVec 1) (r : DriveRecord) (s : State) :
    (setDriveRecord d r s).progress = s.progress := by
  unfold setDriveRecord; split <;> rfl
@[simp] theorem setDriveRecord_drv0 (d : BitVec 1) (r : DriveRecord) (s : State) :
    (setDriveRecord d r s).drv0 = if d = 0 then r else s.drv0 := by
  unfold setDriveRecord; split <;> rfl
@[simp] theorem setDriveRecord_drv1 (d : BitVec 1) (r : DriveRecord) (s : State) :
    (setDriveRecord d r s).drv1 = if d = 0 then s.drv1 else r := by
  unfold setDriveRecord; split <;> rfl
@[simp] theorem setDriveRecord_phase (d : BitVec 1) (r : DriveRecord) (s : State) :
    (setDriveRecord d r s).phase = s.phase := by
  unfold setDriveRecord; split <;> rfl
@[simp] theorem setDriveRecord_v (d : BitVec 1) (r : DriveRecord) (s : State) : (setDriveRecord d r s).v = s.v := by
  unfold setDriveRecord; split <;> rfl
@[simp] theorem setDriveRecord_mem (d : BitVec 1) (r : DriveRecord) (s : State) :
    (setDriveRecord d r s).mem = s.mem := by
  unfold setDriveRecord; split <;> rfl
@[simp] theorem setDriveRecord_refused (d : BitVec 1) (r : DriveRecord) (s : State) :
    (setDriveRecord d r s).refused = s.refused := by
  unfold setDriveRecord; split <;> rfl
@[simp] theorem setDriveRecord_races (d : BitVec 1) (r : DriveRecord) (s : State) :
    (setDriveRecord d r s).races = s.races := by
  unfold setDriveRecord; split <;> rfl
@[simp] theorem setDriveRecord_trace (d : BitVec 1) (r : DriveRecord) (s : State) :
    (setDriveRecord d r s).trace = s.trace := by
  unfold setDriveRecord; split <;> rfl
@[simp] theorem setDriveRecord_inputs (d : BitVec 1) (r : DriveRecord) (s : State) :
    (setDriveRecord d r s).inputs = s.inputs := by
  unfold setDriveRecord; split <;> rfl
@[simp] theorem setDriveRecord_hostReads (d : BitVec 1) (r : DriveRecord) (s : State) :
    (setDriveRecord d r s).hostReads = s.hostReads := by
  unfold setDriveRecord; split <;> rfl
@[simp] theorem setDriveRecord_devScript (d : BitVec 1) (r : DriveRecord) (s : State) :
    (setDriveRecord d r s).devScript = s.devScript := by
  unfold setDriveRecord; split <;> rfl
@[simp] theorem setDriveRecord_budgets (d : BitVec 1) (r : DriveRecord) (s : State) :
    (setDriveRecord d r s).budgets = s.budgets := by
  unfold setDriveRecord; split <;> rfl
@[simp] theorem setDriveRecord_draws (d : BitVec 1) (r : DriveRecord) (s : State) :
    (setDriveRecord d r s).draws = s.draws := by
  unfold setDriveRecord; split <;> rfl

@[simp] theorem clearRecord_cfg (d : BitVec 1) (s : State) : (clearRecord d s).cfg = s.cfg := by
  simp [clearRecord]
@[simp] theorem clearRecord_estat (d : BitVec 1) (s : State) : (clearRecord d s).estat = s.estat := by
  simp [clearRecord]
@[simp] theorem clearRecord_drive (d : BitVec 1) (s : State) : (clearRecord d s).drive = s.drive := by
  simp [clearRecord]
@[simp] theorem clearRecord_lba (d : BitVec 1) (s : State) : (clearRecord d s).lba = s.lba := by
  simp [clearRecord]
@[simp] theorem clearRecord_count (d : BitVec 1) (s : State) : (clearRecord d s).count = s.count := by
  simp [clearRecord]
@[simp] theorem clearRecord_buf (d : BitVec 1) (s : State) : (clearRecord d s).buf = s.buf := by
  simp [clearRecord]
@[simp] theorem clearRecord_errinfo (d : BitVec 1) (s : State) : (clearRecord d s).errinfo = s.errinfo := by
  simp [clearRecord]
@[simp] theorem clearRecord_drvcount (d : BitVec 1) (s : State) : (clearRecord d s).drvcount = s.drvcount := by
  simp [clearRecord]
@[simp] theorem clearRecord_progress (d : BitVec 1) (s : State) : (clearRecord d s).progress = s.progress := by
  simp [clearRecord]
@[simp] theorem clearRecord_drv0 (d : BitVec 1) (s : State) :
    (clearRecord d s).drv0 = if d = 0 then DriveRecord.absent else s.drv0 := by
  simp [clearRecord]
@[simp] theorem clearRecord_drv1 (d : BitVec 1) (s : State) :
    (clearRecord d s).drv1 = if d = 0 then s.drv1 else DriveRecord.absent := by
  simp [clearRecord]
@[simp] theorem clearRecord_phase (d : BitVec 1) (s : State) : (clearRecord d s).phase = s.phase := by
  simp [clearRecord]
@[simp] theorem clearRecord_v (d : BitVec 1) (s : State) : (clearRecord d s).v = s.v := by
  simp [clearRecord]
@[simp] theorem clearRecord_mem (d : BitVec 1) (s : State) : (clearRecord d s).mem = s.mem := by
  simp [clearRecord]
@[simp] theorem clearRecord_refused (d : BitVec 1) (s : State) : (clearRecord d s).refused = s.refused := by
  simp [clearRecord]
@[simp] theorem clearRecord_races (d : BitVec 1) (s : State) : (clearRecord d s).races = s.races := by
  simp [clearRecord]
@[simp] theorem clearRecord_trace (d : BitVec 1) (s : State) : (clearRecord d s).trace = s.trace := by
  simp [clearRecord]
@[simp] theorem clearRecord_inputs (d : BitVec 1) (s : State) : (clearRecord d s).inputs = s.inputs := by
  simp [clearRecord]
@[simp] theorem clearRecord_hostReads (d : BitVec 1) (s : State) : (clearRecord d s).hostReads = s.hostReads := by
  simp [clearRecord]
@[simp] theorem clearRecord_devScript (d : BitVec 1) (s : State) : (clearRecord d s).devScript = s.devScript := by
  simp [clearRecord]
@[simp] theorem clearRecord_budgets (d : BitVec 1) (s : State) : (clearRecord d s).budgets = s.budgets := by
  simp [clearRecord]
@[simp] theorem clearRecord_draws (d : BitVec 1) (s : State) : (clearRecord d s).draws = s.draws := by
  simp [clearRecord]

@[simp] theorem clearDrives_cfg (s : State) : (clearDrives s).cfg = s.cfg := by
  simp [clearDrives]
@[simp] theorem clearDrives_estat (s : State) : (clearDrives s).estat = s.estat := by
  simp [clearDrives]
@[simp] theorem clearDrives_drive (s : State) : (clearDrives s).drive = s.drive := by
  simp [clearDrives]
@[simp] theorem clearDrives_lba (s : State) : (clearDrives s).lba = s.lba := by
  simp [clearDrives]
@[simp] theorem clearDrives_count (s : State) : (clearDrives s).count = s.count := by
  simp [clearDrives]
@[simp] theorem clearDrives_buf (s : State) : (clearDrives s).buf = s.buf := by
  simp [clearDrives]
@[simp] theorem clearDrives_errinfo (s : State) : (clearDrives s).errinfo = s.errinfo := by
  simp [clearDrives]
@[simp] theorem clearDrives_drvcount (s : State) : (clearDrives s).drvcount = 0 := by
  simp [clearDrives]
@[simp] theorem clearDrives_progress (s : State) : (clearDrives s).progress = s.progress := by
  simp [clearDrives]
@[simp] theorem clearDrives_drv0 (s : State) : (clearDrives s).drv0 = DriveRecord.absent := by
  simp [clearDrives]
@[simp] theorem clearDrives_drv1 (s : State) : (clearDrives s).drv1 = DriveRecord.absent := by
  simp [clearDrives]
@[simp] theorem clearDrives_phase (s : State) : (clearDrives s).phase = s.phase := by
  simp [clearDrives]
@[simp] theorem clearDrives_v (s : State) : (clearDrives s).v = s.v := by
  simp [clearDrives]
@[simp] theorem clearDrives_mem (s : State) : (clearDrives s).mem = s.mem := by
  simp [clearDrives]
@[simp] theorem clearDrives_refused (s : State) : (clearDrives s).refused = s.refused := by
  simp [clearDrives]
@[simp] theorem clearDrives_races (s : State) : (clearDrives s).races = s.races := by
  simp [clearDrives]
@[simp] theorem clearDrives_trace (s : State) : (clearDrives s).trace = s.trace := by
  simp [clearDrives]
@[simp] theorem clearDrives_inputs (s : State) : (clearDrives s).inputs = s.inputs := by
  simp [clearDrives]
@[simp] theorem clearDrives_hostReads (s : State) : (clearDrives s).hostReads = s.hostReads := by
  simp [clearDrives]
@[simp] theorem clearDrives_devScript (s : State) : (clearDrives s).devScript = s.devScript := by
  simp [clearDrives]
@[simp] theorem clearDrives_budgets (s : State) : (clearDrives s).budgets = s.budgets := by
  simp [clearDrives]
@[simp] theorem clearDrives_draws (s : State) : (clearDrives s).draws = s.draws := by
  simp [clearDrives]

end Sys2Proof.Machine
end

