-- ==== Sys2Proof/Laws/Memory.lean ====
section
/-! SUPPORT. The laws of host memory: a read after a write, what a write leaves alone, that every memory operation
keeps the canonical form, and that two canonical memories with the same bytes are equal. -/

namespace Sys2Proof.Machine

/-! ### Bytes -/

@[simp] theorem byte_nil (a : Nat) : Memory.byte [] a = 0 := rfl

theorem byte_cons (x : Nat) (b : Byte) (m : Memory) (a : Nat) :
    Memory.byte ((x, b) :: m) a = if a = x then b else m.byte a := rfl

/-- A byte write leaves every other address alone. -/
theorem byte_put_other (m : Memory) {a a' : Nat} (b : Byte) (h : a' ≠ a) : (m.put a b).byte a' = m.byte a' := by
  induction m with
  | nil => unfold Memory.put; split <;> simp [byte_cons, h]
  | cons x m ih =>
    obtain ⟨x, c⟩ := x
    unfold Memory.put
    split
    · split <;> simp [byte_cons, h]
    · split
      · subst a
        split <;> simp [byte_cons, h]
      · simp [byte_cons, ih]

theorem wfFrom_cons {lo x : Nat} {b : Byte} {m : Memory} :
    Memory.wfFrom lo ((x, b) :: m) = true ↔ lo ≤ x ∧ x < 2 ^ 32 ∧ b ≠ 0 ∧ Memory.wfFrom (x + 1) m = true := by
  simp [Memory.wfFrom, unlistedByte, and_assoc]

theorem wfFrom_mono {lo lo' : Nat} {m : Memory} (h : Memory.wfFrom lo m = true) (hle : lo' ≤ lo) :
    Memory.wfFrom lo' m = true := by
  cases m with
  | nil => rfl
  | cons x m => rw [wfFrom_cons] at *; exact ⟨by omega, h.2⟩

/-- Below the first listed address everything reads as an unlisted byte. -/
theorem byte_of_lt {lo a : Nat} {m : Memory} (h : Memory.wfFrom lo m = true) (ha : a < lo) : m.byte a = 0 := by
  induction m generalizing lo with
  | nil => rfl
  | cons x m ih =>
    rw [wfFrom_cons] at h
    rw [byte_cons, if_neg (by omega), ih h.2.2.2 (by omega)]

theorem wfFrom_put {lo a : Nat} {m : Memory} (b : Byte) (h : Memory.wfFrom lo m = true) (hlo : lo ≤ a)
    (ha : a < 2 ^ 32) : Memory.wfFrom lo (m.put a b) = true := by
  induction m generalizing lo with
  | nil =>
    unfold Memory.put
    split
    · rfl
    · rename_i hb; exact wfFrom_cons.2 ⟨hlo, ha, hb, rfl⟩
  | cons x m ih =>
    obtain ⟨x, c⟩ := x
    have hc := wfFrom_cons.1 h
    unfold Memory.put
    split
    · split
      · exact h
      · rename_i hb; exact wfFrom_cons.2 ⟨hlo, ha, hb, wfFrom_cons.2 ⟨by omega, hc.2⟩⟩
    · split
      · subst a
        split
        · exact wfFrom_mono hc.2.2.2 (by omega)
        · rename_i hb; exact wfFrom_cons.2 ⟨hlo, ha, hb, hc.2.2.2⟩
      · exact wfFrom_cons.2 ⟨hc.1, hc.2.1, hc.2.2.1, ih hc.2.2.2 (by omega)⟩

/-- A byte write is read back. -/
theorem byte_put_same {lo : Nat} {m : Memory} (a : Nat) (b : Byte) (h : Memory.wfFrom lo m = true) :
    (m.put a b).byte a = b := by
  induction m generalizing lo with
  | nil => unfold Memory.put; split <;> simp_all [byte_cons, unlistedByte]
  | cons x m ih =>
    obtain ⟨x, c⟩ := x
    have hc := wfFrom_cons.1 h
    unfold Memory.put
    split
    · split
      · rename_i hlt hb
        rw [byte_cons, if_neg (by omega), byte_of_lt hc.2.2.2 (by omega), hb, unlistedByte]
      · simp [byte_cons]
    · split
      · subst a
        split
        · rename_i hb
          rw [byte_of_lt hc.2.2.2 (by omega), hb, unlistedByte]
        · simp [byte_cons]
      · rename_i hne
        rw [byte_cons, if_neg hne, ih hc.2.2.2]

/-- A byte write keeps the canonical form. -/
theorem wf_put {m : Memory} {a : Nat} (b : Byte) (h : m.wf = true) (ha : a < 2 ^ 32) : (m.put a b).wf = true :=
  wfFrom_put b h (Nat.zero_le _) ha

/-- Two canonical memories with the same bytes are equal. -/
theorem wfFrom_ext {lo : Nat} {m m' : Memory} (h : Memory.wfFrom lo m = true) (h' : Memory.wfFrom lo m' = true)
    (hb : ∀ a, m.byte a = m'.byte a) : m = m' := by
  induction m generalizing lo m' with
  | nil =>
    cases m' with
    | nil => rfl
    | cons y m' =>
      have := hb y.1
      rw [byte_cons, if_pos rfl] at this
      exact absurd this.symm (wfFrom_cons.1 h').2.2.1
  | cons x m ih =>
    obtain ⟨x, b⟩ := x
    have hc := wfFrom_cons.1 h
    cases m' with
    | nil =>
      have := hb x
      rw [byte_cons, if_pos rfl] at this
      exact absurd this hc.2.2.1
    | cons y m' =>
      obtain ⟨y, b'⟩ := y
      have hc' := wfFrom_cons.1 h'
      have hxy : x = y := by
        rcases Nat.lt_trichotomy x y with hlt | heq | hlt
        · have := hb x
          rw [byte_cons, if_pos rfl, byte_cons, if_neg (by omega), byte_of_lt hc'.2.2.2 (by omega)] at this
          exact absurd this hc.2.2.1
        · exact heq
        · have := hb y
          rw [byte_cons, if_neg (by omega), byte_cons, if_pos rfl, byte_of_lt hc.2.2.2 (by omega)] at this
          exact absurd this.symm hc'.2.2.1
      subst hxy
      have hbb : b = b' := by simpa [byte_cons] using hb x
      subst hbb
      refine congrArg _ (ih hc.2.2.2 hc'.2.2.2 fun a => ?_)
      by_cases hax : a < x + 1
      · rw [byte_of_lt hc.2.2.2 hax, byte_of_lt hc'.2.2.2 hax]
      · simpa [byte_cons, show a ≠ x by omega] using hb a

/-- Two canonical memories with the same bytes are equal. -/
theorem memory_ext {m m' : Memory} (h : m.wf = true) (h' : m'.wf = true) (hb : ∀ a, m.byte a = m'.byte a) : m = m' :=
  wfFrom_ext h h' hb

/-! ### Words -/

@[simp] theorem word_toNat_lt (a : Word) : a.toNat < 2 ^ 32 := a.isLt

/-- A word write keeps the canonical form. -/
theorem wf_putWord {m : Memory} (a w : Word) (h : m.wf = true) : (m.putWord a w).wf = true :=
  wf_put _ (wf_put _ (wf_put _ (wf_put _ h a.isLt) (a + 1).isLt) (a + 2).isLt) (a + 3).isLt

/-- A word write leaves every byte outside its four alone. -/
theorem byte_putWord_other (m : Memory) (a w : Word) {x : Nat} (h0 : x ≠ a.toNat) (h1 : x ≠ (a + 1).toNat)
    (h2 : x ≠ (a + 2).toNat) (h3 : x ≠ (a + 3).toNat) : (m.putWord a w).byte x = m.byte x := by
  unfold Memory.putWord
  rw [byte_put_other _ _ h3, byte_put_other _ _ h2, byte_put_other _ _ h1, byte_put_other _ _ h0]

/-- The four bytes of a word have different addresses. -/
theorem word_bytes_ne (a : Word) :
    a.toNat ≠ (a + 1).toNat ∧ a.toNat ≠ (a + 2).toNat ∧ a.toNat ≠ (a + 3).toNat ∧
      (a + 1).toNat ≠ (a + 2).toNat ∧ (a + 1).toNat ≠ (a + 3).toNat ∧ (a + 2).toNat ≠ (a + 3).toNat := by
  have := a.isLt
  simp only [BitVec.toNat_add, BitVec.ofNat_eq_ofNat, BitVec.toNat_ofNat]
  omega

/-- The bytes of a word put together are the word. -/
theorem wordOfBytes_bytes (w : Word) :
    wordOfBytes (byteOfWord w 0) (byteOfWord w 1) (byteOfWord w 2) (byteOfWord w 3) = w := by
  apply BitVec.eq_of_getLsbD_eq
  intro i hi
  simp only [wordOfBytes, byteOfWord, BitVec.getLsbD_append, BitVec.getLsbD_setWidth, BitVec.getLsbD_ushiftRight]
  by_cases h1 : i < 8
  · simp [h1]
  · by_cases h2 : i < 16
    · simp [h1, show i - 8 < 8 by omega, show 8 + (i - 8) = i by omega]
    · by_cases h3 : i < 24
      · simp [h1, show ¬i - 8 < 8 by omega, show i - 8 - 8 < 8 by omega, show 16 + (i - 8 - 8) = i by omega]
      · simp [h1, show ¬i - 8 < 8 by omega, show ¬i - 8 - 8 < 8 by omega, show i - 8 - 8 - 8 < 8 by omega,
          show 24 + (i - 8 - 8 - 8) = i by omega]

/-- A word write is read back. -/
theorem word_putWord_same {m : Memory} (a w : Word) (h : m.wf = true) : (m.putWord a w).word a = w := by
  obtain ⟨h01, h02, h03, h12, h13, h23⟩ := word_bytes_ne a
  have w0 := wf_put (byteOfWord w 0) h a.isLt
  have w1 := wf_put (byteOfWord w 1) w0 (a + 1).isLt
  have w2 := wf_put (byteOfWord w 2) w1 (a + 2).isLt
  unfold Memory.word Memory.putWord
  rw [byte_put_same _ _ w2, byte_put_other _ _ h23, byte_put_same _ _ w1, byte_put_other _ _ h13,
    byte_put_other _ _ h12, byte_put_same _ _ w0, byte_put_other _ _ h03, byte_put_other _ _ h02,
    byte_put_other _ _ h01, byte_put_same _ _ h, wordOfBytes_bytes]

theorem misaligned_iff (a : Word) : misaligned a = false ↔ a.toNat % 4 = 0 := by
  have : misaligned a = false ↔ a.extractLsb' 0 2 = 0 := by simp [misaligned]
  rw [this, ← BitVec.toNat_inj]
  simp [BitVec.extractLsb'_toNat]

/-- A word write leaves every other aligned word alone. -/
theorem word_putWord_other (m : Memory) {a a' : Word} (w : Word) (h : misaligned a = false)
    (h' : misaligned a' = false) (hne : a' ≠ a) : (m.putWord a w).word a' = m.word a' := by
  rw [misaligned_iff] at h h'
  have hn : a'.toNat ≠ a.toNat := fun e => hne (BitVec.eq_of_toNat_eq e)
  have l := a.isLt
  have l' := a'.isLt
  unfold Memory.word
  rw [byte_putWord_other, byte_putWord_other, byte_putWord_other, byte_putWord_other]
  all_goals ((try simp only [BitVec.toNat_add, BitVec.ofNat_eq_ofNat, BitVec.toNat_ofNat]); omega)

/-! ### The operations over memory -/

/-- The engine's store keeps the canonical form. -/
theorem wf_engineStore {s : State} (a w : Word) (h : s.mem.wf = true) : (engineStore a w s).mem.wf = true := by
  unfold engineStore
  split
  · exact wf_putWord a w h
  · exact wf_putWord a _ h

/-- The engine's write primitive keeps the canonical form. -/
theorem wf_memWrite {s t : State} {a w : Word} (h : s.mem.wf = true) (ht : memWrite a w s = some t) :
    t.mem.wf = true := by
  unfold memWrite at ht
  split at ht
  · cases ht; simpa using wf_engineStore a w h
  · cases ht

/-- A host store keeps the canonical form. -/
theorem wf_hostStore {s : State} (wa : BitVec 30) (w : Word) (h : s.mem.wf = true) :
    (hostStore wa w s).mem.wf = true := by
  unfold hostStore
  split <;> exact wf_putWord _ _ h

/-- The memory of the reset state is in canonical form. -/
theorem wf_reset : State.reset.mem.wf = true := rfl

end Sys2Proof.Machine
end

