-- ==== Sys2Proof/Laws/Ops.lean ====
section
/-! SUPPORT. What each shared operation can do, said once: how a subroutine's step is inlined, what each subroutine
leaves alone, which outcomes it returns, and which event it makes. -/

namespace Sys2Proof.Machine

open Sys2Proof.Safety

/-! ### Inlining a subroutine -/

/-- The state a subroutine's step leaves. -/
def Sub.leaves {π : Type} : Sub π → State → Prop
  | .more _ s, t => t = s
  | .ret _ s, t => t = s
  | .halt _, _ => False

/-- The outcome a subroutine's step returns. -/
def Sub.returns {π : Type} : Sub π → Result → Prop
  | .more _ _, _ => False
  | .ret r _, r' => r' = r
  | .halt _, _ => False

/-- An inlined step that answers a next state goes on inside the subroutine or returns to the caller. -/
theorem Sub.into_next {π : Type} {x : Sub π} {emb : π → Phase} {k : Result → State → State} {t : State}
    (h : x.into emb k = .next t) :
    (∃ p s, x = .more p s ∧ t = goto (emb p) s) ∨ ∃ r s, x = .ret r s ∧ t = k r s := by
  cases x with
  | more p s => cases h; exact .inl ⟨p, s, rfl, rfl⟩
  | ret r s => cases h; exact .inr ⟨r, s, rfl, rfl⟩
  | halt f => cases h

/-- An inlined step faults exactly where the subroutine halts. -/
theorem Sub.into_fault {π : Type} {x : Sub π} {emb : π → Phase} {k : Result → State → State} {f : Fault}
    (h : x.into emb k = .fault f) : x = .halt f := by
  cases x with
  | more p s => cases h
  | ret r s => cases h
  | halt g => cases h; rfl

/-! ### What every subroutine leaves alone -/

/-- What no subroutine step writes: the configuration, the host-visible registers but `ERRINFO` and `PROGRESS`, the
drive records, the phase, the outside's fields, and the command's own counters. -/
structure KeepsCommand (s t : State) : Prop where
  cfg : t.cfg = s.cfg
  estat : t.estat = s.estat
  drive : t.drive = s.drive
  lba : t.lba = s.lba
  count : t.count = s.count
  buf : t.buf = s.buf
  drvcount : t.drvcount = s.drvcount
  drv0 : t.drv0 = s.drv0
  drv1 : t.drv1 = s.drv1
  phase : t.phase = s.phase
  refused : t.refused = s.refused
  inputs : t.inputs = s.inputs
  hostReads : t.hostReads = s.hostReads
  d : t.v.d = s.v.d
  sec : t.v.sec = s.v.sec
  n : t.v.n = s.v.n
  p : t.v.p = s.v.p
  k : t.v.k = s.v.k
  i : t.v.i = s.v.i
  dd : t.v.dd = s.v.dd
  cnt : t.v.cnt = s.v.cnt

theorem KeepsCommand.driveRecord {s t : State} (h : KeepsCommand s t) (d : BitVec 1) :
    driveRecord t d = driveRecord s d := by simp [Machine.driveRecord, h.drv0, h.drv1]

/-- What a step that touches neither memory nor the sector count leaves alone as well. -/
structure KeepsMemory (s t : State) : Prop where
  mem : t.mem = s.mem
  races : t.races = s.races
  progress : t.progress = s.progress

/-- The trace grows by the events `l`, newest first. -/
def Grows (s t : State) (l : List Event) : Prop := t.trace = l ++ s.trace

/-- Another budget unit is spent, and the wait goes on or times out. -/
theorem pollAgain_leaves {π : Type} {p : π} {s t : State} (h : (pollAgain p s).leaves t) : t = spendBudget s := by
  unfold pollAgain at h; split at h <;> exact h

theorem pollAgain_returns {π : Type} {p : π} {s : State} {r : Result} (h : (pollAgain p s).returns r) :
    r = .timeout := by
  unfold pollAgain at h; split at h
  · exact h
  · exact h.elim

theorem drawBudget_vars (s : State) :
    ∃ b, 1 ≤ b ∧ (drawBudget s).v = { s.v with budget := b } := by
  unfold drawBudget; split <;> exact ⟨_, by omega, rfl⟩

theorem drawBudget_keeps (s : State) : KeepsCommand s (drawBudget s) ∧ KeepsMemory s (drawBudget s) := by
  obtain ⟨b, -, hv⟩ := drawBudget_vars s
  exact ⟨by constructor <;> simp [hv], by constructor <;> simp⟩

/-! ### The waits -/

theorem waitNotBusy_keeps {p : NbPos} {s t : State} (h : (waitNotBusy p s).leaves t) :
    KeepsCommand s t ∧ KeepsMemory s t ∧ t.errinfo = s.errinfo := by
  cases p with
  | settle =>
    simp only [waitNotBusy] at h
    split at h <;> cases h
    · exact ⟨by constructor <;> simp, by constructor <;> simp, by simp⟩
    · exact ⟨(drawBudget_keeps s).1, (drawBudget_keeps s).2, by simp⟩
  | poll =>
    simp only [waitNotBusy] at h
    split at h
    · cases pollAgain_leaves h
      exact ⟨by constructor <;> simp, by constructor <;> simp, by simp⟩
    · cases h
      exact ⟨by constructor <;> simp, by constructor <;> simp, by simp⟩

theorem waitNotBusy_returns {p : NbPos} {s : State} {r : Result} (h : (waitNotBusy p s).returns r) :
    r = .ok ∨ r = .timeout := by
  cases p with
  | settle => simp only [waitNotBusy] at h; split at h <;> exact h.elim
  | poll =>
    simp only [waitNotBusy] at h
    split at h
    · exact .inr (pollAgain_returns h)
    · exact .inl h

/-- A wait's step makes one status read, but for the draw, which makes none. -/
theorem waitNotBusy_trace {p : NbPos} {s t : State} (h : (waitNotBusy p s).leaves t) :
    Grows s t [] ∨ ∃ b, Grows s t [.r .status b] := by
  cases p with
  | settle =>
    simp only [waitNotBusy] at h
    split at h <;> cases h
    · exact .inr ⟨_, by simp [Grows]; rfl⟩
    · exact .inl (by simp [Grows])
  | poll =>
    simp only [waitNotBusy] at h
    split at h
    · cases pollAgain_leaves h; exact .inr ⟨_, by simp [Grows]; rfl⟩
    · cases h; exact .inr ⟨_, by simp [Grows]; rfl⟩

theorem waitDataRequest_keeps {p : DrqPos} {s t : State} (h : (waitDataRequest p s).leaves t) :
    KeepsCommand s t ∧ KeepsMemory s t := by
  cases p with
  | settle =>
    simp only [waitDataRequest] at h
    split at h <;> cases h
    · exact ⟨by constructor <;> simp, by constructor <;> simp⟩
    · exact drawBudget_keeps s
  | poll =>
    simp only [waitDataRequest] at h
    split at h
    · cases h; exact ⟨by constructor <;> simp, by constructor <;> simp⟩
    · cases h; exact ⟨by constructor <;> simp, by constructor <;> simp⟩
    · cases pollAgain_leaves h; exact ⟨by constructor <;> simp, by constructor <;> simp⟩
  | readError => cases h; exact ⟨by constructor <;> simp, by constructor <;> simp⟩

theorem waitDataRequest_returns {p : DrqPos} {s : State} {r : Result} (h : (waitDataRequest p s).returns r) :
    r = .ok ∨ r = .timeout ∨ r = .deverr := by
  cases p with
  | settle => simp only [waitDataRequest] at h; split at h <;> exact h.elim
  | poll =>
    simp only [waitDataRequest] at h
    split at h
    · exact .inl h
    · exact h.elim
    · exact .inr (.inl (pollAgain_returns h))
  | readError => exact .inr (.inr h)

theorem waitDataRequest_trace {p : DrqPos} {s t : State} (h : (waitDataRequest p s).leaves t) :
    Grows s t [] ∨ (∃ b, Grows s t [.r .status b]) ∨ ∃ b, Grows s t [.r .error b] := by
  cases p with
  | settle =>
    simp only [waitDataRequest] at h
    split at h <;> cases h
    · exact .inr (.inl ⟨_, by simp [Grows]; rfl⟩)
    · exact .inl (by simp [Grows])
  | poll =>
    simp only [waitDataRequest] at h
    split at h
    · cases h; exact .inr (.inl ⟨_, by simp [Grows]; rfl⟩)
    · cases h; exact .inr (.inl ⟨_, by simp [Grows]; rfl⟩)
    · cases pollAgain_leaves h; exact .inr (.inl ⟨_, by simp [Grows]; rfl⟩)
  | readError => cases h; exact .inr (.inr ⟨_, by simp [Grows]; rfl⟩)

/-- A wait for data request that returns `OK` does so right after a status read that shows it ready
(40_port_handshake.md R138). -/
theorem waitDataRequest_ok {p : DrqPos} {s t : State} (h : waitDataRequest p s = .ret .ok t) :
    p = .poll ∧ ∃ b, Grows s t [.r .status b] ∧ pollDataRequest s.cfg b = .ready := by
  cases p with
  | settle => simp only [waitDataRequest] at h; split at h <;> cases h
  | poll =>
    simp only [waitDataRequest] at h
    split at h
    · rename_i hp
      cases h
      exact ⟨rfl, _, by simp [Grows]; rfl, by simpa using hp⟩
    · cases h
    · unfold pollAgain at h; split at h <;> cases h
  | readError => cases h

/-! ### The probe and the address -/

theorem probeCtrl_keeps {p : ProbePos} {s t : State} (h : (probeCtrl p s).leaves t) :
    KeepsCommand s t ∧ KeepsMemory s t ∧ t.errinfo = s.errinfo := by
  cases p <;> cases h <;> exact ⟨by constructor <;> simp, by constructor <;> simp, by simp⟩

theorem probeCtrl_returns {p : ProbePos} {s : State} {r : Result} (h : (probeCtrl p s).returns r) :
    r = .ok ∨ r = .noctrl := by
  cases p with
  | readHi =>
    cases h
    simp only [devRead8_v]
    split <;> simp
  | _ => exact h.elim

theorem probeCtrl_trace {p : ProbePos} {s t : State} (h : (probeCtrl p s).leaves t) :
    Grows s t [.w .cyllo s.cfg.pat1] ∨ Grows s t [.w .cylhi s.cfg.pat2] ∨ (∃ b, Grows s t [.r .cyllo b]) ∨
      ∃ b, Grows s t [.r .cylhi b] := by
  cases p <;> cases h
  · exact .inl (by simp [Grows])
  · exact .inr (.inl (by simp [Grows]))
  · exact .inr (.inr (.inl ⟨_, by simp [Grows]; rfl⟩))
  · exact .inr (.inr (.inr ⟨_, by simp [Grows]; rfl⟩))

/-- Behind the geometry guard, `set_address` makes one write and goes on or returns `OK`. -/
theorem setAddress_eq {p : AddrPos} {s : State} (h : geomOk (driveRecord s s.v.d) = true) :
    setAddress p s =
      match nextAddr p with
      | some p' => .more p' (devWrite8 (addrReg p) (addrByte s.cfg (driveRecord s s.v.d) s.v.d s.v.sec p) s)
      | none => .ret .ok (devWrite8 (addrReg p) (addrByte s.cfg (driveRecord s s.v.d) s.v.d s.v.sec p) s) := by
  unfold setAddress; exact if_pos h

theorem setAddress_leaves {p : AddrPos} {s t : State} (h : (setAddress p s).leaves t) :
    geomOk (driveRecord s s.v.d) = true ∧
      t = devWrite8 (addrReg p) (addrByte s.cfg (driveRecord s s.v.d) s.v.d s.v.sec p) s := by
  unfold setAddress at h
  split at h
  · rename_i hg
    refine ⟨hg, ?_⟩
    cases p <;> exact h
  · exact h.elim

theorem setAddress_keeps {p : AddrPos} {s t : State} (h : (setAddress p s).leaves t) :
    KeepsCommand s t ∧ KeepsMemory s t ∧ t.errinfo = s.errinfo := by
  obtain ⟨-, rfl⟩ := setAddress_leaves h
  exact ⟨by constructor <;> simp, by constructor <;> simp, by simp⟩

theorem setAddress_returns {p : AddrPos} {s : State} {r : Result} (h : (setAddress p s).returns r) : r = .ok := by
  unfold setAddress at h
  split at h
  · cases p <;> first | exact h.elim | exact h
  · exact h.elim

/-! ### Memory primitives -/

/-- The engine's store writes memory at its word alone, and only the raced entries and the draw count beside it. -/
theorem engineStore_mem (a w : Word) (s : State) :
    ∃ x, (engineStore a w s).mem = s.mem.putWord a x ∧ (raceAt s (wordAddr a) = none → x = w) := by
  unfold engineStore
  split
  · exact ⟨w, rfl, fun _ => rfl⟩
  · rename_i c hc; exact ⟨_, rfl, fun h => by rw [hc] at h; cases h⟩

/-- A write the memory admits happens, and one it refuses does not (20_memory.md R65). -/
theorem memWrite_some {a w : Word} {s t : State} (h : memWrite a w s = some t) :
    admitsWord .write s a = true ∧ t = emit (.mw a w) (engineStore a w s) := by
  unfold memWrite at h
  split at h
  · rename_i ha; cases h; exact ⟨ha, rfl⟩
  · cases h

theorem memRead_some {a : Word} {s : State} {x : Word × State} (h : memRead a s = some x) :
    admitsWord .read s a = true ∧ x = ((engineLoad a s).1, emit (.mr a (engineLoad a s).1) (engineLoad a s).2) := by
  unfold memRead at h
  split at h
  · rename_i ha; cases h; exact ⟨ha, rfl⟩
  · cases h

/-- Where nothing raced, the engine reads the memory word and nothing else changes. -/
theorem engineLoad_quiet {a : Word} {s : State} (h : raceAt s (wordAddr a) = none) :
    engineLoad a s = (s.mem.word a, s) := by unfold engineLoad; rw [h]

/-- A run of engine reads changes the draw count alone. -/
theorem engineLoads_state (k : Nat) (a : Word) (s : State) : ∃ n, (engineLoads k a s).2 = { s with draws := n } := by
  induction k generalizing a s with
  | zero => exact ⟨s.draws, rfl⟩
  | succ k ih =>
    obtain ⟨n, hn⟩ := ih (a + 4) (engineLoad a s).2
    refine ⟨n, ?_⟩
    have : (engineLoads (k + 1) a s).2 = (engineLoads k (a + 4) (engineLoad a s).2).2 := rfl
    rw [this, hn]
    unfold engineLoad
    split <;> rfl

theorem engineLoads_length (k : Nat) (a : Word) (s : State) : (engineLoads k a s).1.length = k := by
  induction k generalizing a s with
  | zero => rfl
  | succ k ih => simp [engineLoads, ih]

/-- Where nothing raced, the engine reads the memory words in order. -/
theorem engineLoads_quiet (k : Nat) (a : Word) (s : State) (h : s.races = []) :
    engineLoads k a s = ((List.range k).map fun j => s.mem.word (a + 4 * BitVec.ofNat 32 j), s) := by
  induction k generalizing a with
  | zero => rfl
  | succ k ih =>
    have h0 : engineLoad a s = (s.mem.word a, s) := engineLoad_quiet (by simp [raceAt, h])
    simp only [engineLoads, h0, ih]
    rw [List.range_succ_eq_map, List.map_cons, List.map_map]
    refine Prod.ext (List.cons_eq_cons.2 ⟨by simp, List.map_congr_left fun j _ => ?_⟩) rfl
    simp only [Function.comp]
    congr 1
    rw [BitVec.add_assoc]
    congr 1
    apply BitVec.eq_of_toNat_eq
    simp [BitVec.toNat_add, BitVec.toNat_mul]
    omega

theorem memSnap512_some {a : Word} {s : State} {x : List Byte × State} (h : memSnap512 a s = some x) :
    admitsBlock s a = true ∧ x.1 = (engineLoads 128 a s).1.flatMap bytesOfWord ∧
      ∃ n, x.2 = { emit (.ms a) s with draws := n } := by
  unfold memSnap512 at h
  split at h
  · rename_i ha
    cases h
    obtain ⟨n, hn⟩ := engineLoads_state 128 a s
    exact ⟨ha, rfl, n, by simp only [hn]; rfl⟩
  · cases h

/-- `parse` writes one drive record, the snapshot's event and the draw count, and nothing else (42_identify.md
R210, R212). -/
theorem parse_some {d : BitVec 1} {p : Word} {s t : State} (h : parse d p s = some t) :
    admitsBlock s p = true ∧
      ∃ n, t = setDriveRecord d (parseBlock ((engineLoads 128 p s).1.flatMap bytesOfWord))
        { emit (.ms p) s with draws := n } := by
  unfold parse at h
  split at h
  · cases h
  · rename_i x hx
    cases h
    obtain ⟨ha, hb, n, hn⟩ := memSnap512_some hx
    exact ⟨ha, n, by rw [hb, hn]⟩

/-! ### The sector movers -/

/-- What a step of `move_in` does to memory: nothing, or one word of the sector (40_port_handshake.md R141). -/
theorem moveIn_keeps {p : Word} {q : InPos} {s t : State} (h : (moveIn p q s).leaves t) :
    KeepsCommand s t ∧ t.errinfo = s.errinfo ∧
      (t.mem = s.mem ∨ q = .store ∧ ∃ x, t.mem = s.mem.putWord (sectorWord p s.v.j) x) ∧
      (t.progress = s.progress ∨ q = .count ∧ t.progress = s.progress + 1) := by
  cases q with
  | store =>
    simp only [moveIn] at h
    split at h
    · exact h.elim
    · rename_i s' hw
      obtain ⟨-, rfl⟩ := memWrite_some hw
      obtain ⟨x, hx, -⟩ := engineStore_mem (sectorWord p s.v.j) (pairWord s) s
      split at h <;> cases h <;>
        exact ⟨by constructor <;> simp, by simp, .inr ⟨rfl, x, by simpa using hx⟩, .inl (by simp)⟩
  | count => cases h; exact ⟨by constructor <;> simp, by simp, .inl (by simp), .inr ⟨rfl, by simp⟩⟩
  | _ =>
    simp only [moveIn] at h
    split at h <;>
      first
      | exact h.elim
      | cases h; exact ⟨by constructor <;> simp, by simp, .inl (by simp), .inl (by simp)⟩

theorem moveIn_returns {p : Word} {q : InPos} {s : State} {r : Result} (h : (moveIn p q s).returns r) :
    q = .count ∧ r = .ok := by
  cases q with
  | count => exact ⟨rfl, h⟩
  | store => simp only [moveIn] at h; split at h <;> (try split at h) <;> exact h.elim
  | _ => simp only [moveIn] at h; split at h <;> exact h.elim

/-- The events of `move_in` fit the transport (40_port_handshake.md R130, R132, R134). -/
theorem moveIn_trace {p : Word} {q : InPos} {s t : State} (h : (moveIn p q s).leaves t) :
    Grows s t [] ∨ (∃ b, hasLatch s.cfg = true ∧ Grows s t [.r .data b]) ∨
      (∃ b, hasLatch s.cfg = true ∧ Grows s t [.lr b]) ∨ (∃ w, hasLatch s.cfg = false ∧ Grows s t [.r32 w]) ∨
      Grows s t [.mw (sectorWord p s.v.j) (pairWord s)] := by
  cases q with
  | store =>
    simp only [moveIn] at h
    split at h
    · exact h.elim
    · rename_i s' hw
      obtain ⟨-, rfl⟩ := memWrite_some hw
      split at h <;> cases h <;> exact .inr (.inr (.inr (.inr (by simp [Grows]))))
  | count => cases h; exact .inl (by simp [Grows])
  | _ =>
    simp only [moveIn] at h
    split at h
    all_goals rename_i hl
    all_goals
      first
      | exact h.elim
      | cases h
        first
        | exact .inr (.inl ⟨_, hl, by simp [Grows]; rfl⟩)
        | exact .inr (.inr (.inl ⟨_, hl, by simp [Grows]; rfl⟩))
        | exact .inr (.inr (.inr (.inl ⟨_, by simpa using hl, by simp [Grows]; rfl⟩)))

/-- `move_out` writes no memory (40_port_handshake.md R142). -/
theorem moveOut_keeps {p : Word} {q : OutPos} {s t : State} (h : (moveOut p q s).leaves t) :
    KeepsCommand s t ∧ t.errinfo = s.errinfo ∧ t.mem = s.mem ∧
      (t.progress = s.progress ∨ q = .count ∧ t.progress = s.progress + 1) := by
  cases q with
  | load =>
    simp only [moveOut] at h
    split at h
    · exact h.elim
    · rename_i x hx
      obtain ⟨-, rfl⟩ := memRead_some hx
      cases h
      exact ⟨by constructor <;> simp, by simp, by simp, .inl (by simp)⟩
  | count => cases h; exact ⟨by constructor <;> simp, by simp, by simp, .inr ⟨rfl, by simp⟩⟩
  | _ =>
    simp only [moveOut] at h
    split at h <;>
      first
      | exact h.elim
      | cases h; exact ⟨by constructor <;> simp, by simp, by simp, .inl (by simp)⟩
      | unfold wordSent at h
        split at h <;> cases h <;> exact ⟨by constructor <;> simp, by simp, by simp, .inl (by simp)⟩

theorem moveOut_returns {p : Word} {q : OutPos} {s : State} {r : Result} (h : (moveOut p q s).returns r) :
    q = .count ∧ r = .ok := by
  cases q with
  | count => exact ⟨rfl, h⟩
  | load => simp only [moveOut] at h; split at h <;> exact h.elim
  | _ =>
    simp only [moveOut] at h
    split at h <;> first | exact h.elim | (unfold wordSent at h; split at h <;> exact h.elim)

/-- The events of `move_out` fit the transport (40_port_handshake.md R131, R133, R134). -/
theorem moveOut_trace {p : Word} {q : OutPos} {s t : State} (h : (moveOut p q s).leaves t) :
    Grows s t [] ∨ (∃ b, hasLatch s.cfg = true ∧ Grows s t [.w .data b]) ∨
      (∃ b, hasLatch s.cfg = true ∧ Grows s t [.lw b]) ∨
      (∃ x : Half, hasLatch s.cfg = false ∧ Grows s t [.w32 (x ++ (0 : Half))]) ∨
      ∃ w, Grows s t [.mr (sectorWord p s.v.j) w] := by
  cases q with
  | load =>
    simp only [moveOut] at h
    split at h
    · exact h.elim
    · rename_i x hx
      obtain ⟨-, rfl⟩ := memRead_some hx
      cases h
      exact .inr (.inr (.inr (.inr ⟨_, by simp [Grows]; rfl⟩)))
  | count => cases h; exact .inl (by simp [Grows])
  | _ =>
    simp only [moveOut] at h
    split at h
    all_goals rename_i hl
    all_goals
      first
      | exact h.elim
      | skip
    all_goals
      first
      | cases h
      | (unfold wordSent at h; split at h <;> cases h)
    all_goals
      first
      | exact .inr (.inl ⟨_, hl, by simp [Grows]; rfl⟩)
      | exact .inr (.inr (.inl ⟨_, hl, by simp [Grows]; rfl⟩))
      | exact .inr (.inr (.inr (.inl ⟨_, by simpa using hl, by simp [Grows]; rfl⟩)))

end Sys2Proof.Machine
end

