-- ==== Sys2Proof/Laws/PerInstr.lean ====
section
/-! SUPPORT. Statements made per command: its word is well formed, decodes back to it, and its code is one of the
table's (30_encoding.md R90, R91). -/

namespace Sys2Proof.Laws.RoundTrip

/-- The command's word is well formed, its reserved bits are zero, and it decodes back from the word and from the
word's four bytes, whatever bytes follow. -/
def Statement (i : Instr) : Prop :=
  i.wellFormed = true ∧ (encode i).extractLsb' 8 24 = 0 ∧ decodeWord (encode i) = .ok i ∧
    ∀ rest : List Byte, decodeBytes (encodeBytes i ++ rest) = .ok (i, rest)

theorem select : Statement .select := ⟨rfl, by decide, rfl, fun _ => rfl⟩
theorem waitnb : Statement .waitnb := ⟨rfl, by decide, rfl, fun _ => rfl⟩
theorem waitdrq : Statement .waitdrq := ⟨rfl, by decide, rfl, fun _ => rfl⟩
theorem setaddr : Statement .setaddr := ⟨rfl, by decide, rfl, fun _ => rfl⟩
theorem read : Statement .read := ⟨rfl, by decide, rfl, fun _ => rfl⟩
theorem write : Statement .write := ⟨rfl, by decide, rfl, fun _ => rfl⟩
theorem identify : Statement .identify := ⟨rfl, by decide, rfl, fun _ => rfl⟩
theorem parseid : Statement .parseid := ⟨rfl, by decide, rfl, fun _ => rfl⟩
theorem probe : Statement .probe := ⟨rfl, by decide, rfl, fun _ => rfl⟩
theorem discover : Statement .discover := ⟨rfl, by decide, rfl, fun _ => rfl⟩

end Sys2Proof.Laws.RoundTrip
end

