-- ==== Sys2Proof/Laws/Step.lean ====
section
/-! SUPPORT. What one step of the machine can do, said once: a host operation, a step of a command, or a turn in
which nothing happens; and what a host operation that starts no command leaves alone. -/

namespace Sys2Proof.Machine

/-- The engine's turn answers a next state where the command's own step does, or where the engine is stuck. -/
theorem settleTurn_next {s t : State} {x : Host.Outcome State Fault Refusal} (h : settleTurn s x = .next t) :
    x = .next t ∨ t = s ∧ ∃ a, x = .fault (.memoryRefused a) := by
  cases x with
  | next u => exact .inl h
  | fault f =>
    cases f with
    | memoryRefused a =>
      simp only [settleTurn] at h
      split at h
      · cases h
      · cases h; exact .inr ⟨rfl, a, rfl⟩
    | noLatch => cases h
    | zeroDivisor => cases h
  | refused r => cases h

/-- Only offset 0 is `CMD` (10_state.md R21). -/
theorem regAt_cmd {off : Nat} (h : regAt off = some .cmd) : off = 0 := by
  have hm : ∀ (o : Nat) (d : BitVec 1), (fieldAt o).map (HostReg.drv d) ≠ some .cmd := by
    intro o d; cases fieldAt o <;> simp
  by_contra h0
  simp only [regAt, h0, if_false] at h
  iterate 8 (split at h; · cases h)
  split at h
  · exact hm _ _ h
  · split at h
    · exact hm _ _ h
    · cases h

/-- A host operation that issues a command is a 32-bit write of its word to `CMD` while `BUSY = 0`
(10_state.md R22). -/
theorem hostMove_issue {op : HostOp} {s t : State} {i : Instr} (h : hostMove op s = .issue i t) :
    ∃ v, op = .write 0x000 4 v ∧ s.estat.busy = false ∧ decodeWord v = .ok i ∧ t = s := by
  cases op with
  | write off width v =>
    simp only [hostMove, hostWrite] at h
    split at h
    · rename_i hok
      split at h
      · rename_i hr
        have hw : width = 4 := by
          simp only [hostAccessOk, Bool.and_eq_true, beq_iff_eq] at hok
          exact hok.1.1
        simp only [writeCmd] at h
        split at h
        · cases h
        · rename_i hb
          split at h
          · rename_i j hj
            cases h
            exact ⟨v, by rw [regAt_cmd hr, hw], by simpa using hb, hj, rfl⟩
          · cases h
      · cases h
      · cases h
    · cases h
  | read off width => simp only [hostMove] at h; split at h <;> cases h
  | _ => cases h

/-- A host operation is never the engine's step. -/
theorem hostMove_engine (op : HostOp) (s t : State) (i : Instr) : hostMove op s ≠ .engine i t := by
  intro h
  cases op with
  | write off width v =>
    simp only [hostMove, hostWrite] at h
    split at h
    · split at h
      · simp only [writeCmd] at h
        split at h
        · cases h
        · split at h <;> cases h
      · cases h
      · cases h
    · cases h
  | read off width => simp only [hostMove] at h; split at h <;> cases h
  | _ => cases h

/-- The move of an engine left to itself. -/
theorem engineMove_eq (s : State) :
    (∃ i, s.phase.command = some i ∧ engineMove s = .engine i s) ∨
      (s.phase.command = none ∧ engineMove s = .settled s) := by
  unfold engineMove
  cases s.phase.command with
  | none => exact .inr ⟨rfl, rfl⟩
  | some i => exact .inl ⟨i, rfl, rfl⟩

/-- The next move: the engine's, with the first pending operation a turn nearer, or that operation's. -/
theorem nextMove_cases (s : State) :
    ∃ l, nextMove s = engineMove { s with inputs := l } ∨
      ∃ op, s.inputs = { delay := 0, op := op } :: l ∧ nextMove s = hostMove op { s with inputs := l } := by
  unfold nextMove
  split
  · exact ⟨s.inputs, .inl rfl⟩
  · rename_i x rest hi
    obtain ⟨delay, op⟩ := x
    cases delay with
    | zero => exact ⟨rest, .inr ⟨op, hi, rfl⟩⟩
    | succ m => exact ⟨{ delay := m, op := op } :: rest, .inl rfl⟩

/-- Everything a step can do, up to the pending host operations: a step of the running command, a command the host
issues while `BUSY = 0`, a host operation that starts none, or a turn in which nothing happens. -/
theorem step_cases {s t : State} (h : step s = .next t) :
    ∃ l, (∃ i, s.phase.command = some i ∧ exec i { s with inputs := l } = .next t) ∨
      (∃ v i, s.inputs = { delay := 0, op := .write 0x000 4 v } :: l ∧ s.estat.busy = false ∧
        decodeWord v = .ok i ∧ exec i { s with inputs := l } = .next t) ∨
      (∃ op, s.inputs = { delay := 0, op := op } :: l ∧ hostMove op { s with inputs := l } = .settled t) ∨
      t = { s with inputs := l } := by
  unfold step at h
  obtain ⟨l, hn | ⟨op, hi, hn⟩⟩ := nextMove_cases s
  · refine ⟨l, ?_⟩
    rw [hn] at h
    obtain ⟨i, hc, he⟩ | ⟨-, he⟩ := engineMove_eq { s with inputs := l }
    · rw [he] at h
      obtain hx | ⟨ht, -⟩ := settleTurn_next h
      · exact .inl ⟨i, hc, hx⟩
      · exact .inr (.inr (.inr ht))
    · rw [he] at h
      cases h
      exact .inr (.inr (.inr rfl))
  · refine ⟨l, ?_⟩
    rw [hn] at h
    cases hm : hostMove op { s with inputs := l } with
    | settled u =>
      rw [hm] at h
      cases h
      exact .inr (.inr (.inl ⟨op, hi, hm⟩))
    | issue i u =>
      rw [hm] at h
      obtain ⟨v, rfl, hb, hd, rfl⟩ := hostMove_issue hm
      exact .inr (.inl ⟨v, i, hi, hb, hd, h⟩)
    | engine i u => exact (hostMove_engine _ _ _ _ hm).elim
    | refuse r => rw [hm] at h; cases h

/-- What a host operation that starts no command leaves alone, the reset input apart. -/
structure HostMoved (s t : State) : Prop where
  cfg : t.cfg = s.cfg
  phase : t.phase = s.phase
  v : t.v = s.v
  drv0 : t.drv0 = s.drv0
  drv1 : t.drv1 = s.drv1
  drvcount : t.drvcount = s.drvcount
  trace : t.trace = s.trace
  refused : t.refused = s.refused
  busy : t.estat.busy = s.estat.busy
  busyEstat : s.estat.busy = true → t.estat = { s.estat with rej := t.estat.rej }
  busyDrive : s.estat.busy = true → t.drive = s.drive
  busyLba : s.estat.busy = true → t.lba = s.lba
  busyCount : s.estat.busy = true → t.count = s.count
  busyBuf : s.estat.busy = true → t.buf = s.buf
  busyErrinfo : s.estat.busy = true → t.errinfo = s.errinfo
  busyProgress : s.estat.busy = true → t.progress = s.progress
  idleEstat : s.estat.busy = false → t.estat = { s.estat with rej := t.estat.rej } ∨
    t.estat.result = resultCode .illegalCmd

theorem HostMoved.refl (s : State) : HostMoved s s := by constructor <;> first | rfl | (intros; first | rfl | exact .inl rfl)

theorem regWrite_moved (r : HostReg) (v : Word) (s : State) : HostMoved s (regWrite r v s) := by
  have arg : ∀ f : State → State, HostMoved s (turnAway s) ∧ (s.estat.busy = false → HostMoved s (f s)) →
      HostMoved s (writeArgument f s) := by
    intro f hf
    unfold writeArgument
    split
    · exact hf.1
    · rename_i hb; exact hf.2 (by simpa using hb)
  have away : HostMoved s (turnAway s) := by
    constructor <;> first | rfl | (intros; first | rfl | exact .inl rfl)
  cases r with
  | estat =>
    by_cases hv : v.getLsbD 2 = true
    · rw [show regWrite .estat v s = { s with estat := { s.estat with rej := false } } from if_pos hv]
      constructor <;> first | rfl | (intros; first | rfl | exact .inl rfl)
    · rw [show regWrite .estat v s = s from if_neg hv]
      exact HostMoved.refl s
  | drive =>
    exact arg (fun s => { s with drive := v.setWidth 1 }) ⟨away, fun hb => by
      constructor <;>
        first
        | rfl
        | exact fun _ => .inl rfl
        | exact fun _ => rfl
        | exact fun h => by rw [hb] at h; cases h⟩
  | lba =>
    exact arg (fun s => { s with lba := v }) ⟨away, fun hb => by
      constructor <;>
        first
        | rfl
        | exact fun _ => .inl rfl
        | exact fun _ => rfl
        | exact fun h => by rw [hb] at h; cases h⟩
  | count =>
    exact arg (fun s => { s with count := v }) ⟨away, fun hb => by
      constructor <;>
        first
        | rfl
        | exact fun _ => .inl rfl
        | exact fun _ => rfl
        | exact fun h => by rw [hb] at h; cases h⟩
  | buf =>
    exact arg (fun s => { s with buf := v }) ⟨away, fun hb => by
      constructor <;>
        first
        | rfl
        | exact fun _ => .inl rfl
        | exact fun _ => rfl
        | exact fun h => by rw [hb] at h; cases h⟩
  | _ => exact HostMoved.refl s

/-- What a host operation that starts no command does: the reset, or a move that leaves the above alone. -/
theorem hostMove_settled {op : HostOp} {s t : State} (h : hostMove op s = .settled t) :
    (op = .reset ∧ t = engineReset s) ∨ HostMoved s t := by
  have read : ∀ (w : Word) (n : Nat), HostMoved s (returnToHost w { s with draws := n }) := by
    intro w n; constructor <;> first | rfl | (intros; first | rfl | exact .inl rfl)
  cases op with
  | reset => cases h; exact .inl ⟨rfl, rfl⟩
  | write off width v =>
    right
    simp only [hostMove, hostWrite] at h
    split at h
    · split at h
      · simp only [writeCmd] at h
        split at h
        · cases h
          constructor <;> first | rfl | (intros; first | rfl | exact .inl rfl)
        · rename_i hb
          split at h
          · cases h
          · cases h
            have hb' : s.estat.busy = false := by simpa using hb
            constructor <;>
              first
              | rfl
              | exact hb'.symm
              | exact fun _ => .inr rfl
              | exact fun h => by rw [hb'] at h; cases h
      · cases h; exact regWrite_moved _ _ _
      · cases h; exact HostMoved.refl s
    · cases h
  | read off width =>
    right
    simp only [hostMove] at h
    split at h
    · cases h; exact read _ s.draws
    · cases h
  | hpoll gap =>
    right
    cases h
    unfold hostPoll
    split
    · constructor <;> first | rfl | (intros; first | rfl | exact .inl rfl)
    · exact read _ s.draws
  | memWrite wa v =>
    right
    cases h
    unfold hostStore
    split
    · by_cases hw : regionWritten s = true <;> simp only [hw, if_true] <;>
        (constructor <;> first | rfl | (intros; first | rfl | exact .inl rfl))
    · constructor <;> first | rfl | (intros; first | rfl | exact .inl rfl)
  | memRead wa =>
    right
    cases h
    unfold hostLoad
    split
    · exact read _ _
    · exact read _ s.draws

end Sys2Proof.Machine
end

