-- ==== Sys2Proof/Tests/Slice0.lean ====
section
/-! SUPPORT. The model's own tests. Expected values come from the spec: the encodings of 30_encoding.md R91, written
out bit by bit, and the vectors of 95_test_vectors.md, named in each comment. The theorems named `witness_` show, for
each obligation with hypotheses, a concrete state and operands that meet them, clause by clause. -/

namespace Sys2Proof.Tests

open Sys2Proof Sys2Proof.Machine Sys2Proof.Safety

/-! ### Helpers -/

/-- The reset state running command `c` at position `ph`. -/
def running (c : Instr) (ph : Phase) : State :=
  { State.reset with
    estat := { busy := true, done := false, rej := false, result := 0, lastcmd := c.code }, phase := ph }

/-- A state with the device's next answers. -/
def answering (l : List Word) (s : State) : State := { s with devScript := l }

/-- A state with one host operation due. -/
def due (op : HostOp) (s : State) : State := { s with inputs := [{ delay := 0, op := op }] }

/-- An LBA record. -/
def lbaRecord : DriveRecord :=
  { DriveRecord.absent with present := true, lba := true, total := 1008000, cyl := 1000, heads := 16, spt := 63 }

/-- A CHS record. -/
def chsRecord (heads spt : Half) : DriveRecord := { DriveRecord.absent with present := true, heads := heads, spt := spt }

/-- A state whose transport is the 32-bit one. -/
def wide (s : State) : State := { s with cfg := { s.cfg with transport := .wide32 } }

/-- The internal variables changed. -/
def vars (f : Vars → Vars) (s : State) : State := { s with v := f s.v }

/-- The next state of an outcome has a property. -/
def nextIs (x : Host.Outcome State Fault Refusal) (p : State → Bool) : Bool :=
  match x with
  | .next t => p t
  | _ => false

/-! ### Decoding: 30_encoding.md R91's words, bit by bit -/

theorem test_decode_select : decodeWord 0b00000000000000000000000000000001 = .ok .select := by decide
theorem test_decode_waitnb : decodeWord 0b00000000000000000000000000000010 = .ok .waitnb := by decide
theorem test_decode_waitdrq : decodeWord 0b00000000000000000000000000000011 = .ok .waitdrq := by decide
theorem test_decode_setaddr : decodeWord 0b00000000000000000000000000000100 = .ok .setaddr := by decide
theorem test_decode_read : decodeWord 0b00000000000000000000000000000101 = .ok .read := by decide
theorem test_decode_write : decodeWord 0b00000000000000000000000000000110 = .ok .write := by decide
theorem test_decode_identify : decodeWord 0b00000000000000000000000000000111 = .ok .identify := by decide
theorem test_decode_parseid : decodeWord 0b00000000000000000000000000001000 = .ok .parseid := by decide
theorem test_decode_probe : decodeWord 0b00000000000000000000000000001001 = .ok .probe := by decide
theorem test_decode_discover : decodeWord 0b00000000000000000000000000001010 = .ok .discover := by decide

/-- R92 and V-C1 to V-C3: 0, 0x0B and 0x105 are no commands. -/
theorem test_decode_illegal :
    decodeWord 0b00000000000000000000000000000000 = .error (.unknownCode 0) ∧
      decodeWord 0b00000000000000000000000000001011 = .error (.unknownCode 0x0B) ∧
      decodeWord 0b00000000000000000000000100000101 = .error .reservedBits ∧
      decodeBytes [0x05, 0x00, 0x00] = .error .truncated := by decide

theorem test_decode_table_words :
    decodeTableWord 32 5 = some .read ∧ decodeTableWord 8 10 = some .discover ∧ decodeTableWord 32 261 = none := by
  decide

theorem test_fetch_word_runs : step (State.reset.withFetchWord 32 9) = exec .probe State.reset := by rfl

/-! ### Well-formedness: each check refuses an ill-formed term -/

theorem test_wf_code_zero : (CommandWord.ofWord 0x00000000).wellFormed = false := by decide
theorem test_wf_code_eleven : (CommandWord.ofWord 0x0000000B).wellFormed = false := by decide
theorem test_wf_reserved_bits : (CommandWord.ofWord 0x00000105).wellFormed = false := by decide
theorem test_wf_command : (CommandWord.ofWord 0x0000000A).wellFormed = true ∧ Instr.discover.wellFormed = true := by
  decide

theorem test_wf_config : Config.reference.legal = true := by decide
theorem test_wf_config_settle : { Config.reference with settle := 0 }.legal = false := by decide
theorem test_wf_config_chunk : { Config.reference with maxChunk := 0 }.legal = false := by decide
theorem test_wf_config_patterns : { Config.reference with pat2 := 0x55 }.legal = false := by decide

theorem test_wf_access : hostAccessOk 0x17C 4 = true := by decide
theorem test_wf_access_width : hostAccessOk 0x004 2 = false := by decide
theorem test_wf_access_alignment : hostAccessOk 0x006 4 = false := by decide
theorem test_wf_access_outside : hostAccessOk 0x180 4 = false := by decide

/-! ### One step of each command -/

/-- V-S2: SELECT of drive 1 writes 0xB0. -/
theorem test_select_drive1 :
    nextIs (exec .select (vars (fun v => { v with d := 1 }) (running .select .select)))
      (fun t => t.trace == [.w .devhead 0xB0]) = true := by decide

/-- A state polling with a budget and the device's next answer. -/
def polling (c : Instr) (ph : Phase) (budget : Nat) (answer : Word) : State :=
  answering [answer] (vars (fun v => { v with budget := budget }) (running c ph))

/-- V-N3: ERROR is ignored. -/
theorem test_waitnb_ignores_error :
    nextIs (exec .waitnb (polling .waitnb (.waitnb .poll) 1 0x01)) (fun t => t.phase == .finishing .waitnb .ok) =
      true := by decide

/-- V-N4: BUSY with a budget of 1 times out. -/
theorem test_waitnb_times_out :
    nextIs (exec .waitnb (polling .waitnb (.waitnb .poll) 1 0x81))
      (fun t => t.phase == .finishing .waitnb .timeout) = true := by decide

/-- V-D3: the error is seen before DATA-REQUEST. -/
theorem test_waitdrq_error_first :
    nextIs (exec .waitdrq (polling .waitdrq (.waitdrq .poll) 1 0x59)) (fun t => t.phase == .waitdrq .readError) =
      true := by decide

/-- V-D6: BUSY masks the error. -/
theorem test_waitdrq_busy_masks_error :
    nextIs (exec .waitdrq (polling .waitdrq (.waitdrq .poll) 1 0xA1))
      (fun t => t.phase == .finishing .waitdrq .timeout) = true := by decide

/-- A SETADDR about to make a write. -/
def addressing (r : DriveRecord) (sec : Word) (p : AddrPos) : State :=
  { vars (fun v => { v with sec := sec }) (running .setaddr (.setaddr (.address p))) with drv0 := r }

/-- V-A2: the top nibble of an LBA sector goes to the device/head byte. -/
theorem test_setaddr_lba_devhead :
    nextIs (exec .setaddr (addressing lbaRecord 0x01234567 .devhead)) (fun t => t.trace == [.w .devhead 0xE1]) =
      true := by decide

/-- V-A17: a sector number above 255 is truncated. -/
theorem test_setaddr_chs_truncates :
    nextIs (exec .setaddr (addressing (chsRecord 1 300) 299 .secnum)) (fun t => t.trace == [.w .secnum 0x2C]) =
      true := by decide

/-- V-T1: the memory word and its four bytes. -/
theorem test_read_stores_little_endian :
    nextIs (exec .read (vars (fun v => { v with lo := 0x1234, hi := 0x5678, p := 0x1000 })
      (running .read (.read (.move .store)))))
      (fun t => t.mem == [(0x1000, 0x34), (0x1001, 0x12), (0x1002, 0x78), (0x1003, 0x56)] &&
        t.trace == [.mw 0x1000 0x56781234]) = true := by decide

/-- V-X16: alignment is tested before geometry. -/
theorem test_read_alignment_first :
    nextIs (exec .read (vars (fun v => { v with d := 1, p := 0x1002 }) (running .read (.read .check))))
      (fun t => t.phase == .finishing .read .faultAlign && t.trace == []) = true := by decide

/-- V-T4: a 32-bit data write carries the data word in the upper half. -/
theorem test_write_wide32 :
    nextIs (exec .write (wide (vars (fun v => { v with w := 0xAABBCCDD }) (running .write (.write (.move .firstLo))))))
      (fun t => t.trace == [.w32 0xCCDD0000]) = true := by decide

/-- V-T2: through the latch, the high byte goes first. -/
theorem test_write_latch_first :
    nextIs (exec .write (vars (fun v => { v with w := 0xAABBCCDD }) (running .write (.write (.move .firstLo)))))
      (fun t => t.trace == [.lw 0xCC] && t.phase == .write (.move .secondLo)) = true := by decide

/-- V-I13: the record of a present drive is cleared before the device is touched. -/
theorem test_identify_clears_record :
    nextIs (exec .identify { running .identify (.identify .clear) with drv0 := lbaRecord })
      (fun t => t.drv0 == DriveRecord.absent && t.trace == []) = true := by decide

/-- V-I12: the IDENTIFY command byte. -/
theorem test_identify_command :
    nextIs (exec .identify (running .identify (.identify (.drive .command))))
      (fun t => t.trace == [.w .command 0xEC]) = true := by decide

/-- V-P1: both patterns come back. -/
theorem test_probe_ok :
    nextIs (exec .probe (answering [0xAA] (vars (fun v => { v with a := 0x55 }) (running .probe (.probe .readHi)))))
      (fun t => t.phase == .finishing .probe .ok) = true := by decide

/-- V-P3: two registers that alias are no controller. -/
theorem test_probe_alias :
    nextIs (exec .probe (answering [0xAA] (vars (fun v => { v with a := 0xAA }) (running .probe (.probe .readHi)))))
      (fun t => t.phase == .finishing .probe .noctrl) = true := by decide

/-- V-I15: a failed probe ends DISCOVER with `NOCTRL`. -/
theorem test_discover_no_controller :
    nextIs (exec .discover
      (answering [0xFF] (vars (fun v => { v with a := 0xFF }) (running .discover (.discover (.probe .readHi))))))
      (fun t => t.phase == .finishing .discover .noctrl) = true := by decide

/-- V-I18: a misaligned `BUF` stops DISCOVER before it clears a record. -/
theorem test_discover_alignment :
    nextIs (exec .discover
      { vars (fun v => { v with p := 0x8001 }) (running .discover (.discover .check)) with drv0 := lbaRecord })
      (fun t => t.phase == .finishing .discover .faultAlign && t.drv0 == lbaRecord) = true := by decide

/-! ### Parsing (42_identify.md) -/

/-- The first 512 bytes of zeros with some identify words set. -/
def block (l : List (Nat × Half)) : List Byte :=
  (List.range 256).flatMap fun n =>
    match l.find? (fun x => x.1 == n) with
    | some x => [x.2.extractLsb' 0 8, x.2.extractLsb' 8 8]
    | none => [0, 0]

/-- V-I4: the total of 1008001 sectors does not match 1000 * 16 * 63, so the geometry is normalised. -/
theorem test_parseid_normalises :
    (let r := parseBlock (block [(1, 0x03E8), (3, 0x0010), (6, 0x003F), (49, 0x0200), (60, 0x6181), (61, 0x000F)])
     r.lba && r.total == 1008001 && r.cyl == 1000 && r.heads == 16 && r.spt == 63) = true := by decide

/-- V-I5: a CHS drive's total is the product, words 60 and 61 ignored. -/
theorem test_parseid_chs :
    (let r := parseBlock (block [(1, 980), (3, 5), (6, 17), (60, 0xFFFF), (61, 0xFFFF)])
     !r.lba && r.present && r.total == 83300 && r.cyl == 980) = true := by decide

/-- V-I10b: inner non-printable bytes stay, trailing ones go. -/
theorem test_string_keeps_inner_bytes :
    (decodeStr (block [(27, 0x4142), (28, 0x0043), (29, 0xFF20), (30, 0x2020)]) 27 30 12).toList =
      [0x41, 0x42, 0x00, 0x43, 0, 0, 0, 0, 0, 0, 0, 0] := by decide

/-! ### Witnesses: the hypotheses of the obligations -/

/-- An idle engine about to receive a command word. -/
def issuing (w : Word) : State := due (.write 0x000 4 w) State.reset

/-- A running engine, waiting, with one host operation due. -/
def busyWith (op : HostOp) : State := due op (running .waitnb (.waitnb .poll))

/-- A transfer or an IDENTIFY over a buffer at 0x1000. -/
def buffered (c : Instr) (ph : Phase) : State :=
  vars (fun v => { v with p := 0x1000, n := 2, k := 2 })
    { running c ph with buf := 0x1000, count := 2, drv0 := lbaRecord }

/-- A region of host memory that refuses accesses. -/
def refusing (s : State) : State := { s with refused := [{ base := 0x1000, size := 4, reads := true, writes := true }] }

theorem witness_StepIssuesDecodedCommand :
    (issuing 0x0A).inputs = { delay := 0, op := .write 0x000 4 0x0A } :: [] ∧ (issuing 0x0A).estat.busy = false ∧
      decodeWord 0x0A = .ok .discover := by decide

theorem witness_StepRunsRunningCommand_alone :
    (running .select .select).phase.command = some .select ∧ (running .select .select).inputs = [] := by decide

theorem witness_StepRunsRunningCommand_delayed :
    let s := { running .select .select with inputs := [{ delay := 1, op := .reset }] }
    s.phase.command = some .select ∧ s.inputs = { delay := 0 + 1, op := .reset } :: [] ∧
      ∃ t, exec .select { s with inputs := { delay := 0, op := .reset } :: [] } = .next t := ⟨rfl, rfl, _, rfl⟩

theorem witness_StepRunsRunningCommand_stuck :
    let s := { refusing (buffered .read (.read (.move .store))) with inputs := [{ delay := 1, op := .reset }] }
    s.phase.command = some .read ∧ s.inputs = { delay := 0 + 1, op := .reset } :: [] ∧
      ∃ a, exec .read { s with inputs := { delay := 0, op := .reset } :: [] } = .fault (.memoryRefused a) :=
  ⟨rfl, rfl, _, rfl⟩

theorem witness_IdleEngineWaits :
    (State.reset.phase = .idle ∧ State.reset.inputs = []) ∧
      ({ State.reset with inputs := [{ delay := 1, op := .reset }] }.inputs =
        { delay := 0 + 1, op := .reset } :: []) ∧
      ∃ t, (issuing 0x01).phase = .idle ∧ step (issuing 0x01) = .next t := ⟨⟨rfl, rfl⟩, rfl, _, rfl, rfl⟩

/-- V-C1 to V-C3's values. -/
theorem witness_IllegalValueRejected :
    (∀ v, (issuing v).inputs = { delay := 0, op := .write 0x000 4 v } :: [] ∧ (issuing v).estat.busy = false) ∧
      ∀ v ∈ ([0x00000000, 0x0000000B, 0x00000105] : List Word), v.toNat = 0 ∨ 10 < v.toNat :=
  ⟨fun _ => ⟨rfl, rfl⟩, by simp⟩

theorem witness_BusyWritesTurnedAway_busy :
    ∀ off ∈ ([0x000, 0x008, 0x00C, 0x010, 0x014] : List Nat),
      (busyWith (.write off 4 5)).inputs = { delay := 0, op := .write off 4 5 } :: [] ∧
        (busyWith (.write off 4 5)).estat.busy = true := fun _ _ => ⟨rfl, rfl⟩

/-- Read-only registers, a record's first field, and unassigned offsets up to the window's last. -/
theorem witness_BusyWritesTurnedAway_readOnly :
    (∀ off, (busyWith (.write off 4 5)).inputs = { delay := 0, op := .write off 4 5 } :: []) ∧
      ∀ off ∈ ([0x018, 0x01C, 0x020, 0x024, 0x07C, 0x080, 0x17C] : List Nat),
        off % 4 = 0 ∧ off < 0x180 ∧ off ∉ [0x000, 0x004, 0x008, 0x00C, 0x010, 0x014] :=
  ⟨fun _ => rfl, by decide⟩

theorem witness_ArgumentAndRejWrites :
    ∀ off ∈ ([0x004, 0x008, 0x00C, 0x010, 0x014] : List Nat),
      (due (.write off 4 0xFFFFFFFF) State.reset).inputs = { delay := 0, op := .write off 4 0xFFFFFFFF } :: [] ∧
        (due (.write off 4 0xFFFFFFFF) State.reset).estat.busy = false := fun _ _ => ⟨rfl, rfl⟩

theorem running_statusOk (c : Instr) (ph : Phase) (hc : ph.command = some c) (hf : FinishOk ph) :
    StatusOk (running c ph) where
  busyIffRunning := ⟨fun _ h => (by rw [show ph = .idle from h] at hc; cases hc), fun _ => rfl⟩
  notBoth := fun h => by cases h.2
  noResultWhileBusy := fun _ => rfl
  lastcmdRuns := fun c' h => by rw [show ph.command = some c' from h] at hc; cases hc; rfl
  finishes := hf
  reports := fun h => by cases h

/-- A running command with a host operation due. -/
theorem busyWith_statusOk (op : HostOp) : StatusOk (busyWith op) where
  busyIffRunning := ⟨fun _ h => (by cases h), fun _ => rfl⟩
  notBoth := fun h => by cases h.2
  noResultWhileBusy := fun _ => rfl
  lastcmdRuns := fun c h => by cases h; rfl
  finishes := fun c r h => by cases h
  reports := fun h => by cases h

theorem witness_RejChangesOnlyByHost_set :
    ∃ t, StatusOk (busyWith (.write 0x00C 4 5)) ∧ step (busyWith (.write 0x00C 4 5)) = .next t ∧
      t.estat.rej ≠ (busyWith (.write 0x00C 4 5)).estat.rej := ⟨_, busyWith_statusOk _, rfl, by decide⟩

/-- Reset with `REJ` set and a host operation due. -/
def rejected (op : HostOp) : State := due op (turnAway State.reset)

theorem rejected_statusOk (op : HostOp) : StatusOk (rejected op) where
  busyIffRunning := ⟨fun h => (by cases h), fun h => (h rfl).elim⟩
  notBoth := fun h => by cases h.2
  noResultWhileBusy := fun _ => rfl
  lastcmdRuns := fun c h => by cases h
  finishes := fun c r h => by cases h
  reports := fun h => by cases h

theorem witness_RejChangesOnlyByHost_clear :
    ∀ op ∈ ([.write 0x004 4 0x4, .reset] : List HostOp), ∃ t, StatusOk (rejected op) ∧ step (rejected op) = .next t ∧
      t.estat.rej ≠ (rejected op).estat.rej := by
  intro op h
  simp only [List.mem_cons, List.not_mem_nil, or_false] at h
  rcases h with rfl | rfl
  · exact ⟨_, rejected_statusOk _, rfl, by decide⟩
  · exact ⟨_, rejected_statusOk _, rfl, by decide⟩

/-- Unassigned offsets at the edges of each range. -/
theorem witness_WindowLayout :
    ∀ off ∈ ([0x021, 0x024, 0x07F, 0x091, 0x094, 0x09F, 0x0CC, 0x0CF, 0x0DC, 0x0FF, 0x15C, 0x17F] : List Nat),
      0x020 < off ∧ off < 0x180 ∧ (off < 0x080 ∨ (0x080 ≤ off ∧ 0x10 < off % 0x80 ∧ off % 0x80 < 0x20) ∨
        (0x080 ≤ off ∧ 0x4C ≤ off % 0x80 ∧ off % 0x80 < 0x50) ∨ (0x080 ≤ off ∧ 0x5C ≤ off % 0x80)) ∧
        windowRead State.reset off = 0 := by decide

theorem witness_HostAccesses :
    ((due (.read 0x17C 4) State.reset).inputs = { delay := 0, op := .read 0x17C 4 } :: [] ∧
        (4 = 4 ∧ 0x17C % 4 = 0 ∧ 0x17C < 0x180)) ∧
      (∀ x ∈ ([(0x180, 4), (0x002, 4), (0x004, 2)] : List (Nat × Nat)),
        (due (.read x.1 x.2) State.reset).inputs = { delay := 0, op := .read x.1 x.2 } :: [] ∧
          (due (.write x.1 x.2 0) State.reset).inputs = { delay := 0, op := .write x.1 x.2 0 } :: [] ∧
          ¬(x.2 = 4 ∧ x.1 % 4 = 0 ∧ x.1 < 0x180)) := by decide

theorem witness_ResetInputClearsEngine :
    (busyWith .reset).inputs = { delay := 0, op := .reset } :: [] := by decide

theorem witness_ConfigurationIsFixed : ∃ t, step (issuing 0x05) = .next t := ⟨_, rfl⟩

/-- A race at the word address 0x400. -/
def racing (s : State) : State := { s with races := [{ word := 0x400, base := 1, host := [2] }] }

/-- A word no race is open on while one is open elsewhere, a raced word, and a command that writes no memory. -/
theorem witness_RacingHostWriteEndsEither :
    (∀ wa ∈ ([0x400, 0x401, 0x500] : List (BitVec 30)), ∀ x ∈ ([(.read, .read .check), (.write, .write .check)] :
        List (Instr × Phase)),
      let s := due (.memWrite wa 5) (racing (buffered x.1 x.2))
      s.mem.wf = true ∧ s.inputs = { delay := 0, op := .memWrite wa 5 } :: []) ∧
    let s := racing (buffered .read (.read .check))
    ownsWord s 0x401 = true ∧ raceAt s 0x401 = none ∧ ownsWord s 0x400 = true ∧
      raceAt s 0x400 = some { word := 0x400, base := 1, host := [2] } ∧
      ownsWord (racing (buffered .write (.write .check))) 0x400 = true ∧
      regionWritten (racing (buffered .write (.write .check))) = false ∧ ownsWord s 0x500 = false :=
  ⟨fun _ _ _ _ => ⟨rfl, rfl⟩, by decide, by decide, by decide, by decide, by decide, rfl, by decide⟩

theorem witness_CommandAccepted : State.reset.phase = .idle := rfl

theorem witness_CommandFinishReports :
    (running .read (.finishing .read .deverr)).phase = .finishing .read .deverr := rfl

theorem witness_RunningCommandTurnsOthersAway :
    (running .read (.read .check)).phase.command = some .read ∧ Instr.read ≠ .write := by decide

/-- A settle position of every kind, with the settle reads not yet all made and with all of them made. -/
theorem witness_WaitSettlesAndDraws :
    ∀ x ∈ ([(.waitnb, .waitnb .settle), (.waitdrq, .waitdrq .settle), (.read, .read (.afterChunk .settle)),
        (.write, .write (.dataRequest .settle)), (.identify, .identify (.drive (.notBusy .settle))),
        (.discover, .discover (.drive (.dataRequest .settle)))] : List (Instr × Phase)),
      (running x.1 x.2).phase.command = some x.1 ∧ (settleToPoll x.2).isSome = true ∧
        (running x.1 x.2).v.t < (running x.1 x.2).cfg.settle ∧
        (running x.1 x.2).cfg.settle ≤ (vars (fun v => { v with t := 4 }) (running x.1 x.2)).v.t := by decide

/-- V-N3, V-N5 and V-N4: not busy, busy with budget left, busy with the last budget. -/
theorem witness_WaitnbPolls :
    (polling .waitnb (.waitnb .poll) 1 0x01).phase = .waitnb .poll ∧ (0x01 : Byte).getLsbD 7 = false ∧
      (0x80 : Byte).getLsbD 7 = true ∧ 1 < (polling .waitnb (.waitnb .poll) 2 0x80).v.budget ∧
      (polling .waitnb (.waitnb .poll) 1 0x81).v.budget ≤ 1 := by decide

/-- V-D3, V-D1, V-D7, V-D2 and the error register's read. -/
theorem witness_WaitdrqPolls :
    (polling .waitdrq (.waitdrq .poll) 1 0x59).phase = .waitdrq .poll ∧
      ((0x59 : Byte).getLsbD 7 = false ∧ ((0x59 : Byte).getLsbD 0 || (0x59 : Byte).getLsbD 5) = true) ∧
      ((0x58 : Byte).getLsbD 7 = false ∧ ((0x58 : Byte).getLsbD 0 || (0x58 : Byte).getLsbD 5) = false ∧
        (0x58 : Byte).getLsbD 3 = true) ∧
      ((0x88 : Byte).getLsbD 7 = true ∧ 1 < (polling .waitdrq (.waitdrq .poll) 2 0x88).v.budget) ∧
      (((0x50 : Byte).getLsbD 0 || (0x50 : Byte).getLsbD 5) = false ∧ (0x50 : Byte).getLsbD 3 = false ∧
        (polling .waitdrq (.waitdrq .poll) 1 0x50).v.budget ≤ 1) ∧
      (running .waitdrq (.waitdrq .readError)).phase = .waitdrq .readError := by decide

/-- Every wait of every command at its first position. -/
theorem witness_EmbeddedWaitsAreTheWaits :
    (running .read (.read (.notBusy .settle))).phase = .read (.notBusy .settle) ∧
      (running .read (.read (.afterChunk .settle))).phase = .read (.afterChunk .settle) ∧
      (running .write (.write (.notBusy .settle))).phase = .write (.notBusy .settle) ∧
      (running .write (.write (.afterChunk .settle))).phase = .write (.afterChunk .settle) ∧
      (running .identify (.identify (.drive (.notBusy .poll)))).phase = .identify (.drive (.notBusy .poll)) ∧
      (running .discover (.discover (.drive (.notBusy .poll)))).phase = .discover (.drive (.notBusy .poll)) ∧
      (running .read (.read (.dataRequest .poll))).phase = .read (.dataRequest .poll) ∧
      (running .write (.write (.dataRequest .poll))).phase = .write (.dataRequest .poll) ∧
      (running .identify (.identify (.drive (.dataRequest .readError)))).phase =
        .identify (.drive (.dataRequest .readError)) ∧
      (running .discover (.discover (.drive (.dataRequest .readError)))).phase =
        .discover (.drive (.dataRequest .readError)) := by decide

theorem witness_WaitsAreBounded :
    ((running .waitnb (.waitnb .settle)).phase = .waitnb .settle ∧ (running .waitnb (.waitnb .settle)).v.t = 0 ∧
        (running .waitnb (.waitnb .settle)).inputs = []) ∧
      (running .waitdrq (.waitdrq .settle)).phase = .waitdrq .settle ∧
        (running .waitdrq (.waitdrq .settle)).v.t = 0 ∧ (running .waitdrq (.waitdrq .settle)).inputs = [] := by
  decide

theorem witness_SelectWritesDevhead :
    (running .select .select).phase = .select ∧ (issuing 0x00000001).phase = .idle ∧
      (issuing 0x00000001).estat.busy = false ∧
      (issuing 0x00000001).inputs = [{ delay := 0, op := .write 0x000 4 0x00000001 }] := by decide

theorem witness_ProbeWritesReadsCompares :
    ∀ p ∈ ([.writeLo, .writeHi, .readLo, .readHi] : List ProbePos),
      (running .probe (.probe p)).phase = .probe p := by decide

/-- V-P1 and V-P4: both patterns back, and one of them not. -/
theorem witness_ProbeWholeRun :
    ∀ y ∈ ([0xAA, 0xAB] : List Word),
      (answering [0x55, y] (issuing 0x00000009)).phase = .idle ∧
        (answering [0x55, y] (issuing 0x00000009)).estat.busy = false ∧
        (answering [0x55, y] (issuing 0x00000009)).inputs = [{ delay := 0, op := .write 0x000 4 0x00000009 }] ∧
        (answering [0x55, y] (issuing 0x00000009)).devScript = 0x55 :: y :: [] :=
  fun _ _ => ⟨rfl, rfl, rfl, rfl⟩

/-- Each caller of `set_address`, an LBA and a CHS drive. -/
theorem witness_AddressWrites :
    ∀ c ∈ [Instr.setaddr, .read, .write], ∀ p ∈ ([.secnum, .cyllo, .cylhi, .devhead] : List AddrPos),
      ∀ r ∈ [lbaRecord, chsRecord 4 56],
        let s := { running c (addressAt c p) with drv0 := r }
        s.phase = addressAt c p ∧ geomOk (driveRecord s s.v.d) = true := by decide

/-- V-A3, V-A10, V-A18 and V-A19: an LBA drive, a CHS drive, no sectors per track, and never identified. -/
theorem witness_SetaddrWholeRun :
    (∀ r ∈ [lbaRecord, chsRecord 4 56],
      let s := { issuing 0x00000004 with drv0 := r }
      s.phase = .idle ∧ s.estat.busy = false ∧ s.inputs = [{ delay := 0, op := .write 0x000 4 0x00000004 }] ∧
        ((driveRecord s s.drive).lba = true ∨ ((driveRecord s s.drive).spt ≠ 0 ∧ (driveRecord s s.drive).heads ≠ 0))) ∧
    ∀ r ∈ [chsRecord 4 0, DriveRecord.absent],
      let s := { issuing 0x00000004 with drv0 := r }
      s.phase = .idle ∧ s.estat.busy = false ∧ s.inputs = [{ delay := 0, op := .write 0x000 4 0x00000004 }] ∧
        ((driveRecord s s.drive).lba = false ∧ ((driveRecord s s.drive).spt = 0 ∨ (driveRecord s s.drive).heads = 0)) := by
  decide

/-- V-A10's drive and sector. -/
theorem witness_ChsLaw :
    (chsRecord 4 56).spt ≠ 0 ∧ (chsRecord 4 56).heads ≠ 0 ∧
      chsOf (chsRecord 4 56) 224 = { c := 1, h := 0, s1 := 1 } ∧
      ∀ d : BitVec 1, (devsel Config.reference d).extractLsb' 0 4 = 0 := by decide

theorem witness_LbaSplitIsExact :
    let s := addressing lbaRecord 0x0FFFFFFF .secnum
    (driveRecord s s.v.d).lba = true ∧ s.cfg.devsel0.extractLsb' 0 4 = 0 ∧ s.cfg.devsel1.extractLsb' 0 4 = 0 ∧
      s.cfg.lbaBit.extractLsb' 0 4 = 0 := by decide

/-- Every check position, a misaligned and an aligned buffer, a usable and an unusable geometry. -/
theorem witness_StartChecks :
    (∀ x ∈ ([(.read, .read .check), (.write, .write .check), (.identify, .identify .check),
        (.parseid, .parseid .check), (.discover, .discover .check), (.setaddr, .setaddr .check)] :
          List (Instr × Phase)), (buffered x.1 x.2).phase = x.2) ∧
      (0x1002 : Word).extractLsb' 0 2 ≠ 0 ∧ (0x1000 : Word).extractLsb' 0 2 = 0 ∧ lbaRecord.lba = true ∧
      ¬(DriveRecord.absent.lba = true ∨ (DriveRecord.absent.spt ≠ 0 ∧ DriveRecord.absent.heads ≠ 0)) := by decide

/-- Every position of the statement, the zero and the nonzero count, the last and an earlier sector of a chunk. -/
theorem witness_ReadControlSteps :
    (∀ p ∈ ([.select, .precomp, .chunk, .seccnt, .command, .advance] : List (XferPos InPos)),
      (buffered .read (.read p)).phase = .read p) ∧ (running .read (.read .chunk)).v.n = 0 ∧
      (buffered .read (.read .chunk)).v.n ≠ 0 ∧
      (buffered .read (.read .advance)).v.i ≠ (buffered .read (.read .advance)).v.k ∧
      (running .read (.read .advance)).v.i = (running .read (.read .advance)).v.k := by decide

theorem witness_WriteControlSteps :
    (∀ p ∈ ([.select, .precomp, .chunk, .seccnt, .command, .advance] : List (XferPos OutPos)),
      (buffered .write (.write p)).phase = .write p) ∧ (running .write (.write .chunk)).v.n = 0 ∧
      (buffered .write (.write .chunk)).v.n ≠ 0 ∧
      (buffered .write (.write .advance)).v.i ≠ (buffered .write (.write .advance)).v.k ∧
      (running .write (.write .advance)).v.i = (running .write (.write .advance)).v.k := by decide

theorem witness_ReadDataSteps :
    (∀ p ∈ ([.dataLo, .latchLo, .dataHi, .latchHi, .store, .count] : List InPos),
      (buffered .read (.read (.move p))).phase = .read (.move p) ∧
        (buffered .read (.read (.move p))).cfg.transport = .latch8 ∧
        (wide (buffered .read (.read (.move p)))).cfg.transport = .wide32) ∧
      admitsWord .write (buffered .read (.read (.move .store))) 0x1000 = true ∧
      raceAt (buffered .read (.read (.move .store))) (wordAddr 0x1000) = none ∧
      (raceAt (racing (buffered .read (.read (.move .store)))) (wordAddr 0x1000)).isSome = true := by decide

theorem witness_WriteDataSteps :
    (∀ p ∈ ([.load, .firstLo, .secondLo, .firstHi, .secondHi, .count] : List OutPos),
      (buffered .write (.write (.move p))).phase = .write (.move p) ∧
        (buffered .write (.write (.move p))).cfg.transport = .latch8 ∧
        (wide (buffered .write (.write (.move p)))).cfg.transport = .wide32) ∧
      admitsWord .read (buffered .write (.write (.move .load))) 0x1000 = true ∧
      raceAt (buffered .write (.write (.move .load))) (wordAddr 0x1000) = none ∧
      (raceAt (racing (buffered .write (.write (.move .load)))) (wordAddr 0x1000)).isSome = true := by decide

theorem witness_ReadMovesExactlyOneSector_latch8 :
    let s := { buffered .read (.read (.move .dataLo)) with
      devScript := (List.range 512).map (fun _ => (0x5A : Byte).setWidth 32) ++ [] }
    s.phase = .read (.move .dataLo) ∧ s.v.j = 0 ∧ s.inputs = [] ∧ s.refused = [] ∧ s.races = [] ∧ s.mem.wf = true ∧
      s.v.p.extractLsb' 0 2 = 0 ∧ s.cfg.transport = .latch8 ∧
      s.devScript = (List.range 512).map (fun k => ((fun _ => 0x5A : Nat → Byte) k).setWidth 32) ++ [] :=
  ⟨rfl, rfl, rfl, rfl, rfl, rfl, by decide, rfl, rfl⟩

theorem witness_ReadMovesExactlyOneSector_wide32 :
    let s := { wide (buffered .read (.read (.move .dataLo))) with
      devScript := (List.range 256).map (fun _ => (0xFFFF : Half) ++ (0x12 : Byte) ++ (0x12 : Byte)) ++ [] }
    s.phase = .read (.move .dataLo) ∧ s.v.j = 0 ∧ s.inputs = [] ∧ s.refused = [] ∧ s.races = [] ∧ s.mem.wf = true ∧
      s.v.p.extractLsb' 0 2 = 0 ∧ s.cfg.transport = .wide32 ∧
      ∃ (upper : Nat → Half) (bytes : Nat → Byte), s.devScript =
        (List.range 256).map (fun w => upper w ++ bytes (2 * w + 1) ++ bytes (2 * w)) ++ [] :=
  ⟨rfl, rfl, rfl, rfl, rfl, rfl, by decide, rfl, fun _ => 0xFFFF, fun _ => 0x12, rfl⟩

theorem witness_WriteMovesExactlyOneSector :
    let s := buffered .write (.write (.move .load))
    s.phase = .write (.move .load) ∧ s.v.j = 0 ∧ s.inputs = [] ∧ s.refused = [] ∧ s.races = [] := by decide

/-- Each access to a refusing word, and a step that stops there. -/
theorem witness_RefusedMemoryIsStuck :
    let s := refusing (buffered .read (.read (.move .store)))
    let b := refusing (buffered .parseid (.parseid .parse))
    admitsWord .write s (sectorWord s.v.p s.v.j) = false ∧
      admitsWord .read s (sectorWord s.v.p s.v.j) = false ∧
      (∀ x ∈ ([(.write, .write (.move .load)), (.identify, .identify (.drive (.move .store))),
          (.discover, .discover (.drive (.move .store)))] : List (Instr × Phase)),
        (refusing (buffered x.1 x.2)).phase = x.2) ∧
      admitsBlock b b.v.p = false ∧ admitsByte .read s 0x1003 = false ∧ admitsByte .write s 0x1004 = true ∧
      s.phase.command = some .read ∧ s.inputs = [] ∧ exec .read s = .fault (.memoryRefused 0x1000) :=
  ⟨by decide, by decide, by decide, by decide, by decide, by decide, rfl, rfl, rfl⟩

/-- V-X3's wait for data, and a data phase that goes on. -/
theorem witness_DataMovesOnlyWhenReady :
    (∃ t, exec .read (polling .read (.read (.dataRequest .poll)) 1 0x58) = .next t ∧ t.phase = .read (.move .dataLo)) ∧
      (∃ t, exec .write (polling .write (.write (.dataRequest .poll)) 1 0x58) = .next t ∧
        t.phase = .write (.move .load)) ∧
      (∃ t, exec .identify (polling .identify (.identify (.drive (.dataRequest .poll))) 1 0x58) = .next t ∧
        t.phase = .identify (.drive (.move .dataLo))) ∧
      ∃ t, exec .discover (polling .discover (.discover (.drive (.dataRequest .poll))) 1 0x58) = .next t ∧
        t.phase = .discover (.drive (.move .dataLo)) :=
  ⟨⟨_, rfl, rfl⟩, ⟨_, rfl, rfl⟩, ⟨_, rfl, rfl⟩, _, rfl, rfl⟩

theorem witness_IdentifySteps :
    ∀ p ∈ ([.clear, .drive .select, .drive .command, .drive (.move .dataLo), .drive (.move .count)] :
        List IdentifyPos), (buffered .identify (.identify p)).phase = .identify p := by decide

/-- Every parse position, both drives of DISCOVER's loop. -/
theorem witness_ParseWritesRecord :
    (∀ x ∈ ([(.parseid, .parseid .parse), (.identify, .identify (.drive .parse)),
        (.discover, .discover (.drive .parse))] : List (Instr × Phase)),
      (buffered x.1 x.2).phase = x.2 ∧ (buffered x.1 x.2).races = [] ∧
        admitsBlock (buffered x.1 x.2) (buffered x.1 x.2).v.p = true ∧ (buffered x.1 x.2).v.dd = 0) ∧
      (vars (fun v => { v with dd := 1 }) (buffered .discover (.discover (.drive .parse)))).v.dd = 1 := by decide

/-- V-I1, V-I4 and V-I5: a kept geometry, a normalised one, and a CHS drive. -/
theorem witness_ParsedFields :
    (let kept := block [(1, 0x03E8), (3, 0x0010), (6, 0x003F), (49, 0x0200), (60, 0x6180), (61, 0x000F)]
     (parseBlock kept).lba = true ∧ idValue kept 3 = 16 ∧ idValue kept 6 = 63 ∧
       2 ^ 16 * idValue kept 61 + idValue kept 60 = idValue kept 1 * idValue kept 3 * idValue kept 6 % 2 ^ 32) ∧
      (let other := block [(49, 0x0200)]
       (parseBlock other).lba = true ∧ ¬idValue other 3 = 16) ∧
      (parseBlock (block [(49, 0xFDFF)])).lba = false := by decide

/-- A PARSEID about to parse. -/
def parsing : State := buffered .parseid (.parseid .parse)

/-- Another, that differs elsewhere and holds the same block. -/
def parsing' : State := { parsing with drv0 := DriveRecord.absent, lba := 7 }

theorem parseid_answers {s : State} (hp : s.phase = .parseid .parse) (h : s.refused = []) :
    ∃ t, exec .parseid s = .next t ∧ t.refused = [] ∧ t.trace = .ms s.v.p :: s.trace := by
  have ha : admitsBlock s s.v.p = true := by simp [admitsBlock, admitsWord, admitsByte, h]
  simp only [exec, execParseid, hp, parseidAt, parse, memSnap512, ha, if_true, goOn]
  obtain ⟨n, hn⟩ := engineLoads_state 128 s.v.p s
  exact ⟨_, rfl, by simp [hn, h], by simp [hn]⟩

theorem witness_ParseDependsOnBlockAlone :
    (parsing.phase = .parseid .parse ∧ parsing'.phase = .parseid .parse ∧ parsing.races = [] ∧ parsing'.races = [] ∧
      blockBytes parsing.mem parsing.v.p = blockBytes parsing'.mem parsing'.v.p ∧
      (∃ t, exec .parseid parsing = .next t) ∧ ∃ t', exec .parseid parsing' = .next t') ∧
      ∃ t, exec .parseid parsing = .next t ∧ ∃ t', exec .parseid { t with phase := .parseid .parse } = .next t' := by
  obtain ⟨t, ht, hr, -⟩ := parseid_answers (s := parsing) rfl rfl
  obtain ⟨t', ht', -, -⟩ := parseid_answers (s := parsing') rfl rfl
  obtain ⟨u, hu, -, -⟩ := parseid_answers (s := { t with phase := .parseid .parse }) rfl hr
  exact ⟨⟨rfl, rfl, rfl, rfl, rfl, ⟨t, ht⟩, t', ht'⟩, t, ht, u, hu⟩

theorem witness_DiscoverSteps :
    ∀ p ∈ ([.clear, .probe .writeLo, .probe .writeHi, .probe .readLo, .probe .readHi, .drive .select, .drive .command,
        .count, .drive (.move .dataLo), .drive (.move .store)] : List DiscoverPos),
      (buffered .discover (.discover p)).phase = .discover p := by decide

/-- Each of the five commands answers a next state, at a step that writes or reads the device. -/
theorem witness_FrameOfDeviceCommands :
    (∃ t, exec .select (running .select .select) = .next t) ∧
      (∃ t, exec .waitnb (running .waitnb (.waitnb .settle)) = .next t) ∧
      (∃ t, exec .waitdrq (running .waitdrq (.waitdrq .readError)) = .next t) ∧
      (∃ t, exec .setaddr (addressing lbaRecord 1 .secnum) = .next t) ∧
      ∃ t, exec .probe (running .probe (.probe .writeLo)) = .next t :=
  ⟨⟨_, rfl⟩, ⟨_, rfl⟩, ⟨_, rfl⟩, ⟨_, rfl⟩, _, rfl⟩

/-- A step that stores, a step that does not, the acceptance, the finish, and a command turned away. -/
theorem witness_FrameOfRead :
    (∃ t, exec .read (buffered .read (.read (.move .store))) = .next t ∧
        storeAddress (buffered .read (.read (.move .store))) = some 0x1000) ∧
      (∃ t, exec .read (buffered .read (.read (.move .count))) = .next t ∧
        storeAddress (buffered .read (.read (.move .count))) = none) ∧
      (∃ t, exec .read State.reset = .next t) ∧ (∃ t, exec .read (running .read (.finishing .read .ok)) = .next t) ∧
      ∃ t, exec .read (running .write (.write .check)) = .next t :=
  ⟨⟨_, rfl, rfl⟩, ⟨_, rfl, rfl⟩, ⟨_, rfl⟩, ⟨_, rfl⟩, _, rfl⟩

theorem witness_FrameOfWrite : ∃ t, exec .write (buffered .write (.write (.move .load))) = .next t := ⟨_, rfl⟩

theorem witness_FrameOfIdentifyAndParseid :
    (∃ t, exec .identify (buffered .identify (.identify (.drive (.move .store)))) = .next t ∧
        storeAddress (buffered .identify (.identify (.drive (.move .store)))) = some 0x1000) ∧
      (∃ t, exec .identify (buffered .identify (.identify .clear)) = .next t) ∧
      (∃ t, exec .parseid (buffered .parseid (.parseid .check)) = .next t) ∧
      (buffered .identify (.identify .clear)).v.d = 0 ∧
      (vars (fun v => { v with d := 1 }) (buffered .identify (.identify .clear))).v.d = 1 :=
  ⟨⟨_, rfl, rfl⟩, ⟨_, rfl⟩, ⟨_, rfl⟩, rfl, rfl⟩

theorem witness_FrameOfDiscover :
    (∃ t, exec .discover (buffered .discover (.discover (.drive (.move .store)))) = .next t ∧
        storeAddress (buffered .discover (.discover (.drive (.move .store)))) = some 0x1000) ∧
      (∃ t, exec .discover (buffered .discover (.discover .count)) = .next t) ∧
      ∃ t, exec .discover (buffered .discover (.discover (.drive .parse))) = .next t :=
  ⟨⟨_, rfl, rfl⟩, ⟨_, rfl⟩, _, rfl⟩

/-! ### A state in the middle of a READ that meets every invariant -/

/-- A READ of two sectors, about to write the sector count. -/
def middle : State := buffered .read (.read .seccnt)

theorem middle_status : StatusOk middle where
  busyIffRunning := ⟨fun _ h => (by cases h), fun _ => rfl⟩
  notBoth := fun h => by cases h.2
  noResultWhileBusy := fun _ => rfl
  lastcmdRuns := fun c h => by cases h; rfl
  finishes := fun c r h => by cases h
  reports := fun h => by cases h

theorem middle_phase : PhaseOk middle where
  latch := fun h => by cases h
  geometry := fun _ => by decide

theorem middle_buffer : BufferAligned middle := fun _ => by decide

theorem middle_transfer : TransferOk middle where
  reads := fun p h => by
    cases h
    exact ⟨⟨by decide, by decide, by decide, by decide, by decide, by decide, by decide⟩, by decide⟩
  writes := fun p h => by cases h
  complete := fun c _ h => by cases h

theorem middle_drives : DriveCountOk middle where
  probing := fun p h => by cases h
  driving := fun p h => by cases h
  counting := fun h => by cases h
  found := fun h => by cases h
  none := fun h => by cases h

theorem middle_inv : Inv middle where
  config := by decide
  memory := by decide
  status := middle_status
  phase := middle_phase
  buffer := middle_buffer
  transfer := middle_transfer
  drives := middle_drives
  events := fun e h => by cases h

theorem middle_steps : ∃ t, step middle = .next t := ⟨_, rfl⟩

theorem witness_EveryStepKeepsMemoryForm : ∃ t, middle.mem.wf = true ∧ step middle = .next t := ⟨_, rfl, rfl⟩

theorem witness_EveryStepKeepsStatusAndResults : ∃ t, StatusOk middle ∧ step middle = .next t :=
  ⟨_, middle_status, rfl⟩

theorem witness_EveryStepKeepsPositions : ∃ t, PhaseOk middle ∧ BufferAligned middle ∧ step middle = .next t :=
  ⟨_, middle_phase, middle_buffer, rfl⟩

theorem witness_EveryStepKeepsTransferProgress :
    ∃ t, middle.cfg.legal = true ∧ StatusOk middle ∧ TransferOk middle ∧ step middle = .next t :=
  ⟨_, by decide, middle_status, middle_transfer, rfl⟩

/-- Drive 1's turn of a DISCOVER, drive 0 found. -/
def secondDrive : State :=
  vars (fun v => { v with dd := 1, cnt := 1 })
    { running .discover (.discover (.drive .select)) with drv0 := lbaRecord }

theorem secondDrive_drives : DriveCountOk secondDrive where
  probing := fun p h => by cases h
  driving := fun p _ => .inr ⟨rfl, by decide, rfl⟩
  counting := fun h => by cases h
  found := fun h => by cases h
  none := fun h => by cases h

theorem witness_EveryStepKeepsDriveCount : ∃ t, DriveCountOk secondDrive ∧ step secondDrive = .next t :=
  ⟨_, secondDrive_drives, rfl⟩

theorem witness_EveryStepMakesOnlyLegalEvents : ∃ t, Inv middle ∧ step middle = .next t := ⟨_, middle_inv, rfl⟩

/-- A memory write, a memory read and a snapshot. -/
theorem witness_EveryStepMakesOnlyLegalEvents_memory :
    (buffered .read (.read (.move .store))).phase.command = some .read ∧
      (buffered .write (.write (.move .load))).phase.command = some .write ∧ parsing.phase.command = some .parseid ∧
      (∃ t, exec .read (buffered .read (.read (.move .store))) = .next t ∧
        t.trace = .mw 0x1000 0 :: (buffered .read (.read (.move .store))).trace) ∧
      (∃ t, exec .write (buffered .write (.write (.move .load))) = .next t ∧
        t.trace = .mr 0x1000 0 :: (buffered .write (.write (.move .load))).trace) ∧
      ∃ t, exec .parseid parsing = .next t ∧ t.trace = .ms 0x1000 :: parsing.trace :=
  ⟨rfl, rfl, rfl, ⟨_, rfl, rfl⟩, ⟨_, rfl, rfl⟩, (parseid_answers rfl rfl).imp fun _ h => ⟨h.1, h.2.2⟩⟩

theorem refusing_transfer : TransferOk (refusing middle) where
  reads := fun p h => by
    cases h
    exact ⟨⟨by decide, by decide, by decide, by decide, by decide, by decide, by decide⟩, by decide⟩
  writes := fun p h => by cases h
  complete := fun c _ h => by cases h

/-- A running command that memory refuses nothing, and one it refuses its buffer. -/
theorem witness_EveryCommandFinishes :
    (Inv middle ∧ middle.phase ≠ .idle ∧ middle.inputs = []) ∧
      Inv (refusing middle) ∧ (refusing middle).phase ≠ .idle ∧ (refusing middle).inputs = [] ∧
        admitsWord .write (refusing middle) 0x1000 = false :=
  ⟨⟨middle_inv, by decide, rfl⟩, { middle_inv with
      status := { middle_status with }, phase := { middle_phase with }
      transfer := refusing_transfer, drives := { middle_drives with } }, by decide, rfl, by decide⟩

end Sys2Proof.Tests
end

section
/-! SUPPORT. What `exec` does, by the phase it is run in, and what every step of a command leaves alone on the host's
side; then the statements about the machine's scope (00_scope.md). -/

namespace Sys2Proof.Safety

open Sys2Proof.Machine

/-! ### The host's side is kept along a chain of updates -/

theorem HostSideKept.refl (s : State) : HostSideKept s s := by constructor <;> rfl

theorem HostSideKept.trans {s t u : State} (h : HostSideKept s t) (g : HostSideKept t u) : HostSideKept s u where
  cfg := g.cfg.trans h.cfg
  drive := g.drive.trans h.drive
  lba := g.lba.trans h.lba
  count := g.count.trans h.count
  buf := g.buf.trans h.buf
  refused := g.refused.trans h.refused
  inputs := g.inputs.trans h.inputs
  hostReads := g.hostReads.trans h.hostReads

end Sys2Proof.Safety

namespace Sys2Proof.Machine

open Sys2Proof.Safety

/-! ### The step of a command, by the phase -/

/-- The step the running command takes at its position (00_scope.md R13); `exec_eq` ties it to `exec`. -/
def positionStep (s : State) : Host.Outcome State Fault Refusal :=
  match s.phase with
  | .idle => .next s
  | .select => goOn (.finishing .select .ok) (devWrite8 .devhead (devsel s.cfg s.v.d) s)
  | .waitnb p => (waitNotBusy p s).into .waitnb fun r => goto (.finishing .waitnb r)
  | .waitdrq p => (waitDataRequest p s).into .waitdrq fun r => goto (.finishing .waitdrq r)
  | .setaddr p => setaddrAt p s
  | .read p => transferAt reading p s
  | .write p => transferAt writing p s
  | .identify p => identifyAt p s
  | .parseid p => parseidAt p s
  | .probe p => (probeCtrl p s).into .probe fun r => goto (.finishing .probe r)
  | .discover p => discoverAt p s
  | .finishing _ r => .next (finish r s)

/-- A command is accepted in `IDLE` (10_state.md R24), takes its position's step while it runs (00_scope.md R13), and is
turned away while another runs (10_state.md R35). -/
theorem exec_eq (i : Instr) (s : State) :
    exec i s =
      if s.phase = .idle then .next (accept i (firstPosition i) s)
      else if s.phase.command = some i then positionStep s
      else .next (turnAway s) := by
  cases hp : s.phase with
  | finishing c r =>
    cases i <;> cases c <;>
      simp [exec, execSelect, execWaitnb, execWaitdrq, execSetaddr, execRead, execWrite, execIdentify, execParseid,
        execProbe, execDiscover, hp, Phase.command, positionStep]
  | _ =>
    cases i <;>
      simp [exec, execSelect, execWaitnb, execWaitdrq, execSetaddr, execRead, execWrite, execIdentify, execParseid,
        execProbe, execDiscover, hp, Phase.command, positionStep, firstPosition]

/-! ### The host's side under a command's step -/

/-- What keeps a subroutine's caller keeps the host's side. -/
theorem KeepsCommand.hostSide {s t : State} (h : KeepsCommand s t) : HostSideKept s t :=
  ⟨h.cfg, h.drive, h.lba, h.count, h.buf, h.refused, h.inputs, h.hostReads⟩

theorem goto_hostSide (ph : Phase) (s : State) : HostSideKept s (goto ph s) := by constructor <;> rfl

/-- A step that updates the state and goes on at a position keeps what the update keeps. -/
theorem goOn_hostSide {ph : Phase} {s u t : State} (hu : HostSideKept s u) (h : goOn ph u = .next t) :
    HostSideKept s t := by
  cases h
  exact hu.trans (goto_hostSide ph u)

/-- An inlined subroutine keeps the host's side where its own steps and its caller's continuation do. -/
theorem Sub.into_hostSide {π : Type} {x : Sub π} {emb : π → Phase} {k : Result → State → State} {s t : State}
    (hx : ∀ u, x.leaves u → KeepsCommand s u) (hk : ∀ r u, HostSideKept u (k r u)) (h : x.into emb k = .next t) :
    HostSideKept s t := by
  obtain ⟨p, u, rfl, rfl⟩ | ⟨r, u, rfl, rfl⟩ := Sub.into_next h
  · exact (hx u rfl).hostSide.trans (goto_hostSide _ _)
  · exact (hx u rfl).hostSide.trans (hk r u)

theorem parse_hostSide {d : BitVec 1} {p : Word} {s t : State} (h : parse d p s = some t) : HostSideKept s t := by
  obtain ⟨-, n, rfl⟩ := parse_some h
  constructor <;> simp

theorem orFinish_hostSide (c : Instr) (ph : Phase) (r : Result) (s : State) :
    HostSideKept s (orFinish c ph r s) := by
  unfold orFinish
  split <;> exact goto_hostSide _ _

theorem driveDone_hostSide (r : Result) (s : State) : HostSideKept s (driveDone r s) := by
  unfold driveDone
  by_cases hr : r = .ok <;> simp only [hr, if_true, if_false] <;> split <;> constructor <;> rfl

theorem setaddrAt_hostSide {pos : SetaddrPos} {s t : State} (h : setaddrAt pos s = .next t) : HostSideKept s t := by
  cases pos with
  | check =>
    simp only [setaddrAt] at h
    split at h <;> exact goOn_hostSide (.refl s) h
  | address p => exact Sub.into_hostSide (fun _ hu => (setAddress_keeps hu).1) (fun _ => goto_hostSide _) h

theorem advance_hostSide {μ : Type} {x : Direction μ} {s t : State} (h : advance x s = .next t) :
    HostSideKept s t := by
  simp only [advance] at h
  split at h
  · have : HostSideKept s (endChunk (nextBuffer s)) := by constructor <;> simp
    split at h <;> exact goOn_hostSide this h
  · exact goOn_hostSide (by constructor <;> simp) h

theorem transferAt_hostSide {μ : Type} {x : Direction μ} {pos : XferPos μ} {s t : State}
    (hmove : ∀ p q u, (x.move p q s).leaves u → KeepsCommand s u) (h : transferAt x pos s = .next t) :
    HostSideKept s t := by
  cases pos with
  | check =>
    simp only [transferAt] at h
    split at h
    · exact goOn_hostSide (.refl s) h
    · split at h <;> exact goOn_hostSide (.refl s) h
  | chunk =>
    simp only [transferAt] at h
    split at h <;> exact goOn_hostSide (by constructor <;> rfl) h
  | notBusy p => exact Sub.into_hostSide (fun _ hu => (waitNotBusy_keeps hu).1) (orFinish_hostSide _ _) h
  | afterChunk p => exact Sub.into_hostSide (fun _ hu => (waitNotBusy_keeps hu).1) (orFinish_hostSide _ _) h
  | address p => exact Sub.into_hostSide (fun _ hu => (setAddress_keeps hu).1) (orFinish_hostSide _ _) h
  | dataRequest p =>
    refine Sub.into_hostSide (fun _ hu => (waitDataRequest_keeps hu).1) (fun r u => ?_) h
    have : HostSideKept u (armMove u) := by constructor <;> rfl
    exact this.trans (orFinish_hostSide _ _ _ _)
  | move p => exact Sub.into_hostSide (hmove s.v.p p) (fun _ => goto_hostSide _) h
  | advance => exact advance_hostSide h
  | select | precomp | seccnt | command => exact goOn_hostSide (by constructor <;> rfl) h

theorem identifyOne_hostSide {place : IdentPos → Phase} {k : Result → State → State} {d : BitVec 1} {pos : IdentPos}
    {s t : State} (hk : ∀ r u, HostSideKept u (k r u)) (h : identifyOne place k d pos s = .next t) :
    HostSideKept s t := by
  cases pos with
  | notBusy p =>
    refine Sub.into_hostSide (fun _ hu => (waitNotBusy_keeps hu).1) (fun r u => ?_) h
    split
    · exact goto_hostSide _ _
    · exact hk _ _
  | dataRequest p =>
    refine Sub.into_hostSide (fun _ hu => (waitDataRequest_keeps hu).1) (fun r u => ?_) h
    split
    · constructor <;> rfl
    · exact hk _ _
  | move p => exact Sub.into_hostSide (fun _ hu => (moveIn_keeps hu).1) (fun _ => goto_hostSide _) h
  | parse =>
    simp only [identifyOne] at h
    split at h
    · cases h
    · rename_i u hu
      cases h
      exact (parse_hostSide hu).trans (hk _ _)
  | select | command => exact goOn_hostSide (by constructor <;> rfl) h

theorem identifyAt_hostSide {pos : IdentifyPos} {s t : State} (h : identifyAt pos s = .next t) :
    HostSideKept s t := by
  cases pos with
  | check =>
    simp only [identifyAt] at h
    split at h <;> exact goOn_hostSide (.refl s) h
  | clear => exact goOn_hostSide (by constructor <;> simp) h
  | drive p =>
    simp only [identifyAt] at h
    exact identifyOne_hostSide (fun _ => goto_hostSide _) h

theorem parseidAt_hostSide {pos : ParseidPos} {s t : State} (h : parseidAt pos s = .next t) : HostSideKept s t := by
  cases pos with
  | check =>
    simp only [parseidAt] at h
    split at h <;> exact goOn_hostSide (.refl s) h
  | parse =>
    simp only [parseidAt] at h
    split at h
    · cases h
    · rename_i u hu
      exact goOn_hostSide (parse_hostSide hu) h

theorem discoverAt_hostSide {pos : DiscoverPos} {s t : State} (h : discoverAt pos s = .next t) :
    HostSideKept s t := by
  cases pos with
  | check =>
    simp only [discoverAt] at h
    split at h <;> exact goOn_hostSide (.refl s) h
  | clear => exact goOn_hostSide (by constructor <;> simp) h
  | probe p =>
    refine Sub.into_hostSide (fun _ hu => (probeCtrl_keeps hu).1) (fun r u => ?_) h
    split <;> constructor <;> rfl
  | drive p =>
    simp only [discoverAt] at h
    exact identifyOne_hostSide driveDone_hostSide h
  | count => exact goOn_hostSide (by constructor <;> rfl) h

theorem positionStep_hostSide {s t : State} (h : positionStep s = .next t) : HostSideKept s t := by
  cases hp : s.phase <;> simp only [positionStep, hp] at h
  case idle => cases h; exact .refl s
  case select => exact goOn_hostSide (by constructor <;> simp) h
  case waitnb p => exact Sub.into_hostSide (fun _ hu => (waitNotBusy_keeps hu).1) (fun _ => goto_hostSide _) h
  case waitdrq p => exact Sub.into_hostSide (fun _ hu => (waitDataRequest_keeps hu).1) (fun _ => goto_hostSide _) h
  case setaddr p => exact setaddrAt_hostSide h
  case read p => exact transferAt_hostSide (fun _ _ _ hu => (moveIn_keeps hu).1) h
  case write p => exact transferAt_hostSide (fun _ _ _ hu => (moveOut_keeps hu).1) h
  case identify p => exact identifyAt_hostSide h
  case parseid p => exact parseidAt_hostSide h
  case probe p => exact Sub.into_hostSide (fun _ hu => (probeCtrl_keeps hu).1) (fun _ => goto_hostSide _) h
  case discover p => exact discoverAt_hostSide h
  case finishing c r => cases h; constructor <;> simp

/-- No step of a command writes the configuration, an argument register, or what belongs to the host. -/
theorem exec_hostSide {i : Instr} {s t : State} (h : exec i s = .next t) : HostSideKept s t := by
  rw [exec_eq] at h
  split at h
  · cases h; constructor <;> simp
  · split at h
    · exact positionStep_hostSide h
    · cases h; constructor <;> simp

/-! ### The configuration -/

/-- A host operation that starts no command writes neither the configuration nor what memory refuses. -/
theorem hostMove_cfg_refused {op : HostOp} {s t : State} (h : hostMove op s = .settled t) :
    t.cfg = s.cfg ∧ t.refused = s.refused := by
  obtain ⟨-, rfl⟩ | hm := hostMove_settled h
  · exact ⟨rfl, rfl⟩
  · exact ⟨hm.cfg, hm.refused⟩

/-- Settles O16: a step is a step of a command, a host operation that starts none, or a turn in which nothing
happens, and none of these writes either field. -/
theorem configurationIsFixed : Obligations.ConfigurationIsFixed := by
  intro s t h
  obtain ⟨l, ⟨i, -, he⟩ | ⟨v, i, -, -, -, he⟩ | ⟨op, -, hm⟩ | rfl⟩ := step_cases h
  · exact ⟨(exec_hostSide he).cfg, (exec_hostSide he).refused⟩
  · exact ⟨(exec_hostSide he).cfg, (exec_hostSide he).refused⟩
  · exact (hostMove_cfg_refused hm :)
  · exact ⟨rfl, rfl⟩

/-! ### The turn of a running command -/

/-- With no host operation to come, the engine's turn ends as its step does, stuck or not (20_memory.md R65). -/
theorem settleTurn_quiet {s : State} (h : s.inputs = []) (x : Host.Outcome State Fault Refusal) :
    settleTurn s x = x := by
  unfold settleTurn
  split
  · exact if_pos h
  · rfl

/-- While a host operation is still to come, a stuck engine only lets the turn pass (20_memory.md R65). -/
theorem settleTurn_stuck {s : State} (h : s.inputs ≠ []) (a : Word) :
    settleTurn s (.fault (.memoryRefused a)) = .next s := if_neg h

theorem step_quiet {s : State} {i : Instr} (hc : s.phase.command = some i) (hi : s.inputs = []) :
    step s = exec i s := by
  simp only [step, nextMove, engineMove, hi, hc, settleTurn_quiet hi]

theorem step_delayed {s : State} {i : Instr} {m : Nat} {op : HostOp} {rest : List Input}
    (hc : s.phase.command = some i) (hi : s.inputs = { delay := m + 1, op := op } :: rest) :
    step s = settleTurn { s with inputs := { delay := m, op := op } :: rest }
      (exec i { s with inputs := { delay := m, op := op } :: rest }) := by
  simp only [step, nextMove, engineMove, hi, hc]

/-- Settles O5: the next move is the engine's, with the first pending operation a turn nearer, and the turn ends as
the command's step does, or, where memory refuses it while that operation is to come, with nothing done. -/
theorem stepRunsRunningCommand : Obligations.StepRunsRunningCommand := by
  intro s i hc
  refine ⟨step_quiet hc, fun m op rest hi => ?_⟩
  constructor
  · intro t ht
    rw [step_delayed hc hi, ht]
    rfl
  · intro a ha
    rw [step_delayed hc hi, ha]
    exact settleTurn_stuck (List.cons_ne_nil _ _) a

end Sys2Proof.Machine
end

section
/-! SUPPORT. What a step inside a command does to the status register, `ERRINFO` and `PROGRESS` (10_state.md R23 to
R34), which positions it can reach, and that every step keeps the status fields and the phase in agreement. -/

namespace Sys2Proof.Machine

open Sys2Proof.Safety

/-! ### The positions of a command -/

/-- A position of command `c`: one of its own pseudocode, or its finish with a result of its row of
60_exceptions.md R241. -/
structure RunsIn (c : Instr) (ph : Phase) : Prop where
  command : ph.command = some c
  finishes : FinishOk ph

theorem RunsIn.finishing {c : Instr} {r : Result} (h : canFinish c r = true) : RunsIn c (.finishing c r) :=
  ⟨rfl, fun _ _ e => by cases e; exact h⟩

/-- A position of a command's own pseudocode. -/
theorem RunsIn.position {c : Instr} {ph : Phase} (hc : ph.command = some c) (hf : ∀ c' r, ph ≠ .finishing c' r) :
    RunsIn c ph := ⟨hc, fun c' r e => (hf c' r e).elim⟩

theorem RunsIn.ne_idle {c : Instr} {ph : Phase} (h : RunsIn c ph) : ph ≠ .idle := by
  rintro rfl
  cases h.command

theorem firstPosition_runsIn (c : Instr) : RunsIn c (firstPosition c) := by
  cases c <;> exact .position rfl (fun _ _ => nofun)

/-! ### What a step inside a command does to the registers -/

/-- The commands that read the error register: those that wait for data request (40_port_handshake.md R138, R139). -/
def capturesError (c : Instr) : Bool := c ∈ [.waitdrq, .read, .write, .identify, .discover]

/-- The commands that count sectors: those that move them (10_state.md R34). -/
def countsSectors (c : Instr) : Bool := c ∈ [.read, .write, .identify, .discover]

/-- What a step inside command `c` does to the status register, `ERRINFO` and `PROGRESS`: the last case of
`StatusFrame`. -/
structure KeepsStatus (c : Instr) (s t : State) : Prop where
  estat : t.estat = s.estat
  errinfo : t.errinfo = s.errinfo ∨
    capturesError c = true ∧ ∃ e, t.errinfo = s.v.status ++ e ∧ t.trace = .r .error e :: s.trace
  progress : t.progress = s.progress ∨ countsSectors c = true ∧ t.progress = s.progress + 1

/-- Nothing but the sequencer's phase and variables changes. -/
def MovesSequencer (s t : State) : Prop := t = { s with phase := t.phase, v := t.v }

theorem goto_movesSequencer (ph : Phase) (s : State) : MovesSequencer s (goto ph s) := rfl

theorem orFinish_movesSequencer (c : Instr) (ph : Phase) (r : Result) (s : State) :
    MovesSequencer s (orFinish c ph r s) := by
  unfold orFinish; split <;> rfl

theorem driveDone_movesSequencer (r : Result) (s : State) : MovesSequencer s (driveDone r s) := by
  unfold driveDone
  by_cases hr : r = .ok <;> simp only [hr, if_true, if_false] <;> split <;> rfl

theorem KeepsStatus.of_eq {c : Instr} {s t : State} (he : t.estat = s.estat) (hi : t.errinfo = s.errinfo)
    (hp : t.progress = s.progress) : KeepsStatus c s t := ⟨he, .inl hi, .inl hp⟩

theorem KeepsStatus.sequencer {c : Instr} {s u t : State} (h : KeepsStatus c s u) (ht : MovesSequencer u t) :
    KeepsStatus c s t := by
  rw [ht]
  exact ⟨h.estat, h.errinfo, h.progress⟩

/-- A step inside command `c` that goes on in it. -/
structure StaysIn (c : Instr) (s t : State) : Prop where
  status : KeepsStatus c s t
  runs : RunsIn c t.phase

/-! ### The subroutines -/

theorem waitNotBusy_status {c : Instr} {p : NbPos} {s t : State} (h : (waitNotBusy p s).leaves t) :
    KeepsStatus c s t := by
  obtain ⟨hk, hm, he⟩ := waitNotBusy_keeps h
  exact .of_eq hk.estat he hm.progress

/-- `wait(DRQ)` writes `ERRINFO` only at its read of the error register, the captured status byte above the byte read
(40_port_handshake.md R139). -/
theorem waitDataRequest_errinfo {p : DrqPos} {s t : State} (h : (waitDataRequest p s).leaves t) :
    t.errinfo = s.errinfo ∨ ∃ e, t.errinfo = s.v.status ++ e ∧ t.trace = .r .error e :: s.trace := by
  cases p with
  | settle =>
    simp only [waitDataRequest] at h
    split at h <;> cases h <;> exact .inl (by simp)
  | poll =>
    simp only [waitDataRequest] at h
    split at h
    · cases h; exact .inl (by simp)
    · cases h; exact .inl (by simp)
    · cases pollAgain_leaves h; exact .inl (by simp)
  | readError => cases h; exact .inr ⟨_, captureError_errinfo s, captureError_trace s⟩

theorem waitDataRequest_status {c : Instr} {p : DrqPos} {s t : State} (hc : capturesError c = true)
    (h : (waitDataRequest p s).leaves t) : KeepsStatus c s t := by
  obtain ⟨hk, hm⟩ := waitDataRequest_keeps h
  exact ⟨hk.estat, (waitDataRequest_errinfo h).imp_right fun he => ⟨hc, he⟩, .inl hm.progress⟩

theorem setAddress_status {c : Instr} {p : AddrPos} {s t : State} (h : (setAddress p s).leaves t) :
    KeepsStatus c s t := by
  obtain ⟨hk, hm, he⟩ := setAddress_keeps h
  exact .of_eq hk.estat he hm.progress

theorem probeCtrl_status {c : Instr} {p : ProbePos} {s t : State} (h : (probeCtrl p s).leaves t) :
    KeepsStatus c s t := by
  obtain ⟨hk, hm, he⟩ := probeCtrl_keeps h
  exact .of_eq hk.estat he hm.progress

theorem moveIn_status {c : Instr} {p : Word} {q : InPos} {s t : State} (hc : countsSectors c = true)
    (h : (moveIn p q s).leaves t) : KeepsStatus c s t := by
  obtain ⟨hk, he, -, hp⟩ := moveIn_keeps h
  exact ⟨hk.estat, .inl he, hp.imp_right fun hp => ⟨hc, hp.2⟩⟩

theorem moveOut_status {c : Instr} {p : Word} {q : OutPos} {s t : State} (hc : countsSectors c = true)
    (h : (moveOut p q s).leaves t) : KeepsStatus c s t := by
  obtain ⟨hk, he, -, hp⟩ := moveOut_keeps h
  exact ⟨hk.estat, .inl he, hp.imp_right fun hp => ⟨hc, hp.2⟩⟩

theorem parse_status {c : Instr} {d : BitVec 1} {p : Word} {s t : State} (h : parse d p s = some t) :
    KeepsStatus c s t := by
  obtain ⟨-, n, rfl⟩ := parse_some h
  exact .of_eq (by simp) (by simp) (by simp)

/-! ### The positions of each command -/

/-- A step that updates the state and goes on at a position of the command stays in it. -/
theorem goOn_staysIn {c : Instr} {ph : Phase} {s u t : State} (h : goOn ph u = .next t) (hu : KeepsStatus c s u)
    (hp : RunsIn c ph) : StaysIn c s t := by
  cases h
  exact ⟨hu.sequencer (goto_movesSequencer ph u), hp⟩

/-- An inlined subroutine stays in the command where it is placed there and its caller goes on there with every outcome
it returns. -/
theorem Sub.into_staysIn {π : Type} {c : Instr} {x : Sub π} {emb : π → Phase} {k : Result → State → State}
    {s t : State} (h : x.into emb k = .next t) (hx : ∀ u, x.leaves u → KeepsStatus c s u)
    (hemb : ∀ p, RunsIn c (emb p))
    (hk : ∀ r u, x.returns r → MovesSequencer u (k r u) ∧ RunsIn c (k r u).phase) : StaysIn c s t := by
  obtain ⟨p, u, rfl, rfl⟩ | ⟨r, u, rfl, rfl⟩ := Sub.into_next h
  · exact ⟨(hx u rfl).sequencer (goto_movesSequencer _ u), hemb p⟩
  · obtain ⟨hm, hr⟩ := hk r u rfl
    exact ⟨(hx u rfl).sequencer hm, hr⟩

theorem orFinish_runsIn {c : Instr} {ph : Phase} {r : Result} (s : State) (hp : RunsIn c ph)
    (hr : canFinish c r = true) : RunsIn c (orFinish c ph r s).phase := by
  unfold orFinish
  split
  · exact hp
  · exact .finishing hr

theorem setaddrAt_staysIn {pos : SetaddrPos} {s t : State} (h : setaddrAt pos s = .next t) :
    StaysIn .setaddr s t := by
  have place : ∀ p, RunsIn .setaddr (.setaddr p) := fun p => .position rfl (fun _ _ => nofun)
  cases pos with
  | check =>
    simp only [setaddrAt] at h
    split at h
    · exact goOn_staysIn h (.of_eq rfl rfl rfl) (place _)
    · exact goOn_staysIn h (.of_eq rfl rfl rfl) (.finishing rfl)
  | address p =>
    refine Sub.into_staysIn h (fun _ => setAddress_status) (fun _ => place _) (fun r u hr => ⟨rfl, ?_⟩)
    rw [setAddress_returns hr]
    exact .finishing rfl

/-- The two directions of a transfer run in their own command, which reports each outcome of a transfer
(41_transfer.md R167), captures errors and counts the sectors its mover moves. -/
structure Direction.Fits {μ : Type} (x : Direction μ) : Prop where
  place : ∀ p, RunsIn x.cmd (x.place p)
  reports : ∀ r ∈ [Result.ok, .timeout, .deverr, .faultGeom, .faultAlign], canFinish x.cmd r = true
  captures : capturesError x.cmd = true
  moves : ∀ p q s t, (x.move p q s).leaves t → KeepsStatus x.cmd s t

theorem reading_fits : reading.Fits where
  place _ := .position rfl (fun _ _ => nofun)
  reports := by decide
  captures := rfl
  moves _ _ _ _ := moveIn_status rfl

theorem writing_fits : writing.Fits where
  place _ := .position rfl (fun _ _ => nofun)
  reports := by decide
  captures := rfl
  moves _ _ _ _ := moveOut_status rfl

theorem advance_staysIn {μ : Type} {x : Direction μ} {s t : State} (hx : x.Fits) (h : advance x s = .next t) :
    StaysIn x.cmd s t := by
  simp only [advance] at h
  split at h
  · have hu : KeepsStatus x.cmd s (endChunk (nextBuffer s)) := .of_eq (by simp) (by simp) (by simp)
    split at h <;> exact goOn_staysIn h hu (hx.place _)
  · exact goOn_staysIn h (.of_eq (by simp) (by simp) (by simp)) (hx.place _)

theorem transferAt_staysIn {μ : Type} {x : Direction μ} {pos : XferPos μ} {s t : State} (hx : x.Fits)
    (h : transferAt x pos s = .next t) : StaysIn x.cmd s t := by
  have same : KeepsStatus x.cmd s s := .of_eq rfl rfl rfl
  have waited : ∀ ph r (u : State), RunsIn x.cmd ph → r = .ok ∨ r = .timeout →
      MovesSequencer u (orFinish x.cmd ph r u) ∧ RunsIn x.cmd (orFinish x.cmd ph r u).phase := by
    intro ph r u hp hr
    refine ⟨orFinish_movesSequencer _ _ _ _, orFinish_runsIn u hp (hx.reports r ?_)⟩
    obtain rfl | rfl := hr <;> simp
  cases pos with
  | check =>
    simp only [transferAt] at h
    split at h
    · exact goOn_staysIn h same (.finishing (hx.reports _ (by simp)))
    · split at h
      · exact goOn_staysIn h same (hx.place _)
      · exact goOn_staysIn h same (.finishing (hx.reports _ (by simp)))
  | chunk =>
    simp only [transferAt] at h
    split at h
    · exact goOn_staysIn h same (.finishing (hx.reports _ (by simp)))
    · exact goOn_staysIn h (.of_eq rfl rfl rfl) (hx.place _)
  | notBusy p =>
    exact Sub.into_staysIn h (fun _ => waitNotBusy_status) (fun _ => hx.place _)
      (fun r u hr => waited _ r u (hx.place _) (waitNotBusy_returns hr))
  | afterChunk p =>
    exact Sub.into_staysIn h (fun _ => waitNotBusy_status) (fun _ => hx.place _)
      (fun r u hr => waited _ r u (hx.place _) (waitNotBusy_returns hr))
  | address p =>
    exact Sub.into_staysIn h (fun _ => setAddress_status) (fun _ => hx.place _)
      (fun r u hr => waited _ r u (hx.place _) (.inl (setAddress_returns hr)))
  | dataRequest p =>
    refine Sub.into_staysIn h (fun _ => waitDataRequest_status hx.captures) (fun _ => hx.place _) (fun r u hr => ?_)
    refine ⟨?_, orFinish_runsIn _ (hx.place _) (hx.reports r ?_)⟩
    · unfold orFinish; split <;> rfl
    · obtain rfl | rfl | rfl := waitDataRequest_returns hr <;> simp
  | move p =>
    exact Sub.into_staysIn h (hx.moves s.v.p p s) (fun _ => hx.place _) (fun _ _ _ => ⟨rfl, hx.place _⟩)
  | advance => exact advance_staysIn hx h
  | select | precomp | seccnt | command => exact goOn_staysIn h (.of_eq rfl rfl rfl) (hx.place _)

/-- `identify_one` stays in a caller that places it there, and goes on there after each of its outcomes
(42_identify.md R200). -/
theorem identifyOne_staysIn {c : Instr} {place : IdentPos → Phase} {k : Result → State → State} {d : BitVec 1}
    {pos : IdentPos} {s t : State} (h : identifyOne place k d pos s = .next t) (hplace : ∀ p, RunsIn c (place p))
    (hcap : capturesError c = true) (hcount : countsSectors c = true)
    (hk : ∀ r u, r = .ok ∨ r = .timeout ∨ r = .deverr → MovesSequencer u (k r u) ∧ RunsIn c (k r u).phase) :
    StaysIn c s t := by
  cases pos with
  | notBusy p =>
    refine Sub.into_staysIn h (fun _ => waitNotBusy_status) (fun _ => hplace _) (fun r u hr => ?_)
    split
    · exact ⟨rfl, hplace _⟩
    · exact hk r u ((waitNotBusy_returns hr).imp_right .inl)
  | dataRequest p =>
    refine Sub.into_staysIn h (fun _ => waitDataRequest_status hcap) (fun _ => hplace _) (fun r u hr => ?_)
    split
    · exact ⟨rfl, hplace _⟩
    · exact hk r u (waitDataRequest_returns hr)
  | move p =>
    exact Sub.into_staysIn h (fun _ => moveIn_status hcount) (fun _ => hplace _) (fun _ _ _ => ⟨rfl, hplace _⟩)
  | parse =>
    simp only [identifyOne] at h
    split at h
    · cases h
    · rename_i u hu
      cases h
      obtain ⟨hm, hr⟩ := hk .ok u (.inl rfl)
      exact ⟨(parse_status hu).sequencer hm, hr⟩
  | select | command => exact goOn_staysIn h (.of_eq rfl rfl rfl) (hplace _)

theorem identifyAt_staysIn {pos : IdentifyPos} {s t : State} (h : identifyAt pos s = .next t) :
    StaysIn .identify s t := by
  have place : ∀ p, RunsIn .identify (.identify p) := fun p => .position rfl (fun _ _ => nofun)
  cases pos with
  | check =>
    simp only [identifyAt] at h
    split at h
    · exact goOn_staysIn h (.of_eq rfl rfl rfl) (.finishing rfl)
    · exact goOn_staysIn h (.of_eq rfl rfl rfl) (place _)
  | clear => exact goOn_staysIn h (.of_eq (by simp) (by simp) (by simp)) (place _)
  | drive p =>
    simp only [identifyAt] at h
    refine identifyOne_staysIn h (fun _ => place _) rfl rfl (fun r u hr => ⟨rfl, .finishing ?_⟩)
    obtain rfl | rfl | rfl := hr <;> rfl

theorem parseidAt_staysIn {pos : ParseidPos} {s t : State} (h : parseidAt pos s = .next t) :
    StaysIn .parseid s t := by
  cases pos with
  | check =>
    simp only [parseidAt] at h
    split at h
    · exact goOn_staysIn h (.of_eq rfl rfl rfl) (.finishing rfl)
    · exact goOn_staysIn h (.of_eq rfl rfl rfl) (.position rfl (fun _ _ => nofun))
  | parse =>
    simp only [parseidAt] at h
    split at h
    · cases h
    · rename_i u hu
      exact goOn_staysIn h (parse_status hu) (.finishing rfl)

theorem driveDone_runsIn (r : Result) (s : State) : RunsIn .discover (driveDone r s).phase := by
  unfold driveDone
  by_cases hr : r = .ok <;> simp only [hr, if_true, if_false] <;> split <;>
    exact .position rfl (fun _ _ => nofun)

theorem discoverAt_staysIn {pos : DiscoverPos} {s t : State} (h : discoverAt pos s = .next t) :
    StaysIn .discover s t := by
  have place : ∀ p, RunsIn .discover (.discover p) := fun p => .position rfl (fun _ _ => nofun)
  cases pos with
  | check =>
    simp only [discoverAt] at h
    split at h
    · exact goOn_staysIn h (.of_eq rfl rfl rfl) (.finishing rfl)
    · exact goOn_staysIn h (.of_eq rfl rfl rfl) (place _)
  | clear => exact goOn_staysIn h (.of_eq (by simp) (by simp) (by simp)) (place _)
  | probe p =>
    refine Sub.into_staysIn h (fun _ => probeCtrl_status) (fun _ => place _) (fun r u _ => ?_)
    split
    · exact ⟨rfl, place _⟩
    · exact ⟨rfl, .finishing rfl⟩
  | drive p =>
    simp only [discoverAt] at h
    exact identifyOne_staysIn h (fun _ => place _) rfl rfl
      (fun r u _ => ⟨driveDone_movesSequencer r u, driveDone_runsIn r u⟩)
  | count => exact goOn_staysIn h (.of_eq rfl rfl rfl) (.finishing rfl)

/-- The step of a running command that is not at its finish stays in it. -/
theorem positionStep_staysIn {c : Instr} {s t : State} (hc : s.phase.command = some c)
    (hf : ∀ r, s.phase ≠ .finishing c r) (h : positionStep s = .next t) : StaysIn c s t := by
  cases hp : s.phase <;> rw [hp] at hc <;> cases hc <;> simp only [positionStep, hp] at h
  case select => exact goOn_staysIn h (.of_eq rfl rfl rfl) (.finishing rfl)
  case waitnb p =>
    refine Sub.into_staysIn h (fun _ => waitNotBusy_status) (fun _ => .position rfl (fun _ _ => nofun))
      (fun r u hr => ⟨rfl, .finishing ?_⟩)
    obtain rfl | rfl := waitNotBusy_returns hr <;> rfl
  case waitdrq p =>
    refine Sub.into_staysIn h (fun _ => waitDataRequest_status rfl) (fun _ => .position rfl (fun _ _ => nofun))
      (fun r u hr => ⟨rfl, .finishing ?_⟩)
    obtain rfl | rfl | rfl := waitDataRequest_returns hr <;> rfl
  case setaddr p => exact setaddrAt_staysIn h
  case read p => exact transferAt_staysIn reading_fits h
  case write p => exact transferAt_staysIn writing_fits h
  case identify p => exact identifyAt_staysIn h
  case parseid p => exact parseidAt_staysIn h
  case probe p =>
    refine Sub.into_staysIn h (fun _ => probeCtrl_status) (fun _ => .position rfl (fun _ _ => nofun))
      (fun r u hr => ⟨rfl, .finishing ?_⟩)
    obtain rfl | rfl := probeCtrl_returns hr <;> rfl
  case discover p => exact discoverAt_staysIn h
  case finishing r => exact (hf r hp).elim

/-! ### What `exec` does, in four cases -/

/-- The step of a command is its acceptance, its finish, its being turned away, or a step at one of its positions
(10_state.md R24, R25, R35). -/
theorem exec_cases {c : Instr} {s t : State} (h : exec c s = .next t) :
    (s.phase = .idle ∧ t = accept c (firstPosition c) s) ∨
      (∃ r, s.phase = .finishing c r ∧ t = finish r s) ∨
      (s.phase.command ≠ none ∧ s.phase.command ≠ some c ∧ t = turnAway s) ∨
      (s.phase.command = some c ∧ (∀ r, s.phase ≠ .finishing c r) ∧ positionStep s = .next t) := by
  rw [exec_eq] at h
  split at h
  · rename_i hp
    cases h
    exact .inl ⟨hp, rfl⟩
  · rename_i hi
    split at h
    · rename_i hc
      by_cases hf : ∃ r, s.phase = .finishing c r
      · obtain ⟨r, hr⟩ := hf
        simp only [positionStep, hr] at h
        cases h
        exact .inr (.inl ⟨r, hr, rfl⟩)
      · exact .inr (.inr (.inr ⟨hc, fun r hr => hf ⟨r, hr⟩, h⟩))
    · rename_i hc
      cases h
      refine .inr (.inr (.inl ⟨fun hn => hi ?_, hc, rfl⟩))
      cases hp : s.phase <;> rw [hp] at hn <;> first | rfl | cases hn

theorem exec_statusFrame {c : Instr} {s t : State} (h : exec c s = .next t) :
    StatusFrame c (capturesError c) (countsSectors c) s t := by
  obtain ⟨hp, rfl⟩ | ⟨r, hp, rfl⟩ | ⟨hn, hc, rfl⟩ | ⟨hc, hf, hs⟩ := exec_cases h
  · exact .inl ⟨hp, rfl, rfl, rfl⟩
  · exact .inr (.inl ⟨r, hp, rfl, rfl, rfl⟩)
  · exact .inr (.inr (.inl ⟨hn, hc, rfl⟩))
  · obtain ⟨he, hi, hg⟩ := (positionStep_staysIn hc hf hs).status
    exact .inr (.inr (.inr ⟨hc, he, hi, hg⟩))

end Sys2Proof.Machine

namespace Sys2Proof.Safety

open Sys2Proof.Machine

/-! ### The status fields and the phase agree -/

/-- Agreement speaks of the status fields and the phase alone. -/
theorem StatusOk.congr {s t : State} (h : StatusOk s) (he : t.estat = s.estat) (hp : t.phase = s.phase) :
    StatusOk t where
  busyIffRunning := by rw [he, hp]; exact h.busyIffRunning
  notBoth := by rw [he]; exact h.notBoth
  noResultWhileBusy := by rw [he]; exact h.noResultWhileBusy
  lastcmdRuns := by rw [he, hp]; exact h.lastcmdRuns
  finishes := by rw [hp]; exact h.finishes
  reports := by rw [he]; exact h.reports

theorem StatusOk.idle {s : State} (h : StatusOk s) (hb : s.estat.busy = false) : s.phase = .idle := by
  by_contra hp
  rw [h.busyIffRunning.2 hp] at hb
  cases hb

/-- Agreement at a position of the running command. -/
theorem StatusOk.of_runsIn {c : Instr} {s : State} (hr : RunsIn c s.phase) (hb : s.estat.busy = true)
    (hd : s.estat.done = false) (hres : s.estat.result = 0) (hl : s.estat.lastcmd = c.code) : StatusOk s where
  busyIffRunning := ⟨fun _ => hr.ne_idle, fun _ => hb⟩
  notBoth := fun h => by rw [hd] at h; cases h.2
  noResultWhileBusy := fun _ => hres
  lastcmdRuns := fun c' h => by rw [hr.command] at h; cases h; exact hl
  finishes := hr.finishes
  reports := fun h => by rw [hd] at h; cases h

/-- Agreement in `IDLE` with `BUSY` 0, where a finished report is a legal one. -/
theorem StatusOk.of_idle {s : State} (hp : s.phase = .idle) (hb : s.estat.busy = false)
    (hr : s.estat.done = true → ReportOk s.estat) : StatusOk s where
  busyIffRunning := by simp [hp, hb]
  notBoth := fun h => by rw [hb] at h; cases h.1
  noResultWhileBusy := fun h => by rw [hb] at h; cases h
  lastcmdRuns := fun c h => by rw [hp] at h; cases h
  finishes := fun c r h => by rw [hp] at h; cases h
  reports := hr

theorem StatusOk.done_of_running {c : Instr} {s : State} (h : StatusOk s) (hc : s.phase.command = some c) :
    s.estat.busy = true ∧ s.estat.done = false := by
  have hb : s.estat.busy = true := h.busyIffRunning.2 fun hp => by rw [hp] at hc; cases hc
  exact ⟨hb, by simpa [hb] using h.notBoth⟩

end Sys2Proof.Safety

namespace Sys2Proof.Machine

open Sys2Proof.Safety

/-- Where the engine is idle or runs the command, the command is not turned away. -/
theorem not_turnedAway {c : Instr} {s : State} (hc : s.phase = .idle ∨ s.phase.command = some c)
    (hn : s.phase.command ≠ none) : s.phase.command = some c :=
  hc.resolve_left fun hi => hn (by rw [hi]; rfl)

/-- The steps of a command that is not turned away keep the agreement: its acceptance, its finish with a result of its
row (60_exceptions.md R241), and every step in between. -/
theorem exec_statusOk {c : Instr} {s t : State} (hs : StatusOk s) (hc : s.phase = .idle ∨ s.phase.command = some c)
    (h : exec c s = .next t) : StatusOk t := by
  obtain ⟨-, rfl⟩ | ⟨r, hp, rfl⟩ | ⟨hn, ho, -⟩ | ⟨hrun, hf, hstep⟩ := exec_cases h
  · exact .of_runsIn (firstPosition_runsIn c) rfl rfl rfl rfl
  · refine .of_idle rfl rfl fun _ => .inr ⟨c, r, hs.finishes c r hp, ?_, rfl⟩
    exact hs.lastcmdRuns c (by rw [hp]; rfl)
  · exact (ho (not_turnedAway hc hn)).elim
  · obtain ⟨⟨he, -, -⟩, hr⟩ := positionStep_staysIn hrun hf hstep
    obtain ⟨hb, hd⟩ := hs.done_of_running hrun
    apply StatusOk.of_runsIn hr <;> rw [he]
    · exact hb
    · exact hd
    · exact hs.noResultWhileBusy hb
    · exact hs.lastcmdRuns c hrun

/-- A host operation that starts no command keeps the agreement: it leaves the fields but `REJ` alone, or reports
`ILLEGAL_CMD` (30_encoding.md R92), or resets the engine. -/
theorem hostMove_statusOk {op : HostOp} {s t : State} (hs : StatusOk s) (h : hostMove op s = .settled t) :
    StatusOk t := by
  obtain ⟨-, rfl⟩ | hm := hostMove_settled h
  · exact .of_idle rfl rfl nofun
  have rejOnly : t.estat = { s.estat with rej := t.estat.rej } → StatusOk t := by
    intro he
    have hr : StatusOk { s with estat := { s.estat with rej := t.estat.rej } } := { hs with }
    exact hr.congr he hm.phase
  by_cases hb : s.estat.busy = true
  · exact rejOnly (hm.busyEstat hb)
  · have hb : s.estat.busy = false := by simpa using hb
    obtain he | hi := hm.idleEstat hb
    · exact rejOnly he
    · exact .of_idle (hm.phase.trans (hs.idle hb)) (hm.busy.trans hb) fun _ => .inl hi

/-- Settles O54: a step is a step of the running command, a command the host issues to the idle engine, a host
operation that starts none, or a turn in which nothing happens. -/
theorem everyStepKeepsStatusAndResults : Obligations.EveryStepKeepsStatusAndResults := by
  intro s t hs h
  have hl : ∀ l, StatusOk { s with inputs := l } := fun l => hs.congr rfl rfl
  obtain ⟨l, ⟨i, hc, he⟩ | ⟨v, i, -, hb, -, he⟩ | ⟨op, -, hm⟩ | rfl⟩ := step_cases h
  · exact exec_statusOk (hl l) (.inr hc) he
  · exact exec_statusOk (hl l) (.inl (hs.idle hb)) he
  · exact hostMove_statusOk (hl l) hm
  · exact hl l

end Sys2Proof.Machine
end

section
/-! SUPPORT. What a host operation that is due does to the register window (10_state.md section 2): which register
stands at an offset, what a write and a read of it do, and what may change `REJ`. -/

namespace Sys2Proof.Machine

open Sys2Proof.Safety

/-! ### A due host operation -/

/-- A due host operation that starts no command is the whole step. -/
theorem step_due_settled {s t : State} {op : HostOp} {rest : List Input}
    (hi : s.inputs = { delay := 0, op := op } :: rest) (h : hostMove op { s with inputs := rest } = .settled t) :
    step s = .next t := by
  simp only [step, nextMove, hi, h]

theorem step_due_issue {s t : State} {op : HostOp} {rest : List Input} {i : Instr}
    (hi : s.inputs = { delay := 0, op := op } :: rest) (h : hostMove op { s with inputs := rest } = .issue i t) :
    step s = exec i t := by
  simp only [step, nextMove, hi, h]

theorem step_due_refuse {s : State} {op : HostOp} {rest : List Input} {r : Refusal}
    (hi : s.inputs = { delay := 0, op := op } :: rest) (h : hostMove op { s with inputs := rest } = .refuse r) :
    step s = .refused r := by
  simp only [step, nextMove, hi, h]

/-! ### The registers of the window by offset -/

theorem hostAccessOk_iff {off width : Nat} :
    hostAccessOk off width = true ↔ width = 4 ∧ off % 4 = 0 ∧ off < 0x180 := by
  simp only [hostAccessOk, Bool.and_eq_true, beq_iff_eq, decide_eq_true_eq, and_assoc]
  exact Iff.rfl

/-- The offset of a register outside the drive records (10_state.md R21); `regAt_offset` ties it to `regAt`. -/
def HostReg.offset : HostReg → Option Nat
  | .cmd => some 0x000
  | .estat => some 0x004
  | .drive => some 0x008
  | .lba => some 0x00C
  | .count => some 0x010
  | .buf => some 0x014
  | .errinfo => some 0x018
  | .drvcount => some 0x01C
  | .progress => some 0x020
  | .drv _ _ => none

/-- A register outside the drive records stands at its one offset. -/
theorem regAt_offset {off o : Nat} {r : HostReg} (h : regAt off = some r) (ho : r.offset = some o) : off = o := by
  have notDrv : ∀ d x, (fieldAt x).map (HostReg.drv d) ≠ some r := by
    intro d x hx
    obtain ⟨f, -, rfl⟩ := Option.map_eq_some_iff.1 hx
    cases ho
  unfold regAt at h
  iterate 9 (obtain ⟨hoff, hr⟩ | ⟨-, h⟩ := ite_eq_iff.1 h; · cases hr; cases ho; exact hoff)
  obtain ⟨-, h⟩ | ⟨-, h⟩ := ite_eq_iff.1 h
  · exact (notDrv _ _ h).elim
  · obtain ⟨-, h⟩ | ⟨-, h⟩ := ite_eq_iff.1 h
    · exact (notDrv _ _ h).elim
    · cases h

/-! ### Writes -/

/-- A 32-bit write at an aligned offset of the window that holds a register other than `CMD`. -/
theorem hostMove_write {off : Nat} {r : HostReg} (v : Word) (s : State) (ha : off % 4 = 0) (hlt : off < 0x180)
    (hr : regAt off = some r) (hne : r ≠ .cmd) : hostMove (.write off 4 v) s = .settled (regWrite r v s) := by
  simp only [hostMove, hostWrite, hostAccessOk_iff.2 ⟨rfl, ha, hlt⟩, if_true, hr]

/-- A 32-bit write at an aligned unassigned offset of the window has no effect (10_state.md R21). -/
theorem hostMove_write_unassigned {off : Nat} (v : Word) (s : State) (ha : off % 4 = 0) (hlt : off < 0x180)
    (hr : regAt off = none) : hostMove (.write off 4 v) s = .settled s := by
  simp only [hostMove, hostWrite, hostAccessOk_iff.2 ⟨rfl, ha, hlt⟩, if_true, hr]

theorem hostMove_write_cmd (v : Word) (s : State) : hostMove (.write 0x000 4 v) s = writeCmd v s := rfl

/-- The write of a word to `CMD` while idle issues the command it decodes to (10_state.md R22). -/
theorem writeCmd_idle {v : Word} {s : State} {i : Instr} (hb : s.estat.busy = false) (hd : decodeWord v = .ok i) :
    writeCmd v s = .issue i s := by
  simp only [writeCmd, hb, hd, Bool.false_eq_true, if_false]

theorem writeCmd_busy {s : State} (v : Word) (hb : s.estat.busy = true) : writeCmd v s = .settled (turnAway s) :=
  if_pos hb

theorem writeArgument_busy {s : State} (f : State → State) (hb : s.estat.busy = true) :
    writeArgument f s = turnAway s := if_pos hb

theorem writeArgument_idle {s : State} (f : State → State) (hb : s.estat.busy = false) : writeArgument f s = f s :=
  if_neg (by simp [hb])

/-- A write to a register that is neither `ESTAT` nor an argument register has no effect (10_state.md R35). -/
theorem regWrite_readOnly {r : HostReg} (v : Word) (s : State)
    (h : ∀ o, r.offset = some o → o ∉ [0x000, 0x004, 0x008, 0x00C, 0x010, 0x014]) : regWrite r v s = s := by
  cases r with
  | estat | drive | lba | count | buf => exact (h _ rfl (by decide)).elim
  | cmd | errinfo | drvcount | progress | drv d f => rfl

/-- While busy a write to an argument register is turned away (10_state.md R35). -/
theorem regWrite_argument_busy {r : HostReg} {s : State} (v : Word) (hr : r ∈ [.drive, .lba, .count, .buf])
    (hb : s.estat.busy = true) : regWrite r v s = turnAway s := by
  simp only [List.mem_cons, List.not_mem_nil, or_false] at hr
  obtain rfl | rfl | rfl | rfl := hr <;> simp only [regWrite, writeArgument_busy _ hb]

/-- While idle it writes no status field. -/
theorem regWrite_argument_idle {r : HostReg} {s : State} (v : Word) (hr : r ∈ [.drive, .lba, .count, .buf])
    (hb : s.estat.busy = false) : (regWrite r v s).estat = s.estat := by
  simp only [List.mem_cons, List.not_mem_nil, or_false] at hr
  obtain rfl | rfl | rfl | rfl := hr <;> simp only [regWrite, writeArgument_idle _ hb]

/-- A write to `ESTAT` clears `REJ` iff its bit 2 is 1 (10_state.md R23). -/
theorem regWrite_estat (v : Word) (s : State) :
    regWrite .estat v s = { s with estat := { s.estat with rej := if v.getLsbD 2 then false else s.estat.rej } } := by
  by_cases hv : v.getLsbD 2 = true <;> simp only [regWrite, hv, if_true, Bool.false_eq_true, if_false]

/-- A due 32-bit write at an aligned offset that holds a register other than `CMD` is that register's write. -/
theorem step_due_write {off : Nat} {r : HostReg} {v : Word} {s : State} {rest : List Input}
    (hi : s.inputs = { delay := 0, op := .write off 4 v } :: rest) (ha : off % 4 = 0) (hlt : off < 0x180)
    (hr : regAt off = some r) (hne : r ≠ .cmd) : step s = .next (regWrite r v { s with inputs := rest }) :=
  step_due_settled hi (hostMove_write v _ ha hlt hr hne)

/-- Settles O4: the due write to `CMD` is the next move, and while idle it issues what its word decodes to. -/
theorem stepIssuesDecodedCommand : Obligations.StepIssuesDecodedCommand :=
  fun _ _ v _ hi hb hd => step_due_issue hi ((hostMove_write_cmd v _).trans (writeCmd_idle hb hd))

/-- Settles O8: the five turned-away offsets hold `CMD` and the argument registers, and every register elsewhere but
`ESTAT` is read-only. -/
theorem busyWritesTurnedAway : Obligations.BusyWritesTurnedAway := by
  intro s rest off v hi
  constructor
  · intro hb hoff
    have hb' : ({ s with inputs := rest } : State).estat.busy = true := hb
    have argument : ∀ r ∈ [HostReg.drive, .lba, .count, .buf], regAt off = some r → off % 4 = 0 → off < 0x180 →
        step s = .next (turnAway { s with inputs := rest }) := by
      intro r hr hoff ha hlt
      rw [step_due_write hi ha hlt hoff (by rintro rfl; simp at hr), regWrite_argument_busy v hr hb']
    simp only [List.mem_cons, List.not_mem_nil, or_false] at hoff
    obtain rfl | rfl | rfl | rfl | rfl := hoff
    · exact step_due_settled hi (writeCmd_busy v hb')
    · exact argument .drive (by decide) rfl rfl (by decide)
    · exact argument .lba (by decide) rfl rfl (by decide)
    · exact argument .count (by decide) rfl rfl (by decide)
    · exact argument .buf (by decide) rfl rfl (by decide)
  · intro ha hlt hoff
    cases hr : regAt off with
    | none => exact step_due_settled hi (hostMove_write_unassigned v _ ha hlt hr)
    | some r =>
      have hread : ∀ o, r.offset = some o → o ∉ [0x000, 0x004, 0x008, 0x00C, 0x010, 0x014] := by
        intro o ho
        rwa [← regAt_offset hr ho]
      have hne : r ≠ .cmd := by
        rintro rfl
        exact hread _ rfl (by decide)
      rw [step_due_write hi ha hlt hr hne, regWrite_readOnly v _ hread]

/-- `DRIVE` reads back bit 0 of what was written, bits 31:1 as 0 (10_state.md R28). -/
theorem setWidth_bit0 (v : Word) : ((v.extractLsb' 0 1).setWidth 32 : Word) = v &&& 1 := by
  ext i hi
  cases i <;> simp

/-- Settles O9: while idle an argument register's write is its update, and each reads back what it holds. -/
theorem argumentAndRejWrites : Obligations.ArgumentAndRejWrites := by
  intro s rest v
  refine ⟨fun hb => ?_, fun hi => ?_⟩
  · have hb' : ({ s with inputs := rest } : State).estat.busy = false := hb
    refine ⟨fun hi => ⟨?_, setWidth_bit0 v⟩, fun hi => ⟨?_, rfl⟩, fun hi => ⟨?_, rfl⟩, fun hi => ⟨?_, rfl⟩⟩
    · rw [step_due_write (r := .drive) hi rfl (by decide) rfl nofun, regWrite, writeArgument_idle _ hb',
        BitVec.setWidth_eq_extractLsb' (by decide)]
    · rw [step_due_write (r := .lba) hi rfl (by decide) rfl nofun, regWrite, writeArgument_idle _ hb']
    · rw [step_due_write (r := .count) hi rfl (by decide) rfl nofun, regWrite, writeArgument_idle _ hb']
    · rw [step_due_write (r := .buf) hi rfl (by decide) rfl nofun, regWrite, writeArgument_idle _ hb']
  · rw [step_due_write (r := .estat) hi rfl (by decide) rfl nofun, regWrite_estat]

/-! ### What may change `REJ` -/

/-- A write to a register that changes `REJ` is one of an argument register while busy, or a 1 written to bit 2 of
`ESTAT`. -/
theorem regWrite_rej {r : HostReg} {v : Word} {s : State} (h : (regWrite r v s).estat.rej ≠ s.estat.rej) :
    (r ∈ [.drive, .lba, .count, .buf] ∧ s.estat.busy = true) ∨ (r = .estat ∧ v.getLsbD 2 = true) := by
  cases r with
  | estat =>
    refine .inr ⟨rfl, by_contra fun hv => h ?_⟩
    rw [regWrite_estat]
    exact if_neg hv
  | drive | lba | count | buf =>
    refine .inl ⟨by decide, by_contra fun hb => h ?_⟩
    rw [regWrite_argument_idle v (by decide) (by simpa using hb)]
  | _ => exact (h rfl).elim

theorem hostStore_estat (wa : BitVec 30) (v : Word) (s : State) : (hostStore wa v s).estat = s.estat := by
  unfold hostStore
  split
  · by_cases hw : regionWritten s = true <;> simp [hw]
  · rfl

/-- A host operation that changes `REJ` is one that 10_state.md R26 names. -/
theorem hostMove_rej {op : HostOp} {s t : State} (h : hostMove op s = .settled t) (hrej : t.estat.rej ≠ s.estat.rej) :
    (t.estat.rej = true ∧ s.estat.busy = true ∧
        ∃ off v, op = .write off 4 v ∧ off ∈ [0x000, 0x008, 0x00C, 0x010, 0x014]) ∨
      (t.estat.rej = false ∧ ((∃ v, op = .write 0x004 4 v ∧ v.getLsbD 2 = true) ∨ op = .reset)) := by
  cases op with
  | reset => cases h; exact .inr ⟨rfl, .inr rfl⟩
  | write off width v =>
    simp only [hostMove, hostWrite] at h
    split at h
    case isFalse => cases h
    rename_i hok
    obtain ⟨rfl, -, -⟩ := hostAccessOk_iff.1 hok
    split at h
    · rename_i hr
      cases regAt_offset hr rfl
      by_cases hb : s.estat.busy = true
      · rw [writeCmd_busy v hb] at h
        cases h
        exact .inl ⟨rfl, hb, 0, v, rfl, by decide⟩
      · simp only [writeCmd, hb, Bool.false_eq_true, if_false] at h
        split at h <;> cases h
        exact (hrej rfl).elim
    · rename_i r _ hr
      cases h
      obtain ⟨ha, hb⟩ | ⟨rfl, hv⟩ := regWrite_rej hrej
      · rw [regWrite_argument_busy v ha hb]
        refine .inl ⟨rfl, hb, off, v, rfl, ?_⟩
        simp only [List.mem_cons, List.not_mem_nil, or_false] at ha
        obtain rfl | rfl | rfl | rfl := ha <;> cases regAt_offset hr rfl <;> decide
      · cases regAt_offset hr rfl
        exact .inr ⟨by simp [regWrite_estat, hv], .inl ⟨v, rfl, hv⟩⟩
    · cases h; exact (hrej rfl).elim
  | read off width =>
    simp only [hostMove] at h
    split at h <;> cases h
    exact (hrej rfl).elim
  | hpoll gap =>
    cases h
    unfold hostPoll at hrej
    split at hrej <;> exact (hrej rfl).elim
  | memWrite wa v =>
    cases h
    exact (hrej (by rw [hostStore_estat])).elim
  | memRead wa =>
    cases h
    unfold hostLoad at hrej
    split at hrej <;> exact (hrej rfl).elim

/-- A step of a command that is not turned away keeps `REJ`: neither its acceptance nor its finish writes it
(10_state.md R26). -/
theorem exec_rej {c : Instr} {s t : State} (hc : s.phase = .idle ∨ s.phase.command = some c)
    (h : exec c s = .next t) : t.estat.rej = s.estat.rej := by
  obtain ⟨-, he, -⟩ | ⟨r, -, he, -⟩ | ⟨hn, ho, -⟩ | ⟨-, he, -⟩ := exec_statusFrame h
  · rw [he]
  · rw [he]
  · exact (ho (not_turnedAway hc hn)).elim
  · rw [he]

/-- Settles O10: of a step's four forms only a host operation that starts no command changes `REJ`. -/
theorem rejChangesOnlyByHost : Obligations.RejChangesOnlyByHost := by
  intro s t hs h hrej
  obtain ⟨l, ⟨i, hc, he⟩ | ⟨v, i, -, hb, -, he⟩ | ⟨op, hi, hm⟩ | rfl⟩ := step_cases h
  · exact (hrej (exec_rej (s := { s with inputs := l }) (.inr hc) he)).elim
  · exact (hrej (exec_rej (s := { s with inputs := l }) (.inl (hs.idle hb)) he)).elim
  · obtain ⟨ht, hb, off, v, rfl, hoff⟩ | ⟨ht, ⟨v, rfl, hv⟩ | rfl⟩ := hostMove_rej hm hrej
    · exact .inl ⟨ht, hb, off, v, l, hi, hoff⟩
    · exact .inr ⟨ht, .inl ⟨v, l, hi, hv⟩⟩
    · exact .inr ⟨ht, .inr ⟨l, hi⟩⟩
  · exact (hrej rfl).elim

end Sys2Proof.Machine
end

section
/-! SUPPORT. What the host reads in the register window (10_state.md R21 to R43), the fields of `ESTAT`, and which host
accesses have a meaning (R36). -/

namespace Sys2Proof.Machine

open Sys2Proof.Safety

/-! ### The drive records in the window -/

/-- A record's registers stand at its base, 0x80 bytes apart (10_state.md R21, R37). -/
theorem regAt_record (d : BitVec 1) {o : Nat} (ho : o < 0x80) :
    regAt (0x080 + 0x80 * d.toNat + o) = (fieldAt o).map (.drv d) := by
  obtain rfl | rfl : d = 0 ∨ d = 1 := by decide +revert
  · rw [show 0x080 + 0x80 * (0 : BitVec 1).toNat + o = 0x080 + o by rfl]
    simp (disch := omega) only [regAt, if_neg, if_pos, Nat.add_sub_cancel_left]
  · rw [show 0x080 + 0x80 * (1 : BitVec 1).toNat + o = 0x100 + o by rfl]
    simp (disch := omega) only [regAt, if_neg, if_pos, Nat.add_sub_cancel_left]

/-- What a record's assigned offset reads as. -/
theorem windowRead_record (s : State) (d : BitVec 1) {o : Nat} {f : DriveField} (ho : o < 0x80)
    (hf : fieldAt o = some f) :
    windowRead s (0x080 + 0x80 * d.toNat + o) = fieldWord (driveRecord s d) f := by
  unfold windowRead
  rw [regAt_record d ho, hf]
  rfl

theorem fieldAt_model (i : Fin 11) : fieldAt (0x20 + 4 * i.val) = some (.model i.val) := by
  decide +revert

theorem fieldAt_fw (i : Fin 3) : fieldAt (0x50 + 4 * i.val) = some (.fw i.val) := by
  decide +revert

/-- The unassigned offsets of a record (10_state.md R37). -/
theorem fieldAt_unassigned {o : Nat} (h : 0x10 < o ∧ o < 0x20 ∨ 0x4C ≤ o ∧ o < 0x50 ∨ 0x5C ≤ o) :
    fieldAt o = none := by
  simp (disch := omega) only [fieldAt, if_neg]

/-- Word `i` of a string field is four of its bytes, the lowest offset least significant (10_state.md R42). -/
theorem stringWord_eq {n : Nat} (x : Vector Byte n) (i : Nat) (h : 4 * i + 3 < n) :
    stringWord x.toList i = x[4 * i + 3] ++ x[4 * i + 2] ++ x[4 * i + 1] ++ x[4 * i] := by
  have byte : ∀ k (hk : k < n), x.toList.getD k 0 = x[k] := by
    intro k hk
    simp [List.getD_eq_getElem?_getD, hk]
  simp only [stringWord, wordOfBytes, byte (4 * i + 3) h, byte (4 * i + 2) (by omega), byte (4 * i + 1) (by omega),
    byte (4 * i) (by omega)]

theorem dflagsWord_eq (r : DriveRecord) :
    dflagsWord r = (if r.lba then 2 else 0) + (if r.present then 1 else 0) := by
  unfold dflagsWord
  cases r.lba <;> cases r.present <;> decide

/-! ### Unassigned offsets -/

/-- An offset that holds no register reads 0 (10_state.md R21). -/
theorem windowRead_unassigned {s : State} {off : Nat} (h : regAt off = none) : windowRead s off = 0 := by
  unfold windowRead
  rw [h]

/-- An offset of the drive records lies in one of them. -/
theorem record_offset {off : Nat} (hlo : 0x080 ≤ off) (hhi : off < 0x180) :
    ∃ d : BitVec 1, off = 0x080 + 0x80 * d.toNat + off % 0x80 := by
  by_cases h : off < 0x100
  · exact ⟨0, by simp; omega⟩
  · exact ⟨1, by simp; omega⟩

/-- Settles O11: the registers one by one, each record's fields through its base, and the offsets between them. -/
theorem windowLayout : Obligations.WindowLayout := by
  intro s
  refine ⟨rfl, rfl, (BitVec.ofNat_toNat 32 s.drive).symm, rfl, rfl, rfl, (BitVec.ofNat_toNat 32 s.errinfo).symm,
    (BitVec.ofNat_toNat 32 s.drvcount).symm, rfl, fun d => ?_, fun off hlo hhi h => ?_⟩
  · have field : ∀ o f, o < 0x80 → fieldAt o = some f →
        windowRead s (0x080 + 0x80 * d.toNat + o) = fieldWord (driveRecord s d) f :=
      fun o f ho hf => windowRead_record s d ho hf
    refine ⟨(field 0x00 .dflags (by decide) rfl).trans (dflagsWord_eq _), field 0x04 .total (by decide) rfl,
      field 0x08 .cyl (by decide) rfl, ?_, ?_, fun i => ?_, fun i => ?_⟩
    · rw [field 0x0C .heads (by decide) rfl, BitVec.ofNat_toNat]
      rfl
    · rw [field 0x10 .spt (by decide) rfl, BitVec.ofNat_toNat]
      rfl
    · rw [Nat.add_assoc, field _ _ (by omega) (fieldAt_model i)]
      exact stringWord_eq _ _ _
    · rw [Nat.add_assoc, field _ _ (by omega) (fieldAt_fw i)]
      exact stringWord_eq _ _ _
  · apply windowRead_unassigned
    by_cases hrec : 0x080 ≤ off
    · obtain ⟨d, hd⟩ := record_offset hrec hhi
      rw [hd, regAt_record d (Nat.mod_lt _ (by decide)), fieldAt_unassigned (by omega), Option.map_none]
    · simp (disch := omega) only [regAt, if_neg]

/-! ### The accesses that have a meaning -/

theorem hostAccessOk_false {off width : Nat} (h : ¬(width = 4 ∧ off % 4 = 0 ∧ off < 0x180)) :
    hostAccessOk off width = false := by
  rw [← Bool.not_eq_true, hostAccessOk_iff]
  exact h

/-- Settles O12: both kinds of access ask `hostAccessOk` first. -/
theorem hostAccesses : Obligations.HostAccesses := by
  refine fun s rest off width v => ⟨fun hi => ⟨fun h => step_due_settled hi ?_, fun h => step_due_refuse hi ?_⟩,
    fun hi h => step_due_refuse hi ?_⟩
  · simp only [hostMove, hostAccessOk_iff.2 h, if_true]
    rfl
  · simp only [hostMove, hostAccessOk_false h, Bool.false_eq_true, if_false]
  · simp only [hostMove, hostWrite, hostAccessOk_false h, Bool.false_eq_true, if_false]

/-! ### The fields of `ESTAT` -/

/-- The bits of `ESTAT` by position (10_state.md R23): three flags, five reserved bits, then two bytes and the upper
reserved byte. -/
theorem estatWord_bit (e : Estat) (i : Nat) :
    (estatWord e).getLsbD i =
      if i = 0 then e.busy
      else if i = 1 then e.done
      else if i = 2 then e.rej
      else if i < 8 then false
      else if i < 16 then e.result.getLsbD (i - 8)
      else if i < 24 then e.lastcmd.getLsbD (i - 16)
      else false := by
  simp only [estatWord, BitVec.getLsbD_append, Nat.sub_sub]
  match i with
  | 0 | 1 | 2 => simp
  | i + 3 =>
    by_cases h8 : i + 3 < 8
    · simp (disch := omega) only [if_pos, if_neg, BitVec.ofNat_eq_ofNat, BitVec.getLsbD_zero]
    · by_cases h16 : i + 3 < 16
      · simp (disch := omega) only [if_pos, if_neg]
      · by_cases h24 : i + 3 < 24 <;>
          simp (disch := omega) only [if_pos, if_neg, BitVec.ofNat_eq_ofNat, BitVec.getLsbD_zero]

/-- A field of `ESTAT` is what its bits say. -/
theorem estatWord_field {e : Estat} {k n : Nat} {x : BitVec n}
    (h : ∀ i < n, (estatWord e).getLsbD (k + i) = x.getLsbD i) : (estatWord e).extractLsb' k n = x := by
  apply BitVec.eq_of_getLsbD_eq
  intro i hi
  rw [BitVec.getLsbD_extractLsb', h i hi, decide_eq_true hi, Bool.true_and]

/-- Settles O13: each field is read off the bits of the word. -/
theorem estatFieldsAndCodes : Obligations.EstatFieldsAndCodes := by
  refine ⟨fun e => ⟨estatWord_bit e 0, estatWord_bit e 1, estatWord_bit e 2, estatWord_field fun i hi => ?_,
    estatWord_field fun i hi => ?_, estatWord_field fun i hi => ?_, estatWord_field fun i hi => ?_⟩,
    rfl, rfl, rfl, rfl, rfl, rfl, rfl⟩
  all_goals rw [estatWord_bit]
  · simp (disch := omega) only [if_neg, if_pos]
    simp
  · simp (disch := omega) only [if_neg, if_pos, Nat.add_sub_cancel_left]
  · simp (disch := omega) only [if_neg, if_pos, Nat.add_sub_cancel_left]
  · simp (disch := omega) only [if_neg]
    simp

end Sys2Proof.Machine
end

section
/-! SUPPORT. The reset state (10_state.md R50), and the steps that start a command, finish it, and turn it away (R24,
R25, R35). -/

namespace Sys2Proof.Machine

open Sys2Proof.Safety

/-! ### Starting, finishing, being turned away -/

theorem exec_accepts {c : Instr} {s : State} (h : s.phase = .idle) :
    exec c s = .next (accept c (firstPosition c) s) := by
  rw [exec_eq, if_pos h]

theorem exec_finishes {c : Instr} {r : Result} {s : State} (h : s.phase = .finishing c r) :
    exec c s = .next (finish r s) := by
  rw [exec_eq, if_neg (by simp [h]), if_pos (by simp [h, Phase.command]), positionStep, h]

theorem exec_turnsAway {c i : Instr} {s : State} (h : s.phase.command = some c) (hne : c ≠ i) :
    exec i s = .next (turnAway s) := by
  rw [exec_eq, if_neg (fun hp => by simp [hp, Phase.command] at h), if_neg (by simpa [h] using hne)]

/-- Settles O18: the acceptance copies the arguments, clears the settle counter and drops the races. -/
theorem commandAccepted : Obligations.CommandAccepted := fun _ s hp =>
  ⟨{ s.v with d := s.drive, sec := s.lba, n := s.count, p := s.buf, t := 0 }, [], rfl, rfl, rfl, rfl, fun _ => rfl,
    exec_accepts hp⟩

/-- Settles O19: the finish leaves the internal variables as they are. -/
theorem commandFinishReports : Obligations.CommandFinishReports := fun _ _ s hp => ⟨s.v, exec_finishes hp⟩

/-- Settles O20: another command's step is `turnAway`. -/
theorem runningCommandTurnsOthersAway : Obligations.RunningCommandTurnsOthersAway := fun _ _ _ => exec_turnsAway

/-! ### The reset state -/

theorem driveRecord_reset (d : BitVec 1) : driveRecord State.reset d = DriveRecord.absent := by
  unfold driveRecord
  split <;> rfl

/-- Settles O14: both records are the cleared one, whose strings are 0 at every byte. -/
theorem resetStateIsAllZero : Obligations.ResetStateIsAllZero := by
  refine ⟨by decide, rfl, rfl, rfl, rfl, rfl, rfl, rfl, rfl, fun d => ?_⟩
  rw [driveRecord_reset]
  exact ⟨rfl, rfl, rfl, rfl, rfl, rfl, fun k => Vector.getElem_replicate _, fun k => Vector.getElem_replicate _⟩

/-- Settles O59: right after reset no command runs, nothing is reported, and no event was made. -/
theorem invariantsHoldAtReset : Obligations.InvariantsHoldAtReset where
  config := by decide
  memory := wf_reset
  status := .of_idle rfl rfl nofun
  phase := { latch := nofun, geometry := nofun }
  buffer := nofun
  transfer := { reads := nofun, writes := nofun, complete := nofun }
  drives := { probing := nofun, driving := nofun, counting := nofun, found := nofun, none := nofun }
  events := nofun

end Sys2Proof.Machine
end

section
/-! SUPPORT. What the steps of `IDENTIFY`, `PARSEID` and `DISCOVER` leave alone of the drive records, `DRVCOUNT` and
host memory (10_state.md R33, R44; 42_identify.md R200 to R203). -/

namespace Sys2Proof.Machine

open Sys2Proof.Safety

/-! ### Memory and records along a chain of updates -/

/-- No drive record and not `DRVCOUNT` is written. -/
structure KeepsRecords (s t : State) : Prop where
  drvcount : t.drvcount = s.drvcount
  drv0 : t.drv0 = s.drv0
  drv1 : t.drv1 = s.drv1

/-- Neither `DRVCOUNT` nor the record of the other drive than `d` is written (10_state.md R44). -/
structure KeepsOtherRecord (d : BitVec 1) (s t : State) : Prop where
  drvcount : t.drvcount = s.drvcount
  drv1 : d = 0 → t.drv1 = s.drv1
  drv0 : d = 1 → t.drv0 = s.drv0

theorem KeepsRecords.otherRecord {s t : State} (h : KeepsRecords s t) (d : BitVec 1) : KeepsOtherRecord d s t :=
  ⟨h.drvcount, fun _ => h.drv1, fun _ => h.drv0⟩

theorem KeepsCommand.records {s t : State} (h : KeepsCommand s t) : KeepsRecords s t := ⟨h.drvcount, h.drv0, h.drv1⟩

theorem KeepsRecords.sequencer {s u t : State} (h : KeepsRecords s u) (ht : MovesSequencer u t) : KeepsRecords s t := by
  rw [ht]
  exact ⟨h.drvcount, h.drv0, h.drv1⟩

theorem KeepsOtherRecord.sequencer {d : BitVec 1} {s u t : State} (h : KeepsOtherRecord d s u)
    (ht : MovesSequencer u t) : KeepsOtherRecord d s t := by
  rw [ht]
  exact ⟨h.drvcount, h.drv1, h.drv0⟩

theorem MovesSequencer.mem {s t : State} (h : MovesSequencer s t) : t.mem = s.mem := by rw [h]

theorem memoryFrame_of_eq {s t : State} (h : t.mem = s.mem) : MemoryFrame s t := by
  refine ⟨fun _ x => ?_, fun _ _ x _ _ _ _ => ?_⟩ <;> rw [h]

theorem memoryFrame_of_store {s t : State} {a x : Word} (ha : storeAddress s = some a)
    (h : t.mem = s.mem.putWord a x) : MemoryFrame s t := by
  refine ⟨fun hn => ?_, fun b hb y h0 h1 h2 h3 => ?_⟩
  · rw [ha] at hn
    cases hn
  · rw [ha] at hb
    cases hb
    rw [h, byte_putWord_other _ _ _ h0 h1 h2 h3]

theorem goOn_movesSequencer {ph : Phase} {s t : State} (h : goOn ph s = .next t) : MovesSequencer s t := by
  cases h
  rfl

/-- An inlined subroutine's step is the subroutine's own update and a move of the sequencer, where its caller only moves
the sequencer on an outcome. -/
theorem Sub.into_leaves {π : Type} {x : Sub π} {emb : π → Phase} {k : Result → State → State} {t : State}
    (h : x.into emb k = .next t) (hk : ∀ r u, MovesSequencer u (k r u)) :
    ∃ u, x.leaves u ∧ MovesSequencer u t := by
  obtain ⟨p, u, rfl, rfl⟩ | ⟨r, u, rfl, rfl⟩ := Sub.into_next h
  · exact ⟨u, rfl, rfl⟩
  · exact ⟨u, rfl, hk r u⟩

/-! ### The clear and the parse -/

theorem clearRecord_other (d : BitVec 1) (s : State) : KeepsOtherRecord d s (clearRecord d s) := by
  refine ⟨by simp, ?_, ?_⟩ <;> rintro rfl <;> simp

/-- A parse writes its own drive's record alone, and no memory (42_identify.md R212). -/
theorem parse_frame {d : BitVec 1} {p : Word} {s t : State} (h : parse d p s = some t) :
    KeepsOtherRecord d s t ∧ t.mem = s.mem := by
  obtain ⟨-, n, rfl⟩ := parse_some h
  refine ⟨⟨by simp, ?_, ?_⟩, by simp⟩ <;> rintro rfl <;> simp

/-! ### `identify_one` -/

/-- The two kinds of steps of `identify_one`: the parse, and a step that writes no record and no memory but the word at
the mover's store (42_identify.md R200). -/
theorem identifyOne_cases {place : IdentPos → Phase} {k : Result → State → State} {d : BitVec 1} {pos : IdentPos}
    {s t : State} (h : identifyOne place k d pos s = .next t) (hk : ∀ r u, MovesSequencer u (k r u)) :
    (pos = .parse ∧ KeepsOtherRecord d s t ∧ t.mem = s.mem) ∨
      (pos ≠ .parse ∧ KeepsRecords s t ∧
        (t.mem = s.mem ∨ pos = .move .store ∧ ∃ x, t.mem = s.mem.putWord (sectorWord s.v.p s.v.j) x)) := by
  cases pos with
  | parse =>
    simp only [identifyOne] at h
    split at h
    · cases h
    · rename_i u hu
      cases h
      obtain ⟨hr, hm⟩ := parse_frame hu
      exact .inl ⟨rfl, hr.sequencer (hk _ _), (hk _ _).mem.trans hm⟩
  | notBusy p =>
    obtain ⟨u, hu, hm⟩ := Sub.into_leaves h fun r u => by split <;> [rfl; exact hk r u]
    obtain ⟨hc, hkm, -⟩ := waitNotBusy_keeps hu
    exact .inr ⟨nofun, hc.records.sequencer hm, .inl (hm.mem.trans hkm.mem)⟩
  | dataRequest p =>
    obtain ⟨u, hu, hm⟩ := Sub.into_leaves h fun r u => by split <;> [rfl; exact hk r u]
    obtain ⟨hc, hkm⟩ := waitDataRequest_keeps hu
    exact .inr ⟨nofun, hc.records.sequencer hm, .inl (hm.mem.trans hkm.mem)⟩
  | move p =>
    obtain ⟨u, hu, hm⟩ := Sub.into_leaves h fun r u => goto_movesSequencer _ u
    obtain ⟨hc, -, hmem, -⟩ := moveIn_keeps hu
    refine .inr ⟨nofun, hc.records.sequencer hm, ?_⟩
    rw [hm.mem]
    exact hmem.imp_right fun hs => ⟨by rw [hs.1], hs.2⟩
  | select | command => cases h; exact .inr ⟨nofun, ⟨rfl, rfl, rfl⟩, .inl rfl⟩

/-- `identify_one` writes memory only in the word its caller's store position names. -/
theorem identifyOne_memory {place : IdentPos → Phase} {k : Result → State → State} {d : BitVec 1} {pos : IdentPos}
    {s t : State} (h : identifyOne place k d pos s = .next t) (hk : ∀ r u, MovesSequencer u (k r u))
    (hstore : pos = .move .store → storeAddress s = some (sectorWord s.v.p s.v.j)) : MemoryFrame s t := by
  obtain ⟨-, -, hm⟩ | ⟨-, -, hm | ⟨hp, x, hm⟩⟩ := identifyOne_cases h hk
  · exact memoryFrame_of_eq hm
  · exact memoryFrame_of_eq hm
  · exact memoryFrame_of_store (hstore hp) hm

/-- `identify_one` writes no record but its own drive's, and that only at the parse. -/
theorem identifyOne_records {place : IdentPos → Phase} {k : Result → State → State} {d : BitVec 1} {pos : IdentPos}
    {s t : State} (h : identifyOne place k d pos s = .next t) (hk : ∀ r u, MovesSequencer u (k r u)) :
    KeepsOtherRecord d s t ∧ (pos ≠ .parse → KeepsRecords s t) := by
  obtain ⟨hp, hr, -⟩ | ⟨-, hr, -⟩ := identifyOne_cases h hk
  · exact ⟨hr, fun hne => (hne hp).elim⟩
  · exact ⟨hr.otherRecord d, fun _ => hr⟩

/-! ### The positions of the three commands -/

theorem identifyAt_frame {pos : IdentifyPos} {s t : State} (hp : s.phase = .identify pos)
    (h : identifyAt pos s = .next t) :
    KeepsOtherRecord s.v.d s t ∧ (pos ≠ .clear → pos ≠ .drive .parse → KeepsRecords s t) ∧ MemoryFrame s t := by
  cases pos with
  | check =>
    have hm : MovesSequencer s t := by
      simp only [identifyAt] at h
      split at h <;> exact goOn_movesSequencer h
    have hr : KeepsRecords s t := .sequencer ⟨rfl, rfl, rfl⟩ hm
    exact ⟨hr.otherRecord _, fun _ _ => hr, memoryFrame_of_eq hm.mem⟩
  | clear =>
    have hm := goOn_movesSequencer h
    exact ⟨(clearRecord_other _ s).sequencer hm, fun hne => (hne rfl).elim, memoryFrame_of_eq (by simp [hm.mem])⟩
  | drive p =>
    simp only [identifyAt] at h
    have hk : ∀ r u, MovesSequencer u (goto (.finishing .identify r) u) := fun _ => goto_movesSequencer _
    obtain ⟨hr, hrec⟩ := identifyOne_records h hk
    refine ⟨hr, fun _ hne => hrec (by rintro rfl; exact hne rfl), identifyOne_memory h hk ?_⟩
    rintro rfl
    simp only [storeAddress, hp]

theorem parseidAt_frame {pos : ParseidPos} {s t : State} (h : parseidAt pos s = .next t) :
    KeepsOtherRecord s.v.d s t ∧ (pos ≠ .parse → KeepsRecords s t) ∧ t.mem = s.mem := by
  cases pos with
  | check =>
    have hm : MovesSequencer s t := by
      simp only [parseidAt] at h
      split at h <;> exact goOn_movesSequencer h
    have hr : KeepsRecords s t := .sequencer ⟨rfl, rfl, rfl⟩ hm
    exact ⟨hr.otherRecord _, fun _ => hr, hm.mem⟩
  | parse =>
    simp only [parseidAt] at h
    split at h
    · cases h
    · rename_i u hu
      obtain ⟨hr, hmem⟩ := parse_frame hu
      have hm := goOn_movesSequencer h
      exact ⟨hr.sequencer hm, fun hne => (hne rfl).elim, hm.mem.trans hmem⟩

theorem discoverAt_frame {pos : DiscoverPos} {s t : State} (hp : s.phase = .discover pos)
    (h : discoverAt pos s = .next t) :
    (pos ≠ .clear → pos ≠ .drive .parse → t.drv0 = s.drv0 ∧ t.drv1 = s.drv1) ∧
      (pos = .drive .parse → KeepsOtherRecord (loopDrive s) s t) ∧
      (pos ≠ .clear → pos ≠ .count → t.drvcount = s.drvcount) ∧ MemoryFrame s t := by
  cases pos with
  | check =>
    have hm : MovesSequencer s t := by
      simp only [discoverAt] at h
      split at h <;> exact goOn_movesSequencer h
    have hr : KeepsRecords s t := .sequencer ⟨rfl, rfl, rfl⟩ hm
    exact ⟨fun _ _ => ⟨hr.drv0, hr.drv1⟩, nofun, fun _ _ => hr.drvcount, memoryFrame_of_eq hm.mem⟩
  | clear =>
    have hm := goOn_movesSequencer h
    exact ⟨fun hne => (hne rfl).elim, nofun, fun hne => (hne rfl).elim, memoryFrame_of_eq (by simp [hm.mem])⟩
  | probe p =>
    obtain ⟨u, hu, hm⟩ := Sub.into_leaves h fun r u => by split <;> rfl
    obtain ⟨hc, hkm, -⟩ := probeCtrl_keeps hu
    have hr : KeepsRecords s t := hc.records.sequencer hm
    exact ⟨fun _ _ => ⟨hr.drv0, hr.drv1⟩, nofun, fun _ _ => hr.drvcount, memoryFrame_of_eq (hm.mem.trans hkm.mem)⟩
  | drive p =>
    simp only [discoverAt] at h
    obtain ⟨hr, hrec⟩ := identifyOne_records h driveDone_movesSequencer
    refine ⟨fun _ hne => ?_, fun _ => hr, fun _ _ => hr.drvcount, identifyOne_memory h driveDone_movesSequencer ?_⟩
    · have hr := hrec (by rintro rfl; exact hne rfl)
      exact ⟨hr.drv0, hr.drv1⟩
    · rintro rfl
      simp only [storeAddress, hp]
  | count => cases h; exact ⟨fun _ _ => ⟨rfl, rfl⟩, nofun, fun _ hne => (hne rfl).elim, memoryFrame_of_eq rfl⟩

/-! ### The frames -/

/-- A step that accepts a command, finishes it or turns it away writes no record and no memory; any other is one at a
position. -/
theorem exec_frame_cases {c : Instr} {s t : State} (h : exec c s = .next t) :
    (KeepsRecords s t ∧ t.mem = s.mem) ∨
      (s.phase.command = some c ∧ (∀ r, s.phase ≠ .finishing c r) ∧ positionStep s = .next t) := by
  obtain ⟨-, rfl⟩ | ⟨r, -, rfl⟩ | ⟨-, -, rfl⟩ | hs := exec_cases h
  · exact .inl ⟨⟨rfl, rfl, rfl⟩, rfl⟩
  · exact .inl ⟨⟨rfl, rfl, rfl⟩, rfl⟩
  · exact .inl ⟨⟨rfl, rfl, rfl⟩, rfl⟩
  · exact .inr hs

theorem exec_identify_frame {s t : State} (h : exec .identify s = .next t) :
    KeepsOtherRecord s.v.d s t ∧
      (s.phase ≠ .identify .clear → s.phase ≠ .identify (.drive .parse) → KeepsRecords s t) ∧ MemoryFrame s t := by
  obtain ⟨hr, hm⟩ | ⟨hc, hf, hs⟩ := exec_frame_cases h
  · exact ⟨hr.otherRecord _, fun _ _ => hr, memoryFrame_of_eq hm⟩
  · cases hp : s.phase <;> rw [hp] at hc <;> cases hc
    case inr.identify.refl pos =>
      simp only [positionStep, hp] at hs
      obtain ⟨hr, hrec, hm⟩ := identifyAt_frame hp hs
      exact ⟨hr, fun h1 h2 => hrec (by rintro rfl; exact h1 rfl) (by rintro rfl; exact h2 rfl), hm⟩
    case inr.finishing.refl r => exact (hf r hp).elim

theorem exec_parseid_frame {s t : State} (h : exec .parseid s = .next t) :
    KeepsOtherRecord s.v.d s t ∧ (s.phase ≠ .parseid .parse → KeepsRecords s t) ∧ t.mem = s.mem := by
  obtain ⟨hr, hm⟩ | ⟨hc, hf, hs⟩ := exec_frame_cases h
  · exact ⟨hr.otherRecord _, fun _ => hr, hm⟩
  · cases hp : s.phase <;> rw [hp] at hc <;> cases hc
    case inr.parseid.refl pos =>
      simp only [positionStep, hp] at hs
      obtain ⟨hr, hrec, hm⟩ := parseidAt_frame hs
      exact ⟨hr, fun h1 => hrec (by rintro rfl; exact h1 rfl), hm⟩
    case inr.finishing.refl r => exact (hf r hp).elim

/-- Settles O51: both write no record but their own drive's, IDENTIFY stores only at its mover's store position, and
PARSEID writes no memory. -/
theorem frameOfIdentifyAndParseid : Obligations.FrameOfIdentifyAndParseid := by
  constructor
  · intro s t h
    obtain ⟨⟨hcount, h1, h0⟩, hrec, hm⟩ := exec_identify_frame h
    exact ⟨exec_hostSide h, exec_statusFrame h, hcount, h1, h0,
      fun hc hp => ⟨(hrec hc hp).drv0, (hrec hc hp).drv1⟩, hm⟩
  · intro s t h
    obtain ⟨⟨hcount, h1, h0⟩, hrec, hm⟩ := exec_parseid_frame h
    exact ⟨exec_hostSide h, exec_statusFrame h, hcount, h1, h0, fun hp => ⟨(hrec hp).drv0, (hrec hp).drv1⟩,
      fun x => by rw [hm]⟩

/-- Settles O52: outside its positions DISCOVER writes no record and no memory, and at each of them what that position
writes; drive `dd` is the one its parse writes. -/
theorem frameOfDiscover : Obligations.FrameOfDiscover := by
  intro s t h
  refine ⟨exec_hostSide h, exec_statusFrame h, ?_⟩
  obtain ⟨hr, hm⟩ | ⟨hc, hf, hs⟩ := exec_frame_cases h
  · exact ⟨memoryFrame_of_eq hm, fun _ _ => ⟨hr.drv0, hr.drv1⟩, fun _ => ⟨fun _ => hr.drv1, fun _ => hr.drv0⟩,
      fun _ _ => hr.drvcount⟩
  · cases hp : s.phase <;> rw [hp] at hc <;> cases hc
    case inr.discover.refl pos =>
      simp only [positionStep, hp] at hs
      obtain ⟨hrec, hparse, hcount, hm⟩ := discoverAt_frame hp hs
      simp only [ne_eq, Phase.discover.injEq]
      refine ⟨hm, hrec, fun he => ⟨fun hd => (hparse he).drv1 ?_, fun hd => (hparse he).drv0 ?_⟩, hcount⟩ <;>
        rw [loopDrive, hd] <;> rfl
    case inr.finishing.refl r => exact (hf r hp).elim

end Sys2Proof.Machine
end

section
/-! SUPPORT. What a step of the machine does to host memory: it writes one word at most (20_memory.md R61), so that
every step keeps the canonical form of memory (R60); and what a host's write does to a word of the running command's
buffer region (R72). -/

namespace Sys2Proof.Machine

open Sys2Proof.Safety

/-! ### One word a step -/

/-- Memory is written in one word at most. -/
def WritesWord (s t : State) : Prop := t.mem = s.mem ∨ ∃ a w, t.mem = s.mem.putWord a w

theorem WritesWord.wf {s t : State} (h : WritesWord s t) (hs : s.mem.wf = true) : t.mem.wf = true := by
  obtain hm | ⟨a, w, hm⟩ := h <;> rw [hm]
  · exact hs
  · exact wf_putWord a w hs

theorem moveIn_writesWord {p : Word} {q : InPos} {s t : State} (h : (moveIn p q s).leaves t) : WritesWord s t := by
  obtain ⟨-, -, hm, -⟩ := moveIn_keeps h
  exact hm.imp_right fun ⟨_, w, hw⟩ => ⟨_, w, hw⟩

theorem moveOut_writesWord {p : Word} {q : OutPos} {s t : State} (h : (moveOut p q s).leaves t) : WritesWord s t := by
  obtain ⟨-, -, hm, -⟩ := moveOut_keeps h
  exact .inl hm

theorem setaddrAt_memory {pos : SetaddrPos} {s t : State} (h : setaddrAt pos s = .next t) : t.mem = s.mem := by
  cases pos with
  | check =>
    simp only [setaddrAt] at h
    split at h <;> exact (goOn_movesSequencer h).mem
  | address p =>
    obtain ⟨u, hu, hm⟩ := Sub.into_leaves h fun _ u => goto_movesSequencer _ u
    obtain ⟨-, hk, -⟩ := setAddress_keeps hu
    exact hm.mem.trans hk.mem

/-- `transfer(dir)` touches memory only in its mover (41_transfer.md R164). -/
theorem transferAt_memory {μ : Type} {x : Direction μ} {pos : XferPos μ} {s t : State}
    (h : transferAt x pos s = .next t) :
    t.mem = s.mem ∨ ∃ q u, pos = .move q ∧ (x.move s.v.p q s).leaves u ∧ t.mem = u.mem := by
  cases pos with
  | check =>
    left
    simp only [transferAt] at h
    split at h
    · exact (goOn_movesSequencer h).mem
    · split at h <;> exact (goOn_movesSequencer h).mem
  | chunk =>
    left
    simp only [transferAt] at h
    split at h <;> exact (goOn_movesSequencer h).mem
  | notBusy p | afterChunk p =>
    obtain ⟨u, hu, hm⟩ := Sub.into_leaves h (orFinish_movesSequencer _ _)
    obtain ⟨-, hk, -⟩ := waitNotBusy_keeps hu
    exact .inl (hm.mem.trans hk.mem)
  | address p =>
    obtain ⟨u, hu, hm⟩ := Sub.into_leaves h (orFinish_movesSequencer _ _)
    obtain ⟨-, hk, -⟩ := setAddress_keeps hu
    exact .inl (hm.mem.trans hk.mem)
  | dataRequest p =>
    obtain ⟨u, hu, hm⟩ := Sub.into_leaves h fun r u => by unfold orFinish; split <;> rfl
    obtain ⟨-, hk⟩ := waitDataRequest_keeps hu
    exact .inl (hm.mem.trans hk.mem)
  | move q =>
    obtain ⟨u, hu, hm⟩ := Sub.into_leaves h fun _ u => goto_movesSequencer _ u
    exact .inr ⟨q, u, rfl, hu, hm.mem⟩
  | advance =>
    left
    simp only [transferAt, advance] at h
    split at h
    · split at h <;> exact (goOn_movesSequencer h).mem.trans (by simp)
    · exact (goOn_movesSequencer h).mem.trans (by simp)
  | select | precomp | seccnt | command => exact .inl (goOn_movesSequencer h).mem

theorem transferAt_writesWord {μ : Type} {x : Direction μ} {pos : XferPos μ} {s t : State}
    (hx : ∀ p q s t, (x.move p q s).leaves t → WritesWord s t) (h : transferAt x pos s = .next t) :
    WritesWord s t := by
  obtain hm | ⟨q, u, -, hu, hm⟩ := transferAt_memory h
  · exact .inl hm
  · have := hx _ _ _ _ hu
    rwa [WritesWord, ← hm] at this

theorem identifyOne_writesWord {place : IdentPos → Phase} {k : Result → State → State} {d : BitVec 1}
    {pos : IdentPos} {s t : State} (h : identifyOne place k d pos s = .next t)
    (hk : ∀ r u, MovesSequencer u (k r u)) : WritesWord s t := by
  obtain ⟨-, -, hm⟩ | ⟨-, -, hm | ⟨-, w, hm⟩⟩ := identifyOne_cases h hk
  · exact .inl hm
  · exact .inl hm
  · exact .inr ⟨_, w, hm⟩

theorem identifyAt_writesWord {pos : IdentifyPos} {s t : State} (h : identifyAt pos s = .next t) :
    WritesWord s t := by
  cases pos with
  | check =>
    simp only [identifyAt] at h
    split at h <;> exact .inl (goOn_movesSequencer h).mem
  | clear => exact .inl ((goOn_movesSequencer h).mem.trans (by simp))
  | drive p =>
    simp only [identifyAt] at h
    exact identifyOne_writesWord h fun _ => goto_movesSequencer _

theorem discoverAt_writesWord {pos : DiscoverPos} {s t : State} (h : discoverAt pos s = .next t) :
    WritesWord s t := by
  cases pos with
  | check =>
    simp only [discoverAt] at h
    split at h <;> exact .inl (goOn_movesSequencer h).mem
  | clear => exact .inl ((goOn_movesSequencer h).mem.trans (by simp))
  | probe p =>
    obtain ⟨u, hu, hm⟩ := Sub.into_leaves h fun r u => by split <;> rfl
    obtain ⟨-, hk, -⟩ := probeCtrl_keeps hu
    exact .inl (hm.mem.trans hk.mem)
  | drive p =>
    simp only [discoverAt] at h
    exact identifyOne_writesWord h driveDone_movesSequencer
  | count => exact .inl (goOn_movesSequencer h).mem

/-- A running command's step writes one word of memory at most. -/
theorem positionStep_writesWord {s t : State} (h : positionStep s = .next t) : WritesWord s t := by
  cases hp : s.phase <;> simp only [positionStep, hp] at h
  case idle => cases h; exact .inl rfl
  case select => exact .inl (goOn_movesSequencer h).mem
  case waitnb p =>
    obtain ⟨u, hu, hm⟩ := Sub.into_leaves h fun _ u => goto_movesSequencer _ u
    obtain ⟨-, hk, -⟩ := waitNotBusy_keeps hu
    exact .inl (hm.mem.trans hk.mem)
  case waitdrq p =>
    obtain ⟨u, hu, hm⟩ := Sub.into_leaves h fun _ u => goto_movesSequencer _ u
    obtain ⟨-, hk⟩ := waitDataRequest_keeps hu
    exact .inl (hm.mem.trans hk.mem)
  case setaddr p => exact .inl (setaddrAt_memory h)
  case read p => exact transferAt_writesWord (fun _ _ _ _ => moveIn_writesWord) h
  case write p => exact transferAt_writesWord (fun _ _ _ _ => moveOut_writesWord) h
  case identify p => exact identifyAt_writesWord h
  case parseid p =>
    obtain ⟨-, -, hm⟩ := parseidAt_frame h
    exact .inl hm
  case probe p =>
    obtain ⟨u, hu, hm⟩ := Sub.into_leaves h fun _ u => goto_movesSequencer _ u
    obtain ⟨-, hk, -⟩ := probeCtrl_keeps hu
    exact .inl (hm.mem.trans hk.mem)
  case discover p => exact discoverAt_writesWord h
  case finishing c r => cases h; exact .inl rfl

theorem exec_writesWord {i : Instr} {s t : State} (h : exec i s = .next t) : WritesWord s t := by
  obtain ⟨-, hm⟩ | ⟨-, -, hs⟩ := exec_frame_cases h
  · exact .inl hm
  · exact positionStep_writesWord hs

theorem regWrite_mem (r : HostReg) (v : Word) (s : State) : (regWrite r v s).mem = s.mem := by
  cases r with
  | estat => rw [regWrite_estat]
  | drive | lba | count | buf => simp only [regWrite, writeArgument]; split <;> rfl
  | _ => rfl

theorem hostStore_writesWord (wa : BitVec 30) (v : Word) (s : State) : WritesWord s (hostStore wa v s) := by
  unfold hostStore
  split <;> exact .inr ⟨_, _, rfl⟩

/-- Of the host's operations only its memory write writes memory (60_exceptions.md R252). -/
theorem hostMove_writesWord {op : HostOp} {s t : State} (h : hostMove op s = .settled t) : WritesWord s t := by
  cases op with
  | memWrite wa v => cases h; exact hostStore_writesWord wa v s
  | write off width v =>
    left
    simp only [hostMove, hostWrite] at h
    split at h
    case isFalse => cases h
    split at h
    · simp only [writeCmd] at h
      split at h
      · cases h; rfl
      · split at h <;> cases h; rfl
    · cases h; exact regWrite_mem _ _ _
    · cases h; rfl
  | read off width =>
    simp only [hostMove] at h
    split at h <;> cases h
    exact .inl rfl
  | hpoll gap => cases h; unfold hostPoll; split <;> exact .inl rfl
  | memRead wa => cases h; unfold hostLoad; split <;> exact .inl rfl
  | reset => cases h; exact .inl rfl

/-- Settles O53: whoever moves, memory is written in one word at most, and a word write keeps the canonical form. -/
theorem everyStepKeepsMemoryForm : Obligations.EveryStepKeepsMemoryForm := by
  intro s t hs h
  obtain ⟨l, ⟨i, -, he⟩ | ⟨v, i, -, -, -, he⟩ | ⟨op, -, hm⟩ | rfl⟩ := step_cases h
  · exact (exec_writesWord he).wf hs
  · exact (exec_writesWord he).wf hs
  · exact (hostMove_writesWord hm).wf hs
  · exact hs

/-! ### Word addresses -/

theorem byteAddr_toNat (wa : BitVec 30) : (byteAddr wa).toNat = 4 * wa.toNat :=
  (BitVec.toNat_append wa (0 : BitVec 2)).trans (by simp [Nat.shiftLeft_eq, Nat.mul_comm])

theorem wordAddr_byteAddr (wa : BitVec 30) : wordAddr (byteAddr wa) = wa := by
  apply BitVec.eq_of_toNat_eq
  simp only [wordAddr, BitVec.extractLsb'_toNat, byteAddr_toNat, Nat.shiftRight_eq_div_pow]
  omega

/-- A word write leaves the bytes of every other word alone. -/
theorem byte_putWord_otherWord (m : Memory) (wa : BitVec 30) (w : Word) {x : Nat} (hx : x / 4 ≠ wa.toNat) :
    (m.putWord (byteAddr wa) w).byte x = m.byte x := by
  have ha := byteAddr_toNat wa
  apply byte_putWord_other <;> (try simp only [BitVec.toNat_add, BitVec.ofNat_eq_ofNat, BitVec.toNat_ofNat]) <;> omega

/-! ### Races on the buffer region (20_memory.md R72) -/

/-- A draw is of one of the values. -/
theorem choose_mem_vals {l : List Word} (h : l ≠ []) (s : State) : (choose l s).1 ∈ l := by
  have hlt := Nat.mod_lt (Config.freeIndex s.draws) (List.length_pos_iff.2 h)
  simp only [choose, List.getD_eq_getElem _ _ hlt, List.getElem_mem]

/-- The race the host's write to a word of the region goes on with, or opens. -/
def raceOf (s : State) (wa : BitVec 30) : RaceCell :=
  (raceAt s wa).getD { word := wa, base := s.mem.word (byteAddr wa), host := [] }

theorem raceOf_none {s : State} {wa : BitVec 30} (h : raceAt s wa = none) :
    raceOf s wa = { word := wa, base := s.mem.word (byteAddr wa), host := [] } := by rw [raceOf, h]; rfl

theorem raceOf_some {s : State} {wa : BitVec 30} {c : RaceCell} (h : raceAt s wa = some c) : raceOf s wa = c := by
  rw [raceOf, h]; rfl

theorem raceOf_word (s : State) (wa : BitVec 30) : (raceOf s wa).word = wa := by
  cases h : raceAt s wa with
  | none => rw [raceOf_none h]
  | some c => simpa [raceOf_some h] using List.find?_some h

theorem raceAt_putRace {t : State} {c : RaceCell} {l : List RaceCell} (h : t.races = putRace c l) :
    raceAt t c.word = some c := by
  simp [raceAt, h, putRace]

/-- The engine reads one of a raced word's values. -/
theorem engineLoad_raced {s : State} {wa : BitVec 30} {c : RaceCell} (h : raceAt s wa = some c) :
    (engineLoad (byteAddr wa) s).1 ∈ c.base :: c.host := by
  simp only [engineLoad, wordAddr_byteAddr, h]
  exact choose_mem_vals (List.cons_ne_nil _ _) s

/-- The value a host's write leaves in a word of the region: the host's, or, in a command that writes its region, maybe
the one the word had otherwise. -/
theorem hostStore_owned_mem {s : State} {wa : BitVec 30} (v : Word) (h : ownsWord s wa = true) :
    ∃ x, (x = v ∨ regionWritten s = true ∧ x = (raceOf s wa).base) ∧
      (hostStore wa v s).mem = s.mem.putWord (byteAddr wa) x := by
  unfold hostStore
  rw [if_pos h]
  cases hw : regionWritten s with
  | false => exact ⟨v, .inl rfl, rfl⟩
  | true =>
    have hx := choose_mem_vals (List.cons_ne_nil v [(raceOf s wa).base]) s
    rw [List.mem_pair] at hx
    exact ⟨_, hx.imp_right fun hb => ⟨rfl, hb⟩, rfl⟩

/-- A host's write to a word of the region is recorded as the newest of its race. -/
theorem hostStore_owned_race {s : State} {wa : BitVec 30} (v : Word) (h : ownsWord s wa = true) :
    raceAt (hostStore wa v s) wa = some { raceOf s wa with host := v :: (raceOf s wa).host } := by
  have hr : (hostStore wa v s).races = putRace { raceOf s wa with host := v :: (raceOf s wa).host } s.races := by
    unfold hostStore
    rw [if_pos h]
    rfl
  simpa only [raceOf_word] using raceAt_putRace hr

/-- Settles O17: the write leaves the host's value or the one the word had otherwise, and joins the race the engine's
reads draw from. -/
theorem racingHostWriteEndsEither : Obligations.RacingHostWriteEndsEither := by
  intro s rest wa v hs hi
  have hstep : step s = .next (hostStore wa v { s with inputs := rest }) := step_due_settled hi rfl
  constructor
  · intro ho
    obtain ⟨x, hx, hm⟩ := hostStore_owned_mem (s := { s with inputs := rest }) v ho
    have hword := (congrArg (Memory.word · (byteAddr wa)) hm).trans (word_putWord_same _ x hs)
    have hload := engineLoad_raced (hostStore_owned_race (s := { s with inputs := rest }) v ho)
    have hrace : raceOf { s with inputs := rest } wa = raceOf s wa := rfl
    rw [hrace] at hx hload
    simp only [List.mem_cons] at hload
    obtain ⟨hreset, -⟩ | hmoved := hostMove_settled (op := .memWrite wa v) (s := { s with inputs := rest }) rfl
    · cases hreset
    refine ⟨_, hstep, hmoved.phase, hostStore_estat _ _ _, fun hn => ?_, fun c hc => ?_, fun hw => ?_, fun y hy => ?_⟩
    · simp only [raceOf_none hn] at hx hload
      rw [hword]
      exact ⟨hx.imp_right And.right, by simpa [or_comm] using hload⟩
    · rw [raceOf_some hc] at hx hload
      rw [hword]
      exact ⟨hx.imp_right And.right, or_left_comm.1 hload⟩
    · rw [hword]
      exact hx.resolve_right fun h => Bool.false_ne_true (hw.symm.trans h.1)
    · rw [hm, byte_putWord_otherWord _ _ _ hy]
  · intro ho
    have ht : hostStore wa v { s with inputs := rest } =
        { s with inputs := rest, mem := s.mem.putWord (byteAddr wa) v } := if_neg (ne_true_of_eq_false ho)
    rw [ht] at hstep
    exact ⟨_, hstep, rfl, word_putWord_same _ v hs, fun y hy => byte_putWord_otherWord _ _ _ hy⟩

end Sys2Proof.Machine
end

section
/-! SUPPORT. The steps a running command takes at its start check (20_memory.md R62, 41_transfer.md R162) and at an
access that host memory refuses (20_memory.md R65). -/

namespace Sys2Proof.Machine

open Sys2Proof.Safety

/-- A running command takes its position's step. -/
theorem exec_running {c : Instr} {s : State} (h : s.phase.command = some c) : exec c s = positionStep s := by
  rw [exec_eq, if_neg (fun hp => by simp [hp, Phase.command] at h), if_pos h]

theorem exec_setaddr_at {p : SetaddrPos} {s : State} (h : s.phase = .setaddr p) :
    exec .setaddr s = setaddrAt p s := by
  rw [exec_running (by rw [h]; rfl), positionStep, h]

theorem exec_read_at {p : XferPos InPos} {s : State} (h : s.phase = .read p) :
    exec .read s = transferAt reading p s := by
  rw [exec_running (by rw [h]; rfl), positionStep, h]

theorem exec_write_at {p : XferPos OutPos} {s : State} (h : s.phase = .write p) :
    exec .write s = transferAt writing p s := by
  rw [exec_running (by rw [h]; rfl), positionStep, h]

theorem exec_identify_at {p : IdentifyPos} {s : State} (h : s.phase = .identify p) :
    exec .identify s = identifyAt p s := by
  rw [exec_running (by rw [h]; rfl), positionStep, h]

theorem exec_parseid_at {p : ParseidPos} {s : State} (h : s.phase = .parseid p) :
    exec .parseid s = parseidAt p s := by
  rw [exec_running (by rw [h]; rfl), positionStep, h]

theorem exec_discover_at {p : DiscoverPos} {s : State} (h : s.phase = .discover p) :
    exec .discover s = discoverAt p s := by
  rw [exec_running (by rw [h]; rfl), positionStep, h]

/-! ### The start checks -/

theorem misaligned_eq_true {a : Word} : misaligned a = true ↔ a.extractLsb' 0 2 ≠ 0 := by simp [misaligned]

theorem misaligned_eq_false {a : Word} : misaligned a = false ↔ a.extractLsb' 0 2 = 0 := by simp [misaligned]

theorem geomOk_iff {r : DriveRecord} : geomOk r = true ↔ r.lba = true ∨ (r.spt ≠ 0 ∧ r.heads ≠ 0) := by
  simp [geomOk]

/-- Settles O33: each check tests the buffer address first, and then, where a geometry is needed, the drive's record. -/
theorem startChecks : Obligations.StartChecks := by
  intro s
  simp only [← geomOk_iff, ← misaligned_eq_true, ← misaligned_eq_false]
  refine ⟨fun hp => ?_, fun hp => ?_, fun hp => ?_, fun hs => ?_⟩
  · exact ⟨fun hs => (exec_read_at hs).trans (if_pos hp), fun hs => (exec_write_at hs).trans (if_pos hp),
      fun hs => (exec_identify_at hs).trans (if_pos hp), fun hs => (exec_parseid_at hs).trans (if_pos hp),
      fun hs => (exec_discover_at hs).trans (if_pos hp)⟩
  · have hp := ne_true_of_eq_false hp
    exact ⟨fun hs => (exec_identify_at hs).trans (if_neg hp), fun hs => (exec_parseid_at hs).trans (if_neg hp),
      fun hs => (exec_discover_at hs).trans (if_neg hp)⟩
  · have hp := ne_true_of_eq_false hp
    exact ⟨fun hs => ⟨fun hg => (exec_read_at hs).trans ((if_neg hp).trans (if_pos hg)),
        fun hg => (exec_read_at hs).trans ((if_neg hp).trans (if_neg hg))⟩,
      fun hs => ⟨fun hg => (exec_write_at hs).trans ((if_neg hp).trans (if_pos hg)),
        fun hg => (exec_write_at hs).trans ((if_neg hp).trans (if_neg hg))⟩⟩
  · exact ⟨fun hg => (exec_setaddr_at hs).trans (if_pos hg), fun hg => (exec_setaddr_at hs).trans (if_neg hg)⟩

/-! ### Refused accesses -/

theorem memRead_refused {a : Word} {s : State} (h : admitsWord .read s a = false) : memRead a s = none :=
  if_neg (by simp [h])

theorem memWrite_refused {a w : Word} {s : State} (h : admitsWord .write s a = false) : memWrite a w s = none :=
  if_neg (by simp [h])

theorem parse_refused {d : BitVec 1} {p : Word} {s : State} (h : admitsBlock s p = false) : parse d p s = none := by
  simp [parse, memSnap512, h]

theorem moveIn_refused {p : Word} {s : State} (h : admitsWord .write s (sectorWord p s.v.j) = false) :
    moveIn p .store s = .halt (.memoryRefused (sectorWord p s.v.j)) := by
  simp only [moveIn, memWrite_refused h]

theorem moveOut_refused {p : Word} {s : State} (h : admitsWord .read s (sectorWord p s.v.j) = false) :
    moveOut p .load s = .halt (.memoryRefused (sectorWord p s.v.j)) := by
  simp only [moveOut, memRead_refused h]

/-- A byte is refused exactly where it lies in a range that refuses the kind of access. -/
theorem admitsByte_eq_false {k : Access} {s : State} {x : Nat} :
    admitsByte k s x = false ↔ ∃ r ∈ s.refused, refuses r k = true ∧ r.base ≤ x ∧ x < r.base + r.size := by
  simp [admitsByte, and_assoc]

theorem identifyOne_refused_store {place : IdentPos → Phase} {k : Result → State → State} {d : BitVec 1} {s : State}
    (h : admitsWord .write s (sectorWord s.v.p s.v.j) = false) :
    identifyOne place k d (.move .store) s = .fault (.memoryRefused (sectorWord s.v.p s.v.j)) := by
  simp only [identifyOne, moveIn_refused h, Sub.into]

theorem identifyOne_refused_parse {place : IdentPos → Phase} {k : Result → State → State} {d : BitVec 1} {s : State}
    (h : admitsBlock s s.v.p = false) : identifyOne place k d .parse s = .fault (.memoryRefused s.v.p) := by
  simp only [identifyOne, parse_refused h]

/-- Settles O40: each access halts its command's step, and with no host operation pending the turn ends as that does. -/
theorem refusedMemoryIsStuck : Obligations.RefusedMemoryIsStuck := by
  refine ⟨fun s hs ha => ?_, fun s ha => ⟨fun hs => ?_, fun hs => ?_, fun hs => ?_⟩,
    fun s ha => ⟨fun hs => ?_, fun hs => ?_, fun hs => ?_⟩, fun s x => ⟨admitsByte_eq_false, admitsByte_eq_false⟩,
    fun s i a hc hi hx => (step_quiet hc hi).trans hx⟩
  · rw [exec_write_at hs]
    simp only [transferAt, writing, moveOut_refused ha, Sub.into]
  · rw [exec_read_at hs]
    simp only [transferAt, reading, moveIn_refused ha, Sub.into]
  · rw [exec_identify_at hs, identifyAt, identifyOne_refused_store ha]
  · rw [exec_discover_at hs, discoverAt, identifyOne_refused_store ha]
  · rw [exec_parseid_at hs]
    simp only [parseidAt, parse_refused ha]
  · rw [exec_identify_at hs, identifyAt, identifyOne_refused_parse ha]
  · rw [exec_discover_at hs, discoverAt, identifyOne_refused_parse ha]

end Sys2Proof.Machine
end

section
/-! SUPPORT. That every position of the engine fits its configuration, its drive's record and its buffer address: what
each position's step needs of the one before (20_memory.md R62, R63; 41_transfer.md R162, R176; 00_scope.md R10). -/

namespace Sys2Proof.Machine

open Sys2Proof.Safety

/-! ### Positions that fit -/

/-- A position fits the configuration, the running command's drive record and its buffer address. -/
structure FitsAt (ph : Phase) (s : State) : Prop where
  latch : latchPos ph = true → hasLatch s.cfg = true
  geometry : geomPos ph = true → geomOk (driveRecord s s.v.d) = true
  aligned : bufferPos ph = true → misaligned s.v.p = false

theorem fitsAt_phase {s : State} : FitsAt s.phase s ↔ PhaseOk s ∧ BufferAligned s :=
  ⟨fun h => ⟨⟨h.latch, h.geometry⟩, h.aligned⟩, fun h => ⟨h.1.latch, h.1.geometry, h.2⟩⟩

/-- What a position fits is kept: the configuration, the running command's drive record, and the buffer address's
alignment. -/
structure KeepsFit (s t : State) : Prop where
  cfg : t.cfg = s.cfg
  record : driveRecord t t.v.d = driveRecord s s.v.d
  buffer : misaligned s.v.p = false → misaligned t.v.p = false

theorem KeepsCommand.fit {s t : State} (h : KeepsCommand s t) : KeepsFit s t :=
  ⟨h.cfg, by rw [h.d, h.driveRecord], fun ha => by rw [h.p]; exact ha⟩

theorem KeepsFit.trans {s t u : State} (h : KeepsFit s t) (g : KeepsFit t u) : KeepsFit s u :=
  ⟨g.cfg.trans h.cfg, g.record.trans h.record, fun ha => g.buffer (h.buffer ha)⟩

theorem FitsAt.keeps {ph : Phase} {s t : State} (h : FitsAt ph s) (hk : KeepsFit s t) : FitsAt ph t where
  latch := by rw [hk.cfg]; exact h.latch
  geometry := by rw [hk.record]; exact h.geometry
  aligned hp := hk.buffer (h.aligned hp)

theorem fitsAt_idle (s : State) : FitsAt .idle s := ⟨nofun, nofun, nofun⟩

theorem fitsAt_finishing (c : Instr) (r : Result) (s : State) : FitsAt (.finishing c r) s := ⟨nofun, nofun, nofun⟩

/-- No command's first position is behind one of its checks. -/
theorem fitsAt_firstPosition (c : Instr) (s : State) : FitsAt (firstPosition c) s := by
  cases c <;> exact ⟨nofun, nofun, nofun⟩

theorem FitsAt.goto {ph : Phase} {s : State} (h : FitsAt ph s) : FitsAt (goto ph s).phase (goto ph s) :=
  ⟨h.latch, h.geometry, h.aligned⟩

theorem FitsAt.orFinish {c : Instr} {ph : Phase} {s : State} (h : FitsAt ph s) (r : Result) :
    FitsAt (orFinish c ph r s).phase (orFinish c ph r s) := by
  unfold Machine.orFinish
  split
  · exact h.goto
  · exact (fitsAt_finishing c r s).goto

/-! ### Steps that end at a position that fits -/

/-- The engine's step ends at a position that fits, or where memory refuses its access (20_memory.md R65). -/
def EndsFit : Host.Outcome State Fault Refusal → Prop
  | .next t => FitsAt t.phase t
  | .fault f => ∃ a, f = .memoryRefused a
  | .refused _ => False

theorem goOn_endsFit {ph : Phase} {s : State} (h : FitsAt ph s) : EndsFit (goOn ph s) := h.goto

/-- An inlined step ends at a position that fits where its subroutine's positions and its caller's do, and where the
subroutine halts only at a refused access. -/
theorem Sub.into_endsFit {π : Type} {x : Sub π} {emb : π → Phase} {k : Result → State → State}
    (hhalt : ∀ f, x = .halt f → ∃ a, f = .memoryRefused a) (hmore : ∀ p u, x = .more p u → FitsAt (emb p) u)
    (hk : ∀ r u, x.leaves u → FitsAt (k r u).phase (k r u)) : EndsFit (x.into emb k) := by
  cases x with
  | more p u => exact (hmore p u rfl).goto
  | ret r u => exact hk r u rfl
  | halt f => exact hhalt f rfl

theorem Sub.leaves_of_more {π : Type} {x : Sub π} {p : π} {u : State} (h : x = .more p u) : x.leaves u := by
  rw [h]; rfl

/-! ### Where the subroutines halt -/

theorem pollAgain_not_halt {π : Type} (p : π) (s : State) (f : Fault) : pollAgain p s ≠ .halt f := by
  unfold pollAgain; split <;> exact nofun

theorem waitNotBusy_not_halt (p : NbPos) (s : State) (f : Fault) : waitNotBusy p s ≠ .halt f := by
  cases p with
  | settle => simp only [waitNotBusy]; split <;> exact nofun
  | poll =>
    simp only [waitNotBusy]
    split
    · exact pollAgain_not_halt _ _ _
    · exact nofun

theorem waitDataRequest_not_halt (p : DrqPos) (s : State) (f : Fault) : waitDataRequest p s ≠ .halt f := by
  cases p with
  | settle => simp only [waitDataRequest]; split <;> exact nofun
  | poll =>
    simp only [waitDataRequest]
    split
    · exact nofun
    · exact nofun
    · exact pollAgain_not_halt _ _ _
  | readError => exact nofun

theorem probeCtrl_not_halt (p : ProbePos) (s : State) (f : Fault) : probeCtrl p s ≠ .halt f := by
  cases p <;> exact nofun

/-- Behind the geometry guard `set_address` divides by no zero (41_transfer.md R162). -/
theorem setAddress_not_halt {p : AddrPos} {s : State} (h : geomOk (driveRecord s s.v.d) = true) (f : Fault) :
    setAddress p s ≠ .halt f := by
  rw [setAddress_eq h]
  split <;> exact nofun

/-- With a latch where the position needs one, `move_in` halts only at a refused store. -/
theorem moveIn_halt {p : Word} {q : InPos} {s : State} {f : Fault} (hl : latchIn q = true → hasLatch s.cfg = true)
    (h : moveIn p q s = .halt f) : ∃ a, f = .memoryRefused a := by
  cases q with
  | dataLo | dataHi => simp only [moveIn] at h; split at h <;> cases h
  | latchLo | latchHi => simp only [moveIn, hl rfl, if_true] at h; cases h
  | store =>
    simp only [moveIn] at h
    split at h
    · cases h; exact ⟨_, rfl⟩
    · split at h <;> cases h
  | count => cases h

/-- `move_in` goes on at a latch access only with a latch (40_port_handshake.md R130, R132). -/
theorem moveIn_more {p : Word} {q q' : InPos} {s u : State} (h : moveIn p q s = .more q' u) (hq : latchIn q' = true) :
    hasLatch s.cfg = true := by
  by_contra hl
  cases q with
  | store =>
    simp only [moveIn] at h
    split at h
    · cases h
    · split at h <;> cases h <;> cases hq
  | count => cases h
  | _ => simp only [moveIn, if_neg hl] at h; cases h <;> cases hq

theorem wordSent_more {q : OutPos} {s u : State} (h : wordSent s = .more q u) : latchOut q = false := by
  unfold wordSent at h
  split at h <;> cases h <;> rfl

theorem wordSent_not_halt (s : State) (f : Fault) : wordSent s ≠ .halt f := by
  unfold wordSent; split <;> exact nofun

/-- With a latch where the position needs one, `move_out` halts only at a refused load. -/
theorem moveOut_halt {p : Word} {q : OutPos} {s : State} {f : Fault} (hl : latchOut q = true → hasLatch s.cfg = true)
    (h : moveOut p q s = .halt f) : ∃ a, f = .memoryRefused a := by
  cases q with
  | load =>
    simp only [moveOut] at h
    split at h <;> cases h
    exact ⟨_, rfl⟩
  | firstLo => simp only [moveOut] at h; split at h <;> cases h
  | secondLo => simp only [moveOut, hl rfl, if_true] at h; cases h
  | firstHi =>
    simp only [moveOut] at h
    split at h
    · cases h
    · exact (wordSent_not_halt _ _ h).elim
  | secondHi =>
    simp only [moveOut, hl rfl, if_true] at h
    exact (wordSent_not_halt _ _ h).elim
  | count => cases h

/-- `move_out` goes on at the second half of a write only with a latch (40_port_handshake.md R131, R133). -/
theorem moveOut_more {p : Word} {q q' : OutPos} {s u : State} (h : moveOut p q s = .more q' u)
    (hq : latchOut q' = true) : hasLatch s.cfg = true := by
  by_contra hl
  cases q with
  | load => simp only [moveOut] at h; split at h <;> cases h; cases hq
  | firstHi =>
    simp only [moveOut, if_neg hl] at h
    rw [wordSent_more h] at hq
    cases hq
  | firstLo | secondLo | secondHi | count => simp only [moveOut, if_neg hl] at h; cases h <;> cases hq

/-! ### `transfer(dir)` -/

/-- Both directions guard their positions alike: outside the mover none needs a latch, behind the check each has its
geometry and its alignment, and the mover asks for the latch only where there is one. -/
structure Direction.Guarded {μ : Type} (x : Direction μ) : Prop where
  noLatch : ∀ p, (∀ q, p ≠ .move q) → latchPos (x.place p) = false
  firstNoLatch : latchPos (x.place (.move x.first)) = false
  geometry : ∀ p, p ≠ .check → geomPos (x.place p) = true
  buffer : ∀ p, p ≠ .check → bufferPos (x.place p) = true
  keeps : ∀ p q s u, (x.move p q s).leaves u → KeepsCommand s u
  halt : ∀ p q s f, (latchPos (x.place (.move q)) = true → hasLatch s.cfg = true) → x.move p q s = .halt f →
    ∃ a, f = .memoryRefused a
  more : ∀ p q q' s u, x.move p q s = .more q' u → latchPos (x.place (.move q')) = true → hasLatch s.cfg = true

theorem reading_guarded : reading.Guarded where
  noLatch p hp := by
    cases p with
    | move q => exact (hp q rfl).elim
    | _ => rfl
  firstNoLatch := rfl
  geometry p hp := bne_iff_ne.2 hp
  buffer p hp := bne_iff_ne.2 hp
  keeps _ _ _ _ h := (moveIn_keeps h).1
  halt _ _ _ _ := moveIn_halt
  more _ _ _ _ _ := moveIn_more

theorem writing_guarded : writing.Guarded where
  noLatch p hp := by
    cases p with
    | move q => exact (hp q rfl).elim
    | _ => rfl
  firstNoLatch := rfl
  geometry p hp := bne_iff_ne.2 hp
  buffer p hp := bne_iff_ne.2 hp
  keeps _ _ _ _ h := (moveOut_keeps h).1
  halt _ _ _ _ := moveOut_halt
  more _ _ _ _ _ := moveOut_more

/-- The next sector's buffer address is aligned where this one's is (41_transfer.md R164). -/
theorem misaligned_add_512 {a : Word} (h : misaligned a = false) : misaligned (a + 512) = false := by
  rw [misaligned_iff] at *
  simp only [BitVec.toNat_add, BitVec.ofNat_eq_ofNat, BitVec.toNat_ofNat]
  omega

theorem nextBuffer_keepsFit (s : State) : KeepsFit s (nextBuffer s) :=
  ⟨by simp, by simp [driveRecord], by simpa using misaligned_add_512⟩

theorem endChunk_keepsFit (s : State) : KeepsFit s (endChunk s) := ⟨rfl, rfl, id⟩

theorem nextSector_keepsFit (s : State) : KeepsFit s (nextSector s) := ⟨rfl, rfl, id⟩

/-- A step of `transfer(dir)` from a position that fits ends at one that does. -/
theorem transferAt_endsFit {μ : Type} {x : Direction μ} (hx : x.Guarded) {pos : XferPos μ} {s : State}
    (h : FitsAt (x.place pos) s) : EndsFit (transferAt x pos s) := by
  have outside : ∀ {u p}, geomOk (driveRecord u u.v.d) = true → misaligned u.v.p = false → (∀ q, p ≠ .move q) →
      FitsAt (x.place p) u := fun hg ha hp => ⟨by simp [hx.noLatch _ hp], fun _ => hg, fun _ => ha⟩
  by_cases hc : pos = .check
  · subst hc
    simp only [transferAt]
    split
    · exact goOn_endsFit (fitsAt_finishing _ _ _)
    · rename_i ha
      split
      · rename_i hg
        exact goOn_endsFit (outside hg (by simpa using ha) nofun)
      · exact goOn_endsFit (fitsAt_finishing _ _ _)
  have hg := h.geometry (hx.geometry pos hc)
  have ha := h.aligned (hx.buffer pos hc)
  have after : ∀ {u p}, KeepsFit s u → (∀ q, p ≠ .move q) → FitsAt (x.place p) u :=
    fun hk hp => (outside hg ha hp).keeps hk
  cases pos with
  | check => exact (hc rfl).elim
  | chunk =>
    simp only [transferAt]
    split
    · exact goOn_endsFit (fitsAt_finishing _ _ _)
    · exact goOn_endsFit (after ⟨rfl, rfl, id⟩ nofun)
  | notBusy p | afterChunk p =>
    simp only [transferAt]
    refine Sub.into_endsFit (fun f hf => (waitNotBusy_not_halt _ _ f hf).elim)
      (fun _ _ hm => after (waitNotBusy_keeps (Sub.leaves_of_more hm)).1.fit ?_) (fun r _ hu => .orFinish ?_ r)
    · exact nofun
    · exact after (waitNotBusy_keeps hu).1.fit nofun
  | address p =>
    simp only [transferAt]
    refine Sub.into_endsFit (fun f hf => (setAddress_not_halt hg f hf).elim)
      (fun _ _ hm => after (setAddress_keeps (Sub.leaves_of_more hm)).1.fit ?_) (fun r _ hu => .orFinish ?_ r)
    · exact nofun
    · exact after (setAddress_keeps hu).1.fit nofun
  | dataRequest p =>
    have first : FitsAt (x.place (.move x.first)) s := ⟨by simp [hx.firstNoLatch], fun _ => hg, fun _ => ha⟩
    simp only [transferAt]
    refine Sub.into_endsFit (fun f hf => (waitDataRequest_not_halt _ _ f hf).elim)
      (fun _ _ hm => after (waitDataRequest_keeps (Sub.leaves_of_more hm)).1.fit ?_) (fun r u hu => .orFinish ?_ r)
    · exact nofun
    · exact first.keeps ((waitDataRequest_keeps hu).1.fit.trans ⟨rfl, rfl, id⟩)
  | move q =>
    simp only [transferAt]
    refine Sub.into_endsFit (fun f hf => hx.halt _ _ _ _ h.latch hf) (fun q' u hm => ?_) (fun r u hu => .goto ?_)
    · have hfit : FitsAt (x.place (.move q')) s := ⟨hx.more _ _ _ _ _ hm, fun _ => hg, fun _ => ha⟩
      exact hfit.keeps (hx.keeps _ _ _ _ (Sub.leaves_of_more hm)).fit
    · exact after (hx.keeps _ _ _ _ hu).fit nofun
  | advance =>
    have hb := nextBuffer_keepsFit s
    simp only [transferAt, advance]
    split
    · split <;> exact goOn_endsFit (after (hb.trans (endChunk_keepsFit _)) nofun)
    · exact goOn_endsFit (after (hb.trans (nextSector_keepsFit _)) nofun)
  | select | precomp | seccnt | command => exact goOn_endsFit (after ⟨rfl, rfl, id⟩ nofun)

/-! ### `identify_one` and its callers -/

/-- A step of `identify_one` ends at a position that fits, where its caller's positions need an aligned buffer address
and the latch alone. -/
theorem identifyOne_endsFit {place : IdentPos → Phase} {k : Result → State → State} {d : BitVec 1} {pos : IdentPos}
    {s : State} (hplace : ∀ p u, (latchIdent p = true → hasLatch u.cfg = true) → misaligned u.v.p = false →
      FitsAt (place p) u)
    (hk : ∀ r u, misaligned u.v.p = false → FitsAt (k r u).phase (k r u))
    (hl : latchIdent pos = true → hasLatch s.cfg = true) (ha : misaligned s.v.p = false) :
    EndsFit (identifyOne place k d pos s) := by
  cases pos with
  | notBusy p =>
    have aligned : ∀ {u}, (waitNotBusy p s).leaves u → misaligned u.v.p = false :=
      fun hu => (waitNotBusy_keeps hu).1.fit.buffer ha
    simp only [identifyOne]
    refine Sub.into_endsFit (fun f hf => (waitNotBusy_not_halt _ _ f hf).elim)
      (fun q u hm => hplace (.notBusy q) u nofun (aligned (Sub.leaves_of_more hm))) (fun r u hu => ?_)
    split
    · exact (hplace .command u nofun (aligned hu)).goto
    · exact hk r u (aligned hu)
  | dataRequest p =>
    have aligned : ∀ {u}, (waitDataRequest p s).leaves u → misaligned u.v.p = false :=
      fun hu => (waitDataRequest_keeps hu).1.fit.buffer ha
    simp only [identifyOne]
    refine Sub.into_endsFit (fun f hf => (waitDataRequest_not_halt _ _ f hf).elim)
      (fun q u hm => hplace (.dataRequest q) u nofun (aligned (Sub.leaves_of_more hm))) (fun r u hu => ?_)
    split
    · exact (hplace (.move .dataLo) (armMove u) nofun (aligned (u := u) hu)).goto
    · exact hk r u (aligned hu)
  | move q =>
    simp only [identifyOne]
    refine Sub.into_endsFit (fun f hf => moveIn_halt hl hf) (fun q' u hm => ?_) (fun r u hu => ?_)
    · have hfit := (moveIn_keeps (Sub.leaves_of_more hm)).1.fit
      exact hplace _ u (fun hq => hfit.cfg ▸ moveIn_more hm hq) (hfit.buffer ha)
    · exact (hplace .parse u nofun ((moveIn_keeps hu).1.fit.buffer ha)).goto
  | parse =>
    simp only [identifyOne]
    split
    · exact ⟨_, rfl⟩
    · rename_i u hu
      obtain ⟨-, n, rfl⟩ := parse_some hu
      exact hk _ _ (by simpa using ha)
  | select | command => exact goOn_endsFit (hplace _ _ nofun ha)

theorem identifyAt_endsFit {pos : IdentifyPos} {s : State} (h : FitsAt (.identify pos) s) :
    EndsFit (identifyAt pos s) := by
  cases pos with
  | check =>
    simp only [identifyAt]
    split
    · exact goOn_endsFit (fitsAt_finishing _ _ _)
    · rename_i ha
      exact goOn_endsFit ⟨nofun, nofun, fun _ => by simpa using ha⟩
  | clear => exact goOn_endsFit ⟨nofun, nofun, fun _ => by simpa using h.aligned rfl⟩
  | drive p =>
    simp only [identifyAt]
    exact identifyOne_endsFit (fun p u hl ha => ⟨hl, nofun, fun _ => ha⟩) (fun r u _ => (fitsAt_finishing _ r u).goto)
      h.latch (h.aligned rfl)

theorem parseidAt_endsFit {pos : ParseidPos} {s : State} : EndsFit (parseidAt pos s) := by
  cases pos with
  | check =>
    simp only [parseidAt]
    split
    · exact goOn_endsFit (fitsAt_finishing _ _ _)
    · rename_i ha
      exact goOn_endsFit ⟨nofun, nofun, fun _ => by simpa using ha⟩
  | parse =>
    simp only [parseidAt]
    split
    · exact ⟨_, rfl⟩
    · exact goOn_endsFit (fitsAt_finishing _ _ _)

theorem driveDone_fits {s : State} (h : misaligned s.v.p = false) (r : Result) :
    FitsAt (driveDone r s).phase (driveDone r s) := by
  unfold driveDone
  by_cases hr : r = .ok <;> simp only [hr, if_true, if_false] <;> split <;> exact ⟨nofun, nofun, fun _ => h⟩

theorem discoverAt_endsFit {pos : DiscoverPos} {s : State} (h : FitsAt (.discover pos) s) :
    EndsFit (discoverAt pos s) := by
  cases pos with
  | check =>
    simp only [discoverAt]
    split
    · exact goOn_endsFit (fitsAt_finishing _ _ _)
    · rename_i ha
      exact goOn_endsFit ⟨nofun, nofun, fun _ => by simpa using ha⟩
  | clear => exact goOn_endsFit ⟨nofun, nofun, fun _ => by simpa using h.aligned rfl⟩
  | probe p =>
    have aligned : ∀ {u}, (probeCtrl p s).leaves u → misaligned u.v.p = false :=
      fun hu => (probeCtrl_keeps hu).1.fit.buffer (h.aligned rfl)
    simp only [discoverAt]
    refine Sub.into_endsFit (fun f hf => (probeCtrl_not_halt _ _ f hf).elim)
      (fun _ u hm => ⟨nofun, nofun, fun _ => aligned (Sub.leaves_of_more hm)⟩) (fun r u hu => ?_)
    split
    · exact ⟨nofun, nofun, fun _ => aligned (u := u) hu⟩
    · exact (fitsAt_finishing _ _ u).goto
  | drive p =>
    simp only [discoverAt]
    exact identifyOne_endsFit (fun p u hl ha => ⟨hl, nofun, fun _ => ha⟩) (fun r u ha => driveDone_fits ha r)
      h.latch (h.aligned rfl)
  | count => exact goOn_endsFit (fitsAt_finishing _ _ _)

/-! ### Every step -/

theorem setaddrAt_endsFit {pos : SetaddrPos} {s : State} (h : FitsAt (.setaddr pos) s) :
    EndsFit (setaddrAt pos s) := by
  cases pos with
  | check =>
    simp only [setaddrAt]
    split
    · rename_i hg
      exact goOn_endsFit ⟨nofun, fun _ => hg, nofun⟩
    · exact goOn_endsFit (fitsAt_finishing _ _ _)
  | address p =>
    have hg := h.geometry rfl
    refine Sub.into_endsFit (fun f hf => (setAddress_not_halt hg f hf).elim) (fun _ u hm => ?_)
      (fun r u _ => (fitsAt_finishing _ r u).goto)
    have hk := (setAddress_keeps (Sub.leaves_of_more hm)).1.fit
    exact ⟨nofun, fun _ => hk.record ▸ hg, nofun⟩

theorem positionStep_endsFit {s : State} (h : FitsAt s.phase s) : EndsFit (positionStep s) := by
  cases hp : s.phase <;> simp only [positionStep, hp] <;> rw [hp] at h
  case idle => rw [← hp] at h; exact h
  case select => exact goOn_endsFit (fitsAt_finishing _ _ _)
  case waitnb p =>
    exact Sub.into_endsFit (fun f hf => (waitNotBusy_not_halt _ _ f hf).elim) (fun _ _ _ => ⟨nofun, nofun, nofun⟩)
      (fun r u _ => (fitsAt_finishing _ r u).goto)
  case waitdrq p =>
    exact Sub.into_endsFit (fun f hf => (waitDataRequest_not_halt _ _ f hf).elim)
      (fun _ _ _ => ⟨nofun, nofun, nofun⟩) (fun r u _ => (fitsAt_finishing _ r u).goto)
  case setaddr p => exact setaddrAt_endsFit h
  case read p => exact transferAt_endsFit reading_guarded h
  case write p => exact transferAt_endsFit writing_guarded h
  case identify p => exact identifyAt_endsFit h
  case parseid p => exact parseidAt_endsFit
  case probe p =>
    exact Sub.into_endsFit (fun f hf => (probeCtrl_not_halt _ _ f hf).elim) (fun _ _ _ => ⟨nofun, nofun, nofun⟩)
      (fun r u _ => (fitsAt_finishing _ r u).goto)
  case discover p => exact discoverAt_endsFit h
  case finishing c r => exact fitsAt_idle _

/-- A step of any command, accepted, running or turned away, ends at a position that fits. -/
theorem exec_endsFit {s : State} (i : Instr) (h : FitsAt s.phase s) : EndsFit (exec i s) := by
  rw [exec_eq]
  split
  · exact fitsAt_firstPosition i _
  · split
    · exact positionStep_endsFit h
    · exact ⟨h.latch, h.geometry, h.aligned⟩

theorem exec_fits {i : Instr} {s t : State} (h : FitsAt s.phase s) (he : exec i s = .next t) : FitsAt t.phase t := by
  have hend := exec_endsFit i h
  rwa [he] at hend

theorem exec_fault_refused {i : Instr} {s : State} {f : Fault} (h : FitsAt s.phase s) (he : exec i s = .fault f) :
    ∃ a, f = .memoryRefused a := by
  have hend := exec_endsFit i h
  rwa [he] at hend

/-- A host operation that starts no command moves no position, or resets the engine. -/
theorem hostMove_fits {op : HostOp} {s t : State} (h : FitsAt s.phase s) (hm : hostMove op s = .settled t) :
    FitsAt t.phase t := by
  obtain ⟨-, rfl⟩ | hm := hostMove_settled hm
  · exact fitsAt_idle _
  · rw [hm.phase]
    exact h.keeps ⟨hm.cfg, by simp [driveRecord, hm.v, hm.drv0, hm.drv1], fun ha => by rw [hm.v]; exact ha⟩

theorem settleTurn_fault {s : State} {x : Host.Outcome State Fault Refusal} {f : Fault}
    (h : settleTurn s x = .fault f) : x = .fault f := by
  unfold settleTurn at h
  split at h
  · split at h
    · exact h
    · cases h
  · exact h

/-- The machine stops with a fault only at a command's step (20_memory.md R65). -/
theorem step_fault {s : State} {f : Fault} (h : step s = .fault f) :
    ∃ i l, exec i { s with inputs := l } = .fault f := by
  unfold step at h
  obtain ⟨l, hn | ⟨op, -, hn⟩⟩ := nextMove_cases s <;> rw [hn] at h
  · obtain ⟨i, -, he⟩ | ⟨-, he⟩ := engineMove_eq { s with inputs := l } <;> rw [he] at h
    · exact ⟨i, l, settleTurn_fault h⟩
    · cases h
  · cases hm : hostMove op { s with inputs := l } with
    | settled u => rw [hm] at h; cases h
    | issue i u =>
      rw [hm] at h
      obtain ⟨-, -, -, -, rfl⟩ := hostMove_issue hm
      exact ⟨i, l, h⟩
    | engine i u => exact (hostMove_engine _ _ _ _ hm).elim
    | refuse r => rw [hm] at h; cases h

/-- Settles O55: from a position that fits, a command's step ends at one that does, or where memory refuses its access,
and a host operation leaves the position as it is. -/
theorem everyStepKeepsPositions : Obligations.EveryStepKeepsPositions := by
  intro s hp hb
  have hs : ∀ l, FitsAt s.phase { s with inputs := l } := fun l => ⟨hp.latch, hp.geometry, hb⟩
  have hfault : ∀ f, step s = .fault f → ∃ a, f = .memoryRefused a := by
    intro f h
    obtain ⟨i, l, he⟩ := step_fault h
    exact exec_fault_refused (hs l) he
  refine ⟨fun t h => fitsAt_phase.1 ?_, fun h => ?_, fun h => ?_⟩
  · obtain ⟨l, ⟨i, -, he⟩ | ⟨v, i, -, -, -, he⟩ | ⟨op, -, hm⟩ | rfl⟩ := step_cases h
    · exact exec_fits (hs l) he
    · exact exec_fits (hs l) he
    · exact hostMove_fits (hs l) hm
    · exact hs l
  · obtain ⟨a, ⟨⟩⟩ := hfault _ h
  · obtain ⟨a, ⟨⟩⟩ := hfault _ h

end Sys2Proof.Machine
end

section
/-! SUPPORT. The command encoding (30_encoding.md R90 to R92): the words that decode are the ten commands' own, with
the statements about words, about bytes, and about an illegal value written to `CMD`. -/

namespace Sys2Proof.Laws.RoundTrip

/-- Every command's word and bytes decode back to it (30_encoding.md R91). -/
theorem roundTrip : ∀ i : Instr, Statement i
  | .select => select
  | .waitnb => waitnb
  | .waitdrq => waitdrq
  | .setaddr => setaddr
  | .read => read
  | .write => write
  | .identify => identify
  | .parseid => parseid
  | .probe => probe
  | .discover => discover

end Sys2Proof.Laws.RoundTrip

namespace Sys2Proof

/-! ### Words -/

theorem decodeWord_encode (i : Instr) : decodeWord (encode i) = .ok i := by
  obtain ⟨-, -, hw, -⟩ := Laws.RoundTrip.roundTrip i
  exact hw

/-- A code that decodes is its command's. -/
theorem decodeCode_ok {c : Byte} {i : Instr} (h : decodeCode c = .ok i) : c = i.code := by
  unfold decodeCode at h
  split at h <;> cases h
  all_goals exact BitVec.eq_of_toNat_eq ‹_›

/-- The two fields of a command word put together are the word (30_encoding.md R90). -/
theorem CommandWord.append_ofWord (v : Word) : (ofWord v).zero ++ (ofWord v).code = v := by
  ext i hi
  simp only [ofWord, BitVec.getElem_append, BitVec.getElem_setWidth, BitVec.getLsbD_ushiftRight]
  split
  · exact BitVec.getLsbD_eq_getElem hi
  · rw [Nat.add_sub_cancel' (by omega)]
    exact BitVec.getLsbD_eq_getElem hi

/-- A word decodes to a command exactly where it is that command's word, all 32 bits of it (30_encoding.md R91). -/
theorem decodeWord_ok_iff {v : Word} {i : Instr} : decodeWord v = .ok i ↔ v = encode i := by
  refine ⟨fun h => ?_, fun h => by rw [h, decodeWord_encode]⟩
  unfold decodeWord at h
  split at h
  · rename_i hz
    have hzero : (CommandWord.ofWord v).zero = 0 := by simpa [CommandWord.zeroOk] using hz
    rw [← CommandWord.append_ofWord v, hzero, decodeCode_ok h, encode]
  · cases h

/-- Settles O2: a value decodes to a command exactly where it is the command's word, which stands in its row. -/
theorem legalValuesAreTheTable : Obligations.LegalValuesAreTheTable := by
  intro v i
  rw [decodeWord_ok_iff]
  cases i <;> simp [encode, Instr.code]

/-- Settles O1: the ten words are the commands' own, and the illegal ones fail at the field named. -/
theorem tableWordsDecode : Obligations.TableWordsDecode :=
  ⟨decodeWord_encode .select, decodeWord_encode .waitnb, decodeWord_encode .waitdrq, decodeWord_encode .setaddr,
    decodeWord_encode .read, decodeWord_encode .write, decodeWord_encode .identify, decodeWord_encode .parseid,
    decodeWord_encode .probe, decodeWord_encode .discover, rfl, rfl, rfl, rfl⟩

/-! ### Bytes -/

theorem decodeBytes_encodeBytes (i : Instr) (rest : List Byte) :
    decodeBytes (encodeBytes i ++ rest) = .ok (i, rest) := by
  obtain ⟨-, -, -, hb⟩ := Laws.RoundTrip.roundTrip i
  exact hb rest

/-- Four bytes put together as a word are that word's bytes. -/
theorem bytesOfWord_wordOfBytes (b0 b1 b2 b3 : Byte) : bytesOfWord (wordOfBytes b0 b1 b2 b3) = [b0, b1, b2, b3] := by
  simp only [bytesOfWord, List.cons.injEq, and_true]
  refine ⟨?_, ?_, ?_, ?_⟩ <;> apply BitVec.eq_of_getLsbD_eq <;> intro i hi <;>
    simp only [byteOfWord, wordOfBytes, BitVec.getLsbD_append, BitVec.getLsbD_setWidth, BitVec.getLsbD_ushiftRight]
  · simp [hi]
  · simp [hi, show ¬8 + i < 8 by omega, show 8 + i - 8 = i by omega]
  · simp [hi, show ¬16 + i < 8 by omega, show 16 + i - 8 - 8 = i by omega, show ¬16 + i - 8 < 8 by omega]
  · simp [hi, show ¬24 + i < 8 by omega, show 24 + i - 8 - 8 - 8 = i by omega, show ¬24 + i - 8 < 8 by omega,
      show ¬24 + i - 8 - 8 < 8 by omega]

/-- Settles O3: four bytes that decode make their command's word, whose bytes they therefore are. -/
theorem commandBytesRoundTrip : Obligations.CommandBytesRoundTrip := by
  intro l i rest
  constructor
  · intro h
    unfold decodeBytes at h
    split at h
    · rename_i b0 b1 b2 b3 bs
      split at h <;> cases h
      rename_i hd
      rw [encodeBytes, ← decodeWord_ok_iff.1 hd, bytesOfWord_wordOfBytes]
      rfl
    · cases h
  · rintro rfl
    exact decodeBytes_encodeBytes i rest

end Sys2Proof

namespace Sys2Proof.Machine

/-! ### Illegal values -/

/-- Every command's word lies in 1 to 10 (30_encoding.md R91). -/
theorem encode_range (i : Instr) : 1 ≤ (encode i).toNat ∧ (encode i).toNat ≤ 10 := by
  cases i <;> decide

/-- The write of a word that decodes to no command, while idle, is rejected (30_encoding.md R92). -/
theorem writeCmd_illegal {v : Word} {s : State} (hb : s.estat.busy = false) (hd : ∀ i, decodeWord v ≠ .ok i) :
    writeCmd v s = .settled (rejectIllegal v s) := by
  cases hv : decodeWord v with
  | ok i => exact (hd i hv).elim
  | error e => simp only [writeCmd, hb, hv, Bool.false_eq_true, if_false]

/-- Settles O7: a value outside 1 to 10 is no command's word, so that its due write is the rejection. -/
theorem illegalValueRejected : Obligations.IllegalValueRejected := by
  intro s rest v hi hb hv
  have hd : ∀ i, decodeWord v ≠ .ok i := by
    intro i h
    rw [decodeWord_ok_iff.1 h] at hv
    have := encode_range i
    omega
  rw [step_due_settled hi ((hostMove_write_cmd v _).trans (writeCmd_illegal hb hd)), rejectIllegal,
    BitVec.setWidth_eq_extractLsb' (by decide)]
  rfl

end Sys2Proof.Machine
end

section
/-! SUPPORT. The events of a step (20_memory.md R69): a step of a command makes at most one (00_scope.md R13), of a
form the engine may make (30_encoding.md R94 to R100; 40_port_handshake.md R130 to R134; 20_memory.md R61 to R64), and
of host memory only what its command may make (20_memory.md R74). -/

namespace Sys2Proof.Machine

open Sys2Proof.Safety

/-! ### The bytes and addresses of an event -/

/-- A word of an aligned sector is aligned (20_memory.md R63). -/
theorem misaligned_sectorWord {p : Word} (j : BitVec 7) (h : misaligned p = false) :
    misaligned (sectorWord p j) = false := by
  rw [misaligned_iff] at *
  simp only [sectorWord, BitVec.toNat_add, BitVec.toNat_mul, BitVec.ofNat_eq_ofNat, BitVec.toNat_ofNat]
  omega

/-- A 32-bit data write's low half is 0 (40_port_handshake.md R133). -/
theorem wideWrite_low (x : Half) : (x ++ (0 : Half) : Word).extractLsb' 0 16 = 0 := by
  apply BitVec.eq_of_getLsbD_eq
  intro i hi
  simp only [BitVec.getLsbD_extractLsb', BitVec.getLsbD_append]
  simp [hi]

/-- Each byte `set_address` writes has its register's form (30_encoding.md R95, R97). -/
theorem addrByte_writeForm (c : Config) (r : DriveRecord) (d : BitVec 1) (sec : Word) (p : AddrPos) :
    writeForm c (addrByte c r d sec p) (addrReg p) := by
  cases p with
  | secnum | cyllo | cylhi => trivial
  | devhead =>
    simp only [addrByte, addrReg, writeForm]
    split
    · exact ⟨d, _, .inr (.inr rfl)⟩
    · exact ⟨d, _, .inr (.inl rfl)⟩

/-- The byte that selects a drive has the form of a device/head byte (30_encoding.md R97). -/
theorem devsel_headForm (c : Config) (d : BitVec 1) : headForm c (devsel c d) := ⟨d, 0, .inl rfl⟩

/-- A chunk of at least one sector has 1 to `P_MAX_CHUNK` sectors (41_transfer.md R164). -/
theorem chunkSize_range {c : Config} {n : Word} (hc : c.legal = true) (hn : n ≠ 0) :
    1 ≤ (chunkSize c n).toNat ∧ (chunkSize c n).toNat ≤ c.maxChunk.toNat := by
  simp only [Config.legal, Bool.and_eq_true, bne_iff_ne] at hc
  obtain ⟨⟨-, hmax⟩, -⟩ := hc
  have hmax0 : c.maxChunk.toNat ≠ 0 := fun h => hmax (BitVec.eq_of_toNat_eq h)
  have hn0 : n.toNat ≠ 0 := fun h => hn (BitVec.eq_of_toNat_eq h)
  have hbyte := c.maxChunk.isLt
  unfold chunkSize
  split
  · rw [BitVec.toNat_setWidth, Nat.mod_eq_of_lt (by omega)]
    omega
  · omega

/-! ### What a step's event may be -/

/-- What the events of a state's next step need of it: an aligned buffer address behind the check (20_memory.md R62),
and at the write of the sector count a chunk of 1 to `P_MAX_CHUNK` sectors (30_encoding.md R100). -/
structure EventReady (s : State) : Prop where
  aligned : BufferAligned s
  chunk : s.phase = .read .seccnt ∨ s.phase = .write .seccnt → 1 ≤ s.v.k.toNat ∧ s.v.k.toNat ≤ s.cfg.maxChunk.toNat

theorem eventReady_of_inv {s : State} (h : Inv s) : EventReady s := by
  refine ⟨h.buffer, fun hp => ?_⟩
  have hc : InChunk s 0 := by
    obtain hp | hp := hp
    · exact (h.transfer.reads _ hp).1
    · exact (h.transfer.writes _ hp).1
  rw [hc.size]
  exact chunkSize_range h.config hc.some

/-- Where a command stands after its snapshot: PARSEID and IDENTIFY at their `OK` finish, DISCOVER at its drive 1 or
its count (42_identify.md R201 to R203). -/
def AfterSnapshot (c : Instr) (t : State) : Prop :=
  (c = .parseid ∨ c = .identify) ∧ t.phase = .finishing c .ok ∨
    c = .discover ∧ (t.phase = .discover (.drive .select) ∧ t.v.dd = 1 ∨ t.phase = .discover .count)

/-- Command `c` may use host memory by event `e` in a step to `t`: the clauses of `MemoryUse`. -/
def MayUseMemory (c : Instr) (t : State) : Event → Prop
  | .mw _ _ => c = .read ∨ c = .identify ∨ c = .discover
  | .mr _ _ => c = .write
  | .ms _ => AfterSnapshot c t
  | _ => True

/-- Event `e` is one a step of command `c` from `s` to `t` may make. -/
structure MayMake (c : Instr) (s t : State) (e : Event) : Prop where
  legal : EventReady s → EventOk s.cfg e
  memory : MayUseMemory c t e

/-- A step of command `c` makes no event, or one that it may make. -/
def MakesOneEvent (c : Instr) (s t : State) : Prop :=
  t.trace = s.trace ∨ ∃ e, MayMake c s t e ∧ t.trace = e :: s.trace

theorem MakesOneEvent.memoryUse {c : Instr} {s t : State} (h : MakesOneEvent c s t) : MemoryUse c s t := by
  obtain ht | ⟨e, he, ht⟩ := h
  · have none : ∀ e, t.trace ≠ e :: s.trace := fun e hte => List.cons_ne_self e s.trace (hte.symm.trans ht)
    exact ⟨.inl ht, fun _ _ h => (none _ h).elim, fun _ _ h => (none _ h).elim, fun _ h => (none _ h).elim⟩
  · have same : ∀ e', t.trace = e' :: s.trace → MayUseMemory c t e' := by
      intro e' ht'
      obtain rfl : e = e' := (List.cons.inj (ht.symm.trans ht')).1
      exact he.memory
    exact ⟨.inr ⟨e, ht⟩, fun _ _ => same _, fun _ _ => same _, fun _ => same _⟩

theorem MakesOneEvent.traceOk {c : Instr} {s t : State} (h : MakesOneEvent c s t) (hr : EventReady s)
    (hs : TraceOk s) (hc : t.cfg = s.cfg) : TraceOk t := by
  unfold TraceOk
  rw [hc]
  obtain ht | ⟨e, he, ht⟩ := h <;> rw [ht]
  · exact hs
  · exact List.forall_mem_cons.2 ⟨he.legal hr, hs⟩

/-! ### Steps that make no event, or one at the device -/

theorem MovesSequencer.trace {s t : State} (h : MovesSequencer s t) : t.trace = s.trace := by rw [h]

/-- A subroutine's update that makes no event, with a move of the sequencer after it. -/
theorem Grows.makesNone {c : Instr} {s u t : State} (hu : Grows s u []) (ht : MovesSequencer u t) :
    MakesOneEvent c s t := .inl (ht.trace.trans hu)

/-- A subroutine's update that makes one event the step may make, with a move of the sequencer after it. -/
theorem Grows.makesOne {c : Instr} {s u t : State} {e : Event} (hu : Grows s u [e]) (ht : MovesSequencer u t)
    (hl : EventReady s → EventOk s.cfg e) (hm : MayUseMemory c t e) : MakesOneEvent c s t :=
  .inr ⟨e, ⟨hl, hm⟩, ht.trace.trans hu⟩

/-- An update that makes no event, after which the command goes on. -/
theorem goOn_event_none {c : Instr} {s u t : State} {ph : Phase} (h : goOn ph u = .next t)
    (hu : u.trace = s.trace) : MakesOneEvent c s t := Grows.makesNone hu (goOn_movesSequencer h)

/-- A write of a byte of its register's form, after which the command goes on. -/
theorem goOn_event_write {c : Instr} {s u t : State} {r : DevReg} {b : Byte} {ph : Phase} (h : goOn ph u = .next t)
    (hu : u.trace = .w r b :: s.trace) (hb : EventReady s → writeForm s.cfg b r) : MakesOneEvent c s t :=
  Grows.makesOne (e := .w r b) hu (goOn_movesSequencer h) hb trivial

theorem waitNotBusy_event {c : Instr} {p : NbPos} {s u t : State} (h : (waitNotBusy p s).leaves u)
    (ht : MovesSequencer u t) : MakesOneEvent c s t := by
  obtain hu | ⟨b, hu⟩ := waitNotBusy_trace h
  · exact hu.makesNone ht
  · exact hu.makesOne ht (fun _ => trivial) trivial

theorem waitDataRequest_event {c : Instr} {p : DrqPos} {s u t : State} (h : (waitDataRequest p s).leaves u)
    (ht : MovesSequencer u t) : MakesOneEvent c s t := by
  obtain hu | ⟨b, hu⟩ | ⟨b, hu⟩ := waitDataRequest_trace h
  · exact hu.makesNone ht
  · exact hu.makesOne ht (fun _ => trivial) trivial
  · exact hu.makesOne ht (fun _ => trivial) trivial

theorem probeCtrl_event {c : Instr} {p : ProbePos} {s u t : State} (h : (probeCtrl p s).leaves u)
    (ht : MovesSequencer u t) : MakesOneEvent c s t := by
  obtain hu | hu | ⟨b, hu⟩ | ⟨b, hu⟩ := probeCtrl_trace h <;> exact hu.makesOne ht (fun _ => trivial) trivial

theorem setAddress_event {c : Instr} {p : AddrPos} {s u t : State} (h : (setAddress p s).leaves u)
    (ht : MovesSequencer u t) : MakesOneEvent c s t := by
  obtain ⟨-, rfl⟩ := setAddress_leaves h
  exact Grows.makesOne (e := .w _ _) (devWrite8_trace _ _ s) ht (fun _ => addrByte_writeForm _ _ _ _ _) trivial

/-! ### The movers and the parse -/

/-- `move_in` accesses the device as its transport does, and stores to its aligned sector (40_port_handshake.md R130,
R132, R141). -/
theorem moveIn_event {c : Instr} {q : InPos} {s u t : State} (hc : c = .read ∨ c = .identify ∨ c = .discover)
    (hb : bufferPos s.phase = true) (h : (moveIn s.v.p q s).leaves u) (ht : MovesSequencer u t) :
    MakesOneEvent c s t := by
  obtain hu | ⟨b, hl, hu⟩ | ⟨b, hl, hu⟩ | ⟨w, hl, hu⟩ | hu := moveIn_trace h
  · exact hu.makesNone ht
  · exact hu.makesOne ht (fun _ => hl) trivial
  · exact hu.makesOne ht (fun _ => hl) trivial
  · exact hu.makesOne ht (fun _ => hl) trivial
  · exact hu.makesOne ht (fun hr => misaligned_sectorWord _ (hr.aligned hb)) hc

/-- `move_out` accesses the device as its transport does, and loads from its aligned sector (40_port_handshake.md R131,
R133, R142). -/
theorem moveOut_event {q : OutPos} {s u t : State} (hb : bufferPos s.phase = true)
    (h : (moveOut s.v.p q s).leaves u) (ht : MovesSequencer u t) : MakesOneEvent .write s t := by
  obtain hu | ⟨b, hl, hu⟩ | ⟨b, hl, hu⟩ | ⟨x, hl, hu⟩ | ⟨w, hu⟩ := moveOut_trace h
  · exact hu.makesNone ht
  · exact hu.makesOne ht (fun _ => hl) trivial
  · exact hu.makesOne ht (fun _ => hl) trivial
  · exact hu.makesOne ht (fun _ => ⟨hl, wideWrite_low x⟩) trivial
  · exact hu.makesOne ht (fun hr => misaligned_sectorWord _ (hr.aligned hb)) rfl

/-- A parse takes its one snapshot of the aligned block (42_identify.md R210). -/
theorem parse_event {c : Instr} {d : BitVec 1} {s u t : State} (hb : bufferPos s.phase = true)
    (h : parse d s.v.p s = some u) (ht : MovesSequencer u t) (ha : AfterSnapshot c t) : MakesOneEvent c s t := by
  obtain ⟨-, n, rfl⟩ := parse_some h
  exact Grows.makesOne (e := .ms s.v.p) (by simp [Grows]) ht (fun hr => hr.aligned hb) ha

/-! ### The positions of each command -/

theorem setaddrAt_event {pos : SetaddrPos} {s t : State} (h : setaddrAt pos s = .next t) :
    MakesOneEvent .setaddr s t := by
  cases pos with
  | check =>
    simp only [setaddrAt] at h
    split at h <;> exact goOn_event_none h rfl
  | address p =>
    obtain ⟨u, hu, hm⟩ := Sub.into_leaves h fun _ u => goto_movesSequencer _ u
    exact setAddress_event hu hm

/-- What the events of `transfer(dir)` need of a direction: its sector count and its command byte have their registers'
forms, and its mover makes only events its command may make. -/
structure Direction.MakesLegal {μ : Type} (x : Direction μ) : Prop where
  chunk : ∀ s, s.phase = x.place .seccnt → EventReady s → 1 ≤ s.v.k.toNat ∧ s.v.k.toNat ≤ s.cfg.maxChunk.toNat
  command : ∀ c, writeForm c (x.cmdByte c) .command
  moves : ∀ q s u t, s.phase = x.place (.move q) → (x.move s.v.p q s).leaves u → MovesSequencer u t →
    MakesOneEvent x.cmd s t

theorem reading_makesLegal : reading.MakesLegal where
  chunk _ hp hr := hr.chunk (.inl hp)
  command _ := .inl rfl
  moves _ _ _ _ hp := moveIn_event (.inl rfl) (by rw [hp]; rfl)

theorem writing_makesLegal : writing.MakesLegal where
  chunk _ hp hr := hr.chunk (.inr hp)
  command _ := .inr (.inl rfl)
  moves _ _ _ _ hp := moveOut_event (by rw [hp]; rfl)

theorem transferAt_event {μ : Type} {x : Direction μ} (hx : x.MakesLegal) {pos : XferPos μ} {s t : State}
    (hp : s.phase = x.place pos) (h : transferAt x pos s = .next t) : MakesOneEvent x.cmd s t := by
  cases pos with
  | check =>
    simp only [transferAt] at h
    split at h
    · exact goOn_event_none h rfl
    · split at h <;> exact goOn_event_none h rfl
  | chunk =>
    simp only [transferAt] at h
    split at h <;> exact goOn_event_none h rfl
  | advance =>
    simp only [transferAt, advance] at h
    split at h
    · split at h <;> exact goOn_event_none h (by simp)
    · exact goOn_event_none h (by simp)
  | select => exact goOn_event_write h rfl fun _ => devsel_headForm _ _
  | precomp => exact goOn_event_write h rfl fun _ => rfl
  | seccnt => exact goOn_event_write h rfl (hx.chunk s hp)
  | command => exact goOn_event_write h rfl fun _ => hx.command s.cfg
  | notBusy p | afterChunk p =>
    obtain ⟨u, hu, hm⟩ := Sub.into_leaves h (orFinish_movesSequencer _ _)
    exact waitNotBusy_event hu hm
  | address p =>
    obtain ⟨u, hu, hm⟩ := Sub.into_leaves h (orFinish_movesSequencer _ _)
    exact setAddress_event hu hm
  | dataRequest p =>
    obtain ⟨u, hu, hm⟩ := Sub.into_leaves h fun r u => by unfold orFinish; split <;> rfl
    exact waitDataRequest_event hu hm
  | move q =>
    obtain ⟨u, hu, hm⟩ := Sub.into_leaves h fun _ u => goto_movesSequencer _ u
    exact hx.moves q s u t hp hu hm

/-- `identify_one` makes only events its caller may make, where its caller only moves the sequencer on an outcome and
stands as it must after the snapshot (42_identify.md R200). -/
theorem identifyOne_event {c : Instr} {place : IdentPos → Phase} {k : Result → State → State} {d : BitVec 1}
    {pos : IdentPos} {s t : State} (h : identifyOne place k d pos s = .next t) (hc : c = .identify ∨ c = .discover)
    (hb : bufferPos s.phase = true) (hk : ∀ r u, MovesSequencer u (k r u)) (ha : ∀ u, AfterSnapshot c (k .ok u)) :
    MakesOneEvent c s t := by
  cases pos with
  | select => exact goOn_event_write h rfl fun _ => devsel_headForm _ _
  | command => exact goOn_event_write h rfl fun _ => .inr (.inr rfl)
  | notBusy p =>
    obtain ⟨u, hu, hm⟩ := Sub.into_leaves h fun r u => by split <;> [rfl; exact hk r u]
    exact waitNotBusy_event hu hm
  | dataRequest p =>
    obtain ⟨u, hu, hm⟩ := Sub.into_leaves h fun r u => by split <;> [rfl; exact hk r u]
    exact waitDataRequest_event hu hm
  | move p =>
    obtain ⟨u, hu, hm⟩ := Sub.into_leaves h fun _ u => goto_movesSequencer _ u
    exact moveIn_event (.inr hc) hb hu hm
  | parse =>
    simp only [identifyOne] at h
    split at h
    · cases h
    · rename_i u hu
      cases h
      exact parse_event hb hu (hk _ _) (ha u)

theorem identifyAt_event {pos : IdentifyPos} {s t : State} (hp : s.phase = .identify pos)
    (h : identifyAt pos s = .next t) : MakesOneEvent .identify s t := by
  cases pos with
  | check =>
    simp only [identifyAt] at h
    split at h <;> exact goOn_event_none h rfl
  | clear => exact goOn_event_none h (by simp)
  | drive p =>
    simp only [identifyAt] at h
    exact identifyOne_event h (.inl rfl) (by rw [hp]; rfl) (fun _ => goto_movesSequencer _)
      fun _ => .inl ⟨.inr rfl, rfl⟩

theorem parseidAt_event {pos : ParseidPos} {s t : State} (hp : s.phase = .parseid pos)
    (h : parseidAt pos s = .next t) : MakesOneEvent .parseid s t := by
  cases pos with
  | check =>
    simp only [parseidAt] at h
    split at h <;> exact goOn_event_none h rfl
  | parse =>
    simp only [parseidAt] at h
    split at h
    · cases h
    · rename_i u hu
      cases h
      exact parse_event (by rw [hp]; rfl) hu rfl (.inl ⟨.inl rfl, rfl⟩)

/-- After a drive DISCOVER goes on with drive 1 or counts (42_identify.md R203). -/
theorem driveDone_afterSnapshot (r : Result) (s : State) : AfterSnapshot .discover (driveDone r s) := by
  refine .inr ⟨rfl, ?_⟩
  unfold driveDone
  by_cases hr : r = .ok <;> simp only [hr, if_true, if_false] <;> split
  · exact .inl ⟨rfl, rfl⟩
  · exact .inr rfl
  · exact .inl ⟨rfl, rfl⟩
  · exact .inr rfl

theorem discoverAt_event {pos : DiscoverPos} {s t : State} (hp : s.phase = .discover pos)
    (h : discoverAt pos s = .next t) : MakesOneEvent .discover s t := by
  cases pos with
  | check =>
    simp only [discoverAt] at h
    split at h <;> exact goOn_event_none h rfl
  | clear => exact goOn_event_none h (by simp)
  | probe p =>
    obtain ⟨u, hu, hm⟩ := Sub.into_leaves h fun r u => by split <;> rfl
    exact probeCtrl_event hu hm
  | drive p =>
    simp only [discoverAt] at h
    exact identifyOne_event h (.inr rfl) (by rw [hp]; rfl) driveDone_movesSequencer (driveDone_afterSnapshot _)
  | count => exact goOn_event_none h rfl

/-! ### Every step -/

theorem positionStep_event {c : Instr} {s t : State} (hc : s.phase.command = some c)
    (h : positionStep s = .next t) : MakesOneEvent c s t := by
  cases hp : s.phase <;> rw [hp] at hc <;> cases hc <;> simp only [positionStep, hp] at h
  case select => exact goOn_event_write h rfl fun _ => devsel_headForm _ _
  case waitnb p =>
    obtain ⟨u, hu, hm⟩ := Sub.into_leaves h fun _ u => goto_movesSequencer _ u
    exact waitNotBusy_event hu hm
  case waitdrq p =>
    obtain ⟨u, hu, hm⟩ := Sub.into_leaves h fun _ u => goto_movesSequencer _ u
    exact waitDataRequest_event hu hm
  case setaddr p => exact setaddrAt_event h
  case read p => exact transferAt_event reading_makesLegal hp h
  case write p => exact transferAt_event writing_makesLegal hp h
  case identify p => exact identifyAt_event hp h
  case parseid p => exact parseidAt_event hp h
  case probe p =>
    obtain ⟨u, hu, hm⟩ := Sub.into_leaves h fun _ u => goto_movesSequencer _ u
    exact probeCtrl_event hu hm
  case discover p => exact discoverAt_event hp h
  case finishing r => cases h; exact .inl rfl

/-- A step of a command, accepted, running, finished or turned away, makes no event, or one that it may make. -/
theorem exec_event {c : Instr} {s t : State} (h : exec c s = .next t) : MakesOneEvent c s t := by
  obtain ⟨-, rfl⟩ | ⟨r, -, rfl⟩ | ⟨-, -, rfl⟩ | ⟨hc, -, hs⟩ := exec_cases h
  · exact .inl rfl
  · exact .inl rfl
  · exact .inl rfl
  · exact positionStep_event hc hs

/-- A host operation that starts no command makes no event. -/
theorem hostMove_traceOk {op : HostOp} {s t : State} (hs : TraceOk s) (h : hostMove op s = .settled t) : TraceOk t := by
  obtain ⟨-, rfl⟩ | hm := hostMove_settled h
  · exact hs
  · rwa [TraceOk, hm.cfg, hm.trace]

/-- Settles O58: the trace grows only by a command's step, by an event the command may make. -/
theorem everyStepMakesOnlyLegalEvents : Obligations.EveryStepMakesOnlyLegalEvents := by
  refine ⟨fun s t hs h => ?_, fun c s t _ h => (exec_event h).memoryUse⟩
  have hr := eventReady_of_inv hs
  have hl : ∀ l, EventReady { s with inputs := l } := fun _ => ⟨hr.aligned, hr.chunk⟩
  obtain ⟨l, ⟨i, -, he⟩ | ⟨v, i, -, -, -, he⟩ | ⟨op, -, hm⟩ | rfl⟩ := step_cases h
  · exact (exec_event he).traceOk (hl l) hs.events (exec_hostSide he).cfg
  · exact (exec_event he).traceOk (hl l) hs.events (exec_hostSide he).cfg
  · exact hostMove_traceOk (s := { s with inputs := l }) hs.events hm
  · exact hs.events

end Sys2Proof.Machine
end

section
/-! SUPPORT. What a read of the device and the draw of a budget answer, in closed form (20_memory.md R70,
40_port_handshake.md R136); and the waits one step at a time, alone and inlined in a command (R135 to R138). -/

namespace Sys2Proof.Machine

open Sys2Proof.Safety

/-! ### What the device answers -/

theorem deviceAnswer_state (q : ReadPort) (s : State) :
    (deviceAnswer q s).2 = { s with devScript := s.devScript.tail } := by
  unfold deviceAnswer
  split <;> rename_i h
  · rw [h, List.tail_cons]
  · rw [show s.devScript.tail = s.devScript by rw [h, List.tail_nil]]

theorem deviceAnswer_script {s : State} {x : Word} {xs : List Word} (q : ReadPort) (h : s.devScript = x :: xs) :
    (deviceAnswer q s).1 = x := by
  simp only [deviceAnswer, h]

/-- An 8-bit read takes the script's next answer and makes its one event. -/
theorem devRead8_state (r : DevReg) (s : State) :
    (devRead8 r s).2 =
      { s with devScript := s.devScript.tail, trace := .r r (devRead8 r s).1 :: s.trace } := by
  simp only [devRead8, deviceAnswer_state, emit]

theorem latchRead8_state (s : State) :
    (latchRead8 s).2 = { s with devScript := s.devScript.tail, trace := .lr (latchRead8 s).1 :: s.trace } := by
  simp only [latchRead8, deviceAnswer_state, emit]

theorem devRead32_state (s : State) :
    (devRead32 s).2 = { s with devScript := s.devScript.tail, trace := .r32 (devRead32 s).1 :: s.trace } := by
  simp only [devRead32, deviceAnswer_state, emit]

theorem devRead8_answers (r : DevReg) (s : State) : Answers8 s (devRead8 r s).1 := by
  intro x xs h
  simp only [devRead8, deviceAnswer_script _ h]

theorem latchRead8_answers (s : State) : Answers8 s (latchRead8 s).1 := by
  intro x xs h
  simp only [latchRead8, deviceAnswer_script _ h]

theorem devRead32_answers (s : State) : Answers32 s (devRead32 s).1 := by
  intro x xs h
  simp only [devRead32, deviceAnswer_script _ h]

/-! ### The waits' updates -/

theorem settleRead_eq (s : State) :
    settleRead s =
      { s with
        devScript := s.devScript.tail, trace := .r .status (devRead8 .status s).1 :: s.trace
        v := { s.v with t := s.v.t + 1 } } := by
  simp only [settleRead, devRead8_state]

theorem pollRead_eq (s : State) :
    pollRead s =
      { s with
        devScript := s.devScript.tail, trace := .r .status (devRead8 .status s).1 :: s.trace
        v := { s.v with status := (devRead8 .status s).1 } } := by
  simp only [pollRead, devRead8_state]

theorem captureError_eq (s : State) :
    captureError s =
      { s with
        devScript := s.devScript.tail, trace := .r .error (devRead8 .error s).1 :: s.trace
        errinfo := s.v.status ++ (devRead8 .error s).1 } := by
  simp only [captureError, devRead8_state, packErrinfo]

/-- The draw takes the script's next budget, or a free one, and is at least 1 (40_port_handshake.md R136). -/
theorem drawBudget_eq (s : State) :
    ∃ b n, Draws s b ∧
      drawBudget s = { s with budgets := s.budgets.tail, draws := n, v := { s.v with budget := b } } := by
  unfold drawBudget
  split <;> rename_i h
  · refine ⟨_, s.draws, ⟨Nat.le_add_left .., fun y ys e => ?_⟩, by rw [h, List.tail_cons]⟩
    rw [h] at e
    cases e
    rfl
  · refine ⟨_, _, ⟨Nat.le_add_left .., fun y ys e => ?_⟩,
      by rw [show s.budgets.tail = s.budgets by rw [h, List.tail_nil]]⟩
    rw [h] at e
    cases e

/-! ### The settle loop -/

theorem goto_self {ph : Phase} {s : State} (h : s.phase = ph) : goto ph s = s := by
  rw [← h]
  rfl

/-- The step of the settle loop of a wait that goes on at `again` and polls at `poll` (40_port_handshake.md R135,
R136). -/
def settleStep (again poll : Phase) (s : State) : State :=
  if s.v.t < s.cfg.settle then goto again (settleRead s) else goto poll (drawBudget s)

theorem waitNotBusy_settle {emb : NbPos → Phase} {k : Result → State → State} (s : State) :
    (waitNotBusy .settle s).into emb k = .next (settleStep (emb .settle) (emb .poll) s) := by
  simp only [waitNotBusy, settleStep]
  split <;> rfl

theorem waitDataRequest_settle {emb : DrqPos → Phase} {k : Result → State → State} (s : State) :
    (waitDataRequest .settle s).into emb k = .next (settleStep (emb .settle) (emb .poll) s) := by
  simp only [waitDataRequest, settleStep]
  split <;> rfl

/-- Every wait's settle position takes the settle loop's step. -/
theorem positionStep_settle {s : State} {ph : Phase} (h : settleToPoll s.phase = some ph) :
    positionStep s = .next (settleStep s.phase ph s) := by
  unfold settleToPoll at h
  split at h <;> rename_i hp <;> cases h <;> rw [positionStep, hp]
  case h_2 | h_4 | h_7 | h_10 | h_12 => exact waitDataRequest_settle s
  all_goals exact waitNotBusy_settle s

/-- Settles O21: every settle position takes the same step, a status read or the draw. -/
theorem waitSettlesAndDraws : Obligations.WaitSettlesAndDraws := by
  intro s i ph hc hp
  rw [exec_running hc, positionStep_settle hp]
  refine ⟨fun ht => ⟨_, devRead8_answers .status s, ?_⟩, fun ht => ?_⟩
  · rw [settleStep, if_pos ht, settleRead_eq]
    rfl
  · obtain ⟨b, n, hb, hd⟩ := drawBudget_eq s
    exact ⟨b, n, hb, by rw [settleStep, if_neg (Nat.not_lt.2 ht), hd]; rfl⟩

/-! ### WAITNB's poll -/

theorem exec_waitnb_at {p : NbPos} {s : State} (h : s.phase = .waitnb p) :
    exec .waitnb s = (waitNotBusy p s).into .waitnb fun r => goto (.finishing .waitnb r) := by
  rw [exec_running (by rw [h]; rfl), positionStep, h]

theorem exec_waitdrq_at {p : DrqPos} {s : State} (h : s.phase = .waitdrq p) :
    exec .waitdrq s = (waitDataRequest p s).into .waitdrq fun r => goto (.finishing .waitdrq r) := by
  rw [exec_running (by rw [h]; rfl), positionStep, h]

/-- A not-ready poll goes on with one unit of budget less while more than one is left. -/
theorem pollAgain_more {π : Type} (p : π) {s : State} (h : 1 < s.v.budget) :
    pollAgain p s = .more p (spendBudget s) := if_neg (by simp only [spendBudget_v]; omega)

theorem pollAgain_timeout {π : Type} (p : π) {s : State} (h : s.v.budget ≤ 1) :
    pollAgain p s = .ret .timeout (spendBudget s) := if_pos (by simp only [spendBudget_v]; omega)

theorem waitNotBusy_ready {s : State} (h : statusBusy s.cfg (devRead8 .status s).1 = false) :
    waitNotBusy .poll s = .ret .ok (pollRead s) := if_neg (by simp [h])

theorem waitNotBusy_busy {s : State} (h : statusBusy s.cfg (devRead8 .status s).1 = true) :
    waitNotBusy .poll s = pollAgain .poll (pollRead s) := if_pos (by simp [h])

/-- Settles O22: the poll reads one status byte and asks its BUSY bit alone. -/
theorem waitnbPolls : Obligations.WaitnbPolls := by
  intro s hp
  have hbudget : (pollRead s).v.budget = s.v.budget := by rw [pollRead_v]
  refine ⟨_, devRead8_answers .status s, fun hb => ?_, fun hb hg => ?_, fun hb hg => ?_⟩
  · rw [exec_waitnb_at hp, waitNotBusy_ready hb, pollRead_eq]
    rfl
  · rw [exec_waitnb_at hp, waitNotBusy_busy hb, pollAgain_more _ (hbudget ▸ hg), Sub.into,
      goto_self (by simp [hp]), pollRead_eq]
    rfl
  · rw [exec_waitnb_at hp, waitNotBusy_busy hb, pollAgain_timeout _ (hbudget ▸ hg), pollRead_eq]
    rfl

end Sys2Proof.Machine
end

section
/-! SUPPORT. The waits inlined in READ, WRITE, IDENTIFY and DISCOVER are those of WAITNB and WAITDRQ
(40_port_handshake.md R137, R138): a wait never looks at the phase. -/

namespace Sys2Proof.Machine

open Sys2Proof.Safety

/-! ### A subroutine that does not look at the phase -/

/-- A subroutine's step with its state at another phase. -/
def Sub.atPhase {π : Type} (ph : Phase) : Sub π → Sub π
  | .more p s => .more p (goto ph s)
  | .ret r s => .ret r (goto ph s)
  | .halt f => .halt f

theorem devRead8_goto (ph : Phase) (r : DevReg) (s : State) : (devRead8 r (goto ph s)).1 = (devRead8 r s).1 := by
  simp only [devRead8, deviceAnswer, goto_devScript, goto_trace]
  cases s.devScript <;> rfl

theorem pollRead_goto (ph : Phase) (s : State) : pollRead (goto ph s) = goto ph (pollRead s) := by
  rw [pollRead_eq, pollRead_eq, devRead8_goto]
  rfl

theorem settleRead_goto (ph : Phase) (s : State) : settleRead (goto ph s) = goto ph (settleRead s) := by
  rw [settleRead_eq, settleRead_eq, devRead8_goto]
  rfl

theorem captureError_goto (ph : Phase) (s : State) : captureError (goto ph s) = goto ph (captureError s) := by
  rw [captureError_eq, captureError_eq, devRead8_goto]
  rfl

theorem drawBudget_goto (ph : Phase) (s : State) : drawBudget (goto ph s) = goto ph (drawBudget s) := by
  unfold drawBudget
  simp only [goto_budgets]
  split <;> rfl

theorem pollAgain_goto {π : Type} (ph : Phase) (p : π) (s : State) :
    pollAgain p (goto ph s) = (pollAgain p s).atPhase ph := by
  obtain hb | hb : s.v.budget ≤ 1 ∨ 1 < s.v.budget := le_or_gt _ _
  · rw [pollAgain_timeout _ hb, pollAgain_timeout _ (s := goto ph s) hb]
    rfl
  · rw [pollAgain_more _ hb, pollAgain_more _ (s := goto ph s) hb]
    rfl

theorem waitNotBusy_goto (ph : Phase) (p : NbPos) (s : State) :
    waitNotBusy p (goto ph s) = (waitNotBusy p s).atPhase ph := by
  cases p with
  | settle =>
    simp only [waitNotBusy, goto_v, goto_cfg, settleRead_goto, drawBudget_goto]
    split <;> rfl
  | poll =>
    simp only [waitNotBusy, goto_v, goto_cfg, pollRead_goto, pollAgain_goto]
    split <;> rfl

theorem waitDataRequest_goto (ph : Phase) (p : DrqPos) (s : State) :
    waitDataRequest p (goto ph s) = (waitDataRequest p s).atPhase ph := by
  cases p with
  | settle =>
    simp only [waitDataRequest, goto_v, goto_cfg, settleRead_goto, drawBudget_goto]
    split <;> rfl
  | poll =>
    simp only [waitDataRequest, goto_v, goto_cfg, pollRead_goto, pollAgain_goto]
    split <;> rfl
  | readError => rw [waitDataRequest, captureError_goto]; rfl

/-! ### WAITNB and WAITDRQ inlined -/

/-- A wait for not-busy inlined in a command is WAITNB's, where the command does with an outcome what `k` does
(00_scope.md R9). -/
theorem waitNotBusy_inlined {place : NbPos → Phase} {k k' : Result → State → State} (p : NbPos) (s : State)
    (hk : ∀ r u ph ph', k r (goto ph (goto ph' u)) = k' r u) :
    (waitNotBusy p s).into place k' = inlineNb place k (exec .waitnb { s with phase := .waitnb p }) := by
  have halone : exec .waitnb { s with phase := .waitnb p } =
      ((waitNotBusy p s).atPhase (.waitnb p)).into .waitnb fun r => goto (.finishing .waitnb r) := by
    rw [← waitNotBusy_goto]
    exact exec_waitnb_at rfl
  rw [halone]
  cases waitNotBusy p s with
  | more q u => rfl
  | ret r u => exact congrArg _ (hk r u _ _).symm
  | halt f => rfl

/-- The same for a wait for data request and WAITDRQ. -/
theorem waitDataRequest_inlined {place : DrqPos → Phase} {k k' : Result → State → State} (p : DrqPos) (s : State)
    (hk : ∀ r u ph ph', k r (goto ph (goto ph' u)) = k' r u) :
    (waitDataRequest p s).into place k' = inlineDrq place k (exec .waitdrq { s with phase := .waitdrq p }) := by
  have halone : exec .waitdrq { s with phase := .waitdrq p } =
      ((waitDataRequest p s).atPhase (.waitdrq p)).into .waitdrq fun r => goto (.finishing .waitdrq r) := by
    rw [← waitDataRequest_goto]
    exact exec_waitdrq_at rfl
  rw [halone]
  cases waitDataRequest p s with
  | more q u => rfl
  | ret r u => exact congrArg _ (hk r u _ _).symm
  | halt f => rfl

/-! ### What each command does with the outcome -/

theorem okOrFinish_eq (c : Instr) (ph : Phase) (r : Result) (s : State) :
    okOrFinish c ph r s = orFinish c ph r s := by
  unfold okOrFinish orFinish
  split <;> rfl

theorem orFinish_goto (c : Instr) (ph ph' : Phase) (r : Result) (s : State) :
    orFinish c ph r (goto ph' s) = orFinish c ph r s := by
  unfold orFinish
  split <;> rfl

/-- DISCOVER's loop on a failed drive (60_exceptions.md R246). -/
theorem driveDone_failed {r : Result} (h : r ≠ .ok) (s : State) : driveDone r s = absorb s := by
  simp only [driveDone, absorb, if_neg h]
  rfl

theorem absorb_goto (ph : Phase) (s : State) : absorb (goto ph s) = absorb s := by
  by_cases h : s.v.dd = 0
  · exact (if_pos h).trans (if_pos h).symm
  · exact (if_neg h).trans (if_neg h).symm

/-- Settles O24: each of the ten places inlines its wait, and hands the outcome on to the command's own
continuation. -/
theorem embeddedWaitsAreTheWaits : Obligations.EmbeddedWaitsAreTheWaits := by
  have transfer : ∀ c ph r u ph1 ph2, okOrFinish c ph r (goto ph1 (goto ph2 u)) = orFinish c ph r u := by
    intro c ph r u ph1 ph2
    rw [okOrFinish_eq, orFinish_goto, orFinish_goto]
  refine ⟨fun s p => ⟨fun hs => ?_, fun hs => ?_, fun hs => ?_, fun hs => ?_, fun hs => ?_, fun hs => ?_⟩,
    fun s p => ⟨fun hs => ?_, fun hs => ?_, fun hs => ?_, fun hs => ?_⟩⟩
  · exact (exec_read_at hs).trans (waitNotBusy_inlined p s (transfer _ _))
  · exact (exec_read_at hs).trans (waitNotBusy_inlined p s (transfer _ _))
  · exact (exec_write_at hs).trans (waitNotBusy_inlined p s (transfer _ _))
  · exact (exec_write_at hs).trans (waitNotBusy_inlined p s (transfer _ _))
  · refine (exec_identify_at hs).trans (waitNotBusy_inlined p s fun r u ph1 ph2 => ?_)
    unfold okOrFinish
    split <;> rfl
  · refine (exec_discover_at hs).trans (waitNotBusy_inlined p s fun r u ph1 ph2 => ?_)
    unfold okOrAbsorb
    split
    · rfl
    · rename_i hr
      rw [driveDone_failed hr, absorb_goto, absorb_goto]
  · exact (exec_read_at hs).trans (waitDataRequest_inlined p s fun r u ph1 ph2 => transfer _ _ r (armMove u) ph1 ph2)
  · exact (exec_write_at hs).trans (waitDataRequest_inlined p s fun r u ph1 ph2 => transfer _ _ r (armMove u) ph1 ph2)
  · refine (exec_identify_at hs).trans (waitDataRequest_inlined p s fun r u ph1 ph2 => ?_)
    split <;> rfl
  · refine (exec_discover_at hs).trans (waitDataRequest_inlined p s fun r u ph1 ph2 => ?_)
    split
    · rfl
    · rename_i hr
      rw [driveDone_failed hr, absorb_goto, absorb_goto]

end Sys2Proof.Machine
end

section
/-! SUPPORT. Runs of the machine and the events they make (20_memory.md R69); SELECT and PROBE, step by step and from
their `CMD` write to their finish (40_port_handshake.md R143, R146, R147). -/

namespace Sys2Proof.Machine

open Sys2Proof.Safety

/-! ### Runs -/

/-- The machine comes from `s` to `t` in some number of steps. -/
def Reaches (s t : State) : Prop := ∃ m, Host.Core.run core m s = .next t

/-- A run of `m + 1` steps is a step and a run of `m`. -/
theorem run_succ_next (M : Host.Core) {m : Nat} {s t : M.State} :
    M.run (m + 1) s = .next t ↔ ∃ u, M.step s = .next u ∧ M.run m u = .next t := by
  rw [Host.Core.run]
  cases M.step s <;> simp

theorem Reaches.refl (s : State) : Reaches s s := ⟨0, rfl⟩

theorem Reaches.step {s t : State} (h : step s = .next t) : Reaches s t :=
  ⟨1, (run_succ_next core).2 ⟨t, h, rfl⟩⟩

theorem Reaches.trans {s u t : State} (h : Reaches s u) (g : Reaches u t) : Reaches s t := by
  obtain ⟨m, hm⟩ := h
  induction m generalizing s with
  | zero => cases hm; exact g
  | succ m ih =>
    obtain ⟨v, hv, hm⟩ := (run_succ_next core).1 hm
    obtain ⟨n, hn⟩ := ih hm
    exact ⟨n + 1, (run_succ_next core).2 ⟨v, hv, hn⟩⟩

/-- With the host quiet, the running command's step is a step of the machine. -/
theorem Reaches.exec {c : Instr} {s t : State} (hc : s.phase.command = some c) (hi : s.inputs = [])
    (h : exec c s = .next t) : Reaches s t := .step ((step_quiet hc hi).trans h)

/-- A due `CMD` write of a command's word to the idle engine leads to its acceptance (10_state.md R22, R24). -/
theorem Reaches.issue {c : Instr} {s : State} {v : Word} {rest : List Input} (hp : s.phase = .idle)
    (hb : s.estat.busy = false) (hi : s.inputs = { delay := 0, op := .write 0x000 4 v } :: rest)
    (hd : decodeWord v = .ok c) : Reaches s (accept c (firstPosition c) { s with inputs := rest }) :=
  .step ((stepIssuesDecodedCommand s rest v c hi hb hd).trans (exec_accepts hp))

/-- The events of a part of a run are those its trace grew by, oldest first. -/
theorem eventsSince_of_grows {s t : State} {l : List Event} (h : Grows s t l) : eventsSince s t = l.reverse := by
  unfold eventsSince
  rw [show t.trace = l ++ s.trace from h, List.length_append, Nat.add_sub_cancel, List.take_left]

/-! ### SELECT -/

theorem exec_select_at {s : State} (h : s.phase = .select) :
    exec .select s =
      .next { s with trace := .w .devhead (devsel s.cfg s.v.d) :: s.trace, phase := .finishing .select .ok } := by
  rw [exec_running (by rw [h]; rfl), positionStep, h]
  rfl

/-- Settles O26: the acceptance, the one write, the finish. -/
theorem selectWritesDevhead : Obligations.SelectWritesDevhead := by
  refine ⟨fun s hs => exec_select_at hs, fun s hp hb hi => ?_⟩
  have hwrite := (Reaches.issue hp hb hi rfl).trans (.exec rfl rfl (exec_select_at rfl))
  obtain ⟨m, hm⟩ := hwrite.trans (.exec rfl rfl (exec_finishes rfl))
  refine ⟨m, { s.v with d := s.drive, sec := s.lba, n := s.count, p := s.buf, t := 0 }, [], ?_⟩
  rw [← goto_self hp] at hm ⊢
  exact hm

/-! ### PROBE -/

theorem exec_probe_at {p : ProbePos} {s : State} (h : s.phase = .probe p) :
    exec .probe s = (probeCtrl p s).into .probe fun r => goto (.finishing .probe r) := by
  rw [exec_running (by rw [h]; rfl), positionStep, h]

theorem exec_probe_writeLo {s : State} (h : s.phase = .probe .writeLo) :
    exec .probe s = .next { s with trace := .w .cyllo s.cfg.pat1 :: s.trace, phase := .probe .writeHi } :=
  exec_probe_at h

theorem exec_probe_writeHi {s : State} (h : s.phase = .probe .writeHi) :
    exec .probe s = .next { s with trace := .w .cylhi s.cfg.pat2 :: s.trace, phase := .probe .readLo } :=
  exec_probe_at h

theorem exec_probe_readLo {s : State} {b : Byte} (h : s.phase = .probe .readLo) (hb : (devRead8 .cyllo s).1 = b) :
    exec .probe s = .next
      { s with
        devScript := s.devScript.tail, trace := .r .cyllo b :: s.trace, v := { s.v with a := b }
        phase := .probe .readHi } := by
  rw [exec_probe_at h, probeCtrl, devRead8_state, hb]
  rfl

theorem exec_probe_readHi {s : State} {b : Byte} (h : s.phase = .probe .readHi) (hb : (devRead8 .cylhi s).1 = b) :
    exec .probe s = .next
      { s with
        devScript := s.devScript.tail, trace := .r .cylhi b :: s.trace
        phase := .finishing .probe (if s.v.a = s.cfg.pat1 ∧ b = s.cfg.pat2 then .ok else .noctrl) } := by
  rw [exec_probe_at h, probeCtrl, devRead8_state, hb]
  rfl

/-- Settles O27: each position is one access, and the device answers the reads. -/
theorem probeWritesReadsCompares : Obligations.ProbeWritesReadsCompares :=
  ⟨fun _ => exec_probe_writeLo, fun _ => exec_probe_writeHi,
    fun s hs => ⟨_, devRead8_answers .cyllo s, exec_probe_readLo hs rfl⟩,
    fun s hs => ⟨_, devRead8_answers .cylhi s, exec_probe_readHi hs rfl⟩⟩

/-- A scripted answer to an 8-bit read is the low byte of the script's next word. -/
theorem devRead8_script {s : State} {x : Word} {xs : List Word} (r : DevReg) (h : s.devScript = x :: xs) :
    (devRead8 r s).1 = x.extractLsb' 0 8 :=
  (devRead8_answers r s x xs h).trans (BitVec.setWidth_eq_extractLsb' (by decide))

/-- Settles O28: the acceptance, the four accesses with the script's two answers, the finish. -/
theorem probeWholeRun : Obligations.ProbeWholeRun := by
  intro s x y xs hp hb hi hs
  have hwrites := ((Reaches.issue (c := .probe) hp hb hi rfl).trans (.exec rfl rfl (exec_probe_writeLo rfl))).trans
    (.exec rfl rfl (exec_probe_writeHi rfl))
  have hreads := (hwrites.trans (.exec rfl rfl (exec_probe_readLo rfl (devRead8_script _ hs)))).trans
    (.exec rfl rfl (exec_probe_readHi rfl (devRead8_script _ (congrArg List.tail hs))))
  obtain ⟨m, hm⟩ := hreads.trans (.exec rfl rfl (exec_finishes rfl))
  refine ⟨m, _, hm, rfl, rfl, rfl, rfl, rfl, ?_, eventsSince_of_grows (l := [_, _, _, _]) rfl, rfl, rfl, rfl, rfl⟩
  exact apply_ite resultCode _ _ _

end Sys2Proof.Machine
end

section
/-! SUPPORT. What the five commands that touch no memory leave alone (40_port_handshake.md R143 to R145, R147,
41_transfer.md R163). -/

namespace Sys2Proof.Machine

open Sys2Proof.Safety

/-- No drive record, not `DRVCOUNT` and no memory is written. -/
structure KeepsStore (s t : State) : Prop extends KeepsRecords s t where
  mem : t.mem = s.mem

theorem MovesSequencer.store {s u t : State} (h : MovesSequencer u t) (hu : KeepsRecords s u) (hm : u.mem = s.mem) :
    KeepsStore s t := ⟨hu.sequencer h, h.mem.trans hm⟩

theorem goOn_store {ph : Phase} {s u t : State} (h : goOn ph u = .next t) (hu : KeepsRecords s u)
    (hm : u.mem = s.mem) : KeepsStore s t := (goOn_movesSequencer h).store hu hm

theorem setaddrAt_store {pos : SetaddrPos} {s t : State} (h : setaddrAt pos s = .next t) : KeepsStore s t := by
  cases pos with
  | check =>
    simp only [setaddrAt] at h
    split at h <;> exact goOn_store h ⟨rfl, rfl, rfl⟩ rfl
  | address p =>
    obtain ⟨u, hu, hm⟩ := Sub.into_leaves h fun _ u => goto_movesSequencer _ u
    obtain ⟨hc, hk, -⟩ := setAddress_keeps hu
    exact hm.store hc.records hk.mem

/-- The commands that make device accesses alone. -/
def deviceCommands : List Instr := [.select, .waitnb, .waitdrq, .setaddr, .probe]

theorem positionStep_store {c : Instr} {s t : State} (hd : c ∈ deviceCommands) (hc : s.phase.command = some c)
    (h : positionStep s = .next t) : KeepsStore s t := by
  cases hp : s.phase <;> rw [hp] at hc <;> cases hc <;> simp only [positionStep, hp] at h
  case select => exact goOn_store h ⟨rfl, rfl, rfl⟩ rfl
  case waitnb p =>
    obtain ⟨u, hu, hm⟩ := Sub.into_leaves h fun _ u => goto_movesSequencer _ u
    obtain ⟨hc, hk, -⟩ := waitNotBusy_keeps hu
    exact hm.store hc.records hk.mem
  case waitdrq p =>
    obtain ⟨u, hu, hm⟩ := Sub.into_leaves h fun _ u => goto_movesSequencer _ u
    obtain ⟨hc, hk⟩ := waitDataRequest_keeps hu
    exact hm.store hc.records hk.mem
  case setaddr p => exact setaddrAt_store h
  case probe p =>
    obtain ⟨u, hu, hm⟩ := Sub.into_leaves h fun _ u => goto_movesSequencer _ u
    obtain ⟨hc, hk, -⟩ := probeCtrl_keeps hu
    exact hm.store hc.records hk.mem
  case finishing r => cases h; exact ⟨⟨rfl, rfl, rfl⟩, rfl⟩
  case read | write | identify | parseid | discover => simp [deviceCommands] at hd

theorem exec_store {c : Instr} {s t : State} (hd : c ∈ deviceCommands) (h : exec c s = .next t) :
    KeepsStore s t := by
  obtain ⟨hr, hm⟩ | ⟨hc, -, hs⟩ := exec_frame_cases h
  · exact ⟨hr, hm⟩
  · exact positionStep_store hd hc hs

/-- Of the five only WAITDRQ reads the error register, and none counts a sector. -/
theorem deviceCommands_status {c : Instr} (hd : c ∈ deviceCommands) :
    capturesError c = (c == .waitdrq) ∧ countsSectors c = false := by
  revert hd
  cases c <;> decide

/-- Settles O48: the host's side and the status register as with every command, and no record or memory written. -/
theorem frameOfDeviceCommands : Obligations.FrameOfDeviceCommands := by
  intro c s t hd h
  obtain ⟨hcap, hcount⟩ := deviceCommands_status hd
  have hs := exec_store hd h
  refine ⟨exec_hostSide h, ?_, hs.drv0, hs.drv1, hs.drvcount, fun x => by rw [hs.mem]⟩
  rw [← hcap, ← hcount]
  exact exec_statusFrame h

end Sys2Proof.Machine
end

section
/-! SUPPORT. A wait ends (40_port_handshake.md R136): `P_SETTLE` settle reads, at most as many polls as the budget
drawn, and, in WAITDRQ, the read of the error register (R138, R139). -/

namespace Sys2Proof.Machine

open Sys2Proof.Safety

/-! ### Runs of status reads -/

/-- The engine comes from `s` to `t` by the status reads `l`, newest first, and makes no other event. -/
structure Polls (s t : State) (l : List Event) : Prop where
  reaches : Reaches s t
  grows : Grows s t l
  status : ∀ e ∈ l, ∃ x, e = .r .status x
  host : HostSideKept s t
  errinfo : t.errinfo = s.errinfo

theorem Polls.trans {s u t : State} {l l' : List Event} (h : Polls s u l) (g : Polls u t l') :
    Polls s t (l' ++ l) where
  reaches := h.reaches.trans g.reaches
  grows := by rw [Grows, show t.trace = l' ++ u.trace from g.grows, show u.trace = l ++ s.trace from h.grows,
    List.append_assoc]
  status e he := (List.mem_append.1 he).elim (g.status e) (h.status e)
  host := h.host.trans g.host
  errinfo := g.errinfo.trans h.errinfo

/-- A step that makes no event. -/
theorem Polls.none {c : Instr} {s t : State} (hc : s.phase.command = some c) (hi : s.inputs = [])
    (h : exec c s = .next t) (ht : t.trace = s.trace) (he : t.errinfo = s.errinfo) : Polls s t [] :=
  ⟨.exec hc hi h, ht, nofun, exec_hostSide h, he⟩

/-- A step that makes one status read. -/
theorem Polls.one {c : Instr} {s t : State} {b : Byte} (hc : s.phase.command = some c) (hi : s.inputs = [])
    (h : exec c s = .next t) (ht : t.trace = .r .status b :: s.trace) (he : t.errinfo = s.errinfo) :
    Polls s t [.r .status b] :=
  ⟨.exec hc hi h, ht, fun _ he => ⟨b, List.mem_singleton.1 he⟩, exec_hostSide h, he⟩

/-! ### The two loops of a wait -/

/-- From a settle position with `n` settle reads to make, a wait makes them and draws its budget. -/
theorem settles {c : Instr} {ph : Phase} (n : Nat) {s : State} (hc : s.phase.command = some c)
    (hp : settleToPoll s.phase = some ph) (hi : s.inputs = []) (hn : s.cfg.settle = s.v.t + n) :
    ∃ b u l, Draws s b ∧ Polls s u l ∧ l.length = n ∧ u.phase = ph ∧ u.v.budget = b := by
  induction n generalizing s with
  | zero =>
    obtain ⟨b, k, hb, h⟩ := (waitSettlesAndDraws s c ph hc hp).2 hn.le
    exact ⟨b, _, [], hb, .none hc hi h rfl rfl, rfl, rfl, rfl⟩
  | succ n ih =>
    obtain ⟨x, -, h⟩ := (waitSettlesAndDraws s c ph hc hp).1 (by omega)
    have hread := Polls.one hc hi h rfl rfl
    obtain ⟨b, u, l, hb, hl, hlen, hu⟩ := ih (s := { s with
      devScript := s.devScript.tail, trace := .r .status x :: s.trace, v := { s.v with t := s.v.t + 1 } })
      hc hp hi (by simp only; omega)
    exact ⟨b, u, _, hb, hread.trans hl, by rw [List.length_append, hlen]; rfl, hu⟩

/-- A poll at `ph` leaves the loop, its status byte and the state after it as `Out` says, or spends one of at least two
units of budget. -/
def PollsOnce (ph : Phase) (Out : Byte → State → Prop) : Prop :=
  ∀ s : State, s.phase = ph → s.inputs = [] → ∃ t b, Polls s t [.r .status b] ∧
    (Out b t ∨ 1 < s.v.budget ∧ t.phase = ph ∧ t.v.budget = s.v.budget - 1)

/-- A poll loop is left within its budget. -/
theorem PollsOnce.leaves {ph : Phase} {Out : Byte → State → Prop} (h : PollsOnce ph Out) (n : Nat) {s : State}
    (hp : s.phase = ph) (hi : s.inputs = []) (hn : s.v.budget ≤ n + 1) :
    ∃ u x l, Polls s u (.r .status x :: l) ∧ l.length ≤ n ∧ Out x u := by
  obtain ⟨t, b, hpoll, ho | ⟨hgt, ht, hb⟩⟩ := h s hp hi
  · exact ⟨t, b, [], hpoll, Nat.zero_le _, ho⟩
  · cases n with
    | zero => omega
    | succ n =>
      obtain ⟨u, x, l, hl, hlen, ho⟩ := h.leaves n ht (hpoll.host.inputs.trans hi) (by omega)
      exact ⟨u, x, _, hpoll.trans hl, by simpa using hlen, ho⟩

/-- A wait ends within its settle reads and its budget (40_port_handshake.md R136). -/
theorem PollsOnce.wait {c : Instr} {ph : Phase} {Out : Byte → State → Prop} (h : PollsOnce ph Out) {s : State}
    (hc : s.phase.command = some c) (hp : settleToPoll s.phase = some ph) (hi : s.inputs = []) (ht : s.v.t = 0) :
    ∃ b u x l, Draws s b ∧ Polls s u (.r .status x :: l) ∧ l.length + 1 ≤ s.cfg.settle + b ∧ Out x u := by
  obtain ⟨b, w, l, hb, hl, hlen, hw, hbudget⟩ := settles s.cfg.settle hc hp hi (by omega)
  have hpos : 1 ≤ b := hb.1
  obtain ⟨u, x, l', hl', hlen', ho⟩ := h.leaves (b - 1) hw (hl.host.inputs.trans hi) (by omega)
  refine ⟨b, u, x, l' ++ l, hb, hl.trans hl', ?_, ho⟩
  rw [List.length_append]
  omega

/-! ### The polls of WAITNB and WAITDRQ -/

theorem waitnb_pollsOnce : PollsOnce (.waitnb .poll) fun _ t =>
    ∃ r, t.phase = .finishing .waitnb r ∧ (r = .ok ∨ r = .timeout) := by
  intro s hp hi
  have hc : s.phase.command = some .waitnb := by rw [hp]; rfl
  obtain ⟨b, -, hok, hmore, htimeout⟩ := waitnbPolls s hp
  cases hb : b.getLsbD s.cfg.busyBit with
  | false => exact ⟨_, b, .one hc hi (hok hb) rfl rfl, .inl ⟨.ok, rfl, .inl rfl⟩⟩
  | true =>
    obtain hle | hgt := le_or_gt s.v.budget 1
    · exact ⟨_, b, .one hc hi (htimeout hb hle) rfl rfl, .inl ⟨.timeout, rfl, .inr rfl⟩⟩
    · exact ⟨_, b, .one hc hi (hmore hb hgt) rfl rfl, .inr ⟨hgt, hp, rfl⟩⟩

theorem waitDataRequest_ready {s : State} (h : pollDataRequest s.cfg (devRead8 .status s).1 = .ready) :
    waitDataRequest .poll s = .ret .ok (pollRead s) := by
  simp only [waitDataRequest, pollRead_v, h]

theorem waitDataRequest_deviceError {s : State}
    (h : pollDataRequest s.cfg (devRead8 .status s).1 = .deviceError) :
    waitDataRequest .poll s = .more .readError (pollRead s) := by
  simp only [waitDataRequest, pollRead_v, h]

theorem waitDataRequest_notReady {s : State} (h : pollDataRequest s.cfg (devRead8 .status s).1 = .notReady) :
    waitDataRequest .poll s = pollAgain .poll (pollRead s) := by
  simp only [waitDataRequest, pollRead_v, h]

theorem waitdrq_pollsOnce : PollsOnce (.waitdrq .poll) fun b t =>
    (∃ r, t.phase = .finishing .waitdrq r ∧ (r = .ok ∨ r = .timeout)) ∨
      t.phase = .waitdrq .readError ∧ t.v.status = b := by
  intro s hp hi
  have hc : s.phase.command = some .waitdrq := by rw [hp]; rfl
  have hstep := exec_waitdrq_at hp
  have hbudget : (pollRead s).v.budget = s.v.budget := by rw [pollRead_v]
  cases hx : pollDataRequest s.cfg (devRead8 .status s).1 with
  | ready =>
    rw [waitDataRequest_ready hx] at hstep
    exact ⟨_, _, .one hc hi hstep (pollRead_trace s) (pollRead_errinfo s), .inl (.inl ⟨.ok, rfl, .inl rfl⟩)⟩
  | deviceError =>
    rw [waitDataRequest_deviceError hx] at hstep
    exact ⟨_, _, .one hc hi hstep (pollRead_trace s) (pollRead_errinfo s), .inl (.inr ⟨rfl, by simp⟩)⟩
  | notReady =>
    rw [waitDataRequest_notReady hx] at hstep
    obtain hle | hgt := le_or_gt s.v.budget 1
    · rw [pollAgain_timeout _ (hbudget ▸ hle)] at hstep
      exact ⟨_, _, .one hc hi hstep (pollRead_trace s) (pollRead_errinfo s), .inl (.inl ⟨.timeout, rfl, .inr rfl⟩)⟩
    · rw [pollAgain_more _ (hbudget ▸ hgt)] at hstep
      exact ⟨_, _, .one hc hi hstep (pollRead_trace s) (pollRead_errinfo s), .inr ⟨hgt, rfl, by simp⟩⟩

theorem exec_waitdrq_readError {s : State} (h : s.phase = .waitdrq .readError) :
    exec .waitdrq s = .next (goto (.finishing .waitdrq .deverr) (captureError s)) := exec_waitdrq_at h

/-- Settles O25: the settle loop, then the poll loop, and in WAITDRQ the read of the error register where the last poll
asks for it. -/
theorem waitsAreBounded : Obligations.WaitsAreBounded := by
  refine ⟨fun s hp ht hi => ?_, fun s hp ht hi => ?_⟩
  · obtain ⟨b, u, x, l, hb, ⟨⟨m, hm⟩, hg, hstatus, -, he⟩, hlen, r, hu, hr⟩ :=
      waitnb_pollsOnce.wait (c := .waitnb) (by rw [hp]; rfl) (by rw [hp]; rfl) hi ht
    refine ⟨b, m, u, r, hb, hm, hu, hr, he, ?_⟩
    rw [eventsSince_of_grows hg]
    exact ⟨by simpa using hlen, fun e he => hstatus e (List.mem_reverse.1 he)⟩
  · obtain ⟨b, u, x, l, hb, ⟨hreach, hg, hstatus, hhost, he⟩, hlen, ⟨r, hu, hr⟩ | ⟨hu, rfl⟩⟩ :=
      waitdrq_pollsOnce.wait (c := .waitdrq) (by rw [hp]; rfl) (by rw [hp]; rfl) hi ht
    · obtain ⟨m, hm⟩ := hreach
      refine ⟨b, m, u, r, hb, hm, hu, hr.imp_right .inl, (.r .status x :: l).reverse, [], ?_, by simpa using hlen,
        fun e he => hstatus e (List.mem_reverse.1 he), fun _ => ⟨rfl, he⟩, ?_⟩
      · rw [eventsSince_of_grows hg, List.append_nil]
      · rintro rfl
        cases hr <;> contradiction
    · obtain ⟨m, hm⟩ := hreach.trans (.exec (by rw [hu]; rfl) (hhost.inputs.trans hi) (exec_waitdrq_readError hu))
      have hgrows : Grows s (goto (.finishing .waitdrq .deverr) (captureError u))
          (.r .error (devRead8 .error u).1 :: .r .status u.v.status :: l) := by
        rw [Grows, goto_trace, captureError_trace, show u.trace = _ from hg]
        rfl
      refine ⟨b, m, _, .deverr, hb, hm, rfl, .inr (.inr rfl), (.r .status u.v.status :: l).reverse, _,
        (eventsSince_of_grows hgrows).trans List.reverse_cons, by simpa using hlen,
        fun e he => hstatus e (List.mem_reverse.1 he), fun h => (h rfl).elim, fun _ => ⟨u.v.status, _, rfl, ?_, ?_⟩⟩
      · rw [List.getLast?_reverse, List.head?_cons]
      · rw [goto_errinfo, captureError_eq]

end Sys2Proof.Machine
end

section
/-! SUPPORT. The data phases of READ and WRITE, step by step, over either transport (40_port_handshake.md R130 to R133,
R141, R142): the positions of `move_in` and `move_out`, and what a raced word does to a store and a load
(20_memory.md R72). -/

namespace Sys2Proof.Machine

open Sys2Proof.Safety

/-! ### The mover's words -/

theorem sectorWord_eq (p : Word) (j : BitVec 7) : sectorWord p j = BitVec.ofNat 32 (p.toNat + 4 * j.toNat) := by
  apply BitVec.eq_of_toNat_eq
  simp only [sectorWord, BitVec.toNat_add, BitVec.toNat_mul, BitVec.ofNat_eq_ofNat, BitVec.toNat_ofNat,
    BitVec.toNat_setWidth]
  omega

theorem hasLatch_latch8 {c : Config} (h : c.transport = .latch8) : hasLatch c = true := by
  simp [hasLatch, h]

theorem hasLatch_wide32 {c : Config} (h : c.transport = .wide32) : ¬hasLatch c = true := by
  simp [hasLatch, h]

/-- After a memory word is moved: on to the next word at `first`, or, after word 127, to `count`. -/
def wordDone (count first : Phase) (s : State) : State :=
  { s with
    v := { s.v with j := if s.v.j = 127 then s.v.j else s.v.j + 1 }
    phase := if s.v.j = 127 then count else first }

theorem wordDone_into {π : Type} {emb : π → Phase} {k : Result → State → State} (count first : π) (s : State) :
    (if lastWord s then Sub.more count s else .more first (nextWord s)).into emb k =
      .next (wordDone (emb count) (emb first) s) := by
  by_cases hj : s.v.j = 127
  · rw [if_pos (by simp [lastWord, hj]), wordDone, if_pos hj, if_pos hj]
    rfl
  · rw [if_neg (by simpa [lastWord] using hj), wordDone, if_neg hj, if_neg hj]
    rfl

/-! ### What a store and a load do, raced or not -/

theorem engineStore_cases (a w : Word) (s : State) :
    ∃ x rs n, engineStore a w s = { s with mem := s.mem.putWord a x, races := rs, draws := n } ∧
      (raceAt s (wordAddr a) = none → x = w ∧ rs = s.races ∧ n = s.draws) ∧
      ∀ c, raceAt s (wordAddr a) = some c → x = w ∨ c.host.head? = some x := by
  unfold engineStore
  split <;> rename_i h
  · exact ⟨w, s.races, s.draws, rfl, fun _ => ⟨rfl, rfl, rfl⟩, fun _ _ => .inl rfl⟩
  · rename_i c
    refine ⟨_, _, _, rfl, fun hn => (nomatch h.symm.trans hn), fun c' hc => ?_⟩
    obtain rfl : c = c' := Option.some.inj (h.symm.trans hc)
    refine (List.mem_cons.1 (choose_mem_vals (List.cons_ne_nil w (c.host.take 1)) s)).imp_right fun hx => ?_
    cases hh : c.host with
    | nil => simp [hh] at hx
    | cons y ys => simpa [hh, eq_comm] using hx

theorem engineLoad_cases (a : Word) (s : State) :
    ∃ x n, engineLoad a s = (x, { s with draws := n }) ∧
      (raceAt s (wordAddr a) = none → x = s.mem.word a ∧ n = s.draws) ∧
      ∀ c, raceAt s (wordAddr a) = some c → x = c.base ∨ x ∈ c.host := by
  unfold engineLoad
  split <;> rename_i h
  · exact ⟨_, _, rfl, fun _ => ⟨rfl, rfl⟩, fun _ hc => nomatch h.symm.trans hc⟩
  · rename_i c
    refine ⟨_, s.draws + 1, rfl, fun hn => (nomatch h.symm.trans hn), fun c' hc => ?_⟩
    obtain rfl : c = c' := Option.some.inj (h.symm.trans hc)
    exact List.mem_cons.1 (choose_mem_vals (List.cons_ne_nil c.base c.host) s)

/-! ### `move_in` in READ -/

theorem exec_read_move {q : InPos} {s : State} (h : s.phase = .read (.move q)) :
    exec .read s = (moveIn s.v.p q s).into (fun q => .read (.move q)) fun _ => goto (.read .advance) :=
  exec_read_at h

theorem exec_read_dataLo_latch {s : State} {b : Byte} (ht : s.cfg.transport = .latch8)
    (h : s.phase = .read (.move .dataLo)) (hb : (devRead8 .data s).1 = b) :
    exec .read s = .next
      { s with
        devScript := s.devScript.tail, trace := .r .data b :: s.trace, v := { s.v with lo8 := b }
        phase := .read (.move .latchLo) } := by
  rw [exec_read_move h, moveIn, if_pos (hasLatch_latch8 ht), readDataLow, devRead8_state, hb]
  rfl

theorem exec_read_latchLo {s : State} {b : Byte} (ht : s.cfg.transport = .latch8)
    (h : s.phase = .read (.move .latchLo)) (hb : (latchRead8 s).1 = b) :
    exec .read s = .next
      { s with
        devScript := s.devScript.tail, trace := .lr b :: s.trace, v := { s.v with lo := b ++ s.v.lo8 }
        phase := .read (.move .dataHi) } := by
  rw [exec_read_move h, moveIn, if_pos (hasLatch_latch8 ht), readDataHigh, latchRead8_state, hb]
  rfl

theorem exec_read_dataHi_latch {s : State} {b : Byte} (ht : s.cfg.transport = .latch8)
    (h : s.phase = .read (.move .dataHi)) (hb : (devRead8 .data s).1 = b) :
    exec .read s = .next
      { s with
        devScript := s.devScript.tail, trace := .r .data b :: s.trace, v := { s.v with lo8 := b }
        phase := .read (.move .latchHi) } := by
  rw [exec_read_move h, moveIn, if_pos (hasLatch_latch8 ht), readDataLow, devRead8_state, hb]
  rfl

theorem exec_read_latchHi {s : State} {b : Byte} (ht : s.cfg.transport = .latch8)
    (h : s.phase = .read (.move .latchHi)) (hb : (latchRead8 s).1 = b) :
    exec .read s = .next
      { s with
        devScript := s.devScript.tail, trace := .lr b :: s.trace, v := { s.v with hi := b ++ s.v.lo8 }
        phase := .read (.move .store) } := by
  rw [exec_read_move h, moveIn, if_pos (hasLatch_latch8 ht), readDataHigh, latchRead8_state, hb]
  rfl

theorem exec_read_dataLo_wide {s : State} {w : Word} (ht : s.cfg.transport = .wide32)
    (h : s.phase = .read (.move .dataLo)) (hw : (devRead32 s).1 = w) :
    exec .read s = .next
      { s with
        devScript := s.devScript.tail, trace := .r32 w :: s.trace, v := { s.v with lo := w.extractLsb' 0 16 }
        phase := .read (.move .dataHi) } := by
  rw [exec_read_move h, moveIn, if_neg (hasLatch_wide32 ht), readDataWide, devRead32_state, hw]
  rfl

theorem exec_read_dataHi_wide {s : State} {w : Word} (ht : s.cfg.transport = .wide32)
    (h : s.phase = .read (.move .dataHi)) (hw : (devRead32 s).1 = w) :
    exec .read s = .next
      { s with
        devScript := s.devScript.tail, trace := .r32 w :: s.trace, v := { s.v with hi := w.extractLsb' 0 16 }
        phase := .read (.move .store) } := by
  rw [exec_read_move h, moveIn, if_neg (hasLatch_wide32 ht), readDataWide, devRead32_state, hw]
  rfl

theorem exec_read_store {s : State} (h : s.phase = .read (.move .store))
    (ha : admitsWord .write s (sectorWord s.v.p s.v.j) = true) :
    exec .read s = .next (wordDone (.read (.move .count)) (.read (.move .dataLo))
      (emit (.mw (sectorWord s.v.p s.v.j) (pairWord s)) (engineStore (sectorWord s.v.p s.v.j) (pairWord s) s))) := by
  rw [exec_read_move h, moveIn, memWrite, if_pos ha]
  exact wordDone_into _ _ _

theorem exec_read_count {s : State} (h : s.phase = .read (.move .count)) :
    exec .read s = .next { s with progress := s.progress + 1, phase := .read .advance } := exec_read_move h

/-- Settles O36: each position is the access its transport makes there; a store of a raced word leaves the engine's
value or the host's newest. -/
theorem readDataSteps : Obligations.ReadDataSteps := by
  refine ⟨fun s ht => ⟨fun hs => ?_, fun hs => ?_, fun hs => ?_, fun hs => ?_⟩,
    fun s ht => ⟨fun hs => ?_, fun hs => ?_⟩, fun s hs => ?_, fun s => exec_read_count⟩
  · exact ⟨_, devRead8_answers .data s, exec_read_dataLo_latch ht hs rfl⟩
  · exact ⟨_, latchRead8_answers s, exec_read_latchLo ht hs rfl⟩
  · exact ⟨_, devRead8_answers .data s, exec_read_dataHi_latch ht hs rfl⟩
  · exact ⟨_, latchRead8_answers s, exec_read_latchHi ht hs rfl⟩
  · exact ⟨_, devRead32_answers s, exec_read_dataLo_wide ht hs rfl⟩
  · exact ⟨_, devRead32_answers s, exec_read_dataHi_wide ht hs rfl⟩
  · rw [← sectorWord_eq]
    intro a ha
    obtain ⟨x, rs, n, hstore, hx⟩ := engineStore_cases a (pairWord s) s
    refine ⟨x, rs, n, ?_, hx⟩
    rw [exec_read_store hs ha, hstore]
    rfl

/-! ### `move_out` in WRITE -/

theorem exec_write_move {q : OutPos} {s : State} (h : s.phase = .write (.move q)) :
    exec .write s = (moveOut s.v.p q s).into (fun q => .write (.move q)) fun _ => goto (.write .advance) :=
  exec_write_at h

theorem exec_write_load {s : State} (h : s.phase = .write (.move .load))
    (ha : admitsWord .read s (sectorWord s.v.p s.v.j) = true) :
    exec .write s = .next (goto (.write (.move .firstLo)) (keepWord
      ((engineLoad (sectorWord s.v.p s.v.j) s).1, emit (.mr (sectorWord s.v.p s.v.j)
        (engineLoad (sectorWord s.v.p s.v.j) s).1) (engineLoad (sectorWord s.v.p s.v.j) s).2))) := by
  rw [exec_write_move h, moveOut, memRead, if_pos ha]
  rfl

/-- A byte of a half of a memory word is a byte of the word. -/
theorem extractLsb'_half (w : Word) {k a : Nat} (h : a + 8 ≤ 16) :
    (w.extractLsb' k 16).extractLsb' a 8 = w.extractLsb' (k + a) 8 := by
  ext i hi
  simp [show a + i < 16 by omega, Nat.add_assoc]

theorem exec_write_firstLo_latch {s : State} (ht : s.cfg.transport = .latch8) (h : s.phase = .write (.move .firstLo)) :
    exec .write s = .next
      { s with trace := .lw (s.v.w.extractLsb' 8 8) :: s.trace, phase := .write (.move .secondLo) } := by
  rw [exec_write_move h, moveOut, if_pos (hasLatch_latch8 ht), writeDataHigh, wordLo,
    extractLsb'_half _ (by decide)]
  rfl

theorem exec_write_secondLo {s : State} (ht : s.cfg.transport = .latch8) (h : s.phase = .write (.move .secondLo)) :
    exec .write s = .next
      { s with trace := .w .data (s.v.w.extractLsb' 0 8) :: s.trace, phase := .write (.move .firstHi) } := by
  rw [exec_write_move h, moveOut, if_pos (hasLatch_latch8 ht), writeDataLow, wordLo,
    extractLsb'_half _ (by decide)]
  rfl

theorem exec_write_firstHi_latch {s : State} (ht : s.cfg.transport = .latch8) (h : s.phase = .write (.move .firstHi)) :
    exec .write s = .next
      { s with trace := .lw (s.v.w.extractLsb' 24 8) :: s.trace, phase := .write (.move .secondHi) } := by
  rw [exec_write_move h, moveOut, if_pos (hasLatch_latch8 ht), writeDataHigh, wordHi,
    extractLsb'_half _ (by decide)]
  rfl

theorem exec_write_secondHi {s : State} (ht : s.cfg.transport = .latch8) (h : s.phase = .write (.move .secondHi)) :
    exec .write s = .next (wordDone (.write (.move .count)) (.write (.move .load))
      { s with trace := .w .data (s.v.w.extractLsb' 16 8) :: s.trace }) := by
  rw [exec_write_move h, moveOut, if_pos (hasLatch_latch8 ht), writeDataLow, wordHi,
    extractLsb'_half _ (by decide)]
  exact wordDone_into _ _ _

/-- The low half of a word over zeros, as R133 sends it. -/
theorem wideWrite_lo (w : Word) : w.extractLsb' 0 16 ++ (0 : Half) = w <<< 16 :=
  (BitVec.shiftLeft_eq_concat_of_lt (n := 16) (by decide)).symm

/-- The high half of a word over zeros, as R133 sends it. -/
theorem wideWrite_hi (w : Word) : w.extractLsb' 16 16 ++ (0 : Half) = w &&& 0xFFFF0000 := by
  have halves : w.extractLsb' 16 16 ++ w.extractLsb' 0 16 = w :=
    (BitVec.extractLsb'_append_extractLsb'_eq_extractLsb' (len₁ := 16) rfl).trans BitVec.extractLsb'_eq_self
  have mask : (0xFFFF0000 : Word) = BitVec.allOnes 16 ++ (0 : Half) := by decide
  conv_rhs => rw [← halves, mask, BitVec.and_append, BitVec.and_allOnes]
  exact congrArg _ BitVec.and_zero.symm

theorem exec_write_firstLo_wide {s : State} (ht : s.cfg.transport = .wide32) (h : s.phase = .write (.move .firstLo)) :
    exec .write s = .next
      { s with trace := .w32 (s.v.w <<< 16) :: s.trace, phase := .write (.move .firstHi) } := by
  rw [exec_write_move h, moveOut, if_neg (hasLatch_wide32 ht), writeDataWide, wordLo, wideWrite_lo]
  rfl

theorem exec_write_firstHi_wide {s : State} (ht : s.cfg.transport = .wide32) (h : s.phase = .write (.move .firstHi)) :
    exec .write s = .next (wordDone (.write (.move .count)) (.write (.move .load))
      { s with trace := .w32 (s.v.w &&& 0xFFFF0000) :: s.trace }) := by
  rw [exec_write_move h, moveOut, if_neg (hasLatch_wide32 ht), writeDataWide, wordHi, wideWrite_hi]
  exact wordDone_into _ _ _

theorem exec_write_count {s : State} (h : s.phase = .write (.move .count)) :
    exec .write s = .next { s with progress := s.progress + 1, phase := .write .advance } := exec_write_move h

/-- Settles O37: each position is the access its transport makes there; a load of a raced word reads its old value or
one the host wrote. -/
theorem writeDataSteps : Obligations.WriteDataSteps := by
  refine ⟨fun s hs => ?_, fun s ht => ⟨exec_write_firstLo_latch ht, exec_write_secondLo ht,
    exec_write_firstHi_latch ht, exec_write_secondHi ht⟩, fun s ht => ⟨exec_write_firstLo_wide ht,
    exec_write_firstHi_wide ht⟩, fun s => exec_write_count⟩
  rw [← sectorWord_eq]
  intro a ha
  obtain ⟨x, n, hload, hx⟩ := engineLoad_cases a s
  refine ⟨x, n, ?_, hx⟩
  rw [exec_write_load hs ha, hload]
  rfl

end Sys2Proof.Machine
end

section
/-! SUPPORT. One sector through WRITE's mover: the 128 memory words at `p`, each read and then sent, as the transport
does (40_port_handshake.md R131, R133, R142). -/

namespace Sys2Proof.Machine

open Sys2Proof.Safety

/-! ### A quiet state's words -/

theorem Reaches.of_eq {s t : State} (h : s = t) : Reaches s t := h ▸ .refl s

theorem admitsWord_of_refused_nil {k : Access} {s : State} (h : s.refused = []) (a : Word) :
    admitsWord k s a = true := by
  simp [admitsWord, admitsByte, h]

theorem raceAt_of_races_nil {s : State} (h : s.races = []) (wa : BitVec 30) : raceAt s wa = none := by
  simp [raceAt, h]

theorem sectorWord_ofNat (p : Word) {n : Nat} (h : n < 128) :
    sectorWord p (BitVec.ofNat 7 n) = p + BitVec.ofNat 32 (4 * n) := by
  rw [sectorWord_eq, BitVec.toNat_ofNat, Nat.mod_eq_of_lt h, BitVec.ofNat_add, BitVec.ofNat_toNat, BitVec.setWidth_eq]

theorem wordDone_more {count first : Phase} {s : State} {n : Nat} (hj : s.v.j = BitVec.ofNat 7 n) (hn : n < 127) :
    wordDone count first s = { s with v := { s.v with j := BitVec.ofNat 7 (n + 1) }, phase := first } := by
  have h : s.v.j ≠ 127 := by
    intro he
    have := congrArg BitVec.toNat (hj.symm.trans he)
    simp only [BitVec.toNat_ofNat, BitVec.ofNat_eq_ofNat] at this
    omega
  rw [wordDone, if_neg h, if_neg h, hj, BitVec.ofNat_add]
  rfl

theorem wordDone_last {count first : Phase} {s : State} (h : s.v.j = 127) :
    wordDone count first s = { s with phase := count } := by
  rw [wordDone, if_pos h, if_pos h]

/-! ### WRITE's words -/

/-- The events by which WRITE sends one memory word (40_port_handshake.md R131, R133, R142). -/
def sentHalves (t : Transport) (w : Word) : List Event :=
  match t with
  | .latch8 =>
    [.lw (w.extractLsb' 8 8), .w .data (w.extractLsb' 0 8), .lw (w.extractLsb' 24 8),
      .w .data (w.extractLsb' 16 8)]
  | .wide32 => [.w32 (w <<< 16), .w32 (w &&& 0xFFFF0000)]

/-- The events of one memory word of WRITE's data phase (40_port_handshake.md R142). -/
def sentWord (t : Transport) (a w : Word) : List Event := .mr a w :: sentHalves t w

/-- The events of the first `n` memory words of the sector at `p`. -/
def sentWords (s : State) (n : Nat) : List Event :=
  (List.range n).flatMap fun j =>
    sentWord s.cfg.transport (s.v.p + BitVec.ofNat 32 (4 * j)) (s.mem.word (s.v.p + BitVec.ofNat 32 (4 * j)))

theorem sentWords_succ (s : State) (n : Nat) :
    sentWords s (n + 1) = sentWords s n ++
      sentWord s.cfg.transport (s.v.p + BitVec.ofNat 32 (4 * n)) (s.mem.word (s.v.p + BitVec.ofNat 32 (4 * n))) := by
  simp [sentWords, List.range_succ]

/-- Nothing stands in the way of a data phase: the host is quiet, and memory admits everything and is not raced. -/
structure Undisturbed (s : State) : Prop where
  inputs : s.inputs = []
  refused : s.refused = []
  races : s.races = []

/-- One word is sent. -/
theorem write_halves {s : State} (hi : s.inputs = []) (hp : s.phase = .write (.move .firstLo)) :
    Reaches s (wordDone (.write (.move .count)) (.write (.move .load))
      { s with trace := (sentHalves s.cfg.transport s.v.w).reverse ++ s.trace }) := by
  have hc : s.phase.command = some .write := by rw [hp]; rfl
  cases ht : s.cfg.transport with
  | latch8 =>
    have hlo := (Reaches.exec hc hi (exec_write_firstLo_latch ht hp)).trans
      (.exec rfl hi (exec_write_secondLo ht rfl))
    exact (hlo.trans (.exec rfl hi (exec_write_firstHi_latch ht rfl))).trans
      (.exec rfl hi (exec_write_secondHi ht rfl))
  | wide32 =>
    exact (Reaches.exec hc hi (exec_write_firstLo_wide ht hp)).trans (.exec rfl hi (exec_write_firstHi_wide ht rfl))

/-- An undisturbed load reads the memory word. -/
theorem exec_write_load_quiet {s : State} (hq : Undisturbed s) (hp : s.phase = .write (.move .load)) {a w : Word}
    (ha : sectorWord s.v.p s.v.j = a) (hw : s.mem.word a = w) :
    exec .write s = .next
      { s with trace := .mr a w :: s.trace, v := { s.v with w := w }, phase := .write (.move .firstLo) } := by
  rw [exec_write_load hp (admitsWord_of_refused_nil hq.refused _), ha,
    engineLoad_quiet (raceAt_of_races_nil hq.races _), hw]
  rfl

/-- One word is loaded and sent. -/
theorem write_word {s : State} (hq : Undisturbed s) (hp : s.phase = .write (.move .load)) {a w : Word}
    (ha : sectorWord s.v.p s.v.j = a) (hw : s.mem.word a = w) :
    Reaches s (wordDone (.write (.move .count)) (.write (.move .load))
      { s with trace := (sentWord s.cfg.transport a w).reverse ++ s.trace, v := { s.v with w := w } }) := by
  have hload := Reaches.exec (by rw [hp]; rfl) hq.inputs (exec_write_load_quiet hq hp ha hw)
  have hsent := hload.trans (write_halves hq.inputs rfl)
  rw [sentWord, List.reverse_cons, List.append_assoc, List.singleton_append]
  exact hsent

/-- With the first `n` words sent, word `n` is. -/
theorem write_nextWord {s : State} (hq : Undisturbed s) {v : Vars} {n : Nat} (hvp : v.p = s.v.p)
    (hvj : v.j = BitVec.ofNat 7 n) (hn : n < 128) :
    Reaches { s with trace := (sentWords s n).reverse ++ s.trace, v := v, phase := .write (.move .load) }
      (wordDone (.write (.move .count)) (.write (.move .load))
        { s with
          trace := (sentWords s (n + 1)).reverse ++ s.trace
          v := { v with w := s.mem.word (s.v.p + BitVec.ofNat 32 (4 * n)) } }) := by
  have ha : sectorWord v.p v.j = s.v.p + BitVec.ofNat 32 (4 * n) := by rw [hvp, hvj, sectorWord_ofNat _ hn]
  rw [sentWords_succ, List.reverse_append, List.append_assoc]
  exact write_word (s := { s with trace := _, v := v, phase := _ }) ⟨hq.inputs, hq.refused, hq.races⟩ rfl ha rfl

/-- The first `n` words of a sector are loaded and sent, and the mover stands at word `n`. -/
theorem write_words {s : State} (hq : Undisturbed s) (hp : s.phase = .write (.move .load)) (hj : s.v.j = 0) {n : Nat}
    (hn : n ≤ 127) :
    ∃ v, v.p = s.v.p ∧ v.j = BitVec.ofNat 7 n ∧ Reaches s
      { s with trace := (sentWords s n).reverse ++ s.trace, v := v, phase := .write (.move .load) } := by
  induction n with
  | zero => exact ⟨s.v, rfl, hj, .of_eq (goto_self hp).symm⟩
  | succ n ih =>
    obtain ⟨v, hvp, hvj, hreach⟩ := ih (by omega)
    have hword := write_nextWord hq hvp hvj (by omega)
    rw [wordDone_more hvj (by omega)] at hword
    exact ⟨{ v with w := _, j := BitVec.ofNat 7 (n + 1) }, hvp, rfl, hreach.trans hword⟩

/-- Settles O39: 127 words lead back to the mover's first position, the last to the count of the sector. -/
theorem writeMovesExactlyOneSector : Obligations.WriteMovesExactlyOneSector := by
  intro s hp hj hi href hraces
  have hq : Undisturbed s := ⟨hi, href, hraces⟩
  obtain ⟨v, hvp, hvj, hreach⟩ := write_words hq hp hj le_rfl
  have hword := write_nextWord hq hvp hvj (by decide)
  rw [wordDone_last hvj] at hword
  obtain ⟨m, hm⟩ := (hreach.trans hword).trans (.exec rfl hi (exec_write_count rfl))
  refine ⟨m, _, hm, rfl, rfl, rfl, rfl, rfl, rfl, rfl, ?_⟩
  refine (eventsSince_of_grows (l := (sentWords s 128).reverse) ?_).trans ?_
  · rfl
  · rw [List.reverse_reverse, sentWords]
    cases s.cfg.transport <;> rfl

end Sys2Proof.Machine
end

section
/-! SUPPORT. One sector through READ's mover: the 512 bytes the device delivers land in order at `p` and nowhere else
(40_port_handshake.md R130, R132, R141; 20_memory.md R63, R64). -/

namespace Sys2Proof.Machine

open Sys2Proof.Safety

/-! ### Words in memory -/

/-- The four bytes of a word written are read back in order. -/
theorem byte_putWord_wordOfBytes {m : Memory} (h : m.wf = true) (a : Word) (b0 b1 b2 b3 : Byte) :
    let m' := m.putWord a (wordOfBytes b0 b1 b2 b3)
    m'.byte a.toNat = b0 ∧ m'.byte (a + 1).toNat = b1 ∧ m'.byte (a + 2).toNat = b2 ∧ m'.byte (a + 3).toNat = b3 := by
  intro m'
  have hword := congrArg bytesOfWord (word_putWord_same a (wordOfBytes b0 b1 b2 b3) h)
  rw [Memory.word, bytesOfWord_wordOfBytes, bytesOfWord_wordOfBytes] at hword
  simpa using hword

/-- Memory with the words `f 0`, `f 1`, … written in order from `p` on, `n` of them. -/
def putWords (m : Memory) (p : Word) (f : Nat → Word) : Nat → Memory
  | 0 => m
  | n + 1 => (putWords m p f n).putWord (p + BitVec.ofNat 32 (4 * n)) (f n)

/-- `mems n` is memory `m` with the first `n` words `f 0`, `f 1`, … written in order from `p` on. -/
structure WordsLand (m : Memory) (p : Word) (f : Nat → Word) (mems : Nat → Memory) : Prop where
  start : mems 0 = m
  word : ∀ n, mems (n + 1) = (mems n).putWord (p + BitVec.ofNat 32 (4 * n)) (f n)

theorem putWords_land (m : Memory) (p : Word) (f : Nat → Word) : WordsLand m p f (putWords m p f) :=
  ⟨rfl, fun _ => rfl⟩

theorem WordsLand.wf {m : Memory} {p : Word} {f : Nat → Word} {mems : Nat → Memory} (hm : WordsLand m p f mems)
    (h : m.wf = true) (n : Nat) : (mems n).wf = true := by
  induction n with
  | zero => rwa [hm.start]
  | succ n ih =>
    rw [hm.word]
    exact wf_putWord _ _ ih

theorem offset_add (p : Word) (k i : Nat) :
    p + BitVec.ofNat 32 k + BitVec.ofNat 32 i = p + BitVec.ofNat 32 (k + i) := by
  rw [BitVec.add_assoc, ← BitVec.ofNat_add]

/-- The bytes of a sector have different addresses (20_memory.md R63). -/
theorem offset_ne (p : Word) {k l : Nat} (hk : k < 512) (hl : l < 512) (h : k ≠ l) :
    (p + BitVec.ofNat 32 k).toNat ≠ (p + BitVec.ofNat 32 l).toNat := by
  simp only [BitVec.toNat_add, BitVec.toNat_ofNat]
  omega

/-- A word written at an offset leaves every byte but its own four alone. -/
theorem byte_putWord_offset (m : Memory) (p w : Word) {n x : Nat}
    (h : ∀ i < 4, x ≠ (p + BitVec.ofNat 32 (n + i)).toNat) :
    (m.putWord (p + BitVec.ofNat 32 n) w).byte x = m.byte x := by
  apply byte_putWord_other
  · exact h 0 (by decide)
  · exact (offset_add p n 1).symm ▸ h 1 (by decide)
  · exact (offset_add p n 2).symm ▸ h 2 (by decide)
  · exact (offset_add p n 3).symm ▸ h 3 (by decide)

theorem WordsLand.byte_other {m : Memory} {p : Word} {f : Nat → Word} {mems : Nat → Memory}
    (hm : WordsLand m p f mems) {n x : Nat} (h : ∀ k < 4 * n, x ≠ (p + BitVec.ofNat 32 k).toNat) :
    (mems n).byte x = m.byte x := by
  induction n with
  | zero => rw [hm.start]
  | succ n ih =>
    rw [hm.word, byte_putWord_offset _ _ _ fun i hi => h _ (by omega)]
    exact ih fun k hk => h k (by omega)

/-- The memory word that holds bytes `4n` to `4n + 3` of a delivery. -/
def deliveredWord (bytes : Nat → Byte) (n : Nat) : Word :=
  wordOfBytes (bytes (4 * n)) (bytes (4 * n + 1)) (bytes (4 * n + 2)) (bytes (4 * n + 3))

/-- The words that hold a delivery put its bytes in order. -/
theorem WordsLand.byte {m : Memory} {p : Word} {bytes : Nat → Byte} {mems : Nat → Memory}
    (hm : WordsLand m p (deliveredWord bytes) mems) (h : m.wf = true) {n : Nat} (hn : n ≤ 128) :
    ∀ k < 4 * n, (mems n).byte (p + BitVec.ofNat 32 k).toNat = bytes k := by
  induction n with
  | zero => exact fun k hk => by omega
  | succ n ih =>
    intro k hk
    rw [hm.word]
    by_cases hlt : k < 4 * n
    · rw [byte_putWord_offset _ _ _ fun i hi => offset_ne p (by omega) (by omega) (by omega)]
      exact ih (by omega) k hlt
    · obtain ⟨h0, h1, h2, h3⟩ := byte_putWord_wordOfBytes (hm.wf h n)
        (p + BitVec.ofNat 32 (4 * n)) (bytes (4 * n)) (bytes (4 * n + 1)) (bytes (4 * n + 2)) (bytes (4 * n + 3))
      obtain rfl | rfl | rfl | rfl : k = 4 * n ∨ k = 4 * n + 1 ∨ k = 4 * n + 2 ∨ k = 4 * n + 3 := by omega
      · exact h0
      · rw [← offset_add]; exact h1
      · rw [← offset_add]; exact h2
      · rw [← offset_add]; exact h3

/-! ### One word from the device -/

theorem latchRead8_script {s : State} {x : Word} {xs : List Word} (h : s.devScript = x :: xs) :
    (latchRead8 s).1 = x.extractLsb' 0 8 :=
  (latchRead8_answers s x xs h).trans (BitVec.setWidth_eq_extractLsb' (by decide))

theorem devRead32_script {s : State} {x : Word} {xs : List Word} (h : s.devScript = x :: xs) :
    (devRead32 s).1 = x := devRead32_answers s x xs h

/-- The device's answers `l` begin with those of one memory word `w`, and `l'` is left (40_port_handshake.md R130,
R132; 20_memory.md R64). -/
def Delivers (t : Transport) (l : List Word) (w : Word) (l' : List Word) : Prop :=
  match t with
  | .latch8 => ∃ x0 x1 x2 x3 : Word, l = x0 :: x1 :: x2 :: x3 :: l' ∧
      w = (x3.extractLsb' 0 8 ++ x2.extractLsb' 0 8 : Half) ++ (x1.extractLsb' 0 8 ++ x0.extractLsb' 0 8 : Half)
  | .wide32 => ∃ x0 x1 : Word, l = x0 :: x1 :: l' ∧ w = x1.extractLsb' 0 16 ++ x0.extractLsb' 0 16

/-- The two data words of a memory word are read, and the mover stands at its store. -/
theorem read_pair {s : State} {w : Word} {l : List Word} (hin : s.inputs = []) (hp : s.phase = .read (.move .dataLo))
    (hd : Delivers s.cfg.transport s.devScript w l) :
    ∃ tr lo8 lo hi, hi ++ lo = w ∧ Reaches s
      { s with
        devScript := l, trace := tr, v := { s.v with lo8 := lo8, lo := lo, hi := hi }
        phase := .read (.move .store) } := by
  have hc : s.phase.command = some .read := by rw [hp]; rfl
  cases ht : s.cfg.transport with
  | latch8 =>
    rw [ht] at hd
    obtain ⟨x0, x1, x2, x3, hs, rfl⟩ := hd
    have hlo := (Reaches.exec hc hin (exec_read_dataLo_latch ht hp (devRead8_script _ hs))).trans
      (.exec rfl hin (exec_read_latchLo ht rfl (latchRead8_script (congrArg List.tail hs))))
    have hhi := (hlo.trans (.exec rfl hin (exec_read_dataHi_latch ht rfl
      (devRead8_script _ (congrArg (List.tail ∘ List.tail) hs))))).trans
      (.exec rfl hin (exec_read_latchHi ht rfl
        (latchRead8_script (congrArg (List.tail ∘ List.tail ∘ List.tail) hs))))
    simp only [hs, List.tail_cons] at hhi
    exact ⟨_, _, _, _, rfl, hhi⟩
  | wide32 =>
    rw [ht] at hd
    obtain ⟨x0, x1, hs, rfl⟩ := hd
    have hhi := (Reaches.exec hc hin (exec_read_dataLo_wide ht hp (devRead32_script hs))).trans
      (.exec rfl hin (exec_read_dataHi_wide ht rfl (devRead32_script (congrArg List.tail hs))))
    simp only [hs, List.tail_cons] at hhi
    exact ⟨_, s.v.lo8, _, _, rfl, hhi⟩

/-- An undisturbed store writes its word. -/
theorem exec_read_store_quiet {s : State} {a w : Word} (hq : Undisturbed s) (hp : s.phase = .read (.move .store))
    (ha : sectorWord s.v.p s.v.j = a) (hw : pairWord s = w) :
    exec .read s = .next (wordDone (.read (.move .count)) (.read (.move .dataLo))
      { s with mem := s.mem.putWord a w, trace := .mw a w :: s.trace }) := by
  rw [exec_read_store hp (admitsWord_of_refused_nil hq.refused _), ha, hw, engineStore,
    raceAt_of_races_nil hq.races]
  rfl

/-- One word is read and stored. -/
theorem read_word {s : State} {w a : Word} {l : List Word} (hq : Undisturbed s)
    (hp : s.phase = .read (.move .dataLo)) (ha : sectorWord s.v.p s.v.j = a)
    (hd : Delivers s.cfg.transport s.devScript w l) :
    ∃ tr v, v.p = s.v.p ∧ v.j = s.v.j ∧ Reaches s (wordDone (.read (.move .count)) (.read (.move .dataLo))
      { s with devScript := l, trace := tr, v := v, mem := s.mem.putWord a w }) := by
  obtain ⟨tr, lo8, lo, hi, rfl, hreach⟩ := read_pair hq.inputs hp hd
  refine ⟨.mw a (hi ++ lo) :: tr, { s.v with lo8 := lo8, lo := lo, hi := hi }, rfl, rfl,
    hreach.trans (.exec rfl hq.inputs ?_)⟩
  exact exec_read_store_quiet ⟨hq.inputs, hq.refused, hq.races⟩ rfl ha rfl

/-! ### One sector from the device -/

/-- The device's answers `l` are those of the words `f 0` to `f 127`, and `l'` is left; `script n` is what is left after
`n` words. -/
structure DeliversSector (t : Transport) (l : List Word) (f : Nat → Word) (l' : List Word)
    (script : Nat → List Word) : Prop where
  start : script 0 = l
  word : ∀ n < 128, Delivers t (script n) (f n) (script (n + 1))
  rest : script 128 = l'

/-- READ's mover at word `n`, the words before it landed. -/
def readAt (s : State) (script : Nat → List Word) (mems : Nat → Memory) (n : Nat) (tr : List Event) (v : Vars)
    (ph : Phase) : State :=
  { s with devScript := script n, trace := tr, v := v, mem := mems n, phase := ph }

section
variable {s : State} {l : List Word} {script : Nat → List Word} {f : Nat → Word} {mems : Nat → Memory}
  (hq : Undisturbed s) (hd : DeliversSector s.cfg.transport s.devScript f l script)
  (hm : WordsLand s.mem s.v.p f mems)
include hq hd hm

/-- From word `n` the mover reads and stores it. -/
theorem read_nextWord {n : Nat} (tr : List Event) {v : Vars} (hvp : v.p = s.v.p) (hvj : v.j = BitVec.ofNat 7 n)
    (hn : n < 128) :
    ∃ tr' v', v'.p = s.v.p ∧ v'.j = BitVec.ofNat 7 n ∧
      Reaches (readAt s script mems n tr v (.read (.move .dataLo)))
        (wordDone (.read (.move .count)) (.read (.move .dataLo))
          (readAt s script mems (n + 1) tr' v' (.read (.move .dataLo)))) := by
  have ha : sectorWord v.p v.j = s.v.p + BitVec.ofNat 32 (4 * n) := by rw [hvp, hvj, sectorWord_ofNat _ hn]
  obtain ⟨tr', v', hp, hj, hreach⟩ := read_word (s := readAt s script mems n tr v (.read (.move .dataLo)))
    ⟨hq.inputs, hq.refused, hq.races⟩ rfl ha (hd.word n hn)
  refine ⟨tr', v', hp.trans hvp, hj.trans hvj, ?_⟩
  unfold readAt
  rw [hm.word]
  exact hreach

/-- The first `n` words of a delivery land, and the mover stands at word `n`. -/
theorem read_words (hp : s.phase = .read (.move .dataLo)) (hj : s.v.j = 0) {n : Nat} (hn : n ≤ 127) :
    ∃ tr v, v.p = s.v.p ∧ v.j = BitVec.ofNat 7 n ∧
      Reaches s (readAt s script mems n tr v (.read (.move .dataLo))) := by
  induction n with
  | zero =>
    refine ⟨s.trace, s.v, rfl, hj, .of_eq ?_⟩
    rw [readAt, hd.start, hm.start, ← hp]
  | succ n ih =>
    obtain ⟨tr, v, hvp, hvj, hreach⟩ := ih (by omega)
    obtain ⟨tr', v', hvp', hvj', hword⟩ := read_nextWord hq hd hm tr hvp hvj (by omega)
    rw [wordDone_more hvj' (by omega)] at hword
    exact ⟨tr', { v' with j := BitVec.ofNat 7 (n + 1) }, hvp', rfl, hreach.trans hword⟩

/-- The mover lands a delivered sector at `p`, word for word, and counts it. -/
theorem read_sector (hp : s.phase = .read (.move .dataLo)) (hj : s.v.j = 0) :
    ∃ tr v, Reaches s { readAt s script mems 128 tr v (.read .advance) with progress := s.progress + 1 } := by
  obtain ⟨tr, v, hvp, hvj, hreach⟩ := read_words hq hd hm hp hj le_rfl
  obtain ⟨tr', v', -, hvj', hword⟩ := read_nextWord hq hd hm tr hvp hvj (by decide)
  rw [wordDone_last hvj'] at hword
  exact ⟨tr', v', (hreach.trans hword).trans (.exec rfl hq.inputs (exec_read_count rfl))⟩

end

/-! ### The device's bytes -/

/-- An answer inside a script of answers, and those after it. -/
theorem drop_answers {N i : Nat} (f : Nat → Word) (rest : List Word) (h : i < N) :
    ((List.range N).map f ++ rest).drop i = f i :: ((List.range N).map f ++ rest).drop (i + 1) := by
  rw [List.drop_eq_getElem_cons (by simp; omega), List.getElem_append_left (by simpa using h)]
  simp

/-- Four bytes and two data words make the same memory word (20_memory.md R64). -/
theorem halves_eq_wordOfBytes (b0 b1 b2 b3 : Byte) :
    (b3 ++ b2 : Half) ++ (b1 ++ b0 : Half) = wordOfBytes b0 b1 b2 b3 :=
  (BitVec.append_assoc (x₁ := b3 ++ b2)).symm

/-- Over LATCH8 a byte is an answer of its own (40_port_handshake.md R130). -/
theorem latch8_delivers {l : List Word} (bytes : Nat → Byte) (rest : List Word)
    (hl : l = (List.range 512).map (fun k => (bytes k).setWidth 32) ++ rest) :
    DeliversSector .latch8 l (deliveredWord bytes) rest fun n => l.drop (4 * n) where
  start := List.drop_zero
  rest := hl ▸ List.drop_left' (by simp)
  word n hn := by
    have low : ∀ b : Byte, (b.setWidth 32 : Word).extractLsb' 0 8 = b := by
      intro b
      rw [← BitVec.setWidth_eq_extractLsb' (by decide), BitVec.setWidth_setWidth_of_le _ (by decide),
        BitVec.setWidth_eq]
    refine ⟨(bytes (4 * n)).setWidth 32, (bytes (4 * n + 1)).setWidth 32, (bytes (4 * n + 2)).setWidth 32,
      (bytes (4 * n + 3)).setWidth 32, ?_, ?_⟩
    · rw [hl, drop_answers _ _ (by omega), drop_answers _ _ (by omega), drop_answers _ _ (by omega),
        drop_answers _ _ (by omega)]
      rfl
    · rw [low, low, low, low, halves_eq_wordOfBytes, deliveredWord]

/-- Over WIDE32 an answer's lower half is two bytes (40_port_handshake.md R132). -/
theorem wide32_delivers {l : List Word} (bytes : Nat → Byte) (upper : Nat → Half) (rest : List Word)
    (hl : l = (List.range 256).map (fun w => upper w ++ bytes (2 * w + 1) ++ bytes (2 * w)) ++ rest) :
    DeliversSector .wide32 l (deliveredWord bytes) rest fun n => l.drop (2 * n) where
  start := List.drop_zero
  rest := hl ▸ List.drop_left' (by simp)
  word n hn := by
    have low : ∀ (u : Half) (b1 b0 : Byte), (u ++ b1 ++ b0 : Word).extractLsb' 0 16 = b1 ++ b0 := by
      intro u b1 b0
      rw [BitVec.append_assoc]
      exact BitVec.extractLsb'_append_eq_right
    refine ⟨upper (2 * n) ++ bytes (2 * (2 * n) + 1) ++ bytes (2 * (2 * n)),
      upper (2 * n + 1) ++ bytes (2 * (2 * n + 1) + 1) ++ bytes (2 * (2 * n + 1)), ?_, ?_⟩
    · rw [hl, drop_answers _ _ (by omega), drop_answers _ _ (by omega)]
      rfl
    · rw [low, low, halves_eq_wordOfBytes, deliveredWord, show 2 * (2 * n) = 4 * n by omega,
        show 2 * (2 * n + 1) = 4 * n + 2 by omega]

/-- Settles O38: the mover lands the delivery word for word, and the words hold its bytes in order; the model's word
writes wrap at 2^32 whether or not `p` is aligned. -/
theorem readMovesExactlyOneSector : Obligations.ReadMovesExactlyOneSector := by
  intro s bytes rest hp hj hi href hraces hwf _ hscript
  obtain ⟨script, hd⟩ : ∃ script, DeliversSector s.cfg.transport s.devScript (deliveredWord bytes) rest script := by
    obtain ⟨ht, hs⟩ | ⟨ht, upper, hs⟩ := hscript
    · exact ⟨_, ht ▸ latch8_delivers bytes rest hs⟩
    · exact ⟨_, ht ▸ wide32_delivers bytes upper rest hs⟩
  obtain ⟨mems, hland⟩ : ∃ mems, WordsLand s.mem s.v.p (deliveredWord bytes) mems := ⟨_, putWords_land _ _ _⟩
  obtain ⟨tr, v, m, hm⟩ := read_sector ⟨hi, href, hraces⟩ hd hland hp hj
  exact ⟨m, _, hm, rfl, rfl, hd.rest, hland.byte hwf (n := 128) le_rfl, fun x hx => hland.byte_other (n := 128) hx,
    rfl, rfl, rfl, rfl⟩

end Sys2Proof.Machine
end

section
/-! SUPPORT. The progress of a transfer (41_transfer.md R164, R165, R168, R174): the positions of `transfer(dir)` and
its `OK` finish as one predicate of a phase and a state, and that every step keeps it. -/

namespace Sys2Proof.Machine

open Sys2Proof.Safety

/-! ### What the progress law speaks of -/

/-- Nothing the law of a chunk's sectors speaks of is written. -/
structure KeepsChunk (s t : State) : Prop where
  cfg : t.cfg = s.cfg
  lba : t.lba = s.lba
  count : t.count = s.count
  progress : t.progress = s.progress
  sec : t.v.sec = s.v.sec
  n : t.v.n = s.v.n
  k : t.v.k = s.v.k

/-- Nothing the progress law speaks of is written. -/
structure KeepsProgress (s t : State) : Prop extends KeepsChunk s t where
  buf : t.buf = s.buf
  p : t.v.p = s.v.p
  i : t.v.i = s.v.i

theorem KeepsProgress.refl (s : State) : KeepsProgress s s := ⟨by constructor <;> rfl, rfl, rfl, rfl⟩

theorem KeepsCommand.keepsProgress {s t : State} (h : KeepsCommand s t) (hp : t.progress = s.progress) :
    KeepsProgress s t :=
  ⟨⟨h.cfg, h.lba, h.count, hp, h.sec, h.n, h.k⟩, h.buf, h.p, h.i⟩

theorem goto_keepsProgress (ph : Phase) (s : State) : KeepsProgress s (goto ph s) :=
  ⟨by constructor <;> rfl, rfl, rfl, rfl⟩

theorem armMove_keepsProgress (s : State) : KeepsProgress s (armMove s) := ⟨by constructor <;> rfl, rfl, rfl, rfl⟩

theorem waitNotBusy_keepsProgress {p : NbPos} {s t : State} (h : (waitNotBusy p s).leaves t) : KeepsProgress s t := by
  obtain ⟨hk, hm, -⟩ := waitNotBusy_keeps h
  exact hk.keepsProgress hm.progress

theorem waitDataRequest_keepsProgress {p : DrqPos} {s t : State} (h : (waitDataRequest p s).leaves t) :
    KeepsProgress s t := by
  obtain ⟨hk, hm⟩ := waitDataRequest_keeps h
  exact hk.keepsProgress hm.progress

theorem setAddress_keepsProgress {p : AddrPos} {s t : State} (h : (setAddress p s).leaves t) : KeepsProgress s t := by
  obtain ⟨hk, hm, -⟩ := setAddress_keeps h
  exact hk.keepsProgress hm.progress

/-- A chunk has `min(n, P_MAX_CHUNK)` sectors (41_transfer.md R164). -/
theorem chunkSize_toNat (c : Config) (n : Word) : (chunkSize c n).toNat = min n.toNat c.maxChunk.toNat := by
  have hbyte := c.maxChunk.isLt
  unfold chunkSize
  split
  · rw [BitVec.toNat_setWidth]
    omega
  · omega

/-- A chunk's sectors are taken off those remaining without a borrow. -/
theorem toNat_sub_chunk {n : Word} {k : Byte} (h : k.toNat ≤ n.toNat) :
    (n - k.setWidth 32).toNat = n.toNat - k.toNat := by
  have hk : (k.setWidth 32).toNat = k.toNat := BitVec.toNat_setWidth_of_le (by decide)
  rw [BitVec.toNat_sub_of_le (by rwa [BitVec.le_def, hk]), hk]

end Sys2Proof.Machine

namespace Sys2Proof.Safety

open Sys2Proof.Machine

theorem BetweenChunks.keeps {s t : State} (h : BetweenChunks s) (hk : KeepsProgress s t) : BetweenChunks t where
  sectors := by rw [hk.progress, hk.n, hk.count]; exact h.sectors
  buffer := by rw [hk.p, hk.buf, hk.progress]; exact h.buffer
  sector := by rw [hk.sec, hk.lba, hk.progress]; exact h.sector
  chunkStart := by rw [hk.n, hk.progress, hk.cfg]; exact h.chunkStart

theorem InChunk.keeps {s t : State} {m : Nat} (h : InChunk s m) (hk : KeepsChunk s t) : InChunk t m where
  some := by rw [hk.n]; exact h.some
  size := by rw [hk.k, hk.cfg, hk.n]; exact h.size
  bound := by rw [hk.k]; exact h.bound
  start := by rw [hk.progress]; exact h.start
  chunkStart := by rw [hk.progress, hk.cfg]; exact h.chunkStart
  sectors := by rw [hk.progress, hk.n, hk.count]; exact h.sectors
  sector := by rw [hk.sec, hk.lba, hk.progress]; exact h.sector

theorem XferOk.keeps {μ : Type} {pos : XferPos μ} {s t : State} (h : XferOk s pos) (hk : KeepsProgress s t) :
    XferOk t pos := by
  cases pos with
  | check | select | notBusy | precomp =>
    simp only [XferOk, hk.progress, hk.n, hk.count, hk.p, hk.buf, hk.sec, hk.lba]
    exact h
  | chunk | afterChunk => exact BetweenChunks.keeps h hk
  | seccnt | address | command =>
    simp only [XferOk, hk.p, hk.buf, hk.progress]
    exact ⟨h.1.keeps hk.toKeepsChunk, h.2⟩
  | dataRequest | move =>
    simp only [XferOk, hk.i, hk.k, hk.p, hk.buf, hk.progress]
    exact ⟨h.1.keeps hk.toKeepsChunk, h.2⟩
  | advance =>
    simp only [XferOk, hk.i, hk.p, hk.buf, hk.progress]
    exact ⟨h.1.keeps hk.toKeepsChunk, h.2⟩

/-! ### Chunks -/

/-- A transfer begins with no sector moved and no chunk begun. -/
theorem betweenChunks_start {s : State} (hp : s.progress = 0) (hn : s.v.n = s.count) (hb : s.v.p = s.buf)
    (hs : s.v.sec = s.lba) : BetweenChunks s := by
  constructor <;> simp [hp, hn, hb, hs]

/-- A chunk begins where the last one ended (41_transfer.md R164). -/
theorem BetweenChunks.begun {s : State} (h : BetweenChunks s) (hn : s.v.n ≠ 0) : InChunk (beginChunk s) 0 where
  some := hn
  size := rfl
  bound := Nat.zero_le _
  start := Nat.zero_le _
  chunkStart := h.chunkStart hn
  sectors := h.sectors
  sector := by simp [h.sector]

theorem InChunk.size_toNat {s : State} {m : Nat} (h : InChunk s m) :
    s.v.k.toNat = min s.v.n.toNat s.cfg.maxChunk.toNat := by rw [h.size, chunkSize_toNat]

/-- Counting a sector of the chunk moves one more of its sectors; `PROGRESS` does not wrap, for it stays within
`COUNT`. -/
theorem InChunk.counted {s : State} {m : Nat} (h : InChunk s m) (hm : m < s.v.k.toNat) :
    InChunk (countSector s) (m + 1) := by
  have hp : (s.progress + 1).toNat = s.progress.toNat + 1 := by
    have hk := h.size_toNat
    have hsectors := h.sectors
    have hcount := s.count.isLt
    simp only [BitVec.toNat_add, BitVec.ofNat_eq_ofNat, BitVec.toNat_ofNat]
    omega
  constructor
  case some => exact h.some
  case size => exact h.size
  case bound => exact hm
  case start =>
    rw [countSector_progress, hp]
    exact Nat.succ_le_succ h.start
  case chunkStart =>
    rw [countSector_progress, hp, Nat.add_sub_add_right]
    exact h.chunkStart
  case sectors =>
    rw [countSector_progress, hp, Nat.add_sub_add_right]
    exact h.sectors
  case sector =>
    rw [countSector_progress, countSector_v, BitVec.ofNat_add, ← BitVec.add_assoc, h.sector]
    exact BitVec.add_assoc _ _ _

/-- After its last sector a chunk's sectors are taken off those remaining; where some remain it was a full one
(41_transfer.md R164). -/
theorem InChunk.ended {s : State} (h : InChunk s s.v.k.toNat) (hb : s.v.p = s.buf + 512 * s.progress) :
    BetweenChunks (endChunk s) := by
  have hk := h.size_toNat
  have hstart := h.start
  have hn := toNat_sub_chunk (n := s.v.n) (k := s.v.k) (by omega)
  constructor
  case sectors =>
    have hsectors := h.sectors
    simp only [endChunk_progress, endChunk_v, endChunk_count, hn]
    omega
  case buffer => exact hb
  case sector => rw [endChunk_v, endChunk_lba, endChunk_progress, ← h.sector, BitVec.ofNat_toNat]
  case chunkStart =>
    intro hne
    have hmore : s.v.n.toNat - s.v.k.toNat ≠ 0 := by
      rw [← hn]
      exact fun h0 => hne (BitVec.eq_of_toNat_eq h0)
    have hfull : s.v.k.toNat = s.cfg.maxChunk.toNat := by omega
    have hmod := h.chunkStart
    rwa [hfull, ← Nat.mod_eq_sub_mod (by omega)] at hmod

end Sys2Proof.Safety

namespace Sys2Proof.Machine

open Sys2Proof.Safety

/-! ### The law at a phase -/

/-- What `TransferOk` asks of a state at a phase. -/
def ProgressAt : Phase → State → Prop
  | .read p, s => XferOk s p
  | .write p, s => XferOk s p
  | .finishing c r, s => (c = .read ∨ c = .write) → r = .ok → s.progress = s.count
  | _, _ => True

theorem transferOk_iff {s : State} : TransferOk s ↔ ProgressAt s.phase s := by
  constructor
  · intro h
    cases hp : s.phase with
    | read p => exact h.reads p hp
    | write p => exact h.writes p hp
    | finishing c r => exact fun hc hr => h.complete c hc (hr ▸ hp)
    | _ => trivial
  · intro h
    exact ⟨fun p hp => by rwa [hp] at h, fun p hp => by rwa [hp] at h, fun c hc hp => by rw [hp] at h; exact h hc rfl⟩

theorem ProgressAt.keeps {ph : Phase} {s t : State} (h : ProgressAt ph s) (hk : KeepsProgress s t) :
    ProgressAt ph t := by
  cases ph with
  | read p | write p => exact XferOk.keeps h hk
  | finishing c r => exact fun hc hr => by rw [hk.progress, hk.count]; exact h hc hr
  | _ => trivial

theorem ProgressAt.goto {ph : Phase} {s : State} (h : ProgressAt ph s) : ProgressAt (goto ph s).phase (goto ph s) :=
  h.keeps (goto_keepsProgress ph s)

/-- The law asks nothing of a finish with another result than `OK`. -/
theorem progressAt_failed {c : Instr} {r : Result} (s : State) (h : r ≠ .ok) : ProgressAt (.finishing c r) s :=
  fun _ hr => (h hr).elim

/-- The law asks nothing of the positions of the other commands. -/
theorem progressAt_other {c : Instr} {ph : Phase} (s : State) (hc : ph.command = some c)
    (hne : ¬(c = .read ∨ c = .write)) : ProgressAt ph s := by
  cases ph <;> cases hc
  case read => exact (hne (.inl rfl)).elim
  case write => exact (hne (.inr rfl)).elim
  case finishing => exact fun h => (hne h).elim
  all_goals trivial

theorem progressAt_orFinish {c : Instr} {ph : Phase} {s : State} (h : ProgressAt ph s) (r : Result) :
    ProgressAt (orFinish c ph r s).phase (orFinish c ph r s) := by
  unfold orFinish
  split
  · exact h.goto
  · rename_i hr
    exact (progressAt_failed s hr).goto

theorem goOn_progressAt {ph : Phase} {u t : State} (h : goOn ph u = .next t) (hu : ProgressAt ph u) :
    ProgressAt t.phase t := by
  cases h
  exact hu.goto

/-! ### `transfer(dir)` -/

/-- What the progress of a transfer needs of a direction: the law is that of its positions, and its mover leaves the
progress alone until it returns, with one sector counted (40_port_handshake.md R141, R142). -/
structure Direction.Counts {μ : Type} (x : Direction μ) : Prop where
  place : ∀ p s, XferOk s p → ProgressAt (x.place p) s
  more : ∀ p q s q' u, x.move p q s = .more q' u → KeepsProgress s u
  counts : ∀ p q s r u, x.move p q s = .ret r u → u = countSector s

theorem Sub.returns_of_ret {π : Type} {x : Sub π} {r : Result} {u : State} (h : x = .ret r u) : x.returns r := by
  rw [h]; rfl

theorem reading_counts : reading.Counts where
  place _ _ := id
  more p q s q' u h := by
    obtain ⟨hk, -, -, hp | ⟨rfl, -⟩⟩ := moveIn_keeps (Sub.leaves_of_more h)
    · exact hk.keepsProgress hp
    · cases h
  counts p q s r u h := by
    obtain ⟨rfl, -⟩ := moveIn_returns (Sub.returns_of_ret h)
    cases h
    rfl

theorem writing_counts : writing.Counts where
  place _ _ := id
  more p q s q' u h := by
    obtain ⟨hk, -, -, hp | ⟨rfl, -⟩⟩ := moveOut_keeps (Sub.leaves_of_more h)
    · exact hk.keepsProgress hp
    · cases h
  counts p q s r u h := by
    obtain ⟨rfl, -⟩ := moveOut_returns (Sub.returns_of_ret h)
    cases h
    rfl

/-- A subroutine that leaves the progress alone keeps the law where its positions and the one after its `OK` ask the
same of it. -/
theorem Sub.into_progressAt {π μ : Type} {x : Direction μ} (hx : x.Counts) {y : Sub π} {emb : π → XferPos μ}
    {after : XferPos μ} {k : Result → State → State} {s t : State} (h : y.into (fun q => x.place (emb q)) k = .next t)
    (hk : ∀ r u, ∃ w, KeepsProgress u w ∧ k r u = orFinish x.cmd (x.place after) r w)
    (hy : ∀ u, y.leaves u → KeepsProgress s u) (hemb : ∀ q, XferOk s (emb q)) (hafter : XferOk s after) :
    ProgressAt t.phase t := by
  obtain ⟨q, u, rfl, rfl⟩ | ⟨r, u, rfl, rfl⟩ := Sub.into_next h
  · exact (hx.place _ _ ((hemb q).keeps (hy u rfl))).goto
  · obtain ⟨w, hw, he⟩ := hk r u
    rw [he]
    exact progressAt_orFinish (hx.place _ _ ((hafter.keeps (hy u rfl)).keeps hw)) r

theorem nextBuffer_keepsChunk (s : State) : KeepsChunk s (nextBuffer s) := by constructor <;> simp

/-- After a sector the law holds at the next one's wait, or, after the chunk's last, between chunks. -/
theorem advance_progressAt {μ : Type} {x : Direction μ} (hx : x.Counts) {s t : State}
    (hok : XferOk s (.advance : XferPos μ)) (h : advance x s = .next t) : ProgressAt t.phase t := by
  obtain ⟨hin, hone, hbuf⟩ := hok
  simp only [advance] at h
  split at h
  · rename_i hlast
    have hlast : s.v.i = s.v.k := by simpa using hlast
    have hchunk : InChunk (nextBuffer s) (nextBuffer s).v.k.toNat := by
      rw [hlast] at hin
      simpa using hin.keeps (nextBuffer_keepsChunk s)
    have hb : BetweenChunks (endChunk (nextBuffer s)) := hchunk.ended (by simpa using hbuf)
    split at h
    · exact goOn_progressAt h (hx.place (.afterChunk .settle) _ hb)
    · exact goOn_progressAt h (hx.place .chunk _ hb)
  · rename_i hne
    have hlt : s.v.i.toNat < s.v.k.toNat :=
      lt_of_le_of_ne hin.bound fun he => hne (by simpa using BitVec.eq_of_toNat_eq he)
    have hi : (s.v.i + 1).toNat = s.v.i.toNat + 1 := by
      have hbyte := s.v.k.isLt
      simp only [BitVec.toNat_add, BitVec.ofNat_eq_ofNat, BitVec.toNat_ofNat]
      omega
    refine goOn_progressAt h (hx.place _ _ ?_)
    have hchunk : InChunk (nextSector (nextBuffer s)) s.v.i.toNat :=
      (hin.keeps (nextBuffer_keepsChunk s)).keeps (by constructor <;> simp)
    simp only [XferOk, nextSector_v, nextSector_buf, nextSector_progress, nextBuffer_v, nextBuffer_buf,
      nextBuffer_progress, hi, Nat.add_sub_cancel]
    exact ⟨hchunk, Nat.le_add_left .., hlt, hbuf⟩

theorem transferAt_progressAt {μ : Type} {x : Direction μ} (hx : x.Counts) {pos : XferPos μ} {s t : State}
    (hl : s.cfg.legal = true) (hok : XferOk s pos) (h : transferAt x pos s = .next t) : ProgressAt t.phase t := by
  cases pos with
  | check =>
    simp only [transferAt] at h
    split at h
    · exact goOn_progressAt h (progressAt_failed s nofun)
    · split at h
      · exact goOn_progressAt h (hx.place .select _ hok)
      · exact goOn_progressAt h (progressAt_failed s nofun)
  | select => exact goOn_progressAt h (hx.place (.notBusy .settle) _ hok)
  | notBusy p =>
    exact Sub.into_progressAt hx h (after := .precomp) (fun r u => ⟨u, .refl u, rfl⟩)
      (fun _ => waitNotBusy_keepsProgress) (fun _ => hok) hok
  | precomp =>
    obtain ⟨hp, hn, hb, hs⟩ := hok
    exact goOn_progressAt h (hx.place .chunk _ (betweenChunks_start hp hn hb hs))
  | chunk =>
    have hok : BetweenChunks s := hok
    simp only [transferAt] at h
    split at h
    · rename_i hn
      refine goOn_progressAt h fun _ _ => BitVec.eq_of_toNat_eq ?_
      simpa [hn] using hok.sectors
    · rename_i hn
      exact goOn_progressAt h (hx.place .seccnt _ ⟨hok.begun hn, hok.buffer⟩)
  | seccnt =>
    obtain ⟨hin, hbuf⟩ := hok
    exact goOn_progressAt h (hx.place (.address .secnum) _ ⟨hin.keeps (by constructor <;> rfl), hbuf⟩)
  | address p =>
    exact Sub.into_progressAt hx h (after := .command) (fun r u => ⟨u, .refl u, rfl⟩)
      (fun _ => setAddress_keepsProgress) (fun _ => hok) hok
  | command =>
    obtain ⟨hin, hbuf⟩ := hok
    have hk := (chunkSize_range hl hin.some).1
    rw [← hin.size] at hk
    exact goOn_progressAt h (hx.place (.dataRequest .settle) _ ⟨hin.keeps (by constructor <;> rfl), le_rfl, hk, hbuf⟩)
  | dataRequest p =>
    exact Sub.into_progressAt hx h (after := .move x.first) (fun r u => ⟨armMove u, armMove_keepsProgress u, rfl⟩)
      (fun _ => waitDataRequest_keepsProgress) (fun _ => hok) hok
  | move q =>
    obtain ⟨q', u, hu, rfl⟩ | ⟨r, u, hu, rfl⟩ := Sub.into_next h
    · exact (hx.place (.move q') _ (XferOk.keeps (pos := .move q') hok (hx.more _ _ _ _ _ hu))).goto
    · obtain ⟨hin, hone, hlast, hbuf⟩ := hok
      rw [hx.counts _ _ _ _ _ hu]
      have hcounted := hin.counted (by omega)
      rw [Nat.sub_add_cancel hone] at hcounted
      refine (hx.place .advance _ ⟨hcounted, hone, ?_⟩).goto
      rw [countSector_v, hbuf, countSector_progress, countSector_buf]
      ring
  | advance => exact advance_progressAt hx hok h
  | afterChunk p =>
    exact Sub.into_progressAt hx h (after := .chunk) (fun r u => ⟨u, .refl u, rfl⟩)
      (fun _ => waitNotBusy_keepsProgress) (fun _ => hok) hok

/-! ### Every step -/

/-- A step at a position of the running command keeps the law: of the others' positions it asks nothing, and they stay
in their own command. -/
theorem positionStep_progressAt {c : Instr} {s t : State} (hl : s.cfg.legal = true) (hok : ProgressAt s.phase s)
    (hc : s.phase.command = some c) (hf : ∀ r, s.phase ≠ .finishing c r) (h : positionStep s = .next t) :
    ProgressAt t.phase t := by
  by_cases hrw : c = .read ∨ c = .write
  · cases hp : s.phase with
    | read p =>
      rw [hp] at hok
      simp only [positionStep, hp] at h
      exact transferAt_progressAt reading_counts hl hok h
    | write p =>
      rw [hp] at hok
      simp only [positionStep, hp] at h
      exact transferAt_progressAt writing_counts hl hok h
    | finishing c' r =>
      rw [hp] at hc
      cases hc
      exact (hf r hp).elim
    | idle =>
      rw [hp] at hc
      cases hc
    | _ =>
      rw [hp] at hc
      cases hc
      simp at hrw
  · exact progressAt_other t (positionStep_staysIn hc hf h).runs.command hrw

/-- A step of a command that is not turned away keeps the law; at its acceptance no sector is moved. -/
theorem exec_progressAt {c : Instr} {s t : State} (h : exec c s = .next t) (hl : s.cfg.legal = true)
    (hok : ProgressAt s.phase s) (hc : s.phase = .idle ∨ s.phase.command = some c) : ProgressAt t.phase t := by
  obtain ⟨-, rfl⟩ | ⟨r, -, rfl⟩ | ⟨hn, ho, -⟩ | ⟨hrun, hf, hs⟩ := exec_cases h
  · cases c with
    | read | write => exact ⟨rfl, rfl, rfl, rfl⟩
    | _ => trivial
  · trivial
  · exact (ho (not_turnedAway hc hn)).elim
  · exact positionStep_progressAt hl hok hrun hf hs

/-- A host operation that starts no command writes nothing the law speaks of while a command runs, or resets the
engine. -/
theorem hostMove_progressAt {op : HostOp} {s t : State} (hs : StatusOk s) (hok : ProgressAt s.phase s)
    (h : hostMove op s = .settled t) : ProgressAt t.phase t := by
  obtain ⟨-, rfl⟩ | hm := hostMove_settled h
  · trivial
  rw [hm.phase]
  by_cases hp : s.phase = .idle
  · rw [hp]
    trivial
  have hb := hs.busyIffRunning.2 hp
  refine hok.keeps ⟨⟨hm.cfg, hm.busyLba hb, hm.busyCount hb, hm.busyProgress hb, ?_, ?_, ?_⟩, hm.busyBuf hb, ?_, ?_⟩ <;>
    rw [hm.v]

/-- Settles O56: each position of a transfer hands the law on to the next, and while a command runs no one else writes
what it speaks of. -/
theorem everyStepKeepsTransferProgress : Obligations.EveryStepKeepsTransferProgress := by
  intro s t hl hs hok h
  rw [transferOk_iff] at *
  have hstatus : ∀ l, StatusOk { s with inputs := l } := fun l => hs.congr rfl rfl
  have hin : ∀ l, ProgressAt s.phase { s with inputs := l } := fun _ =>
    hok.keeps ⟨by constructor <;> rfl, rfl, rfl, rfl⟩
  obtain ⟨l, ⟨i, hc, he⟩ | ⟨v, i, -, hb, -, he⟩ | ⟨op, -, hm⟩ | rfl⟩ := step_cases h
  · exact exec_progressAt he hl (hin l) (.inr hc)
  · exact exec_progressAt he hl (hin l) (.inl (hs.idle hb))
  · exact hostMove_progressAt (hstatus l) (hin l) hm
  · exact hin l

end Sys2Proof.Machine
end

section
/-! SUPPORT. The address registers (41_transfer.md R160, R161, R173): the byte each write of `set_address` puts into its
register, in arithmetic; the CHS law and the LBA split (R175, R176); SETADDR from its `CMD` write to its finish
(R163). -/

namespace Sys2Proof.Machine

open Sys2Proof.Safety

/-! ### Bytes of a word -/

theorem extractLsb'_byte (x : Word) (k : Nat) : x.extractLsb' k 8 = BitVec.ofNat 8 (x.toNat / 2 ^ k) := by
  apply BitVec.eq_of_toNat_eq
  rw [BitVec.extractLsb'_toNat, BitVec.toNat_ofNat, Nat.shiftRight_eq_div_pow]

theorem extractLsb'_nibble (x : Word) (k : Nat) :
    (x.extractLsb' k 4).setWidth 8 = BitVec.ofNat 8 (x.toNat / 2 ^ k % 16) := by
  apply BitVec.eq_of_toNat_eq
  rw [BitVec.toNat_setWidth, BitVec.extractLsb'_toNat, BitVec.toNat_ofNat, Nat.shiftRight_eq_div_pow]

/-- The low bits of a word, as a number. -/
theorem extractLsb'_zero_toNat (x : Word) (k : Nat) : (x.extractLsb' 0 k).toNat = x.toNat % 2 ^ k := by
  rw [BitVec.extractLsb'_toNat, Nat.shiftRight_zero]

/-- A device/head byte whose drive select leaves bits 3:0 free holds what is put there (30_encoding.md R97). -/
theorem or_nibble_low {b : Byte} (hb : b.extractLsb' 0 4 = 0) (x : BitVec 4) :
    (b ||| x.setWidth 8).extractLsb' 0 4 = x := by
  rw [BitVec.extractLsb'_or, hb, BitVec.extractLsb'_setWidth_of_le (by decide), BitVec.extractLsb'_eq_self]
  exact BitVec.zero_or

/-! ### CHS addresses -/

theorem chsOf_c (r : DriveRecord) (sec : Word) :
    (chsOf r sec).c.toNat = sec.toNat / r.spt.toNat / r.heads.toNat := by
  simp only [chsOf, BitVec.toNat_udiv, BitVec.toNat_setWidth_of_le (show 16 ≤ 32 by decide)]

theorem chsOf_h (r : DriveRecord) (sec : Word) :
    (chsOf r sec).h.toNat = sec.toNat / r.spt.toNat % r.heads.toNat := by
  simp only [chsOf, BitVec.toNat_udiv, BitVec.toNat_umod, BitVec.toNat_setWidth_of_le (show 16 ≤ 32 by decide)]

/-- The sector number of a CHS address; it wraps only where there is no track to count in. -/
theorem chsOf_s1_mod (r : DriveRecord) (sec : Word) :
    (chsOf r sec).s1.toNat = (sec.toNat % r.spt.toNat + 1) % 2 ^ 32 := by
  simp only [chsOf, BitVec.toNat_add, BitVec.toNat_umod, BitVec.toNat_setWidth_of_le (show 16 ≤ 32 by decide)]
  rfl

theorem chsOf_s1 {r : DriveRecord} (sec : Word) (h : r.spt ≠ 0) :
    (chsOf r sec).s1.toNat = sec.toNat % r.spt.toNat + 1 := by
  have hspt := r.spt.isLt
  have hlt := Nat.mod_lt sec.toNat (BitVec.toNat_pos_of_ne_zero h)
  rw [chsOf_s1_mod]
  omega

/-- The byte `set_address` writes is the one the arithmetic of R160 and R161 gives. -/
theorem addrByte_eq_addressByte (s : State) (p : AddrPos) :
    addrByte s.cfg (driveRecord s s.v.d) s.v.d s.v.sec p = addressByte s p := by
  simp only [addrByte, addressByte]
  split
  · cases p with
    | secnum => exact (extractLsb'_byte s.v.sec 0).trans (by rw [pow_zero, Nat.div_one])
    | cyllo => exact extractLsb'_byte s.v.sec 8
    | cylhi => exact extractLsb'_byte s.v.sec 16
    | devhead => simp only [lbaByte, devsel, extractLsb'_nibble]
  · cases p with
    | secnum =>
      apply BitVec.eq_of_toNat_eq
      simp only [chsByte, extractLsb'_byte, chsOf_s1_mod, BitVec.toNat_ofNat]
      omega
    | cyllo => simp only [chsByte, extractLsb'_byte, chsOf_c, pow_zero, Nat.div_one]
    | cylhi => simp only [chsByte, extractLsb'_byte, chsOf_c]
    | devhead => simp only [chsByte, extractLsb'_nibble, chsOf_h, devsel, pow_zero, Nat.div_one]

/-- Cylinder, head and sector put together are the sector number (41_transfer.md R175). -/
theorem chs_sum (sec spt heads : Nat) :
    sec / spt / heads * heads * spt + sec / spt % heads * spt + sec % spt = sec := by
  rw [← Nat.add_mul, Nat.div_add_mod', Nat.div_add_mod']

/-- What a CHS drive's registers hold of an address: the sector number mod 256, the cylinder mod 65536 and the head
mod 16 (41_transfer.md R173). -/
theorem chsByte_secnum (c : Config) (d : BitVec 1) (x : Chs) : (chsByte c d x .secnum).toNat = x.s1.toNat % 256 :=
  extractLsb'_zero_toNat x.s1 8

theorem chsByte_cylinder (c : Config) (d : BitVec 1) (x : Chs) :
    (chsByte c d x .cylhi ++ chsByte c d x .cyllo).toNat = x.c.toNat % 65536 := by
  rw [chsByte, chsByte, BitVec.extractLsb'_append_extractLsb'_eq_extractLsb' (by decide)]
  exact extractLsb'_zero_toNat x.c 16

theorem chsByte_head {c : Config} {d : BitVec 1} (h : (devsel c d).extractLsb' 0 4 = 0) (x : Chs) :
    ((chsByte c d x .devhead).extractLsb' 0 4).toNat = x.h.toNat % 16 := by
  rw [chsByte, or_nibble_low h]
  exact extractLsb'_zero_toNat x.h 4

/-- Settles O31: the quotients and remainders sum up to the sector, and a register holds a value exactly where the
value fits. -/
theorem chsLaw : Obligations.ChsLaw := by
  intro r sec hspt hheads x
  have hs1 : x.s1.toNat = sec.toNat % r.spt.toNat + 1 := chsOf_s1 sec hspt
  refine ⟨?_, ?_, ?_, ?_, fun c d hd => ?_⟩
  · rw [hs1, chsOf_c, chsOf_h, Nat.add_sub_cancel, chs_sum]
  · rw [chsOf_h]
    exact Nat.mod_lt _ (BitVec.toNat_pos_of_ne_zero hheads)
  · rw [hs1]
    exact Nat.le_add_left ..
  · rw [hs1]
    exact Nat.mod_lt _ (BitVec.toNat_pos_of_ne_zero hspt)
  · rw [chsByte_secnum, chsByte_cylinder, chsByte_head hd, Nat.mod_eq_iff_lt (by decide),
      Nat.mod_eq_iff_lt (by decide), Nat.mod_eq_iff_lt (by decide), and_rotate]

/-! ### LBA addresses -/

/-- Settles O32: each register holds its bits of the sector, one after another. -/
theorem lbaSplitIsExact : Obligations.LbaSplitIsExact := by
  intro s hlba h0 h1 hbit
  have hsel : (devsel s.cfg s.v.d ||| s.cfg.lbaBit).extractLsb' 0 4 = 0 := by
    have hd : (devsel s.cfg s.v.d).extractLsb' 0 4 = 0 := by
      unfold devsel
      split
      · exact h0
      · exact h1
    rw [BitVec.extractLsb'_or, hd, hbit]
    rfl
  simp only [addrByte, hlba, if_true, lbaByte, or_nibble_low hsel]
  rw [BitVec.extractLsb'_append_extractLsb'_eq_extractLsb' (by decide),
    BitVec.extractLsb'_append_extractLsb'_eq_extractLsb' (by decide),
    BitVec.extractLsb'_append_extractLsb'_eq_extractLsb' (by decide)]

/-! ### SETADDR, READ and WRITE -/

/-- Where the guard holds, a write of `set_address` ends its turn at the next one, or after the last where the caller
goes on with `OK`. -/
theorem setAddress_into {emb : AddrPos → Phase} {k : Result → State → State} {after : Phase} {p : AddrPos} {s : State}
    (hg : geomOk (driveRecord s s.v.d) = true) (hk : ∀ u, k .ok u = goto after u) :
    (setAddress p s).into emb k = .next
      { s with
        trace := .w (addrReg p) (addressByte s p) :: s.trace
        phase := (nextAddr p).elim after emb } := by
  rw [setAddress_eq hg, addrByte_eq_addressByte]
  cases p with
  | devhead => exact congrArg _ (hk _)
  | secnum | cyllo | cylhi => rfl

/-- Settles O29: the three commands place `set_address` alike, and each goes on after its last write. -/
theorem addressWrites : Obligations.AddressWrites := by
  intro c p s hc hp hg
  simp only [List.mem_cons, List.not_mem_nil, or_false] at hc
  obtain rfl | rfl | rfl := hc
  · rw [exec_setaddr_at hp, setaddrAt, setAddress_into hg fun _ => rfl]
    cases p <;> rfl
  · rw [exec_read_at hp, transferAt, setAddress_into hg fun _ => rfl]
    cases p <;> rfl
  · rw [exec_write_at hp, transferAt, setAddress_into hg fun _ => rfl]
    cases p <;> rfl

/-! ### SETADDR from its `CMD` write -/

theorem exec_setaddr_geomOk {s : State} (h : s.phase = .setaddr .check) (hg : geomOk (driveRecord s s.v.d) = true) :
    exec .setaddr s = goOn (.setaddr (.address .secnum)) s := (exec_setaddr_at h).trans (if_pos hg)

theorem exec_setaddr_geomFault {s : State} (h : s.phase = .setaddr .check)
    (hg : ¬geomOk (driveRecord s s.v.d) = true) :
    exec .setaddr s = goOn (.finishing .setaddr .faultGeom) s := (exec_setaddr_at h).trans (if_neg hg)

/-- Settles O30: the acceptance, the guard, then the four writes or none, and the finish. -/
theorem setaddrWholeRun : Obligations.SetaddrWholeRun := by
  intro s hp hb hi at0 r
  have haccept := Reaches.issue (c := .setaddr) hp hb hi rfl
  constructor
  · intro hr
    have hg : geomOk r = true := geomOk_iff.2 hr
    have hcheck := haccept.trans (.exec rfl rfl (exec_setaddr_geomOk rfl hg))
    have hwrites := (((hcheck.trans (.exec rfl rfl (addressWrites .setaddr .secnum _ (by decide) rfl hg))).trans
      (.exec rfl rfl (addressWrites .setaddr .cyllo _ (by decide) rfl hg))).trans
      (.exec rfl rfl (addressWrites .setaddr .cylhi _ (by decide) rfl hg))).trans
      (.exec rfl rfl (addressWrites .setaddr .devhead _ (by decide) rfl hg))
    obtain ⟨m, hm⟩ := hwrites.trans (.exec rfl rfl (exec_finishes rfl))
    exact ⟨m, _, hm, rfl, rfl, rfl, rfl, rfl, eventsSince_of_grows (l := [_, _, _, _]) rfl⟩
  · rintro ⟨hl, h0⟩
    have hg : ¬geomOk r = true := by
      rw [geomOk_iff]
      simp only [hl]
      tauto
    obtain ⟨m, hm⟩ := (haccept.trans (.exec rfl rfl (exec_setaddr_geomFault rfl hg))).trans
      (.exec rfl rfl (exec_finishes rfl))
    exact ⟨m, _, hm, rfl, rfl, rfl, rfl, rfl, eventsSince_of_grows (l := []) rfl⟩

end Sys2Proof.Machine
end

section
/-! SUPPORT. READ's and WRITE's steps outside their waits, their address writes and their data phase (41_transfer.md
R164, R168, R171); what a step of either leaves alone (R169, R170). -/

namespace Sys2Proof.Machine

open Sys2Proof.Safety

/-! ### The control steps of `transfer(dir)` -/

theorem chunkSize_eq (c : Config) (n : Word) :
    chunkSize c n = BitVec.ofNat 8 (min n.toNat c.maxChunk.toNat) := by
  rw [← chunkSize_toNat, BitVec.ofNat_toNat, BitVec.setWidth_eq]

theorem transferAt_chunk_more {μ : Type} (x : Direction μ) {s : State} (h : s.v.n ≠ 0) :
    transferAt x .chunk s = .next
      { s with
        v := { s.v with k := BitVec.ofNat 8 (min s.v.n.toNat s.cfg.maxChunk.toNat) }, phase := x.place .seccnt } := by
  rw [← chunkSize_eq]
  exact if_neg h

theorem advance_sector {μ : Type} (x : Direction μ) {s : State} (h : s.v.i ≠ s.v.k) :
    advance x s = .next
      { s with
        v := { s.v with p := s.v.p + 512, i := s.v.i + 1, t := 0 }, phase := x.place (.dataRequest .settle) } := by
  simp only [advance, nextBuffer_v, if_neg h]
  simp only [goOn, goto, nextSector, nextBuffer]

theorem advance_chunk {μ : Type} (x : Direction μ) {s : State} (h : s.v.i = s.v.k) {k : Word}
    (hk : k = BitVec.ofNat 32 s.v.k.toNat) :
    advance x s = .next
      { s with
        v := { s.v with p := s.v.p + 512, sec := s.v.sec + k, n := s.v.n - k, t := 0 }
        phase := if s.v.n - k ≠ 0 ∨ s.cfg.tailWait then x.place (.afterChunk .settle) else x.place .chunk } := by
  rw [BitVec.ofNat_toNat] at hk
  subst hk
  simp only [advance, nextBuffer_v, if_pos h, endChunk_v, endChunk_cfg, nextBuffer_cfg]
  unfold nextBuffer
  split <;> rfl

/-- Settles O34: READ is `transfer(RD)`, and each of these positions is one write or one pure update. -/
theorem readControlSteps : Obligations.ReadControlSteps := by
  intro s
  exact ⟨exec_read_at, exec_read_at, fun hs hn => (exec_read_at hs).trans (if_pos hn),
    fun hs hn => (exec_read_at hs).trans (transferAt_chunk_more reading hn), exec_read_at, exec_read_at,
    fun hs hi => (exec_read_at hs).trans (advance_sector reading hi),
    fun hs hi => (exec_read_at hs).trans (advance_chunk reading hi rfl)⟩

/-- Settles O35: WRITE is `transfer(WR)`, and each of these positions is one write or one pure update. -/
theorem writeControlSteps : Obligations.WriteControlSteps := by
  intro s
  exact ⟨exec_write_at, exec_write_at, fun hs hn => (exec_write_at hs).trans (if_pos hn),
    fun hs hn => (exec_write_at hs).trans (transferAt_chunk_more writing hn), exec_write_at, exec_write_at,
    fun hs hi => (exec_write_at hs).trans (advance_sector writing hi),
    fun hs hi => (exec_write_at hs).trans (advance_chunk writing hi rfl)⟩

/-! ### The frames -/

theorem goOn_records {ph : Phase} {s u t : State} (h : goOn ph u = .next t) (hu : KeepsRecords s u) :
    KeepsRecords s t := hu.sequencer (goOn_movesSequencer h)

/-- `transfer(dir)` writes no drive record and not `DRVCOUNT`. -/
theorem transferAt_records {μ : Type} {x : Direction μ} (hx : x.Guarded) {pos : XferPos μ} {s t : State}
    (h : transferAt x pos s = .next t) : KeepsRecords s t := by
  have same : KeepsRecords s s := ⟨rfl, rfl, rfl⟩
  cases pos with
  | check =>
    simp only [transferAt] at h
    split at h
    · exact goOn_records h same
    · split at h <;> exact goOn_records h same
  | chunk =>
    simp only [transferAt] at h
    split at h
    · exact goOn_records h same
    · exact goOn_records h ⟨rfl, rfl, rfl⟩
  | notBusy p | afterChunk p =>
    obtain ⟨u, hu, hm⟩ := Sub.into_leaves h (orFinish_movesSequencer _ _)
    exact (waitNotBusy_keeps hu).1.records.sequencer hm
  | address p =>
    obtain ⟨u, hu, hm⟩ := Sub.into_leaves h (orFinish_movesSequencer _ _)
    exact (setAddress_keeps hu).1.records.sequencer hm
  | dataRequest p =>
    obtain ⟨u, hu, hm⟩ := Sub.into_leaves h fun r u => by unfold orFinish; split <;> rfl
    exact (waitDataRequest_keeps hu).1.records.sequencer hm
  | move q =>
    obtain ⟨u, hu, hm⟩ := Sub.into_leaves h fun _ u => goto_movesSequencer _ u
    exact (hx.keeps _ _ _ _ hu).records.sequencer hm
  | advance =>
    simp only [transferAt, advance] at h
    split at h
    · split at h <;> exact goOn_records h ⟨by simp, by simp, by simp⟩
    · exact goOn_records h ⟨by simp, by simp, by simp⟩
  | select | precomp | seccnt | command => exact goOn_records h ⟨rfl, rfl, rfl⟩

theorem exec_read_frame {s t : State} (h : exec .read s = .next t) : KeepsRecords s t ∧ MemoryFrame s t := by
  obtain ⟨hr, hm⟩ | ⟨hc, hf, hs⟩ := exec_frame_cases h
  · exact ⟨hr, memoryFrame_of_eq hm⟩
  · cases hp : s.phase <;> rw [hp] at hc <;> cases hc
    case inr.read.refl pos =>
      simp only [positionStep, hp] at hs
      refine ⟨transferAt_records reading_guarded hs, ?_⟩
      obtain hm | ⟨q, u, rfl, hu, hm⟩ := transferAt_memory hs
      · exact memoryFrame_of_eq hm
      obtain ⟨-, -, hu | ⟨rfl, w, hu⟩, -⟩ := moveIn_keeps hu
      · exact memoryFrame_of_eq (hm.trans hu)
      · exact memoryFrame_of_store (by rw [storeAddress, hp]) (hm.trans hu)
    case inr.finishing.refl r => exact (hf r hp).elim

theorem exec_write_frame {s t : State} (h : exec .write s = .next t) : KeepsStore s t := by
  obtain ⟨hr, hm⟩ | ⟨hc, hf, hs⟩ := exec_frame_cases h
  · exact ⟨hr, hm⟩
  · cases hp : s.phase <;> rw [hp] at hc <;> cases hc
    case inr.write.refl pos =>
      simp only [positionStep, hp] at hs
      refine ⟨transferAt_records writing_guarded hs, ?_⟩
      obtain hm | ⟨q, u, -, hu, hm⟩ := transferAt_memory hs
      · exact hm
      obtain ⟨-, -, hu, -⟩ := moveOut_keeps hu
      exact hm.trans hu
    case inr.finishing.refl r => exact (hf r hp).elim

/-- Settles O49: the host's side and the status register as with every command, and memory only at the mover's
store. -/
theorem frameOfRead : Obligations.FrameOfRead := by
  intro s t h
  obtain ⟨hr, hm⟩ := exec_read_frame h
  exact ⟨exec_hostSide h, exec_statusFrame h, hr.drv0, hr.drv1, hr.drvcount, hm⟩

/-- Settles O50: the host's side and the status register as with every command, and no memory at all. -/
theorem frameOfWrite : Obligations.FrameOfWrite := by
  intro s t h
  have hs := exec_write_frame h
  exact ⟨exec_hostSide h, exec_statusFrame h, hs.drv0, hs.drv1, hs.drvcount, fun x => by rw [hs.mem]⟩

end Sys2Proof.Machine
end

section
/-! SUPPORT. A sector's data is moved only after a wait for data request that returned `OK` (41_transfer.md R166,
42_identify.md R200, 40_port_handshake.md R138). -/

namespace Sys2Proof.Machine

open Sys2Proof.Safety

/-! ### Entering a mover -/

/-- For every position in the mover of a sector, in whichever command, the poll before it. -/
def moverEntry : Phase → Option Phase
  | .read (.move _) => some (.read (.dataRequest .poll))
  | .write (.move _) => some (.write (.dataRequest .poll))
  | .identify (.drive (.move _)) => some (.identify (.drive (.dataRequest .poll)))
  | .discover (.drive (.move _)) => some (.discover (.drive (.dataRequest .poll)))
  | _ => none

theorem moverEntry_cases {ph ph' : Phase} (h : moverEntry ph = some ph') :
    (∃ q, ph = .read (.move q)) ∧ ph' = .read (.dataRequest .poll) ∨
      (∃ q, ph = .write (.move q)) ∧ ph' = .write (.dataRequest .poll) ∨
      (∃ q, ph = .identify (.drive (.move q))) ∧ ph' = .identify (.drive (.dataRequest .poll)) ∨
      (∃ q, ph = .discover (.drive (.move q))) ∧ ph' = .discover (.drive (.dataRequest .poll)) := by
  unfold moverEntry at h
  split at h <;> cases h
  · exact .inl ⟨⟨_, rfl⟩, rfl⟩
  · exact .inr (.inl ⟨⟨_, rfl⟩, rfl⟩)
  · exact .inr (.inr (.inl ⟨⟨_, rfl⟩, rfl⟩))
  · exact .inr (.inr (.inr ⟨⟨_, rfl⟩, rfl⟩))

/-- The step from `s` to `t` was a status read that showed BUSY, ERROR and DRIVE-FAULT clear and DATA-REQUEST set, and
the sector starts at word 0. -/
def ShowsReady (s t : State) : Prop :=
  ∃ b, t.trace = .r .status b :: s.trace ∧ b.getLsbD s.cfg.busyBit = false ∧ b.getLsbD s.cfg.errorBit = false ∧
    b.getLsbD s.cfg.driveFaultBit = false ∧ b.getLsbD s.cfg.dataRequestBit = true ∧ t.v.j = 0

/-- A step that ends in a mover was in it, or at the poll before it, which showed the device ready. -/
def EntersReady (s t : State) : Prop :=
  ∀ ph, moverEntry t.phase = some ph → moverEntry s.phase = some ph ∨ s.phase = ph ∧ ShowsReady s t

theorem entersReady_outside {s t : State} (h : moverEntry t.phase = none) : EntersReady s t :=
  fun _ ht => nomatch h.symm.trans ht

theorem goOn_entersReady {ph : Phase} {s u t : State} (h : goOn ph u = .next t) (hp : moverEntry ph = none) :
    EntersReady s t := by
  cases h
  exact entersReady_outside hp

/-- An inlined subroutine outside the movers, whose caller does not enter one on an outcome it returns. -/
theorem Sub.into_entersReady {π : Type} {x : Sub π} {emb : π → Phase} {k : Result → State → State} {s t : State}
    (h : x.into emb k = .next t) (hemb : ∀ q, moverEntry (emb q) = none)
    (hk : ∀ r u, moverEntry (k r u).phase = none) : EntersReady s t := by
  obtain ⟨q, u, -, rfl⟩ | ⟨r, u, -, rfl⟩ := Sub.into_next h
  · exact entersReady_outside (hemb q)
  · exact entersReady_outside (hk r u)

theorem orFinish_outside {c : Instr} {ph : Phase} (r : Result) (s : State) (h : moverEntry ph = none) :
    moverEntry (orFinish c ph r s).phase = none := by
  unfold orFinish
  split
  · exact h
  · rfl

/-! ### The wait and the mover -/

theorem pollDataRequest_ready {c : Config} {b : Byte} (h : pollDataRequest c b = .ready) :
    b.getLsbD c.busyBit = false ∧ b.getLsbD c.errorBit = false ∧ b.getLsbD c.driveFaultBit = false ∧
      b.getLsbD c.dataRequestBit = true := by
  unfold pollDataRequest at h
  split at h
  · cases h
  · rename_i hbusy
    split at h
    · cases h
    · rename_i herr
      split at h
      · rename_i hdrq
        rw [Bool.or_eq_true, not_or] at herr
        exact ⟨eq_false_of_ne_true hbusy, eq_false_of_ne_true herr.1, eq_false_of_ne_true herr.2, hdrq⟩
      · cases h

/-- A wait for data request enters the mover behind it from its poll alone, with the device ready. -/
theorem waitDataRequest_entersReady {emb : DrqPos → Phase} {first : Phase} {k : Result → State → State} {p : DrqPos}
    {s t : State} (h : (waitDataRequest p s).into emb k = .next t) (hp : s.phase = emb p)
    (hemb : ∀ q, moverEntry (emb q) = none) (hfirst : moverEntry first = some (emb .poll))
    (hok : ∀ u, k .ok u = goto first (armMove u)) (hfail : ∀ r u, r ≠ .ok → moverEntry (k r u).phase = none) :
    EntersReady s t := by
  obtain ⟨q, u, -, rfl⟩ | ⟨r, u, hr, rfl⟩ := Sub.into_next h
  · exact entersReady_outside (hemb q)
  · by_cases he : r = .ok
    · subst he
      obtain ⟨rfl, b, hb, hready⟩ := waitDataRequest_ok hr
      obtain ⟨hbusy, herr, hfault, hdrq⟩ := pollDataRequest_ready hready
      intro ph ht
      rw [hok] at ht ⊢
      obtain rfl : emb .poll = ph := Option.some.inj (hfirst.symm.trans ht)
      exact .inr ⟨hp, b, hb, hbusy, herr, hfault, hdrq, rfl⟩
    · exact entersReady_outside (hfail r u he)

/-- A step inside a mover goes on in it or leaves it. -/
theorem mover_entersReady {π : Type} {x : Sub π} {emb : π → Phase} {q : π} {next poll : Phase} {s t : State}
    (h : x.into emb (fun _ => goto next) = .next t) (hp : s.phase = emb q)
    (hemb : ∀ q, moverEntry (emb q) = some poll) (hnext : moverEntry next = none) : EntersReady s t := by
  obtain ⟨q', u, -, rfl⟩ | ⟨r, u, -, rfl⟩ := Sub.into_next h
  · intro ph ht
    left
    rw [hp, hemb, ← hemb q']
    exact ht
  · exact entersReady_outside hnext

/-! ### The commands with a mover -/

/-- Of a direction's positions those of its mover lie behind its data-request wait, and no others. -/
structure Direction.MoverApart {μ : Type} (x : Direction μ) : Prop where
  outside : ∀ p, (∀ q, p ≠ .move q) → moverEntry (x.place p) = none
  inside : ∀ q, moverEntry (x.place (.move q)) = some (x.place (.dataRequest .poll))

theorem reading_moverApart : reading.MoverApart where
  outside p hp := by
    cases p with
    | move q => exact (hp q rfl).elim
    | _ => rfl
  inside _ := rfl

theorem writing_moverApart : writing.MoverApart where
  outside p hp := by
    cases p with
    | move q => exact (hp q rfl).elim
    | _ => rfl
  inside _ := rfl

theorem transferAt_entersReady {μ : Type} {x : Direction μ} (hx : x.MoverApart) {pos : XferPos μ} {s t : State}
    (hp : s.phase = x.place pos) (h : transferAt x pos s = .next t) : EntersReady s t := by
  cases pos with
  | check =>
    simp only [transferAt] at h
    split at h
    · exact goOn_entersReady h rfl
    · split at h
      · exact goOn_entersReady h (hx.outside .select nofun)
      · exact goOn_entersReady h rfl
  | chunk =>
    simp only [transferAt] at h
    split at h
    · exact goOn_entersReady h rfl
    · exact goOn_entersReady h (hx.outside .seccnt nofun)
  | notBusy p =>
    exact Sub.into_entersReady h (fun _ => hx.outside _ nofun)
      (fun r u => orFinish_outside r u (hx.outside .precomp nofun))
  | afterChunk p =>
    exact Sub.into_entersReady h (fun _ => hx.outside _ nofun)
      (fun r u => orFinish_outside r u (hx.outside .chunk nofun))
  | address p =>
    exact Sub.into_entersReady h (fun _ => hx.outside _ nofun)
      (fun r u => orFinish_outside r u (hx.outside .command nofun))
  | dataRequest p =>
    exact waitDataRequest_entersReady h hp (fun _ => hx.outside _ nofun) (hx.inside x.first) (fun _ => rfl)
      (fun r u hr => by rw [orFinish, if_neg hr]; rfl)
  | move q => exact mover_entersReady h hp hx.inside (hx.outside .advance nofun)
  | advance =>
    simp only [transferAt, advance] at h
    split at h
    · split at h
      · exact goOn_entersReady h (hx.outside (.afterChunk .settle) nofun)
      · exact goOn_entersReady h (hx.outside .chunk nofun)
    · exact goOn_entersReady h (hx.outside (.dataRequest .settle) nofun)
  | select => exact goOn_entersReady h (hx.outside (.notBusy .settle) nofun)
  | precomp => exact goOn_entersReady h (hx.outside .chunk nofun)
  | seccnt => exact goOn_entersReady h (hx.outside (.address .secnum) nofun)
  | command => exact goOn_entersReady h (hx.outside (.dataRequest .settle) nofun)

/-- `identify_one` enters its mover from its data-request wait alone, where its caller never does (42_identify.md
R200). -/
theorem identifyOne_entersReady {place : IdentPos → Phase} {k : Result → State → State} {d : BitVec 1} {pos : IdentPos}
    {s t : State} (hp : s.phase = place pos) (h : identifyOne place k d pos s = .next t)
    (houtside : ∀ p, (∀ q, p ≠ .move q) → moverEntry (place p) = none)
    (hinside : ∀ q, moverEntry (place (.move q)) = some (place (.dataRequest .poll)))
    (hk : ∀ r u, moverEntry (k r u).phase = none) : EntersReady s t := by
  cases pos with
  | select => exact goOn_entersReady h (houtside (.notBusy .settle) nofun)
  | command => exact goOn_entersReady h (houtside (.dataRequest .settle) nofun)
  | notBusy p =>
    refine Sub.into_entersReady h (fun _ => houtside _ nofun) (fun r u => ?_)
    split
    · exact houtside .command nofun
    · exact hk r u
  | dataRequest p =>
    exact waitDataRequest_entersReady h hp (fun _ => houtside _ nofun) (hinside .dataLo) (fun _ => rfl)
      (fun r u hr => by rw [if_neg hr]; exact hk r u)
  | move q => exact mover_entersReady h hp hinside (houtside .parse nofun)
  | parse =>
    simp only [identifyOne] at h
    split at h
    · cases h
    · cases h
      exact entersReady_outside (hk _ _)

theorem driveDone_outside (r : Result) (s : State) : moverEntry (driveDone r s).phase = none := by
  unfold driveDone
  by_cases hr : r = .ok <;> simp only [hr, if_true, if_false] <;> split <;> rfl

theorem identifyAt_entersReady {pos : IdentifyPos} {s t : State} (hp : s.phase = .identify pos)
    (h : identifyAt pos s = .next t) : EntersReady s t := by
  cases pos with
  | check =>
    simp only [identifyAt] at h
    split at h <;> exact goOn_entersReady h rfl
  | clear => exact goOn_entersReady h rfl
  | drive p =>
    refine identifyOne_entersReady (place := fun p => .identify (.drive p)) hp h (fun p hm => ?_) (fun _ => rfl)
      (fun _ _ => rfl)
    cases p with
    | move q => exact (hm q rfl).elim
    | _ => rfl

theorem discoverAt_entersReady {pos : DiscoverPos} {s t : State} (hp : s.phase = .discover pos)
    (h : discoverAt pos s = .next t) : EntersReady s t := by
  cases pos with
  | check =>
    simp only [discoverAt] at h
    split at h <;> exact goOn_entersReady h rfl
  | clear | count => exact goOn_entersReady h rfl
  | probe p => exact Sub.into_entersReady h (fun _ => rfl) (fun r u => by split <;> rfl)
  | drive p =>
    refine identifyOne_entersReady (place := fun p => .discover (.drive p)) hp h (fun p hm => ?_) (fun _ => rfl)
      driveDone_outside
    cases p with
    | move q => exact (hm q rfl).elim
    | _ => rfl

/-! ### Every step of a command -/

theorem positionStep_entersReady {c : Instr} {s t : State} (hc : s.phase.command = some c)
    (hf : ∀ r, s.phase ≠ .finishing c r) (h : positionStep s = .next t) : EntersReady s t := by
  have stays := (positionStep_staysIn hc hf h).runs.command
  cases hp : s.phase <;> rw [hp] at hc <;> cases hc <;> simp only [positionStep, hp] at h
  case read p => exact transferAt_entersReady reading_moverApart hp h
  case write p => exact transferAt_entersReady writing_moverApart hp h
  case identify p => exact identifyAt_entersReady hp h
  case discover p => exact discoverAt_entersReady hp h
  case finishing r => exact (hf r hp).elim
  all_goals
    intro ph ht
    obtain ⟨⟨q, hq⟩, -⟩ | ⟨⟨q, hq⟩, -⟩ | ⟨⟨q, hq⟩, -⟩ | ⟨⟨q, hq⟩, -⟩ := moverEntry_cases ht <;>
      simp [hq, Phase.command] at stays

theorem exec_entersReady {c : Instr} {s t : State} (h : exec c s = .next t) : EntersReady s t := by
  obtain ⟨-, rfl⟩ | ⟨r, -, rfl⟩ | ⟨-, -, rfl⟩ | ⟨hc, hf, hs⟩ := exec_cases h
  · exact entersReady_outside (by cases c <;> rfl)
  · exact entersReady_outside rfl
  · exact fun _ ht => .inl ht
  · exact positionStep_entersReady hc hf hs

/-- Settles O41: a step that ends in a mover was in that mover, or at its poll, which showed the device ready. -/
theorem dataMovesOnlyWhenReady : Obligations.DataMovesOnlyWhenReady := by
  intro i s t h ready
  refine ⟨fun q hq => ?_, fun q hq => ?_, fun q hq => ?_, fun q hq => ?_⟩ <;>
    exact (exec_entersReady h _ (congrArg moverEntry hq)).imp_left fun hs => by simpa using moverEntry_cases hs

end Sys2Proof.Machine
end

section
/-! SUPPORT. The record a parameter block parses to (42_identify.md R204 to R209, R212, R215): its numeric fields as
numbers, and its strings byte by byte. -/

namespace Sys2Proof.Machine

open Sys2Proof.Safety

/-! ### The words of a block -/

theorem append_toNat {m n : Nat} (x : BitVec m) (y : BitVec n) : (x ++ y).toNat = 2 ^ n * x.toNat + y.toNat := by
  rw [BitVec.toNat_append, ← Nat.shiftLeft_add_eq_or_of_lt y.isLt, Nat.shiftLeft_eq, Nat.mul_comm]

theorem idWord_toNat (blk : List Byte) (n : Nat) : (idWord blk n).toNat = idValue blk n := append_toNat _ _

theorem idWord_wide_toNat (blk : List Byte) (n : Nat) : ((idWord blk n).setWidth 32 : Word).toNat = idValue blk n := by
  rw [BitVec.toNat_setWidth_of_le (by decide), idWord_toNat]

/-- The LBA sector count, word 61 above word 60 (R205). -/
theorem idTotal_toNat (blk : List Byte) :
    (idWord blk 61 ++ idWord blk 60 : Word).toNat = 2 ^ 16 * idValue blk 61 + idValue blk 60 := by
  rw [append_toNat, idWord_toNat, idWord_toNat]

theorem idWord_high (blk : List Byte) (n : Nat) : (idWord blk n).extractLsb' 8 8 = blk.getD (2 * n + 1) 0 :=
  BitVec.extractLsb'_append_eq_left

theorem idWord_low (blk : List Byte) (n : Nat) : (idWord blk n).extractLsb' 0 8 = blk.getD (2 * n) 0 :=
  BitVec.extractLsb'_append_eq_right

/-- The product of a reported geometry (R215). -/
theorem geomProduct_toNat (blk : List Byte) :
    (geomProduct ((idWord blk 1).setWidth 32) (idWord blk 3) (idWord blk 6)).toNat =
      idValue blk 1 * idValue blk 3 * idValue blk 6 % 2 ^ 32 := by
  rw [geomProduct, BitVec.toNat_ofNat, idWord_wide_toNat, idWord_toNat, idWord_toNat]

theorem geomConsistent_iff (blk : List Byte) :
    geomConsistent (idWord blk 61 ++ idWord blk 60) ((idWord blk 1).setWidth 32) (idWord blk 3) (idWord blk 6) = true ↔
      idValue blk 3 = 16 ∧ idValue blk 6 = 63 ∧
        2 ^ 16 * idValue blk 61 + idValue blk 60 = idValue blk 1 * idValue blk 3 * idValue blk 6 % 2 ^ 32 := by
  simp only [geomConsistent, Bool.and_eq_true, beq_iff_eq, ← BitVec.toNat_inj, idTotal_toNat, geomProduct_toNat,
    idWord_toNat, BitVec.ofNat_eq_ofNat, BitVec.toNat_ofNat, and_assoc]

/-! ### The numeric fields -/

/-- What a parse sets whatever the addressing mode: PRESENT and the two strings (R208, R212). -/
theorem parseBlock_anyMode (blk : List Byte) :
    (parseBlock blk).present = true ∧ (parseBlock blk).model = decodeStr blk 27 46 44 ∧
      (parseBlock blk).fw = decodeStr blk 23 26 12 := by
  simp only [parseBlock]
  split
  · split <;> exact ⟨rfl, rfl, rfl⟩
  · exact ⟨rfl, rfl, rfl⟩

theorem parseBlock_present (blk : List Byte) : (parseBlock blk).present = true := (parseBlock_anyMode blk).1

theorem parseBlock_lba (blk : List Byte) : (parseBlock blk).lba = (idWord blk 49).getLsbD 9 := by
  simp only [parseBlock]
  split <;> rename_i h
  · split <;> exact h.symm
  · exact (eq_false_of_ne_true h).symm

/-- An LBA drive's total is the reported one, whatever becomes of the geometry (R205, R206). -/
theorem parseBlock_total_lba {blk : List Byte} (h : (parseBlock blk).lba = true) :
    (parseBlock blk).total = idWord blk 61 ++ idWord blk 60 := by
  rw [parseBlock_lba] at h
  simp only [parseBlock, h, if_true]
  split <;> rfl

/-- An LBA drive's geometry: the reported one where it is consistent, else the normalised one (R206). -/
theorem parseBlock_geometry_lba {blk : List Byte} (h : (parseBlock blk).lba = true) :
    (parseBlock blk).heads.toNat = 16 ∧ (parseBlock blk).spt.toNat = 63 ∧
      (parseBlock blk).cyl.toNat =
        if idValue blk 3 = 16 ∧ idValue blk 6 = 63 ∧
            2 ^ 16 * idValue blk 61 + idValue blk 60 = idValue blk 1 * idValue blk 3 * idValue blk 6 % 2 ^ 32 then
          idValue blk 1
        else (2 ^ 16 * idValue blk 61 + idValue blk 60) / 1008 := by
  rw [parseBlock_lba] at h
  simp only [parseBlock, h, if_true, ← geomConsistent_iff]
  split
  · rename_i hg
    obtain ⟨hh, hs, -⟩ := (geomConsistent_iff blk).1 hg
    exact ⟨(idWord_toNat blk 3).trans hh, (idWord_toNat blk 6).trans hs, idWord_wide_toNat blk 1⟩
  · refine ⟨rfl, rfl, ?_⟩
    rw [BitVec.toNat_udiv, idTotal_toNat]
    rfl

/-- A CHS drive's geometry is the reported one, and its total the product (R207, R215). -/
theorem parseBlock_chs {blk : List Byte} (h : (parseBlock blk).lba = false) :
    (parseBlock blk).total = geomProduct ((idWord blk 1).setWidth 32) (idWord blk 3) (idWord blk 6) ∧
      (parseBlock blk).cyl = (idWord blk 1).setWidth 32 ∧ (parseBlock blk).heads = idWord blk 3 ∧
        (parseBlock blk).spt = idWord blk 6 := by
  rw [parseBlock_lba] at h
  simp only [parseBlock, h, Bool.false_eq_true, if_false, and_self]

/-- Settles O44: with LBA the total is the reported one and the geometry kept or normalised, without it the geometry is
the reported one and the total its product. -/
theorem parsedFields : Obligations.ParsedFields := by
  intro blk r cyl hd spt tl product
  refine ⟨parseBlock_present blk, ?_, fun hl => ?_, fun hl => ?_⟩
  · rw [parseBlock_lba, ← BitVec.testBit_toNat, idWord_toNat]
  · obtain ⟨hheads, hspt, hcyl⟩ := parseBlock_geometry_lba hl
    refine ⟨(congrArg _ (parseBlock_total_lba hl)).trans (idTotal_toNat blk), fun hg => ?_, fun hg => ?_⟩
    · exact ⟨hcyl.trans (if_pos hg), hheads, hspt⟩
    · exact ⟨hcyl.trans (if_neg hg), hheads, hspt⟩
  · obtain ⟨htotal, hcyl, hheads, hspt⟩ := parseBlock_chs hl
    exact ⟨(congrArg _ htotal).trans (geomProduct_toNat blk), (congrArg _ hcyl).trans (idWord_wide_toNat blk 1),
      (congrArg _ hheads).trans (idWord_toNat blk 3), (congrArg _ hspt).trans (idWord_toNat blk 6)⟩

/-! ### The strings -/

/-- Chunks of `k` consecutive values, one after the other, are the values in order. -/
theorem flatMap_range_chunks {α : Type} (f : Nat → α) (k n : Nat) :
    (List.range n).flatMap (fun i => (List.range k).map fun j => f (k * i + j)) = (List.range (k * n)).map f := by
  induction n with
  | zero => rfl
  | succ n ih =>
    rw [List.range_succ, List.flatMap_append, ih, Nat.mul_succ, List.range_add, List.map_append, List.map_map,
      List.flatMap_singleton]
    rfl

/-- The characters of the words `a` to `b`, in order (R208). -/
theorem idChars_eq (blk : List Byte) (a b : Nat) :
    idChars blk a b = (List.range (2 * (b - a + 1))).map (idChar blk a) := by
  rw [← flatMap_range_chunks]
  refine congrArg (List.flatMap · _) (funext fun i => ?_)
  have hi : (2 * i + 1) % 2 = 1 ∧ (2 * i + 1) / 2 = i := by omega
  simp [idWord_high, idWord_low, idChar, List.range_succ, hi]

/-- A character is kept exactly where it or a later one is printable (R208). -/
theorem lt_keptLength_iff (l : List Byte) (k : Nat) :
    k < keptLength l ↔ ∃ m, k ≤ m ∧ m < l.length ∧ printable (l.getD m 0) = true := by
  induction l generalizing k with
  | nil => simp [keptLength]
  | cons ch rest ih =>
    have later : (∃ m, k ≤ m ∧ m < (ch :: rest).length ∧ printable ((ch :: rest).getD m 0) = true) ↔
        k = 0 ∧ printable ch = true ∨ k - 1 < keptLength rest := by
      rw [ih]
      constructor
      · rintro ⟨_ | m, hn, hm, hp⟩
        · exact .inl ⟨by omega, hp⟩
        · exact .inr ⟨m, by omega, by simpa using hm, hp⟩
      · rintro (⟨rfl, hp⟩ | ⟨m, hn, hm, hp⟩)
        · exact ⟨0, le_rfl, by simp, hp⟩
        · exact ⟨m + 1, by omega, by simpa using hm, hp⟩
    rw [later, keptLength]
    cases keptLength rest with
    | zero => by_cases hp : printable ch = true <;> simp [hp]
    | succ n => simp only; omega

theorem printable_iff (b : Byte) : printable b = true ↔ 0x21 ≤ b.toNat ∧ b.toNat ≤ 0x7E := by
  simp [printable]

theorem idChars_length (blk : List Byte) (a b : Nat) : (idChars blk a b).length = 2 * (b - a + 1) := by
  simp [idChars_eq]

theorem idChars_getD (blk : List Byte) {a b m : Nat} (h : m < 2 * (b - a + 1)) :
    (idChars blk a b).getD m 0 = idChar blk a m := by
  rw [List.getD_eq_getElem _ _ (by rwa [idChars_length])]
  simp [idChars_eq]

/-- A character of the words `a` to `b` is kept exactly where it or a later one is printable (R208, R209). -/
theorem lt_keptLength_idChars (blk : List Byte) (a b k : Nat) :
    k < keptLength (idChars blk a b) ↔ ∃ m, k ≤ m ∧ m < 2 * (b - a + 1) ∧
      0x21 ≤ (idChar blk a m).toNat ∧ (idChar blk a m).toNat ≤ 0x7E := by
  rw [lt_keptLength_iff, idChars_length]
  refine exists_congr fun m => and_congr_right fun _ => and_congr_right fun hm => ?_
  rw [idChars_getD blk hm, printable_iff]

/-- Each byte of a decoded string field (R208, R209). -/
theorem decodeStr_stringByte (blk : List Byte) (a b : Nat) {size : Nat} (k : Fin size) :
    StringByte blk a (2 * (b - a + 1)) k.val (decodeStr blk a b size)[k] := by
  have kept := lt_keptLength_idChars blk a b k.val
  rw [Fin.getElem_fin, decodeStr, Vector.getElem_ofFn]
  constructor
  · intro hp
    rw [if_pos (kept.2 hp)]
    obtain ⟨m, hkm, hm, -⟩ := hp
    exact idChars_getD blk (hkm.trans_lt hm)
  · intro hnone
    refine if_neg fun hlt => ?_
    obtain ⟨m, hkm, hm, hp⟩ := kept.1 hlt
    exact hnone m hkm hm hp

/-- Behind its characters a string field holds NUL bytes (R208). -/
theorem stringByte_past_end {blk : List Byte} {a len k : Nat} {b : Byte} (h : StringByte blk a len k b)
    (hk : len ≤ k) : b = 0 := h.2 fun m hkm hm => by omega

/-- Settles O45: MODEL holds the 40 characters of words 27 to 46, FW the 8 of words 23 to 26. -/
theorem parsedStrings : Obligations.ParsedStrings := by
  intro blk
  obtain ⟨-, hmodel, hfw⟩ := parseBlock_anyMode blk
  have model : ∀ k : Fin 44, StringByte blk 27 40 k.val (parseBlock blk).model[k] := by
    rw [hmodel]
    exact decodeStr_stringByte blk 27 46
  have fw : ∀ k : Fin 12, StringByte blk 23 8 k.val (parseBlock blk).fw[k] := by
    rw [hfw]
    exact decodeStr_stringByte blk 23 26
  exact ⟨model, fw, stringByte_past_end (model 43) (by decide), stringByte_past_end (fw 11) (by decide)⟩

end Sys2Proof.Machine
end

section
/-! SUPPORT. The parse as a step (42_identify.md R204, R210 to R212): the snapshot of a block nothing raced is its 512
bytes, and the drive's record is what they parse to. -/

namespace Sys2Proof.Machine

open Sys2Proof.Safety

/-! ### The snapshot -/

theorem driveRecord_setDriveRecord_same (d : BitVec 1) (r : DriveRecord) (s : State) :
    driveRecord (setDriveRecord d r s) d = r := by
  by_cases hd : d = 0#1 <;> simp [driveRecord, hd]

/-- The words of a block, each taken apart, are its bytes in order (R204). -/
theorem flatMap_blockWords (m : Memory) (p : Word) :
    ((List.range 128).map fun j => m.word (p + 4 * BitVec.ofNat 32 j)).flatMap bytesOfWord = blockBytes m p := by
  rw [blockBytes, ← flatMap_range_chunks _ 4 128, List.flatMap_map]
  refine congrArg (List.flatMap · _) (funext fun j => ?_)
  have word : p + 4 * BitVec.ofNat 32 j = p + BitVec.ofNat 32 (4 * j) := by rw [BitVec.ofNat_mul]; rfl
  rw [Memory.word, bytesOfWord_wordOfBytes, word]
  simp [List.range_succ, ← offset_add]

/-- A parse where memory admits the block and nothing raced (R204, R210, R212). -/
theorem parse_quiet {d : BitVec 1} {p : Word} {s : State} (ha : admitsBlock s p = true) (hr : s.races = []) :
    parse d p s = some (setDriveRecord d (parseBlock (blockBytes s.mem p)) (emit (.ms p) s)) := by
  simp only [parse, memSnap512, ha, if_true, engineLoads_quiet _ _ _ hr, flatMap_blockWords]

/-! ### The parse of each command -/

/-- DISCOVER on a drive's success: the drive is counted (R203). -/
theorem driveDone_ok (s : State) : driveDone .ok s = absorb { s with v := { s.v with cnt := s.v.cnt + 1 } } := rfl

theorem absorb_first {s : State} (h : s.v.dd = 0) :
    absorb s = { s with v := { s.v with dd := 1 }, phase := .discover (.drive .select) } := if_pos h

theorem absorb_last {s : State} (h : s.v.dd = 1) : absorb s = { s with phase := .discover .count } :=
  if_neg (by rw [h]; decide)

/-- The record written and the sequencer moved on, drive by drive. -/
theorem goto_setDriveRecord (ph : Phase) (d : BitVec 1) (r : DriveRecord) (s : State) :
    goto ph (setDriveRecord d r s) =
      if d = 0 then { s with drv0 := r, phase := ph } else { s with drv1 := r, phase := ph } := by
  unfold setDriveRecord
  split <;> rfl

theorem identifyOne_parse {place : IdentPos → Phase} {k : Result → State → State} {d : BitVec 1} {s : State}
    (ha : admitsBlock s s.v.p = true) (hr : s.races = []) :
    identifyOne place k d .parse s =
      .next (k .ok (setDriveRecord d (parseBlock (blockBytes s.mem s.v.p)) (emit (.ms s.v.p) s))) := by
  simp only [identifyOne, parse_quiet ha hr]

theorem exec_parseid_parse {s : State} (hp : s.phase = .parseid .parse) (ha : admitsBlock s s.v.p = true)
    (hr : s.races = []) :
    exec .parseid s = .next (goto (.finishing .parseid .ok)
      (setDriveRecord s.v.d (parseBlock (blockBytes s.mem s.v.p)) (emit (.ms s.v.p) s))) := by
  simp only [exec_parseid_at hp, parseidAt, parse_quiet ha hr, goOn]

theorem exec_discover_parse {s : State} (hp : s.phase = .discover (.drive .parse)) (ha : admitsBlock s s.v.p = true)
    (hr : s.races = []) :
    exec .discover s = .next (driveDone .ok
      (setDriveRecord (loopDrive s) (parseBlock (blockBytes s.mem s.v.p)) (emit (.ms s.v.p) s))) := by
  rw [exec_discover_at hp, discoverAt, identifyOne_parse ha hr]

/-- Settles O43: each of the three commands has one parse position, and goes on from it as its pseudocode says. -/
theorem parseWritesRecord : Obligations.ParseWritesRecord := by
  intro s ha hr r
  refine ⟨fun hp => ?_, fun hp => ?_, fun hp hd => ?_, fun hp hd => ?_⟩
  · rw [exec_parseid_parse hp ha hr, goto_setDriveRecord]
    rfl
  · rw [exec_identify_at hp, identifyAt, identifyOne_parse ha hr, goto_setDriveRecord]
    rfl
  · rw [exec_discover_parse hp ha hr, driveDone_ok, absorb_first (by simpa using hd), loopDrive, hd]
    rfl
  · rw [exec_discover_parse hp ha hr, driveDone_ok, absorb_last (by simpa using hd), loopDrive, hd]
    rfl

/-- A PARSEID that parses was admitted its block (20_memory.md R65). -/
theorem exec_parseid_parse_next {s t : State} (hp : s.phase = .parseid .parse) (hr : s.races = [])
    (h : exec .parseid s = .next t) :
    t = goto (.finishing .parseid .ok)
      (setDriveRecord s.v.d (parseBlock (blockBytes s.mem s.v.p)) (emit (.ms s.v.p) s)) := by
  have ha : admitsBlock s s.v.p = true := by
    by_contra hn
    simp [exec_parseid_at hp, parseidAt, parse_refused (eq_false_of_ne_true hn)] at h
  rw [exec_parseid_parse hp ha hr] at h
  cases h
  rfl

/-- Settles O46: a parse writes what the block's bytes parse to, and leaves the bytes as they are. -/
theorem parseDependsOnBlockAlone : Obligations.ParseDependsOnBlockAlone := by
  constructor
  · intro s s' t t' hp hp' hr hr' hb h h'
    rw [exec_parseid_parse_next hp hr h, exec_parseid_parse_next hp' hr' h', hb]
    exact (driveRecord_setDriveRecord_same ..).trans (driveRecord_setDriveRecord_same ..).symm
  · intro s t t' hp hr h h'
    obtain rfl := exec_parseid_parse_next hp hr h
    obtain rfl := exec_parseid_parse_next rfl (by simpa using hr) h'
    by_cases hd : s.v.d = 0#1 <;> simp [hd]

end Sys2Proof.Machine
end

section
/-! SUPPORT. IDENTIFY's and DISCOVER's steps outside their waits and their parse (42_identify.md R200, R201, R203, R213;
60_exceptions.md R246): READ's sector mover inlined in them, and their updates of one access each. -/

namespace Sys2Proof.Machine

open Sys2Proof.Safety

/-! ### READ's mover inlined -/

theorem latchRead8_goto (ph : Phase) (s : State) : (latchRead8 (goto ph s)).1 = (latchRead8 s).1 := by
  simp only [latchRead8, deviceAnswer, goto_devScript, goto_trace]
  cases s.devScript <;> rfl

theorem devRead32_goto (ph : Phase) (s : State) : (devRead32 (goto ph s)).1 = (devRead32 s).1 := by
  simp only [devRead32, deviceAnswer, goto_devScript, goto_trace]
  cases s.devScript <;> rfl

theorem readDataLow_goto (ph : Phase) (s : State) : readDataLow (goto ph s) = goto ph (readDataLow s) := by
  simp only [readDataLow, devRead8_state, devRead8_goto]
  rfl

theorem readDataHigh_goto (ph : Phase) (s : State) :
    readDataHigh (goto ph s) = ((readDataHigh s).1, goto ph (readDataHigh s).2) := by
  simp only [readDataHigh, latchRead8_state, latchRead8_goto]
  rfl

theorem readDataWide_goto (ph : Phase) (s : State) :
    readDataWide (goto ph s) = ((readDataWide s).1, goto ph (readDataWide s).2) := by
  simp only [readDataWide, devRead32_state, devRead32_goto]
  rfl

theorem engineStore_goto (ph : Phase) (a w : Word) (s : State) :
    engineStore a w (goto ph s) = goto ph (engineStore a w s) := by
  have hrace : raceAt (goto ph s) (wordAddr a) = raceAt s (wordAddr a) := rfl
  unfold engineStore
  rw [hrace]
  split <;> rfl

theorem memWrite_goto (ph : Phase) (a w : Word) (s : State) :
    memWrite a w (goto ph s) = (memWrite a w s).map (goto ph) := by
  have hadmits : admitsWord .write (goto ph s) a = admitsWord .write s a := rfl
  simp only [memWrite, hadmits, engineStore_goto]
  split <;> rfl

/-- The mover never looks at the phase. -/
theorem moveIn_goto (ph : Phase) (p : Word) (q : InPos) (s : State) :
    moveIn p q (goto ph s) = (moveIn p q s).atPhase ph := by
  cases q with
  | dataLo | dataHi =>
    simp only [moveIn, goto_cfg, readDataLow_goto, readDataWide_goto]
    split <;> rfl
  | latchLo | latchHi =>
    simp only [moveIn, goto_cfg, readDataHigh_goto]
    split <;> rfl
  | store =>
    have hpair : pairWord (goto ph s) = pairWord s := rfl
    simp only [moveIn, goto_v, memWrite_goto, hpair]
    cases memWrite (sectorWord p s.v.j) (pairWord s) s with
    | none => rfl
    | some u =>
      have hlast : lastWord (goto ph u) = lastWord u := rfl
      simp only [Option.map_some, hlast]
      split <;> rfl
  | count => rfl

/-- The mover inlined in a command is READ's, where it returns to `next` (00_scope.md R9). -/
theorem moveIn_inlined {place : InPos → Phase} {next : Phase} (q : InPos) (s : State) :
    (moveIn s.v.p q s).into place (fun _ => goto next) =
      inlineMove place next (exec .read { s with phase := .read (.move q) }) := by
  have halone : exec .read { s with phase := .read (.move q) } =
      ((moveIn s.v.p q s).atPhase (.read (.move q))).into (fun q => .read (.move q))
        fun _ => goto (.read .advance) := by
    rw [← moveIn_goto]
    exact exec_read_move rfl
  rw [halone]
  cases moveIn s.v.p q s <;> rfl

/-! ### The updates -/

/-- Settles O42: the clear, the select and the command are one update each, and the data phase is READ's mover. -/
theorem identifySteps : Obligations.IdentifySteps := by
  intro s
  refine ⟨fun hs => ?_, exec_identify_at, exec_identify_at, fun q hs => ?_⟩
  · rw [exec_identify_at hs, identifyAt, goOn, clearRecord, goto_setDriveRecord]
  · exact (exec_identify_at hs).trans (moveIn_inlined q s)

theorem exec_discover_readLo {s : State} {b : Byte} (h : s.phase = .discover (.probe .readLo))
    (hb : (devRead8 .cyllo s).1 = b) :
    exec .discover s = .next
      { s with
        devScript := s.devScript.tail, trace := .r .cyllo b :: s.trace, v := { s.v with a := b }
        phase := .discover (.probe .readHi) } := by
  rw [exec_discover_at h, discoverAt, probeCtrl, devRead8_state, hb]
  rfl

/-- The probe's verdict: on with drive 0, or the hard fail (60_exceptions.md R246). -/
theorem exec_discover_readHi {s : State} {b : Byte} (h : s.phase = .discover (.probe .readHi))
    (hb : (devRead8 .cylhi s).1 = b) :
    exec .discover s = .next
      (if s.v.a = s.cfg.pat1 ∧ b = s.cfg.pat2 then
        { s with
          devScript := s.devScript.tail, trace := .r .cylhi b :: s.trace, v := { s.v with cnt := 0, dd := 0 }
          phase := .discover (.drive .select) }
      else
        { s with
          devScript := s.devScript.tail, trace := .r .cylhi b :: s.trace
          phase := .finishing .discover .noctrl }) := by
  rw [exec_discover_at h, discoverAt, probeCtrl, devRead8_state, hb]
  by_cases hpat : s.v.a = s.cfg.pat1 ∧ b = s.cfg.pat2
  · simp only [if_pos hpat]
    rfl
  · simp only [if_neg hpat]
    rfl

/-- The drive-select byte of the loop's drive (30_encoding.md R97). -/
theorem devsel_loopDrive (s : State) :
    devsel s.cfg (loopDrive s) = if s.v.dd.getLsbD 0 then s.cfg.devsel1 else s.cfg.devsel0 := by
  have hd : ∀ dd : BitVec 2, dd.setWidth 1 = (0 : BitVec 1) ↔ ¬dd.getLsbD 0 = true := by decide
  simp only [devsel, loopDrive, hd, ite_not]

/-- Settles O47: the probe's reads are answered by the device, every other step is one write or one pure update, and the
data phase is READ's mover. -/
theorem discoverSteps : Obligations.DiscoverSteps := by
  intro s
  refine ⟨exec_discover_at, exec_discover_at, exec_discover_at,
    fun hs => ⟨_, devRead8_answers .cyllo s, exec_discover_readLo hs rfl⟩,
    fun hs => ⟨_, devRead8_answers .cylhi s, exec_discover_readHi hs rfl⟩, fun hs => ?_, exec_discover_at,
    exec_discover_at, fun q hs => ?_⟩
  · rw [exec_discover_at hs, ← devsel_loopDrive]
    rfl
  · exact (exec_discover_at hs).trans (moveIn_inlined q s)

end Sys2Proof.Machine
end

section
/-! SUPPORT. The drive count of a DISCOVER (42_identify.md R203, R213, R214): its positions and its two finishes as one
predicate of a phase and a state, and that every step keeps it. -/

namespace Sys2Proof.Machine

open Sys2Proof.Safety

/-! ### The law at a phase -/

/-- What `DriveCountOk` asks of a state at a phase. -/
def DrivesAt (ph : Phase) (s : State) : Prop :=
  match ph with
  | .discover (.probe _) => s.drvcount = 0 ∧ s.drv0 = DriveRecord.absent ∧ s.drv1 = DriveRecord.absent
  | .discover (.drive _) => DrivesSoFar s
  | .discover .count => s.v.cnt.toNat = presentCount s.drv0 + presentCount s.drv1
  | .finishing .discover .ok => s.drvcount.toNat = presentCount s.drv0 + presentCount s.drv1
  | .finishing .discover .noctrl => s.drvcount = 0 ∧ s.drv0 = DriveRecord.absent ∧ s.drv1 = DriveRecord.absent
  | _ => True

theorem driveCountOk_iff {s : State} : DriveCountOk s ↔ DrivesAt s.phase s := by
  constructor
  · intro h
    unfold DrivesAt
    split
    · exact h.probing _ ‹_›
    · exact h.driving _ ‹_›
    · exact h.counting ‹_›
    · exact h.found ‹_›
    · exact h.none ‹_›
    · trivial
  · intro h
    constructor <;> intros <;> rename_i hp <;> rwa [hp] at h

/-- Nothing the drive count law speaks of is written. -/
structure KeepsDrives (s t : State) : Prop extends KeepsRecords s t where
  dd : t.v.dd = s.v.dd
  cnt : t.v.cnt = s.v.cnt

theorem KeepsCommand.drives {s t : State} (h : KeepsCommand s t) : KeepsDrives s t := ⟨h.records, h.dd, h.cnt⟩

theorem goto_keepsDrives (ph : Phase) (s : State) : KeepsDrives s (goto ph s) := ⟨⟨rfl, rfl, rfl⟩, rfl, rfl⟩

theorem DrivesAt.keeps {ph : Phase} {s t : State} (h : DrivesAt ph s) (hk : KeepsDrives s t) : DrivesAt ph t := by
  unfold DrivesAt DrivesSoFar at *
  rw [hk.drvcount, hk.drv0, hk.drv1, hk.dd, hk.cnt]
  exact h

theorem DrivesAt.goto {ph : Phase} {s : State} (h : DrivesAt ph s) : DrivesAt (goto ph s).phase (goto ph s) :=
  h.keeps (goto_keepsDrives ph s)

theorem goOn_drivesAt {ph : Phase} {s t : State} (h : goOn ph s = .next t) (hs : DrivesAt ph s) :
    DrivesAt t.phase t := by
  cases h
  exact hs.goto

/-- The law asks nothing of the positions of the other commands. -/
theorem drivesAt_other {c : Instr} {ph : Phase} (s : State) (hc : ph.command = some c) (hne : c ≠ .discover) :
    DrivesAt ph s := by
  unfold DrivesAt
  split
  case h_6 => trivial
  all_goals
    cases hc
    exact (hne rfl).elim

/-! ### The end of a drive -/

/-- The loop's drive is done: the count is the number of present records among the drives up to it, and a drive not yet
tried is absent (R203). -/
def DriveCounted (s : State) : Prop :=
  (s.v.dd = 0 ∧ s.v.cnt.toNat = presentCount s.drv0 ∧ s.drv1 = DriveRecord.absent) ∨
    (s.v.dd = 1 ∧ s.v.cnt.toNat = presentCount s.drv0 + presentCount s.drv1)

theorem presentCount_absent : presentCount DriveRecord.absent = 0 := rfl

theorem presentCount_le (r : DriveRecord) : presentCount r ≤ 1 := by
  unfold presentCount
  split <;> decide

/-- Two drives are counted without a carry out of the two bits. -/
theorem count_succ_toNat {n : BitVec 2} (h : n.toNat ≤ 1) : (n + 1).toNat = n.toNat + 1 := by
  simp only [BitVec.toNat_add, BitVec.ofNat_eq_ofNat, BitVec.toNat_ofNat]
  omega

theorem presentCount_parseBlock (blk : List Byte) : presentCount (parseBlock blk) = 1 := if_pos (parseBlock_present blk)

/-- The loop goes on with drive 1, or ends with its count. -/
theorem absorb_drivesAt {s : State} (h : DriveCounted s) : DrivesAt (absorb s).phase (absorb s) := by
  obtain ⟨hd, hcnt, h1⟩ | ⟨hd, hcnt⟩ := h
  · rw [absorb_first hd]
    exact .inr ⟨rfl, hcnt, h1⟩
  · rw [absorb_last hd]
    exact hcnt

/-- A drive that failed left its record cleared and the count as it was (60_exceptions.md R246). -/
theorem driveCounted_failed {s : State} (h : DrivesSoFar s) : DriveCounted s := by
  obtain ⟨hd, hcnt, h0, h1⟩ | ⟨hd, hcnt, h1⟩ := h
  · exact .inl ⟨hd, by rw [hcnt, h0]; rfl, h1⟩
  · exact .inr ⟨hd, by rw [hcnt, h1, presentCount_absent, Nat.add_zero]⟩

/-- A drive that was parsed is present, and counted. -/
theorem driveCounted_parsed {s u : State} {p : Word} (h : DrivesSoFar s) (hu : parse (loopDrive s) p s = some u) :
    DriveCounted { u with v := { u.v with cnt := u.v.cnt + 1 } } := by
  obtain ⟨-, n, rfl⟩ := parse_some hu
  obtain ⟨hd, hcnt, h0, h1⟩ | ⟨hd, hcnt, h1⟩ := h
  · have hloop : loopDrive s = 0 := by rw [loopDrive, hd]; rfl
    exact .inl ⟨by simpa using hd, by simp [hloop, hcnt, presentCount_parseBlock], by simpa [hloop] using h1⟩
  · have hloop : loopDrive s = 1 := by rw [loopDrive, hd]; rfl
    have hsucc := count_succ_toNat (hcnt.trans_le (presentCount_le s.drv0))
    exact .inr ⟨by simpa using hd, by simpa [hloop, presentCount_parseBlock, hcnt] using hsucc⟩

/-! ### The positions of DISCOVER -/

theorem drivesSoFar_keeps {s t : State} (h : DrivesSoFar s) (hk : KeepsDrives s t) : DrivesSoFar t :=
  DrivesAt.keeps (ph := .discover (.drive .select)) h hk

/-- Every drive position asks the same. -/
theorem goto_drive_drivesAt {q : IdentPos} {s : State} (h : DrivesSoFar s) :
    DrivesAt (goto (.discover (.drive q)) s).phase (goto (.discover (.drive q)) s) :=
  DrivesAt.goto (ph := .discover (.drive q)) h

/-- A subroutine of a drive position keeps the law where its caller does with every outcome. -/
theorem Sub.into_drivesAt {π : Type} {x : Sub π} {emb : π → IdentPos} {k : Result → State → State} {s t : State}
    (h : x.into (fun q => .discover (.drive (emb q))) k = .next t) (hs : DrivesSoFar s)
    (hx : ∀ u, x.leaves u → KeepsCommand s u)
    (hk : ∀ r u, DrivesSoFar u → DrivesAt (k r u).phase (k r u)) : DrivesAt t.phase t := by
  obtain ⟨q, u, rfl, rfl⟩ | ⟨r, u, rfl, rfl⟩ := Sub.into_next h
  · exact goto_drive_drivesAt (drivesSoFar_keeps hs (hx u rfl).drives)
  · exact hk r u (drivesSoFar_keeps hs (hx u rfl).drives)

theorem driveDone_failed_drivesAt {r : Result} {s : State} (hr : r ≠ .ok) (h : DrivesSoFar s) :
    DrivesAt (driveDone r s).phase (driveDone r s) := by
  rw [driveDone_failed hr]
  exact absorb_drivesAt (driveCounted_failed h)

/-- One drive of the loop: its record stays cleared up to its parse, and its end counts it or not. -/
theorem identifyOne_drivesAt {pos : IdentPos} {s t : State} (hs : DrivesSoFar s)
    (h : identifyOne (fun p => .discover (.drive p)) driveDone (loopDrive s) pos s = .next t) :
    DrivesAt t.phase t := by
  cases pos with
  | select => exact goOn_drivesAt (ph := .discover (.drive (.notBusy .settle))) h hs
  | command => exact goOn_drivesAt (ph := .discover (.drive (.dataRequest .settle))) h hs
  | notBusy p =>
    refine Sub.into_drivesAt (emb := .notBusy) h hs (fun _ hu => (waitNotBusy_keeps hu).1) (fun r u hu => ?_)
    split
    · exact goto_drive_drivesAt hu
    · exact driveDone_failed_drivesAt ‹_› hu
  | dataRequest p =>
    refine Sub.into_drivesAt (emb := .dataRequest) h hs (fun _ hu => (waitDataRequest_keeps hu).1) (fun r u hu => ?_)
    split
    · exact goto_drive_drivesAt (s := armMove u) hu
    · exact driveDone_failed_drivesAt ‹_› hu
  | move q =>
    exact Sub.into_drivesAt (emb := .move) h hs (fun _ hu => (moveIn_keeps hu).1)
      (fun _ _ => goto_drive_drivesAt)
  | parse =>
    simp only [identifyOne] at h
    split at h
    · cases h
    · rename_i u hu
      cases h
      rw [driveDone_ok]
      exact absorb_drivesAt (driveCounted_parsed hs hu)

theorem discoverAt_drivesAt {pos : DiscoverPos} {s t : State} (hs : DrivesAt (.discover pos) s)
    (h : discoverAt pos s = .next t) : DrivesAt t.phase t := by
  cases pos with
  | check =>
    simp only [discoverAt] at h
    split at h <;> exact goOn_drivesAt h trivial
  | clear => exact goOn_drivesAt h ⟨by simp, by simp, by simp⟩
  | probe p =>
    obtain ⟨q, u, hu, rfl⟩ | ⟨r, u, hu, rfl⟩ := Sub.into_next h
    · have hk := (probeCtrl_keeps (Sub.leaves_of_more hu)).1.drives
      exact (DrivesAt.keeps (ph := .discover (.probe q)) hs hk).goto
    · have hk := (probeCtrl_keeps (by rw [hu]; rfl)).1.drives
      obtain ⟨hcount, h0, h1⟩ := DrivesAt.keeps hs hk
      split
      · exact .inl ⟨rfl, rfl, h0, h1⟩
      · exact ⟨hcount, h0, h1⟩
  | drive p => exact identifyOne_drivesAt hs h
  | count => exact goOn_drivesAt h hs

/-! ### Every step -/

theorem positionStep_drivesAt {s t : State} (hs : DrivesAt s.phase s) (hc : s.phase.command = some .discover)
    (hf : ∀ r, s.phase ≠ .finishing .discover r) (h : positionStep s = .next t) : DrivesAt t.phase t := by
  cases hp : s.phase <;> rw [hp] at hc <;> cases hc
  case discover.refl pos =>
    simp only [positionStep, hp] at h
    rw [hp] at hs
    exact discoverAt_drivesAt hs h
  case finishing.refl r => exact (hf r hp).elim

/-- A step of any command, accepted, running or turned away, keeps the law: the other commands stay at positions of
which it asks nothing. -/
theorem exec_drivesAt {c : Instr} {s t : State} (h : exec c s = .next t) (hs : DrivesAt s.phase s) :
    DrivesAt t.phase t := by
  obtain ⟨-, rfl⟩ | ⟨r, -, rfl⟩ | ⟨-, -, rfl⟩ | ⟨hc, hf, hstep⟩ := exec_cases h
  · cases c <;> trivial
  · trivial
  · exact hs.keeps ⟨⟨rfl, rfl, rfl⟩, rfl, rfl⟩
  · by_cases hd : c = .discover
    · subst hd
      exact positionStep_drivesAt hs hc hf hstep
    · exact drivesAt_other t (positionStep_staysIn hc hf hstep).runs.command hd

/-- A host operation that starts no command writes nothing the law speaks of, or resets the engine. -/
theorem hostMove_drivesAt {op : HostOp} {s t : State} (h : hostMove op s = .settled t) (hs : DrivesAt s.phase s) :
    DrivesAt t.phase t := by
  obtain ⟨-, rfl⟩ | hm := hostMove_settled h
  · trivial
  · rw [hm.phase]
    exact hs.keeps ⟨⟨hm.drvcount, hm.drv0, hm.drv1⟩, by rw [hm.v], by rw [hm.v]⟩

/-- Settles O57: each position of DISCOVER hands the law on to the next, and no one else writes what it speaks of. -/
theorem everyStepKeepsDriveCount : Obligations.EveryStepKeepsDriveCount := by
  intro s t hs h
  rw [driveCountOk_iff] at *
  have hin : ∀ l, DrivesAt s.phase { s with inputs := l } := fun l => hs.keeps ⟨⟨rfl, rfl, rfl⟩, rfl, rfl⟩
  obtain ⟨l, ⟨i, -, he⟩ | ⟨v, i, -, -, -, he⟩ | ⟨op, -, hm⟩ | rfl⟩ := step_cases h
  · exact exec_drivesAt he (hin l)
  · exact exec_drivesAt he (hin l)
  · exact hostMove_drivesAt hm (hin l)
  · exact hin l

end Sys2Proof.Machine
end

section
/-! SUPPORT. The engine in `IDLE` (60_exceptions.md R256): its turn is empty, and only a command the host issues takes
it out; and one poll of WAITDRQ (R245; 40_port_handshake.md R138, R139): what each status byte leads to. -/

namespace Sys2Proof.Machine

open Sys2Proof.Safety

/-! ### The idle engine -/

/-- In `IDLE` the engine's turn leaves everything as it is (60_exceptions.md R256). -/
theorem engineMove_idle {s : State} (hp : s.phase = .idle) : engineMove s = .settled s := by
  simp only [engineMove, hp, Phase.command]

theorem step_idle_quiet {s : State} (hp : s.phase = .idle) (hi : s.inputs = []) : step s = .next s := by
  simp only [step, nextMove, hi, engineMove_idle hp]

theorem step_idle_delayed {s : State} {m : Nat} {op : HostOp} {rest : List Input} (hp : s.phase = .idle)
    (hi : s.inputs = { delay := m + 1, op := op } :: rest) :
    step s = .next { s with inputs := { delay := m, op := op } :: rest } := by
  have hp' : ({ s with inputs := { delay := m, op := op } :: rest } : State).phase = .idle := hp
  simp only [step, nextMove, hi, engineMove_idle hp']

/-- A host operation that starts no command leaves the trace alone, and an idle engine idle. -/
theorem hostMove_idle {op : HostOp} {s t : State} (hp : s.phase = .idle) (h : hostMove op s = .settled t) :
    t.trace = s.trace ∧ t.phase = .idle := by
  obtain ⟨-, rfl⟩ | hm := hostMove_settled h
  · exact ⟨rfl, rfl⟩
  · exact ⟨hm.trace, hm.phase.trans hp⟩

/-- Settles O6: the idle engine's own turn is empty, and of a step's four forms only a command's acceptance takes it
out of `IDLE`, without an event. -/
theorem idleEngineWaits : Obligations.IdleEngineWaits := by
  refine ⟨fun s => step_idle_quiet, fun s m op rest => step_idle_delayed, fun s t hp h => ?_⟩
  obtain ⟨l, ⟨i, hc, -⟩ | ⟨v, i, hi, hb, hd, he⟩ | ⟨op, -, hm⟩ | rfl⟩ := step_cases h
  · rw [hp] at hc
    cases hc
  · cases (exec_accepts (s := { s with inputs := l }) hp).symm.trans he
    exact ⟨rfl, .inr ⟨v, i, l, hi, hb, hd, (firstPosition_runsIn i).command⟩⟩
  · obtain ⟨htrace, hphase⟩ := hostMove_idle (s := { s with inputs := l }) hp hm
    exact ⟨htrace, .inl hphase⟩
  · exact ⟨rfl, .inl hp⟩

/-! ### WAITDRQ's poll -/

section
variable {c : Config} {b : Byte}

/-- While BUSY is set no other bit counts (60_exceptions.md R245). -/
theorem pollDataRequest_busy (hb : b.getLsbD c.busyBit = true) : pollDataRequest c b = .notReady := if_pos hb

/-- ERROR or DRIVE-FAULT is reported whatever DATA-REQUEST is (60_exceptions.md R245). -/
theorem pollDataRequest_error (hb : b.getLsbD c.busyBit = false)
    (he : (b.getLsbD c.errorBit || b.getLsbD c.driveFaultBit) = true) : pollDataRequest c b = .deviceError :=
  (if_neg (ne_true_of_eq_false hb)).trans (if_pos he)

/-- Without BUSY and an error, DATA-REQUEST alone decides. -/
theorem pollDataRequest_noError (hb : b.getLsbD c.busyBit = false)
    (he : (b.getLsbD c.errorBit || b.getLsbD c.driveFaultBit) = false) :
    pollDataRequest c b = if b.getLsbD c.dataRequestBit then .ready else .notReady :=
  (if_neg (ne_true_of_eq_false hb)).trans (if_neg (ne_true_of_eq_false he))

/-- The bytes after which the wait polls again: BUSY set, or neither an error nor DATA-REQUEST. -/
theorem pollDataRequest_notReady
    (h : b.getLsbD c.busyBit = true ∨
      (b.getLsbD c.errorBit || b.getLsbD c.driveFaultBit) = false ∧ b.getLsbD c.dataRequestBit = false) :
    pollDataRequest c b = .notReady := by
  obtain hb | ⟨he, hd⟩ := h
  · exact pollDataRequest_busy hb
  · cases hb : b.getLsbD c.busyBit with
    | true => exact pollDataRequest_busy hb
    | false => exact (pollDataRequest_noError hb he).trans (if_neg (ne_true_of_eq_false hd))

end

/-- Settles O23: the poll reads one status byte, and its tests in order decide where the wait goes. -/
theorem waitdrqPolls : Obligations.WaitdrqPolls := by
  refine ⟨fun s hp => ?_, fun s hp => ?_⟩
  · have hbudget : (pollRead s).v.budget = s.v.budget := by rw [pollRead_v]
    refine ⟨_, devRead8_answers .status s, fun hb he => ?_, fun hb he hd => ?_, fun hn hg => ?_, fun hn hg => ?_⟩
    · rw [exec_waitdrq_at hp, waitDataRequest_deviceError (pollDataRequest_error hb he), pollRead_eq]
      rfl
    · have hready := (pollDataRequest_noError hb he).trans (if_pos hd)
      rw [exec_waitdrq_at hp, waitDataRequest_ready hready, pollRead_eq]
      rfl
    · rw [exec_waitdrq_at hp, waitDataRequest_notReady (pollDataRequest_notReady hn),
        pollAgain_more _ (hbudget ▸ hg), Sub.into, goto_self (by simp [hp]), pollRead_eq]
      rfl
    · rw [exec_waitdrq_at hp, waitDataRequest_notReady (pollDataRequest_notReady hn),
        pollAgain_timeout _ (hbudget ▸ hg), pollRead_eq]
      rfl
  · refine ⟨_, devRead8_answers .error s, ?_⟩
    rw [exec_waitdrq_readError hp, captureError_eq]
    rfl

end Sys2Proof.Machine
end

section
/-! SUPPORT. The reset input (70_reset_and_hazards.md R270 to R272) clears the engine in the step in which it is due. -/

namespace Sys2Proof.Machine

/-- Settles O15: the due reset input is the next move, and the reset writes the engine's own state alone. -/
theorem resetInputClearsEngine : Obligations.ResetInputClearsEngine := by
  intro s rest hi
  refine ⟨s.v, [], ?_⟩
  simp only [step, nextMove, hi, hostMove]
  rfl

end Sys2Proof.Machine
end

section
/-! SUPPORT. Every command comes to its end (70_reset_and_hazards.md R280, R281): a rank that each step of a running
command lowers, and the access at which a command can be stuck instead (20_memory.md R65). A poll budget is drawn in
the middle of a wait and is bounded by nothing known before (40_port_handshake.md R136), so the rank is lexicographic:
what is left of a command weighs more than any budget. -/

namespace Sys2Proof.Machine

open Sys2Proof.Safety

/-! ### The rank of a position -/

/-- What is left of a subroutine: the loops still to run, then the turns left of the present one. -/
abbrev Pace : Type := ℕ ×ₗ ℕ

/-- What is left of a command: its sectors or drives, then the positions behind the present one, then what is left of
the subroutine at it. -/
abbrev Rank : Type := ℕ ×ₗ ℕ ×ₗ Pace

def paceOf (loops turns : ℕ) : Pace := toLex (loops, turns)

def rankOf (blocks stage : ℕ) (pace : Pace) : Rank := toLex (blocks, toLex (stage, pace))

theorem paceOf_lt_loops {l l' : ℕ} (n n' : ℕ) (h : l < l') : paceOf l n < paceOf l' n' :=
  Prod.Lex.toLex_lt_toLex.2 (.inl h)

theorem paceOf_lt_turns (l : ℕ) {n n' : ℕ} (h : n < n') : paceOf l n < paceOf l n' :=
  Prod.Lex.toLex_lt_toLex.2 (.inr ⟨rfl, h⟩)

theorem rankOf_lt_blocks {b b' : ℕ} (i i' : ℕ) (p p' : Pace) (h : b < b') : rankOf b i p < rankOf b' i' p' :=
  Prod.Lex.toLex_lt_toLex.2 (.inl h)

theorem rankOf_lt_pace (b i : ℕ) {p p' : Pace} (h : p < p') : rankOf b i p < rankOf b i p' :=
  Prod.Lex.toLex_lt_toLex.2 (.inr ⟨rfl, Prod.Lex.toLex_lt_toLex.2 (.inr ⟨rfl, h⟩)⟩)

theorem rankOf_lt_stage {b b' i i' : ℕ} (p p' : Pace) (hb : b ≤ b') (h : i < i') :
    rankOf b i p < rankOf b' i' p' := by
  obtain hlt | rfl := hb.lt_or_eq
  · exact rankOf_lt_blocks i i' p p' hlt
  · exact Prod.Lex.toLex_lt_toLex.2 (.inr ⟨rfl, Prod.Lex.toLex_lt_toLex.2 (.inl h)⟩)

/-- The settle reads still to make, and after the draw the budget still to spend (40_port_handshake.md R137). -/
def nbPace (c : Config) (v : Vars) : NbPos → Pace
  | .settle => paceOf 1 (c.settle - v.t)
  | .poll => paceOf 0 v.budget

/-- As `nbPace`, with the read of the error register behind the polls (R138). -/
def drqPace (c : Config) (v : Vars) : DrqPos → Pace
  | .settle => paceOf 2 (c.settle - v.t)
  | .poll => paceOf 1 v.budget
  | .readError => paceOf 0 0

/-- The accesses left of the present memory word (R141). -/
def inTurns : InPos → ℕ
  | .dataLo => 5
  | .latchLo => 4
  | .dataHi => 3
  | .latchHi => 2
  | .store => 1
  | .count => 0

/-- The same for a word sent (R142). -/
def outTurns : OutPos → ℕ
  | .load => 5
  | .firstLo => 4
  | .secondLo => 3
  | .firstHi => 2
  | .secondHi => 1
  | .count => 0

/-- The memory words of the sector still to move, then the accesses left of the present one. -/
def inPace (v : Vars) (p : InPos) : Pace := paceOf (127 - v.j.toNat) (inTurns p)

def outPace (v : Vars) (p : OutPos) : Pace := paceOf (127 - v.j.toNat) (outTurns p)

def addrPace : AddrPos → Pace
  | .secnum => paceOf 0 3
  | .cyllo => paceOf 0 2
  | .cylhi => paceOf 0 1
  | .devhead => paceOf 0 0

def probePace : ProbePos → Pace
  | .writeLo => paceOf 0 3
  | .writeHi => paceOf 0 2
  | .readLo => paceOf 0 1
  | .readHi => paceOf 0 0

/-- The sectors a transfer has still to move: inside a chunk `n` is that of its start (41_transfer.md R164). -/
def sectorsLeft {μ : Type} (v : Vars) : XferPos μ → ℕ
  | .dataRequest _ | .move _ | .advance => v.n.toNat + 1 - v.i.toNat
  | _ => v.n.toNat

/-- The positions of `transfer(dir)` (R164) in the order in which a sector passes them, the last first. -/
def xferStage {μ : Type} : XferPos μ → ℕ
  | .check => 12
  | .select => 11
  | .notBusy _ => 10
  | .precomp => 9
  | .afterChunk _ => 8
  | .chunk => 7
  | .seccnt => 6
  | .address _ => 5
  | .command => 4
  | .dataRequest _ => 3
  | .move _ => 2
  | .advance => 1

def xferPace {μ : Type} (movePace : Vars → μ → Pace) (c : Config) (v : Vars) : XferPos μ → Pace
  | .notBusy p | .afterChunk p => nbPace c v p
  | .address p => addrPace p
  | .dataRequest p => drqPace c v p
  | .move p => movePace v p
  | _ => paceOf 0 0

def xferRank {μ : Type} (movePace : Vars → μ → Pace) (c : Config) (v : Vars) (p : XferPos μ) : Rank :=
  rankOf (sectorsLeft v p) (xferStage p) (xferPace movePace c v p)

/-- The turns DISCOVER's drive loop has after the present one (42_identify.md R203). IDENTIFY writes no loop index, and
its drive positions are ranked alike. -/
def drivesLeft (v : Vars) : ℕ := if v.dd = 0 then 1 else 0

/-- The positions of `identify_one` (42_identify.md R200), the last first. -/
def identStage : IdentPos → ℕ
  | .select => 7
  | .notBusy _ => 6
  | .command => 5
  | .dataRequest _ => 4
  | .move _ => 3
  | .parse => 2

def identPace (c : Config) (v : Vars) : IdentPos → Pace
  | .notBusy p => nbPace c v p
  | .dataRequest p => drqPace c v p
  | .move p => inPace v p
  | _ => paceOf 0 0

def identRank (c : Config) (v : Vars) (p : IdentPos) : Rank :=
  rankOf (drivesLeft v) (identStage p) (identPace c v p)

/-- The rank of a position, that of a finish the lowest. -/
def rankAt (c : Config) (v : Vars) : Phase → Rank
  | .select => rankOf 0 1 (paceOf 0 0)
  | .waitnb p => rankOf 0 1 (nbPace c v p)
  | .waitdrq p => rankOf 0 1 (drqPace c v p)
  | .setaddr .check => rankOf 0 2 (paceOf 0 0)
  | .setaddr (.address p) => rankOf 0 1 (addrPace p)
  | .read p => xferRank inPace c v p
  | .write p => xferRank outPace c v p
  | .identify .check => rankOf 2 2 (paceOf 0 0)
  | .identify .clear => rankOf 2 1 (paceOf 0 0)
  | .identify (.drive p) => identRank c v p
  | .parseid .check => rankOf 0 2 (paceOf 0 0)
  | .parseid .parse => rankOf 0 1 (paceOf 0 0)
  | .probe p => rankOf 0 1 (probePace p)
  | .discover .check => rankOf 2 3 (paceOf 0 0)
  | .discover .clear => rankOf 2 2 (paceOf 0 0)
  | .discover (.probe p) => rankOf 2 1 (probePace p)
  | .discover (.drive p) => identRank c v p
  | .discover .count => rankOf 0 1 (paceOf 0 0)
  | .finishing _ _ | .idle => rankOf 0 0 (paceOf 0 0)

def rank (s : State) : Rank := rankAt s.cfg s.v s.phase

theorem KeepsCommand.drivesLeft {s t : State} (h : KeepsCommand s t) : drivesLeft t.v = drivesLeft s.v := by
  simp only [Machine.drivesLeft, h.dd]

theorem KeepsCommand.sectorsLeft {μ : Type} {s t : State} (h : KeepsCommand s t) (p : XferPos μ) :
    sectorsLeft t.v p = sectorsLeft s.v p := by
  cases p <;> simp only [Machine.sectorsLeft, h.n, h.i]

theorem drivesLeft_le (v : Vars) : drivesLeft v ≤ 1 := by
  unfold drivesLeft; split <;> decide

/-! ### Inside a subroutine -/

theorem pollAgain_more_budget {π : Type} {p q : π} {s u : State} (h : pollAgain p s = .more q u) :
    q = p ∧ u.v.budget < s.v.budget := by
  unfold pollAgain at h
  split at h
  · cases h
  · rename_i hb
    cases h
    refine ⟨rfl, ?_⟩
    simp only [spendBudget_v] at *
    omega

theorem waitNotBusy_lowers {p q : NbPos} {s u : State} (h : waitNotBusy p s = .more q u) :
    nbPace u.cfg u.v q < nbPace s.cfg s.v p := by
  cases p with
  | settle =>
    simp only [waitNotBusy] at h
    split at h <;> cases h
    · refine paceOf_lt_turns 1 ?_
      simp only [settleRead_cfg, settleRead_v]
      omega
    · exact paceOf_lt_loops _ _ (by decide)
  | poll =>
    simp only [waitNotBusy] at h
    split at h
    · obtain ⟨rfl, hb⟩ := pollAgain_more_budget h
      exact paceOf_lt_turns 0 (by simpa using hb)
    · cases h

theorem waitDataRequest_lowers {p q : DrqPos} {s u : State} (h : waitDataRequest p s = .more q u) :
    drqPace u.cfg u.v q < drqPace s.cfg s.v p := by
  cases p with
  | settle =>
    simp only [waitDataRequest] at h
    split at h <;> cases h
    · refine paceOf_lt_turns 2 ?_
      simp only [settleRead_cfg, settleRead_v]
      omega
    · exact paceOf_lt_loops _ _ (by decide)
  | poll =>
    simp only [waitDataRequest] at h
    split at h
    · cases h
    · cases h
      exact paceOf_lt_loops _ _ (by decide)
    · obtain ⟨rfl, hb⟩ := pollAgain_more_budget h
      exact paceOf_lt_turns 1 (by simpa using hb)
  | readError => cases h

/-- Where the word is not the last, one word less is left after it. -/
theorem wordsLeft_nextWord {s : State} (h : ¬lastWord s = true) :
    127 - (nextWord s).v.j.toNat < 127 - s.v.j.toNat := by
  have hj : s.v.j.toNat ≠ 127 := fun he => h (beq_iff_eq.2 (BitVec.eq_of_toNat_eq he))
  have hlt := s.v.j.isLt
  simp only [nextWord_v, BitVec.toNat_add, BitVec.ofNat_eq_ofNat, BitVec.toNat_ofNat]
  omega

theorem moveIn_lowers {p : Word} {q q' : InPos} {s u : State} (h : moveIn p q s = .more q' u) :
    inPace u.v q' < inPace s.v q := by
  cases q with
  | store =>
    simp only [moveIn] at h
    split at h
    · cases h
    · rename_i w hw
      have hv : w.v = s.v := by simp [(memWrite_some hw).2]
      rw [← hv]
      split at h
      · cases h
        exact paceOf_lt_turns _ (by decide)
      · rename_i hl
        cases h
        exact paceOf_lt_loops _ _ (wordsLeft_nextWord hl)
  | count => cases h
  | _ =>
    simp only [moveIn] at h
    split at h <;> cases h <;> simpa [inPace] using paceOf_lt_turns _ (by decide)

/-- After the last access of a word sent, the next word or the count of the sector. -/
theorem wordSent_lowers {q' : OutPos} {s u : State} {v : Vars} {n : ℕ} (h : wordSent s = .more q' u) (hv : s.v = v)
    (hn : 0 < n) : outPace u.v q' < paceOf (127 - v.j.toNat) n := by
  subst hv
  unfold wordSent at h
  split at h
  · cases h
    exact paceOf_lt_turns _ hn
  · rename_i hl
    cases h
    exact paceOf_lt_loops _ _ (wordsLeft_nextWord hl)

theorem moveOut_lowers {p : Word} {q q' : OutPos} {s u : State} (h : moveOut p q s = .more q' u) :
    outPace u.v q' < outPace s.v q := by
  cases q with
  | load =>
    simp only [moveOut] at h
    split at h
    · cases h
    · rename_i x hx
      obtain ⟨-, rfl⟩ := memRead_some hx
      cases h
      simpa [outPace] using paceOf_lt_turns _ (by decide)
  | firstLo | secondLo =>
    simp only [moveOut] at h
    split at h <;> cases h <;> exact paceOf_lt_turns _ (by decide)
  | firstHi =>
    simp only [moveOut] at h
    split at h
    · cases h
      exact paceOf_lt_turns _ (by decide)
    · exact wordSent_lowers h rfl (by decide)
  | secondHi =>
    simp only [moveOut] at h
    split at h
    · exact wordSent_lowers h rfl (by decide)
    · cases h
  | count => cases h

theorem setAddress_lowers {p q : AddrPos} {s u : State} (h : setAddress p s = .more q u) :
    addrPace q < addrPace p := by
  unfold setAddress at h
  split at h
  · cases p <;> cases h <;> exact paceOf_lt_turns 0 (by decide)
  · cases h

theorem probeCtrl_lowers {p q : ProbePos} {s u : State} (h : probeCtrl p s = .more q u) :
    probePace q < probePace p := by
  cases p <;> cases h <;> exact paceOf_lt_turns 0 (by decide)

/-! ### Steps that lower the rank -/

/-- An inlined step lowers the rank where its subroutine's steps and its caller's continuation do. -/
theorem Sub.into_lowers {π : Type} {x : Sub π} {emb : π → Phase} {k : Result → State → State} {t : State}
    {R : Rank} (h : x.into emb k = .next t) (hmore : ∀ q u, x = .more q u → rankAt u.cfg u.v (emb q) < R)
    (hret : ∀ r u, x.leaves u → rank (k r u) < R) : rank t < R := by
  obtain ⟨q, u, hx, rfl⟩ | ⟨r, u, rfl, rfl⟩ := Sub.into_next h
  · exact hmore q u hx
  · exact hret r u rfl

/-- A finish is below every position of a command's own pseudocode. -/
theorem rank_finishing_lt {b i : ℕ} (c : Instr) (r : Result) (u : State) (p : Pace) (h : 0 < i) :
    rank (goto (.finishing c r) u) < rankOf b i p := rankOf_lt_stage _ _ (Nat.zero_le b) h

theorem rank_orFinish_lt {b i : ℕ} {c : Instr} {ph : Phase} {r : Result} {u : State} {p : Pace}
    (h : rankAt u.cfg u.v ph < rankOf b i p) (hi : 0 < i) : rank (orFinish c ph r u) < rankOf b i p := by
  unfold orFinish
  split
  · exact h
  · exact rank_finishing_lt c r u p hi

/-- A subroutine that its command ends with: each of its steps goes on inside it or to the finish. -/
theorem Sub.into_finishing_lowers {π : Type} {x : Sub π} {emb : π → Phase} {c : Instr} {t : State} {i : ℕ}
    {p : Pace} (h : (x.into emb fun r => goto (.finishing c r)) = .next t) (hi : 0 < i)
    (hmore : ∀ q u, x = .more q u → rankAt u.cfg u.v (emb q) < rankOf 0 i p) : rank t < rankOf 0 i p :=
  Sub.into_lowers h hmore fun r u _ => rank_finishing_lt c r u p hi

theorem setaddrAt_lowers {pos : SetaddrPos} {s t : State} (h : setaddrAt pos s = .next t) :
    rank t < rankAt s.cfg s.v (.setaddr pos) := by
  cases pos with
  | check =>
    simp only [setaddrAt] at h
    split at h <;> cases h <;> exact rankOf_lt_stage _ _ le_rfl (by decide)
  | address p =>
    exact Sub.into_finishing_lowers h (by decide) fun _ _ hm => rankOf_lt_pace 0 1 (setAddress_lowers hm)

/-! ### `transfer(dir)` -/

/-- Both directions rank their positions alike, and their movers lower the pace. -/
structure Direction.Paced {μ : Type} (x : Direction μ) (pace : Vars → μ → Pace) : Prop where
  place : ∀ c v p, rankAt c v (x.place p) = xferRank pace c v p
  keeps : ∀ p q s u, (x.move p q s).leaves u → KeepsCommand s u
  lowers : ∀ p q s q' u, x.move p q s = .more q' u → pace u.v q' < pace s.v q

theorem reading_paced : reading.Paced inPace where
  place _ _ _ := rfl
  keeps _ _ _ _ hu := (moveIn_keeps hu).1
  lowers _ _ _ _ _ := moveIn_lowers

theorem writing_paced : writing.Paced outPace where
  place _ _ _ := rfl
  keeps _ _ _ _ hu := (moveOut_keeps hu).1
  lowers _ _ _ _ _ := moveOut_lowers

theorem xferStage_pos {μ : Type} (p : XferPos μ) : 0 < xferStage p := by
  cases p <;> simp only [xferStage] <;> decide

/-- The sectors of a chunk are among those remaining at its start (41_transfer.md R164). -/
theorem chunk_le_remaining {s : State} {m : ℕ} (h : InChunk s m) : s.v.k.toNat ≤ s.v.n.toNat := by
  rw [h.size, chunkSize_toNat]
  exact min_le_left _ _

/-- After a sector, one sector less is to move (R164). -/
theorem advance_lowers {μ : Type} {x : Direction μ} {pace : Vars → μ → Pace} (hx : x.Paced pace) {s t : State}
    (hok : XferOk s (.advance : XferPos μ)) (h : advance x s = .next t) :
    rank t < xferRank pace s.cfg s.v .advance := by
  obtain ⟨hchunk, hi, -⟩ := hok
  have hik := hchunk.bound
  have hkn := chunk_le_remaining hchunk
  by_cases he : s.v.i = s.v.k
  · have hn : (s.v.n - BitVec.ofNat 32 s.v.k.toNat).toNat < s.v.n.toNat + 1 - s.v.i.toNat := by
      rw [BitVec.ofNat_toNat, toNat_sub_chunk hkn, he]
      omega
    rw [advance_chunk x he rfl] at h
    cases h
    unfold rank
    split <;> rw [hx.place] <;> exact rankOf_lt_blocks _ _ _ _ hn
  · have hlt : s.v.i.toNat ≠ s.v.k.toNat := fun h => he (BitVec.eq_of_toNat_eq h)
    have hk := s.v.k.isLt
    have hn : s.v.n.toNat + 1 - (s.v.i + 1).toNat < s.v.n.toNat + 1 - s.v.i.toNat := by
      simp only [BitVec.toNat_add, BitVec.ofNat_eq_ofNat, BitVec.toNat_ofNat]
      omega
    rw [advance_sector x he] at h
    cases h
    unfold rank
    rw [hx.place]
    exact rankOf_lt_blocks _ _ _ _ hn

/-- A later position, with no more sectors left. -/
theorem Direction.Paced.later {μ : Type} {x : Direction μ} {pace : Vars → μ → Pace} (hx : x.Paced pace)
    {p q : XferPos μ} {s u : State} (hb : sectorsLeft u.v q ≤ sectorsLeft s.v p) (hs : xferStage q < xferStage p) :
    rankAt u.cfg u.v (x.place q) < xferRank pace s.cfg s.v p := by
  rw [hx.place]
  exact rankOf_lt_stage _ _ hb hs

/-- Another position inside the same subroutine. -/
theorem Direction.Paced.inside {μ : Type} {x : Direction μ} {pace : Vars → μ → Pace} (hx : x.Paced pace)
    {p q : XferPos μ} {s u : State} (hu : KeepsCommand s u) (hb : sectorsLeft s.v q = sectorsLeft s.v p)
    (hs : xferStage q = xferStage p) (hp : xferPace pace u.cfg u.v q < xferPace pace s.cfg s.v p) :
    rankAt u.cfg u.v (x.place q) < xferRank pace s.cfg s.v p := by
  rw [hx.place, xferRank, hu.sectorsLeft, hb, hs]
  exact rankOf_lt_pace _ _ hp

theorem transferAt_lowers {μ : Type} {x : Direction μ} {pace : Vars → μ → Pace} (hx : x.Paced pace)
    {pos : XferPos μ} {s t : State} (hok : XferOk s pos) (h : transferAt x pos s = .next t) :
    rank t < xferRank pace s.cfg s.v pos := by
  have returned : ∀ {u : State} {p} r, sectorsLeft u.v p ≤ sectorsLeft s.v pos → xferStage p < xferStage pos →
      rank (orFinish x.cmd (x.place p) r u) < xferRank pace s.cfg s.v pos := fun r hb hs =>
    rank_orFinish_lt (hx.later hb hs) (xferStage_pos pos)
  cases pos with
  | check =>
    simp only [transferAt] at h
    split at h
    · cases h; exact rank_finishing_lt _ _ s _ (xferStage_pos _)
    · split at h <;> cases h
      · exact hx.later le_rfl (by simp [xferStage])
      · exact rank_finishing_lt _ _ s _ (xferStage_pos _)
  | chunk =>
    simp only [transferAt] at h
    split at h <;> cases h
    · exact rank_finishing_lt _ _ s _ (xferStage_pos _)
    · exact hx.later (u := beginChunk s) le_rfl (by simp [xferStage])
  | notBusy p =>
    exact Sub.into_lowers h
      (fun q u hm => hx.inside (waitNotBusy_keeps (Sub.leaves_of_more hm)).1 rfl rfl (waitNotBusy_lowers hm))
      (fun r u hu => returned r ((waitNotBusy_keeps hu).1.sectorsLeft .precomp).le (by simp [xferStage]))
  | afterChunk p =>
    exact Sub.into_lowers h
      (fun q u hm => hx.inside (waitNotBusy_keeps (Sub.leaves_of_more hm)).1 rfl rfl (waitNotBusy_lowers hm))
      (fun r u hu => returned r ((waitNotBusy_keeps hu).1.sectorsLeft .chunk).le (by simp [xferStage]))
  | address p =>
    exact Sub.into_lowers h
      (fun q u hm => hx.inside (setAddress_keeps (Sub.leaves_of_more hm)).1 rfl rfl (setAddress_lowers hm))
      (fun r u hu => returned r ((setAddress_keeps hu).1.sectorsLeft .command).le (by simp [xferStage]))
  | dataRequest p =>
    exact Sub.into_lowers h
      (fun q u hm => hx.inside (waitDataRequest_keeps (Sub.leaves_of_more hm)).1 rfl rfl (waitDataRequest_lowers hm))
      (fun r u hu => returned (u := armMove u) r ((waitDataRequest_keeps hu).1.sectorsLeft (.move x.first)).le
        (by simp [xferStage]))
  | move p =>
    exact Sub.into_lowers h
      (fun q u hm => hx.inside (hx.keeps _ _ _ _ (Sub.leaves_of_more hm)) rfl rfl (hx.lowers _ _ _ _ _ hm))
      (fun r u hu => hx.later ((hx.keeps _ _ _ _ hu).sectorsLeft .advance).le (by simp [xferStage]))
  | advance => exact advance_lowers hx hok h
  | select | precomp | seccnt | command =>
    cases h
    exact hx.later le_rfl (by simp [xferStage])

/-! ### `identify_one` and its callers -/

theorem identStage_pos (p : IdentPos) : 1 < identStage p := by
  cases p <;> simp only [identStage] <;> decide

theorem identifyOne_lowers {place : IdentPos → Phase} {k : Result → State → State} {d : BitVec 1} {pos : IdentPos}
    {s t : State} (hplace : ∀ c v p, rankAt c v (place p) = identRank c v p)
    (hk : ∀ r u, u.v.dd = s.v.dd → rank (k r u) < identRank s.cfg s.v pos)
    (h : identifyOne place k d pos s = .next t) : rank t < identRank s.cfg s.v pos := by
  have later : ∀ {u : State} {p}, drivesLeft u.v = drivesLeft s.v → identStage p < identStage pos →
      rankAt u.cfg u.v (place p) < identRank s.cfg s.v pos := fun hb hs => by
    rw [hplace]
    exact rankOf_lt_stage _ _ hb.le hs
  have inside : ∀ {u : State} {p}, KeepsCommand s u → identStage p = identStage pos →
      identPace u.cfg u.v p < identPace s.cfg s.v pos →
      rankAt u.cfg u.v (place p) < identRank s.cfg s.v pos := fun hu hs hp => by
    rw [hplace, identRank, hu.drivesLeft, hs]
    exact rankOf_lt_pace _ _ hp
  cases pos with
  | notBusy p =>
    refine Sub.into_lowers h
      (fun q u hm => inside (waitNotBusy_keeps (Sub.leaves_of_more hm)).1 rfl (waitNotBusy_lowers hm))
      (fun r u hu => ?_)
    have hkeep := (waitNotBusy_keeps hu).1
    split
    · exact later hkeep.drivesLeft (by simp [identStage])
    · exact hk r u hkeep.dd
  | dataRequest p =>
    refine Sub.into_lowers h
      (fun q u hm => inside (waitDataRequest_keeps (Sub.leaves_of_more hm)).1 rfl (waitDataRequest_lowers hm))
      (fun r u hu => ?_)
    have hkeep := (waitDataRequest_keeps hu).1
    split
    · exact later (u := armMove u) hkeep.drivesLeft (by simp [identStage])
    · exact hk r u hkeep.dd
  | move p =>
    exact Sub.into_lowers h
      (fun q u hm => inside (moveIn_keeps (Sub.leaves_of_more hm)).1 rfl (moveIn_lowers hm))
      (fun r u hu => later (moveIn_keeps hu).1.drivesLeft (by simp [identStage]))
  | parse =>
    simp only [identifyOne] at h
    split at h
    · cases h
    · rename_i u hu
      obtain ⟨-, n, rfl⟩ := parse_some hu
      cases h
      exact hk .ok _ (by simp)
  | select | command =>
    cases h
    exact later rfl (by decide)

theorem identifyAt_lowers {pos : IdentifyPos} {s t : State} (h : identifyAt pos s = .next t) :
    rank t < rankAt s.cfg s.v (.identify pos) := by
  cases pos with
  | check =>
    simp only [identifyAt] at h
    split at h <;> cases h
    · exact rank_finishing_lt _ _ s _ (by decide)
    · exact rankOf_lt_stage _ _ le_rfl (by decide)
  | clear =>
    cases h
    exact rankOf_lt_blocks _ _ _ _ (Nat.lt_succ_of_le (drivesLeft_le _))
  | drive p =>
    simp only [identifyAt] at h
    exact identifyOne_lowers (fun _ _ _ => rfl)
      (fun r u _ => rank_finishing_lt _ r u _ (Nat.zero_lt_of_lt (identStage_pos p))) h

theorem parseidAt_lowers {pos : ParseidPos} {s t : State} (h : parseidAt pos s = .next t) :
    rank t < rankAt s.cfg s.v (.parseid pos) := by
  cases pos with
  | check =>
    simp only [parseidAt] at h
    split at h <;> cases h <;> exact rankOf_lt_stage _ _ le_rfl (by decide)
  | parse =>
    simp only [parseidAt] at h
    split at h <;> cases h
    exact rank_finishing_lt _ _ _ _ (by decide)

/-- After a drive the loop has one turn less, or only the count is left (42_identify.md R203). -/
theorem rank_driveDone_lt {u : State} {v : Vars} (h : u.v.dd = v.dd) (c : Config) (r : Result) (p : IdentPos) :
    rank (driveDone r u) < identRank c v p := by
  have hdd : (if r = .ok then { u with v := { u.v with cnt := u.v.cnt + 1 } } else u).v.dd = v.dd := by
    split <;> exact h
  simp only [driveDone, hdd]
  split
  · rename_i h0
    rw [identRank, drivesLeft, if_pos h0]
    exact rankOf_lt_blocks _ _ _ _ Nat.zero_lt_one
  · exact rankOf_lt_stage _ _ (Nat.zero_le _) (identStage_pos p)

theorem discoverAt_lowers {pos : DiscoverPos} {s t : State} (h : discoverAt pos s = .next t) :
    rank t < rankAt s.cfg s.v (.discover pos) := by
  cases pos with
  | check =>
    simp only [discoverAt] at h
    split at h <;> cases h
    · exact rank_finishing_lt _ _ s _ (by decide)
    · exact rankOf_lt_stage _ _ le_rfl (by decide)
  | clear =>
    cases h
    exact rankOf_lt_stage _ _ le_rfl (by decide)
  | probe p =>
    refine Sub.into_lowers h (fun _ _ hm => rankOf_lt_pace 2 1 (probeCtrl_lowers hm)) (fun r u _ => ?_)
    split
    · exact rankOf_lt_blocks _ _ _ _ (Nat.lt_succ_of_le (drivesLeft_le _))
    · exact rank_finishing_lt _ _ u _ (by decide)
  | drive p =>
    simp only [discoverAt] at h
    exact identifyOne_lowers (fun _ _ _ => rfl) (fun r u hu => rank_driveDone_lt hu _ r p) h
  | count =>
    cases h
    exact rank_finishing_lt _ _ _ _ (by decide)

/-- Every step inside a command lowers its rank. -/
theorem positionStep_lowers {c : Instr} {s t : State} (hok : TransferOk s) (hc : s.phase.command = some c)
    (hf : ∀ r, s.phase ≠ .finishing c r) (h : positionStep s = .next t) : rank t < rank s := by
  unfold rank
  cases hp : s.phase <;> rw [hp] at hc <;> cases hc <;> simp only [positionStep, hp] at h
  case select =>
    cases h
    exact rank_finishing_lt _ _ _ _ (by decide)
  case waitnb p =>
    exact Sub.into_finishing_lowers h (by decide) fun _ _ hm => rankOf_lt_pace 0 1 (waitNotBusy_lowers hm)
  case waitdrq p =>
    exact Sub.into_finishing_lowers h (by decide) fun _ _ hm => rankOf_lt_pace 0 1 (waitDataRequest_lowers hm)
  case setaddr p => exact setaddrAt_lowers h
  case read p => exact transferAt_lowers reading_paced (hok.reads p hp) h
  case write p => exact transferAt_lowers writing_paced (hok.writes p hp) h
  case identify p => exact identifyAt_lowers h
  case parseid p => exact parseidAt_lowers h
  case probe p =>
    exact Sub.into_finishing_lowers h (by decide) fun _ _ hm => rankOf_lt_pace 0 1 (probeCtrl_lowers hm)
  case discover p => exact discoverAt_lowers h
  case finishing r => exact (hf r hp).elim

/-! ### Where a command is stuck -/

/-- The accesses memory can refuse a command, and the address at which it does (20_memory.md R65). -/
def RefusesAccess (c : Instr) (s : State) (a : Word) : Prop :=
  c = .write ∧ admitsWord .read s a = false ∨
    (c = .read ∨ c = .identify ∨ c = .discover) ∧ admitsWord .write s a = false ∨
    (c = .parseid ∨ c = .identify ∨ c = .discover) ∧ admitsBlock s a = false

/-- What memory refuses lies in its refusing ranges alone. -/
theorem RefusesAccess.congr {c : Instr} {s t : State} {a : Word} (h : RefusesAccess c t a)
    (hr : t.refused = s.refused) : RefusesAccess c s a := by
  simpa only [RefusesAccess, admitsBlock, admitsWord, admitsByte, hr] using h

theorem memRead_none {a : Word} {s : State} (h : memRead a s = none) : admitsWord .read s a = false := by
  by_contra hn
  rw [memRead, if_pos (by simpa using hn)] at h
  cases h

theorem memWrite_none {a w : Word} {s : State} (h : memWrite a w s = none) : admitsWord .write s a = false := by
  by_contra hn
  rw [memWrite, if_pos (by simpa using hn)] at h
  cases h

theorem parse_none {d : BitVec 1} {p : Word} {s : State} (h : parse d p s = none) : admitsBlock s p = false := by
  by_contra hn
  rw [parse, memSnap512, if_pos (by simpa using hn)] at h
  cases h

theorem moveIn_stuck {p a : Word} {q : InPos} {s : State} (h : moveIn p q s = .halt (.memoryRefused a)) :
    admitsWord .write s a = false := by
  cases q with
  | store =>
    simp only [moveIn] at h
    split at h
    · rename_i hw
      cases h
      exact memWrite_none hw
    · split at h <;> cases h
  | count => cases h
  | _ => simp only [moveIn] at h; split at h <;> cases h

theorem moveOut_stuck {p a : Word} {q : OutPos} {s : State} (h : moveOut p q s = .halt (.memoryRefused a)) :
    admitsWord .read s a = false := by
  cases q with
  | load =>
    simp only [moveOut] at h
    split at h <;> cases h
    rename_i hw
    exact memRead_none hw
  | firstHi =>
    simp only [moveOut] at h
    split at h
    · cases h
    · exact (wordSent_not_halt _ _ h).elim
  | secondHi =>
    simp only [moveOut] at h
    split at h
    · exact (wordSent_not_halt _ _ h).elim
    · cases h
  | count => cases h
  | firstLo | secondLo => simp only [moveOut] at h; split at h <;> cases h

theorem setAddress_not_stuck {p : AddrPos} {s : State} {a : Word} : setAddress p s ≠ .halt (.memoryRefused a) := by
  unfold setAddress
  split
  · cases p <;> exact nofun
  · exact nofun

/-- `transfer(dir)` is stuck only in its mover. -/
theorem transferAt_stuck {μ : Type} {x : Direction μ} {pos : XferPos μ} {s : State} {a : Word}
    (h : transferAt x pos s = .fault (.memoryRefused a)) : ∃ q, x.move s.v.p q s = .halt (.memoryRefused a) := by
  cases pos with
  | move q => exact ⟨q, Sub.into_fault h⟩
  | notBusy p | afterChunk p => exact (waitNotBusy_not_halt _ _ _ (Sub.into_fault h)).elim
  | dataRequest p => exact (waitDataRequest_not_halt _ _ _ (Sub.into_fault h)).elim
  | address p => exact (setAddress_not_stuck (Sub.into_fault h)).elim
  | check =>
    simp only [transferAt] at h
    split at h
    · cases h
    · split at h <;> cases h
  | chunk => simp only [transferAt] at h; split at h <;> cases h
  | advance =>
    simp only [transferAt, advance] at h
    split at h
    · split at h <;> cases h
    · cases h
  | select | precomp | seccnt | command => cases h

/-- `identify_one` is stuck only in its mover and at its parse (42_identify.md R200). -/
theorem identifyOne_stuck {place : IdentPos → Phase} {k : Result → State → State} {d : BitVec 1} {pos : IdentPos}
    {s : State} {a : Word} (h : identifyOne place k d pos s = .fault (.memoryRefused a)) :
    admitsWord .write s a = false ∨ admitsBlock s a = false := by
  cases pos with
  | notBusy p => exact (waitNotBusy_not_halt _ _ _ (Sub.into_fault h)).elim
  | dataRequest p => exact (waitDataRequest_not_halt _ _ _ (Sub.into_fault h)).elim
  | move q => exact .inl (moveIn_stuck (Sub.into_fault h))
  | parse =>
    simp only [identifyOne] at h
    split at h <;> cases h
    rename_i hp
    exact .inr (parse_none hp)
  | select | command => cases h

theorem identifyAt_stuck {pos : IdentifyPos} {s : State} {a : Word}
    (h : identifyAt pos s = .fault (.memoryRefused a)) : RefusesAccess .identify s a := by
  cases pos with
  | check => simp only [identifyAt] at h; split at h <;> cases h
  | clear => cases h
  | drive p =>
    simp only [identifyAt] at h
    exact (identifyOne_stuck h).elim (fun hw => .inr (.inl ⟨.inr (.inl rfl), hw⟩))
      (fun hb => .inr (.inr ⟨.inr (.inl rfl), hb⟩))

theorem parseidAt_stuck {pos : ParseidPos} {s : State} {a : Word}
    (h : parseidAt pos s = .fault (.memoryRefused a)) : RefusesAccess .parseid s a := by
  cases pos with
  | check => simp only [parseidAt] at h; split at h <;> cases h
  | parse =>
    simp only [parseidAt] at h
    split at h <;> cases h
    rename_i hp
    exact .inr (.inr ⟨.inl rfl, parse_none hp⟩)

theorem discoverAt_stuck {pos : DiscoverPos} {s : State} {a : Word}
    (h : discoverAt pos s = .fault (.memoryRefused a)) : RefusesAccess .discover s a := by
  cases pos with
  | check => simp only [discoverAt] at h; split at h <;> cases h
  | probe p => exact (probeCtrl_not_halt _ _ _ (Sub.into_fault h)).elim
  | drive p =>
    simp only [discoverAt] at h
    exact (identifyOne_stuck h).elim (fun hw => .inr (.inl ⟨.inr (.inr rfl), hw⟩))
      (fun hb => .inr (.inr ⟨.inr (.inr rfl), hb⟩))
  | clear | count => cases h

/-- A running command is stuck only at an access that memory refuses it. -/
theorem positionStep_stuck {c : Instr} {s : State} {a : Word} (hc : s.phase.command = some c)
    (h : positionStep s = .fault (.memoryRefused a)) : RefusesAccess c s a := by
  cases hp : s.phase <;> rw [hp] at hc <;> cases hc <;> simp only [positionStep, hp] at h
  case select => cases h
  case waitnb p => exact (waitNotBusy_not_halt _ _ _ (Sub.into_fault h)).elim
  case waitdrq p => exact (waitDataRequest_not_halt _ _ _ (Sub.into_fault h)).elim
  case setaddr p =>
    cases p with
    | check => simp only [setaddrAt] at h; split at h <;> cases h
    | address p => exact (setAddress_not_stuck (Sub.into_fault h)).elim
  case read p =>
    obtain ⟨q, hq⟩ := transferAt_stuck h
    exact .inr (.inl ⟨.inl rfl, moveIn_stuck hq⟩)
  case write p =>
    obtain ⟨q, hq⟩ := transferAt_stuck h
    exact .inl ⟨rfl, moveOut_stuck hq⟩
  case identify p => exact identifyAt_stuck h
  case parseid p => exact parseidAt_stuck h
  case probe p => exact (probeCtrl_not_halt _ _ _ (Sub.into_fault h)).elim
  case discover p => exact discoverAt_stuck h
  case finishing r => cases h

/-! ### The run to the end -/

/-- Every step keeps every invariant. -/
theorem inv_step {s t : State} (h : Inv s) (hs : step s = .next t) : Inv t := by
  obtain ⟨hphase, hbuffer⟩ := (everyStepKeepsPositions s h.phase h.buffer).1 t hs
  exact {
    config := by rw [(configurationIsFixed s t hs).1]; exact h.config
    memory := everyStepKeepsMemoryForm s t h.memory hs
    status := everyStepKeepsStatusAndResults s t h.status hs
    phase := hphase
    buffer := hbuffer
    transfer := everyStepKeepsTransferProgress s t h.config h.status h.transfer hs
    drives := everyStepKeepsDriveCount s t h.drives hs
    events := everyStepMakesOnlyLegalEvents.1 s t h hs }

/-- A run from `s` reaches the end of the command, or the command is stuck. -/
def Ends (c : Instr) (s : State) : Prop :=
  (∃ m t, Host.Core.run core m s = .next t ∧ t.phase = .idle ∧ t.estat.done = true ∧ t.estat.busy = false) ∨
    ∃ m a, Host.Core.run core m s = .fault (.memoryRefused a) ∧ RefusesAccess c s a

theorem run_succ_of_step {M : Host.Core} {s u : M.State} (h : M.step s = .next u) (m : ℕ) :
    M.run (m + 1) s = M.run m u := by
  rw [Host.Core.run, h]

theorem run_one_of_fault {M : Host.Core} {s : M.State} {f : M.Fault} (h : M.step s = .fault f) :
    M.run 1 s = .fault f := by
  simp only [Host.Core.run, h]

theorem Ends.of_step {c : Instr} {s t : State} (h : step s = .next t) (ht : Ends c t) : Ends c s := by
  obtain ⟨m, u, hrun, hu⟩ | ⟨m, a, hrun, ha⟩ := ht
  · exact .inl ⟨m + 1, u, (run_succ_of_step (M := core) h m).trans hrun, hu⟩
  · exact .inr ⟨m + 1, a, (run_succ_of_step (M := core) h m).trans hrun, ha.congr (configurationIsFixed s t h).2⟩

theorem Ends.of_finishing {c : Instr} {r : Result} {s : State} (hp : s.phase = .finishing c r) (hi : s.inputs = []) :
    Ends c s :=
  .of_step ((step_quiet (by rw [hp]; rfl) hi).trans (exec_finishes hp)) (.inl ⟨0, _, rfl, rfl, rfl, rfl⟩)

/-- A running command ends, by induction on its rank: each of its steps is stuck, finishes it, or lowers the rank. -/
theorem running_ends {c : Instr} {s : State} (hinv : Inv s) (hc : s.phase.command = some c) (hi : s.inputs = []) :
    Ends c s := by
  induction hr : rank s using WellFoundedLT.induction generalizing s with
  | ind R ih =>
    subst hr
    by_cases hf : ∃ r, s.phase = .finishing c r
    · obtain ⟨r, hp⟩ := hf
      exact .of_finishing hp hi
    have hf : ∀ r, s.phase ≠ .finishing c r := fun r hp => hf ⟨r, hp⟩
    have hfit : FitsAt s.phase s := fitsAt_phase.2 ⟨hinv.phase, hinv.buffer⟩
    have hstep : step s = exec c s := step_quiet hc hi
    have hend := exec_endsFit c hfit
    cases he : exec c s with
    | next t =>
      have hpos : positionStep s = .next t := (exec_running hc).symm.trans he
      have hcommand := (positionStep_staysIn hc hf hpos).runs.command
      have hst := hstep.trans he
      exact .of_step hst (ih _ (positionStep_lowers hinv.transfer hc hf hpos) (inv_step hinv hst) hcommand
        ((exec_hostSide he).inputs.trans hi) rfl)
    | fault f =>
      obtain ⟨a, rfl⟩ := exec_fault_refused hfit he
      have hpos : positionStep s = .fault (.memoryRefused a) := (exec_running hc).symm.trans he
      have hrun : Host.Core.run core 1 s = .fault (.memoryRefused a) :=
        run_one_of_fault (M := core) (hstep.trans he)
      exact .inr ⟨1, a, hrun, positionStep_stuck hc hpos⟩
    | refused r =>
      rw [he] at hend
      exact hend.elim

theorem exists_command {ph : Phase} (h : ph ≠ .idle) : ∃ c, ph.command = some c := by
  cases ph with
  | idle => exact (h rfl).elim
  | _ => exact ⟨_, rfl⟩

/-- Settles O60, by induction on the rank of the running command: what is left of it weighs more than any budget a wait
may draw. -/
theorem everyCommandFinishes : Obligations.EveryCommandFinishes := by
  intro s hinv hp hi
  obtain ⟨c, hc⟩ := exists_command hp
  exact (running_ends hinv hc hi).imp_right fun ⟨m, a, hrun, ha⟩ => ⟨m, a, c, hrun, hc, ha⟩

end Sys2Proof.Machine
end
